-- ==== Sys2Proof/Word.lean ====
section
/-! DEFINITION. The word types of the CX8 and their plainest arithmetic. -/

namespace Sys2Proof

/-- One byte of any memory (R20, R54). -/
abbrev Byte := BitVec 8
/-- A 32-bit word: a slot word, a vector lane, an address register (R20, R68, R92). -/
abbrev Word32 := BitVec 32
/-- A 64-bit word: a scalar register, an engine command word (R33, R68). -/
abbrev Word64 := BitVec 64
/-- The lanes of one vector register, lane 0 first, 64 of them (R92). -/
abbrev Vec := List (BitVec 32)

/-- A file of like things by number, in one canonical form: the numbers strictly rising, and no entry equal to what an
unlisted number reads as. Machine/Sparse.lean holds its operations. -/
abbrev Sparse (α : Type) := List (Nat × α)

/-- The exact value of a floating-point encoding, and of any exact intermediate result (R47, R57): a NaN (signalling or
quiet), an infinity, a signed zero, or ±m × 2^e with m nonzero. -/
inductive Val where
  | nan (sig : Bool) | inf (neg : Bool) | zero (neg : Bool) | fin (neg : Bool) (m : Nat) (e : Int)
  deriving DecidableEq, Repr

/-- The two copy engines and the matrix engine (R12, R13, R242). -/
inductive Engine where
  | matrix | copy0 | copy1
  deriving DecidableEq, Repr

/-- The parties that hold tokens of a line (R226): a compute die, the line's home base die, the control die's
host agent, the control die's watch table. -/
inductive Holder where
  | die (n : Nat) | home | ctl | watch
  deriving DecidableEq, Repr

end Sys2Proof
end

