-- ==== Sys2Proof/Config.lean ====
section
/-! DEFINITION. What an implementation fixes and the spec leaves to it, and the free values. A free value is a constant
with no body: nothing can be proved of it, and a statement about it holds whatever it is. -/

namespace Sys2Proof.Config

/-- Which of the enabled agents moves next when more than one may and the agenda is empty (R10, R13: the rules give no
order); drawn at a plain counter of the state, taken modulo the number of choices. -/
opaque pick : Nat → Nat
/-- A free bit: which of two allowed values a racing read returns (R114, R201). -/
opaque freeBit : Nat → Nat → Bool
/-- A free 64-bit value, at a counter: a value the spec leaves open. -/
opaque freeWord : Nat → BitVec 64
/-- Whether the auditor selects a retired gang, with the exponent k of its partition (R365: probability 1/2^k). -/
opaque auditSelect : Nat → Nat → Bool
/-- Whether a unit's test after an uncorrected error fails (R363), at a counter. -/
opaque testFails : Nat → Bool
/-- AES-256-XTS of a partition's key (R297, R373): the permutation of the 16-byte blocks at an address that encrypts, as exchanges of two
blocks, one after the other. -/
opaque xts (key addr : Nat) : List (BitVec 128 × BitVec 128)
/-- The mask of a ferry image's byte where the spec leaves a section's inner layout open (R346), by its offset: one for every module of
the generation. -/
opaque imageMask : Nat → BitVec 8
/-- The signature that the SPDM responder makes with the PUF-derived P-384 key (R379), of a CHALLENGE or a GET_MEASUREMENTS of a version and
of the stored measurements. -/
opaque spdmSign : Nat → Bool → List (BitVec 64) → BitVec 64
/-- The identity key that the Capstan ROM derives from the PUF at boot (R379). -/
opaque pufKey : BitVec 64
/-- Whether a partition's signed configuration record requires signed images (R411). -/
opaque signedImages : Nat → Bool
/-- Whether both signatures of the image at a VA verify against a listed key (R411). -/
opaque signatureOk : Nat → Nat → Bool
/-- How many entries a queue's overflow region in HBM holds (R283). -/
opaque overflowCap : Nat
/-- How many spare rows an HBM stack has (R364). -/
opaque spareRows : Nat
/-- Whether the errors counted for a unit all fall in the sliding window (R363: 24 hours, or as the signed record says), at a
counter: wall time is not modelled. -/
opaque inWindow : Nat → Bool

end Sys2Proof.Config
end

