-- ==== Sys2Proof/Machine/Num.lean ====
section
/-! DEFINITION. The number formats and arithmetic rules of chapter 03 (R47 to R67): exact values, Round, Sat, ExactSum,
the stochastic draw, the E8M0 scales, and the exact operations that instructions round. -/

namespace Sys2Proof

/-! ### Formats (R47, R51) -/

/-- A floating-point format: exponent bits, fraction bits, bias, whether it has an infinity, a NaN, and (E4M3) whether
the top exponent holds numbers too. -/
structure FpFmt where
  e : Nat
  m : Nat
  bias : Nat
  hasInf : Bool
  hasNaN : Bool
  topNormal : Bool
  deriving DecidableEq, Repr

/-- An element format: floating point, an integer, or the E8M0 scale byte. -/
inductive Fmt where
  | fp (f : FpFmt) | int (signed : Bool) (bits : Nat) | e8m0
  deriving DecidableEq, Repr

def fp32 : FpFmt := ⟨8, 23, 127, true, true, false⟩
def bf16 : FpFmt := ⟨8, 7, 127, true, true, false⟩
def fp16 : FpFmt := ⟨5, 10, 15, true, true, false⟩
def e4m3 : FpFmt := ⟨4, 3, 7, false, true, true⟩
def e5m2 : FpFmt := ⟨5, 2, 15, true, true, false⟩
def e3m2 : FpFmt := ⟨3, 2, 3, false, false, true⟩
def e2m3 : FpFmt := ⟨2, 3, 1, false, false, true⟩
def e2m1 : FpFmt := ⟨2, 1, 1, false, false, true⟩

/-- The element codes of R53. -/
def fmtOf (c : Nat) : Fmt :=
  match c with
  | 0 => .fp fp32 | 1 => .fp bf16 | 2 => .fp fp16 | 3 => .fp e4m3 | 4 => .fp e5m2 | 5 => .fp e3m2 | 6 => .fp e2m3
  | 7 => .fp e2m1 | 8 => .int true 32 | 9 => .int true 16 | 10 => .int true 8 | 11 => .int true 4
  | 12 => .int false 32 | 13 => .int false 16 | 14 => .int false 8 | _ => .e8m0

/-- The 3-bit V type field as an element code (R32, R53). -/
def vTypeCode (t : Nat) : Nat := match t with | 5 => 8 | 6 => 9 | 7 => 10 | k => k

/-- Bits of an encoding. -/
def Fmt.bits : Fmt → Nat
  | .fp f => 1 + f.e + f.m | .int _ n => n | .e8m0 => 8

/-- Number of significant bits of a magnitude. -/
def bitLen (n : Nat) : Nat := if n = 0 then 0 else n.log2 + 1

/-- Smallest exponent of a normal number. -/
def FpFmt.emin (f : FpFmt) : Int := 1 - (f.bias : Int)
/-- Exponent of the largest finite value, EmaxOf of R65. -/
def FpFmt.emax (f : FpFmt) : Int := (if f.topNormal then 2 ^ f.e - 1 else 2 ^ f.e - 2 : Nat) - (f.bias : Int)
/-- The fraction of the largest finite value: all ones, but for E4M3 whose last encoding is its NaN (R47). -/
def FpFmt.maxFrac (f : FpFmt) : Nat := if f.topNormal && f.hasNaN then 2 ^ f.m - 2 else 2 ^ f.m - 1
/-- MaxOf as an encoding without its sign. -/
def FpFmt.maxEnc (f : FpFmt) : Nat := (if f.topNormal then 2 ^ f.e - 1 else 2 ^ f.e - 2) * 2 ^ f.m + f.maxFrac
/-- MaxOf as significand and exponent. -/
def FpFmt.maxSig (f : FpFmt) : Nat × Int := (2 ^ f.m + f.maxFrac, f.emax - f.m)
/-- The sign bit of an encoding. -/
def FpFmt.signBit (f : FpFmt) (neg : Bool) : Nat := if neg then 2 ^ (f.e + f.m) else 0
/-- The default NaN (R49). -/
def FpFmt.defaultNaN (f : FpFmt) : Nat :=
  if f.topNormal then (2 ^ f.e - 1) * 2 ^ f.m + (2 ^ f.m - 1)
  else (2 ^ f.e - 1) * 2 ^ f.m + 2 ^ (f.m - 1)
/-- The encoding of +∞ (formats that have one). -/
def FpFmt.infEnc (f : FpFmt) : Nat := (2 ^ f.e - 1) * 2 ^ f.m

/-- The exact value of a floating-point encoding (R47, R49). -/
def FpFmt.val (f : FpFmt) (x : Nat) : Val :=
  let s := x / 2 ^ (f.e + f.m) % 2 == 1
  let e := x / 2 ^ f.m % 2 ^ f.e
  let m := x % 2 ^ f.m
  if e = 0 then (if m = 0 then .zero s else .fin s m (f.emin - f.m))
  else if e = 2 ^ f.e - 1 && !f.topNormal then
    if m = 0 then .inf s else .nan (f.m != 2 && decide (m < 2 ^ (f.m - 1)))
  else if e = 2 ^ f.e - 1 && f.hasNaN && m = 2 ^ f.m - 1 then .nan false
  else .fin s (2 ^ f.m + m) ((e : Int) - f.bias - f.m)

/-- The value of an integer. -/
def Val.ofInt (i : Int) : Val := if i = 0 then .zero false else .fin (decide (i < 0)) i.natAbs 0

/-- Two's complement or unsigned reading of the low `n` bits (R51). -/
def intOf (signed : Bool) (n x : Nat) : Int :=
  let y := x % 2 ^ n
  if signed && decide (2 ^ (n - 1) ≤ y) then (y : Int) - 2 ^ n else y
/-- The low `n` bits of an integer. -/
def natOf (n : Nat) (i : Int) : Nat := (i % (2 ^ n : Nat)).toNat
/-- MinOf and MaxOf of an integer format. -/
def intMin (signed : Bool) (n : Nat) : Int := if signed then -(2 ^ (n - 1) : Nat) else 0
def intMax (signed : Bool) (n : Nat) : Int := if signed then (2 ^ (n - 1) : Nat) - 1 else (2 ^ n : Nat) - 1
/-- Sat of an integer format (R58). -/
def satInt (signed : Bool) (n : Nat) (i : Int) : Int :=
  if i < intMin signed n then intMin signed n else if intMax signed n < i then intMax signed n else i

/-- The value of an element's encoding (R62); an E8M0 byte by R52. -/
def Fmt.val : Fmt → Nat → Val
  | .fp f, x => f.val x
  | .int s n, x => Val.ofInt (intOf s n x)
  | .e8m0, x => if x % 256 = 255 then .nan false else .fin false 1 ((x % 256 : Nat) - 127)

/-! ### Exact operations -/

def Val.neg : Val → Val
  | .nan s => .nan s | .inf n => .inf !n | .zero n => .zero !n | .fin n m e => .fin (!n) m e
def Val.isNeg : Val → Bool
  | .nan _ => false | .inf n => n | .zero n => n | .fin n _ _ => n
def Val.isNaN : Val → Bool | .nan _ => true | _ => false
def Val.isSig : Val → Bool | .nan s => s | _ => false
def Val.isInf : Val → Bool | .inf _ => true | _ => false
def Val.isZero : Val → Bool | .zero _ => true | _ => false
def Val.abs : Val → Val
  | .nan s => .nan s | .inf _ => .inf false | .zero _ => .zero false | .fin _ m e => .fin false m e

/-- A finite value as an integer multiple of 2^e, for an e no greater than its own exponent. -/
def Val.at (v : Val) (e : Int) : Int :=
  match v with
  | .fin n m x => let k : Int := (m * 2 ^ (x - e).toNat : Nat); if n then -k else k
  | _ => 0
/-- The exponent of a finite value, none for zeros. -/
def Val.exp? : Val → Option Int | .fin _ _ e => some e | _ => none
/-- The real number k × 2^e; `z` is the sign of an exact zero. -/
def Val.mk (k e : Int) (z : Bool := false) : Val := if k = 0 then .zero z else .fin (decide (k < 0)) k.natAbs e
/-- The least exponent of a list of values. -/
def minExp : List Val → Option Int
  | [] => none
  | v :: r => match v.exp?, minExp r with
    | none, o => o | some e, none => some e | some e, some f => some (if e < f then e else f)
/-- The real sum at exponent e. -/
def sumAt (e : Int) : List Val → Int
  | [] => 0
  | v :: r => v.at e + sumAt e r

/-- Order of the real numbers, infinities included (NaNs are excluded by the callers; zeros are equal). -/
def Val.lt (a b : Val) : Bool :=
  match a, b with
  | .inf na, .inf nb => na && !nb
  | .inf na, _ => na
  | _, .inf nb => !nb
  | a, b => match minExp [a, b] with
    | none => false
    | some e => decide (a.at e < b.at e)
/-- Equality of the real numbers. -/
def Val.eqv (a b : Val) : Bool := !a.isNaN && !b.isNaN && !(a.lt b) && !(b.lt a)

/-- Flag bits in FLAGS order (R96): invalid, divide-by-zero, overflow, underflow, inexact. -/
abbrev Fl := BitVec 5
def flInvalid : Fl := 16
def flDivZero : Fl := 8
def flOverflow : Fl := 4
def flUnderflow : Fl := 2
def flInexact : Fl := 1

/-- Rounding modes (R55): the code, and the draw that .sr uses. -/
structure RMode where
  code : Nat
  draw : Nat := 0
  deriving DecidableEq, Repr
def rne : RMode := ⟨0, 0⟩

/-- ExactSum (R64): the sum and whether it raises invalid. -/
def exactSum (l : List Val) (rdn : Bool) : Val × Fl :=
  if l.any Val.isNaN then (.nan false, 0)
  else
    let p := l.any fun v => v == .inf false
    let n := l.any fun v => v == .inf true
    if p && n then (.nan false, flInvalid)
    else if p then (.inf false, 0)
    else if n then (.inf true, 0)
    else
      let e := (minExp l).getD 0
      let s := sumAt e l
      if s = 0 then
        if !l.isEmpty && l.all (fun v => v == .zero true) then (.zero true, 0)
        else if rdn && l.any (fun v => v != .zero false) then (.zero true, 0)
        else (.zero false, 0)
      else (Val.mk s e, 0)

/-- The exact product, with the invalid flag of 0 × ∞. -/
def Val.mul (a b : Val) : Val × Fl :=
  let n := a.isNeg != b.isNeg
  match a, b with
  | .nan _, _ => (.nan false, 0)
  | _, .nan _ => (.nan false, 0)
  | .inf _, .zero _ => (.nan false, flInvalid)
  | .zero _, .inf _ => (.nan false, flInvalid)
  | .inf _, _ => (.inf n, 0)
  | _, .inf _ => (.inf n, 0)
  | .zero _, _ => (.zero n, 0)
  | _, .zero _ => (.zero n, 0)
  | .fin _ ma ea, .fin _ mb eb => (.fin n (ma * mb) (ea + eb), 0)

/-- A value scaled by 2^k. -/
def Val.scale (v : Val) (k : Int) : Val := match v with | .fin n m e => .fin n m (e + k) | w => w

/-- The quotient of two positive integers × 2^e: 160 bits and a sticky bit, which no rounding of this chapter tells from
the exact quotient (the coarsest, .sr, reads 32 bits below the grid). -/
def quotVal (neg : Bool) (a b : Nat) (e : Int) : Val :=
  let k := 160 + bitLen b
  let q := a * 2 ^ k / b
  let r := a * 2 ^ k % b
  .fin neg (2 * q + (if r = 0 then 0 else 1)) (e - k - 1)

/-- The quotient with IEEE's special cases: invalid for 0/0 and ∞/∞, divide-by-zero for finite/0 (R102). -/
def Val.div (a b : Val) : Val × Fl :=
  let n := a.isNeg != b.isNeg
  match a, b with
  | .nan _, _ => (.nan false, 0)
  | _, .nan _ => (.nan false, 0)
  | .inf _, .inf _ => (.nan false, flInvalid)
  | .zero _, .zero _ => (.nan false, flInvalid)
  | .inf _, _ => (.inf n, 0)
  | _, .inf _ => (.zero n, 0)
  | _, .zero _ => (.inf n, flDivZero)
  | .zero _, _ => (.zero n, 0)
  | .fin _ ma ea, .fin _ mb eb => (quotVal n ma mb (ea - eb), 0)

/-- Integer square root by bits from `2^k` down. -/
def isqrtGo : Nat → Nat → Nat → Nat
  | 0, n, r => if (r + 1) * (r + 1) ≤ n then r + 1 else r
  | k + 1, n, r => let t := r + 2 ^ (k + 1); isqrtGo k n (if t * t ≤ n then t else r)
def isqrt (n : Nat) : Nat := isqrtGo (bitLen n / 2 + 1) n 0

/-- √x with IEEE's special cases (R102), to at least 128 bits and a sticky bit. -/
def Val.sqrt (a : Val) : Val × Fl :=
  match a with
  | .nan _ => (.nan false, 0)
  | .zero n => (.zero n, 0)
  | .inf false => (.inf false, 0)
  | .inf true => (.nan false, flInvalid)
  | .fin true _ _ => (.nan false, flInvalid)
  | .fin false m e =>
    let k : Nat := 320 + (e % 2).toNat
    let n := m * 2 ^ k
    let r := isqrt n
    (.fin false (2 * r + (if r * r = n then 0 else 1)) ((e - k) / 2 - 1), 0)

/-! ### Round and Sat (R57 to R59) -/

/-- Whether the neighbour away from zero is taken: `lo` the integer part of the magnitude on the grid, `rem / 2^sh` the
rest, not zero. -/
def roundUp (mode : RMode) (neg : Bool) (lo rem sh : Nat) : Bool :=
  match mode.code with
  | 0 => decide (2 ^ sh < 2 * rem) || (decide (2 * rem = 2 ^ sh) && lo % 2 == 1)
  | 1 => false
  | 2 => neg
  | 3 => !neg
  | _ => decide (mode.draw < rem * 2 ^ 32 / 2 ^ sh)

/-- m × 2^e rounded to a multiple of 2^q: the multiple, and whether it differs. -/
def roundAt (mode : RMode) (neg : Bool) (m : Nat) (e q : Int) : Nat × Bool :=
  if q ≤ e then (m * 2 ^ (e - q).toNat, false)
  else
    let sh := (q - e).toNat
    let lo := m / 2 ^ sh
    let rem := m % 2 ^ sh
    if rem = 0 then (lo, false) else (if roundUp mode neg lo rem sh then lo + 1 else lo, true)

/-- RoundToInteger. -/
def Val.roundInt (v : Val) (mode : RMode) : Int × Bool :=
  match v with
  | .fin n m e => let r := roundAt mode n m e 0; (if n then -(r.1 : Int) else r.1, r.2)
  | _ => (0, false)

/-- Exponent of the most significant bit of m × 2^e. -/
def topExp (m : Nat) (e : Int) : Int := e + (bitLen m : Int) - 1

/-- The encoding of k × 2^q, which lies on the grid and does not exceed MaxOf. -/
def FpFmt.encode (f : FpFmt) (neg : Bool) (k : Nat) (q : Int) : Nat :=
  f.signBit neg +
    (if k = 0 then 0
     else
       let t := topExp k q
       if t < f.emin then k * 2 ^ (q - (f.emin - f.m)).toNat
       else
         let g := t - f.m
         let sig := if g ≤ q then k * 2 ^ (q - g).toNat else k / 2 ^ (g - q).toNat
         (t + f.bias).toNat * 2 ^ f.m + (sig - 2 ^ f.m))

/-- Whether k × 2^q exceeds MaxOf. -/
def FpFmt.over (f : FpFmt) (k : Nat) (q : Int) : Bool :=
  let mx := f.maxSig
  (Val.fin false mx.1 mx.2).lt (Val.mk k q)

/-- Round to a floating-point format. -/
def FpFmt.round (f : FpFmt) (v : Val) (mode : RMode) : Nat × Fl :=
  match v with
  | .nan sig =>
    let fl := if sig then flInvalid else 0
    if f.hasNaN then (f.defaultNaN, fl) else (0, flInvalid)
  | .inf n =>
    if f.hasInf then (f.signBit n + f.infEnc, 0)
    else if f.hasNaN then (f.defaultNaN, flInvalid)
    else (f.signBit n + f.maxEnc, flInvalid)
  | .zero n => (f.signBit n, 0)
  | .fin n m e =>
    let t := topExp m e
    let lo := f.emin - f.m
    let q := if t - f.m < lo then lo else t - f.m
    let r := roundAt mode n m e q
    if f.over r.1 q then
      let fl := flOverflow ||| flInexact
      if mode.code == 4 || !(f.hasInf || f.hasNaN) then (f.signBit n + f.maxEnc, fl)
      else if !f.hasInf then (f.defaultNaN, fl)
      else if mode.code == 1 || (mode.code == 2 && !n) || (mode.code == 3 && n) then (f.signBit n + f.maxEnc, fl)
      else (f.signBit n + f.infEnc, fl)
    else
      (f.encode n r.1 q, if r.2 then (if t < f.emin then flInexact ||| flUnderflow else flInexact) else 0)

/-- Round to an integer format. -/
def roundToInt (signed : Bool) (n : Nat) (v : Val) (mode : RMode) : Nat × Fl :=
  match v with
  | .nan _ => (0, flInvalid)
  | .inf neg => (natOf n (if neg then intMin signed n else intMax signed n), flInvalid)
  | v =>
    let r := v.roundInt mode
    if r.1 < intMin signed n || intMax signed n < r.1 then (natOf n (satInt signed n r.1), flInvalid)
    else (natOf n r.1, if r.2 then flInexact else 0)

/-- Round (R57). A scale byte is never a target of Round; it answers 0. -/
def Fmt.round (f : Fmt) (v : Val) (mode : RMode) : Nat × Fl :=
  match f with
  | .fp g => g.round v mode
  | .int s n => roundToInt s n v mode
  | .e8m0 => (0, 0)

/-- Sat (R58). -/
def Fmt.sat (f : Fmt) (v : Val) : Val :=
  match f with
  | .fp g =>
    match v with
    | .nan s => .nan s
    | .inf n => .fin n g.maxSig.1 g.maxSig.2
    | .zero n => .zero n
    | .fin n m e => if g.over m e then .fin n g.maxSig.1 g.maxSig.2 else .fin n m e
  | .int s n =>
    match v with
    | .nan q => .nan q
    | .inf neg => Val.ofInt (if neg then intMin s n else intMax s n)
    | v =>
      if v.lt (Val.ofInt (intMin s n)) then Val.ofInt (intMin s n)
      else if (Val.ofInt (intMax s n)).lt v then Val.ofInt (intMax s n) else v
  | .e8m0 => v

/-- Round, or Round of Sat with .sat. -/
def Fmt.deliver (f : Fmt) (sat : Bool) (v : Val) (mode : RMode) : Nat × Fl :=
  f.round (if sat then f.sat v else v) mode

/-- A conversion (R62): integers among themselves follow R51 (widening by their sign, narrowing to the low bits or by
Sat); every other pair rounds. -/
def convert (src dst : Fmt) (sat : Bool) (x : Nat) (mode : RMode) : Nat × Fl :=
  match src, dst with
  | .int s n, .int t k => (natOf k (if sat then satInt t k (intOf s n x) else intOf s n x), 0)
  | _, _ => dst.deliver sat (src.val x) mode

/-! ### Stochastic rounding (R59) -/

/-- SrDraw. -/
def srDraw (seed : BitVec 64) (grp lane ctr : Nat) : Nat :=
  let g : BitVec 64 := BitVec.ofNat 64 (grp % 2 ^ 24)
  let z := (((g <<< 40) ^^^ ((BitVec.ofNat 64 lane) <<< 32)) ^^^ BitVec.ofNat 64 (ctr % 2 ^ 32)) + 1
  let z := seed + z * 0x9E3779B97F4A7C15
  let z := (z ^^^ (z >>> 30)) * 0xBF58476D1CE4E5B9
  let z := (z ^^^ (z >>> 27)) * 0x94D049BB133111EB
  let z := z ^^^ (z >>> 31)
  z.toNat % 2 ^ 32

/-! ### CRC-64 (R345): reflected ECMA-182 -/

def crcBits : Nat → BitVec 64 → BitVec 64
  | 0, c => c
  | n + 1, c => crcBits n (if c.getLsbD 0 then (c >>> 1) ^^^ 0xC96C5795D7870F42 else c >>> 1)
/-- The CRC register after one more byte. -/
def crcByte (c : BitVec 64) (b : BitVec 8) : BitVec 64 := crcBits 8 (c ^^^ b.zeroExtend 64)
/-- The CRC register after bytes. -/
def crcBytes (c : BitVec 64) (bs : List (BitVec 8)) : BitVec 64 := bs.foldl crcByte c
/-- The CRC of bytes, with its initial value and final XOR of all ones. -/
def crc64 (bs : List (BitVec 8)) : BitVec 64 := ~~~(crcBytes (BitVec.allOnes 64) bs)

/-! ### Scales (R52, R65) -/

/-- MakeScale: the scale byte of a block whose largest magnitude is `amax`. -/
def makeScale (amax : Val) (emax : Int) : Nat :=
  match amax with
  | .nan _ => 255
  | .inf _ => 255
  | .zero _ => 0
  | .fin _ m e =>
    let x := topExp m e - emax + 127
    if x < 0 then 0 else if 254 < x then 254 else x.toNat

/-- One element of a block with scale byte X, as MakeScale's rule stores it: no flags. -/
def scaledElem (f : FpFmt) (x : Nat) (v : Val) (mode : RMode) : Nat :=
  if x = 255 then (if f.hasNaN then f.defaultNaN else 0)
  else ((Fmt.fp f).deliver true (v.scale (127 - (x : Int))) mode).1

/-! ### Estimates (R104) -/

/-- 2^k / c rounded to an integer, ties to even. -/
def divRne (a b : Nat) : Nat :=
  let q := a / b
  let r := a % b
  if b < 2 * r || (2 * r = b && q % 2 = 1) then q + 1 else q

/-- The estimate of VRCP for m × 2^e: c = (512 + 2 j + 1)/512 in [1, 2), g = 1/c in (1/2, 1) to 12 significant bits, a
multiple of 2^-12. -/
def rcpEst (neg : Bool) (m : Nat) (e : Int) : Val :=
  let l := bitLen m
  let j := (m * 256 / 2 ^ (l - 1)) - 256
  let c := 512 + 2 * j + 1
  .fin neg (divRne (2 ^ 12 * 512) c) (-(e + (l : Int) - 1) - 12)

/-- g = 1/√(c/128) to 12 significant bits, ties to even: in (1/2, 1), so the multiple k of 2^-12 nearest to it;
k × 2^-12 against √(128/c) compares k² × c with 2^24 × 128, and the midpoint (2k + 1)/2^13 likewise. -/
def rsqSig (c : Nat) : Nat :=
  let k := isqrt (2 ^ 24 * 128 / c)
  let l := (2 * k + 1) * (2 * k + 1) * c
  let r := 2 ^ 26 * 128
  if l < r || (l = r && k % 2 = 1) then k + 1 else k

/-- The estimate of VRSQ for m × 2^e: c = (128 + 2 j + 1)/128 in [1, 4). -/
def rsqEst (m : Nat) (e : Int) : Val :=
  let l := bitLen m
  let x := e + (l : Int) - 1
  let odd := x % 2 = 1
  let e' := if odd then x - 1 else x
  let j := m * (if odd then 128 else 64) / 2 ^ (l - 1) - 64
  let c := 128 + 2 * j + 1
  .fin false (rsqSig c) (-(e' / 2) - 12)

end Sys2Proof
end

