-- ==== Sys2Proof/Machine/Sparse.lean ====
section
/-! DEFINITION. Files of like things by number, in canonical form: reading, writing, and the form itself. An unlisted
number reads as the default `d`, and writing the default removes the entry. -/

namespace Sys2Proof.Machine

/-- What number `k` reads as. -/
def sget {α : Type} (d : α) : Sparse α → Nat → α
  | [], _ => d
  | (n, v) :: r, k => if n = k then v else sget d r k

/-- Write `v` at number `k`. -/
def sset {α : Type} [DecidableEq α] (d : α) : Sparse α → Nat → α → Sparse α
  | [], k, v => if v = d then [] else [(k, v)]
  | (n, u) :: r, k, v =>
    if n = k then (if v = d then sset d r k v else (k, v) :: r)
    else if k < n ∧ v ≠ d then (k, v) :: (n, u) :: r
    else (n, u) :: sset d r k v

/-- The canonical form: numbers strictly rising, each above `lo` where one is given, and no default listed. -/
def swf {α : Type} [DecidableEq α] (d : α) : Option Nat → Sparse α → Bool
  | _, [] => true
  | lo, (n, v) :: r => (match lo with | none => true | some l => decide (l < n)) && !(decide (v = d)) && swf d (some n) r

/-- The first `n` values from number `k` on. -/
def sgetN {α : Type} (d : α) (m : Sparse α) (k : Nat) : Nat → List α
  | 0 => []
  | n + 1 => sget d m k :: sgetN d m (k + 1) n

/-- Write values from number `k` on. -/
def ssetN {α : Type} [DecidableEq α] (d : α) (m : Sparse α) (k : Nat) : List α → Sparse α
  | [] => m
  | v :: vs => ssetN d (sset d m k v) (k + 1) vs

/-- Reset the `n` numbers from `k` on to the default. -/
def sclear {α : Type} (m : Sparse α) (k n : Nat) : Sparse α :=
  m.filter fun e => !(decide (k ≤ e.1) && decide (e.1 < k + n))

/-- Keep the entries that satisfy a test. -/
def sfilter {α : Type} (p : Nat → α → Bool) (m : Sparse α) : Sparse α := m.filter fun e => p e.1 e.2

/-- Change every entry, keeping the canonical form. -/
def smap {α : Type} [DecidableEq α] (d : α) (f : Nat → α → α) (m : Sparse α) : Sparse α :=
  m.foldr (fun e r => let v := f e.1 e.2; if v = d then r else (e.1, v) :: r) []

end Sys2Proof.Machine
end

