-- ==== Sys2Proof/Syntax.lean ====
section
/-! DEFINITION. The syntax of the machine: the operand forms of the slot words, the data that an event of the
operation table names, and Instr, one constructor per row of spec/opcode_table.json. -/

namespace Sys2Proof

/-! ### Operand forms of the S slot (R29)

Every form starts with the guard `p` ([23:20]); `x` is the extension bit [24] and `ext` the extension word (0 when
`x` is 0). -/

/-- Format R: SD, SA, SB, FN. -/
structure RForm where
  p : BitVec 4
  d : BitVec 6
  a : BitVec 6
  b : BitVec 6
  f : BitVec 2
  deriving DecidableEq, Repr

/-- Format I: SD, SA, IMM8, or IMM32 in the extension word. -/
structure IForm where
  p : BitVec 4
  d : BitVec 6
  a : BitVec 6
  x : BitVec 1
  i : BitVec 8
  ext : BitVec 32
  deriving DecidableEq, Repr

/-- Format P of CMP and CMPI: PD, COND, SA, SB or IMM6, or IMM32 in the extension word. -/
structure PForm where
  p : BitVec 4
  d : BitVec 4
  c : BitVec 4
  a : BitVec 6
  x : BitVec 1
  i : BitVec 6
  ext : BitVec 32
  deriving DecidableEq, Repr

/-- Format P of PLOG (R80): PD, NA, PA, NB, PB. -/
structure PLogForm where
  p : BitVec 4
  d : BitVec 4
  na : BitVec 1
  a : BitVec 4
  nb : BitVec 1
  b : BitVec 4
  deriving DecidableEq, Repr

/-- Format B: NEG, BT, DISP16, or DISP32 in the extension word; for PREPR, [15:10] names a scalar register. -/
structure BForm where
  p : BitVec 4
  n : BitVec 1
  t : BitVec 3
  x : BitVec 1
  i : BitVec 16
  ext : BitVec 32
  deriving DecidableEq, Repr

/-- Format M: SD, SA, SIZE, N, SCOPE, ORD and the displacement. -/
structure MForm where
  p : BitVec 4
  d : BitVec 6
  a : BitVec 6
  s : BitVec 2
  n : BitVec 1
  c : BitVec 3
  o : BitVec 2
  x : BitVec 1
  ext : BitVec 32
  deriving DecidableEq, Repr

/-- Format R or Y with a required extension word (SEL R77, LOOP R84, AMOS R183, AMO R204, FPUB R331, FWAIT R333,
AMAXRD R340): SD, SA, SB, FN and the extension word. -/
structure XForm where
  p : BitVec 4
  d : BitVec 6
  a : BitVec 6
  b : BitVec 6
  f : BitVec 2
  ext : BitVec 32
  deriving DecidableEq, Repr

/-! ### Operand forms of the V slots (R32) -/

/-- Register form of a V word, with the slot it stands in: 0 is V0 (cluster A), 1 is V1 (cluster B). -/
structure VForm where
  v : BitVec 1
  t : BitVec 3
  d : BitVec 6
  a : BitVec 6
  b : BitVec 6
  m : BitVec 3
  u : BitVec 1
  deriving DecidableEq, Repr

/-- Memory form of a V word. -/
structure VMem where
  v : BitVec 1
  t : BitVec 3
  d : BitVec 6
  r : BitVec 5
  o : BitVec 7
  m : BitVec 3
  i : BitVec 1
  deriving DecidableEq, Repr

/-! ### Operand forms of the M and C slots -/

/-- The word of MMA, MMAR and MMAD (R130). -/
structure MmaForm where
  p : BitVec 4
  da : BitVec 5
  db : BitVec 5
  acc : BitVec 2
  zero : BitVec 1
  west : BitVec 1
  mxa : BitVec 1
  mxb : BitVec 1
  blka : BitVec 2
  blkb : BitVec 2
  dsa : BitVec 5
  dsb : BitVec 5
  chm : BitVec 2
  chf : BitVec 6
  chp : BitVec 4
  bm : BitVec 2
  tap : BitVec 2
  deriving DecidableEq, Repr

/-- The word of MCLR (R137). -/
structure MclrForm where
  p : BitVec 4
  amask : BitVec 4
  deriving DecidableEq, Repr

/-- The word of MDRAIN (R138). -/
structure MdrainForm where
  p : BitVec 4
  acc : BitVec 2
  dst : BitVec 1
  lay : BitVec 3
  ot : BitVec 4
  rm : BitVec 3
  sat : BitVec 1
  fen : BitVec 1
  fc : BitVec 6
  aen : BitVec 1
  amx : BitVec 3
  aclr : BitVec 1
  blk : BitVec 2
  dd : BitVec 5
  ds : BitVec 5
  cl : BitVec 1
  vbase : BitVec 10
  deriving DecidableEq, Repr

/-- The word of MSET (R143): `n` is n - 1 of MSET rbound, FC and DT of MSET tap. -/
structure MsetForm where
  p : BitVec 4
  n : BitVec 16
  fc : BitVec 6
  dt : BitVec 5
  deriving DecidableEq, Repr

/-- The word that CPY to CREM share (R246), with the copy engine it goes to (R44). -/
structure CForm where
  e : BitVec 1
  p : BitVec 4
  dd : BitVec 5
  ds : BitVec 5
  walk : BitVec 10
  fen : BitVec 1
  fc : BitVec 6
  wait : BitVec 2
  warg : BitVec 20
  xo : BitVec 4
  deriving DecidableEq, Repr

/-- The word of CSTOP (R259). -/
structure CstopForm where
  e : BitVec 1
  p : BitVec 4
  kind : BitVec 2
  fc : BitVec 6
  deriving DecidableEq, Repr

/-! ### What the events name -/

/-- A party that waits at a chase (R327): the core's bundle or an engine's command. -/
inductive Waiter where
  | core | engine (e : Engine)
  deriving DecidableEq, Repr

/-- One multicast delivery on its way (R256): the receiving group by index, the SVA of the first byte, the bytes with the bits of
each that are delivered, which of the bytes are poisoned, bit i for byte i, and the receiver's barrier. -/
structure Delivery where
  group : Nat
  sva : Nat
  bytes : List (BitVec 8)
  mask : List (BitVec 8)
  bad : Nat
  bar : Option Nat
  deriving DecidableEq, Repr

/-- Where a delivery comes from: the flight list of this core's own MCAST, or another group's MCAST into this core. -/
inductive DeliverySrc where
  | own (i : Nat) | incoming (d : Delivery)
  deriving DecidableEq, Repr

/-- An element that arrives over the Kretan link (R376): the port, the peer module, the VA and the bit of that byte at which it begins,
the element code of R53, its raw encoding, its poison mark and, for a reduction, the operation code of CRED. -/
structure KretanElem where
  port : Nat
  peer : Nat
  va : Nat
  bit : Nat
  etype : BitVec 4
  data : BitVec 32
  poison : Bool
  red : Option (BitVec 2)
  deriving DecidableEq, Repr

/-- A management command block as the host writes it to a slot (R341). -/
structure Mgmt where
  slot : Nat
  w0 : BitVec 64
  node : BitVec 64
  arg : BitVec 64
  arg2 : BitVec 64
  deriving DecidableEq, Repr

/-- A PCI Express atomic of the host (R369). -/
inductive HostOp where
  | fetchAdd | swap | cas
  deriving DecidableEq, Repr

/-- What a check reads, in a scrub pass or in an access of its own (R354): a 64-byte sector of HBM at a machine address, the sector that
holds an IA in an L2 slice, an 8-byte word of a core's scratchpad by physical address / 8, the 8-byte word at an IA in a core's L1, the
line of an IA in its constant or instruction cache, a lane of one of its 1,536 physical vector registers (cluster B from 768 on), a row of one
of its accumulators. -/
inductive ScrubAt where
  | hbm (pa : Nat) | l2 (die slice ia : Nat) | spad (core word : Nat) | l1 (core ia : Nat) | cc (core ia : Nat) | ic (core ia : Nat)
  | vreg (core reg lane : Nat) | acc (core a row : Nat)
  deriving DecidableEq, Repr

/-- What a check finds (R354). -/
inductive ScrubFind where
  | clean | corrected (syndrome : BitVec 64) | uncorrected (syndrome : BitVec 64)
  deriving DecidableEq, Repr

/-- What the signed configuration record sets of what is modelled (R363, R376): the module's number, and the threshold of corrected
errors. -/
structure ConfRecord where
  module : Nat := 0
  threshold : Nat := 16
  deriving DecidableEq, Repr

/-- An SPDM request (R379): its version, 0x12 or 0x13, and CHALLENGE or else GET_MEASUREMENTS. -/
structure SpdmReq where
  version : Nat
  challenge : Bool
  deriving DecidableEq, Repr

/-- What the boot ROM finds (R379): per firmware piece and record whether the first and the second flash slot verify,
the protocol revisions that each die supports, by its number in R369, the configuration record, the units that the health record marks
(die, UTYPE and UINDEX) and the HBM rows that it marks, and the measurements. -/
structure BootFind where
  slot1 : List Bool
  slot2 : List Bool
  config1 : Bool
  config2 : Bool
  revisions : List (List Nat)
  conf : ConfRecord := {}
  health : List (Nat × Nat × Nat) := []
  rows : List Nat := []
  measures : List (BitVec 64)
  deriving DecidableEq, Repr

/-- The instructions and events of the machine: one constructor per row of spec/opcode_table.json. -/
inductive Instr where
  -- the sequencer (R22, R190, R173, R97, R73, R72)
  | bundleFetch
  | bundleIssue
  | asyncTrapDelivery
  | vResultLanding
  | sResultLanding (i : Nat)
  | muldivComplete (i : Nat)
  -- S slot (R42)
  | nop
  | add (w : RForm)
  | sub (w : RForm)
  | mul (w : RForm)
  | mulh (w : RForm)
  | mulhn (w : RForm)
  | div (w : RForm)
  | divn (w : RForm)
  | rem (w : RForm)
  | remn (w : RForm)
  | and (w : RForm)
  | or (w : RForm)
  | xor (w : RForm)
  | shl (w : RForm)
  | shr (w : RForm)
  | sra (w : RForm)
  | min (w : RForm)
  | max (w : RForm)
  | minn (w : RForm)
  | maxn (w : RForm)
  | clz (w : RForm)
  | ctz (w : RForm)
  | popc (w : RForm)
  | sext (w : RForm)
  | zext (w : RForm)
  | sel (w : XForm)
  | addi (w : IForm)
  | andi (w : IForm)
  | ori (w : IForm)
  | xori (w : IForm)
  | shli (w : IForm)
  | shri (w : IForm)
  | srai (w : IForm)
  | li (w : IForm)
  | lih (w : IForm)
  | cmp (w : PForm)
  | cmpi (w : PForm)
  | pand (w : PLogForm)
  | por (w : PLogForm)
  | pxor (w : PLogForm)
  | pnot (w : PLogForm)
  | pmov (w : PLogForm)
  | aadd (w : IForm)
  | amov (w : RForm)
  | astep (w : IForm)
  | lcset (w : IForm)
  | loop (w : XForm)
  | prep (w : BForm)
  | prepr (w : BForm)
  | go (w : BForm)
  | gol (w : BForm)
  | endGroup (w : RForm)
  | wset (w : RForm)
  | wrot (w : RForm)
  | ld (w : MForm)
  | st (w : MForm)
  | ldPf (w : MForm)
  | ldc (w : MForm)
  | cinv (w : RForm)
  | lds (w : MForm)
  | sts (w : MForm)
  | ldsRaw (w : MForm)
  | amo (w : XForm)
  | amos (w : XForm)
  | fence (w : RForm)
  | fenceE (w : RForm)
  | cflush (w : RForm)
  | stflush (w : RForm)
  | spmap (w : RForm)
  | spunmap (w : RForm)
  | sppin (w : RForm)
  | spunpin (w : RForm)
  | spevict (w : RForm)
  | spfetch (w : RForm)
  | span (w : RForm)
  | curveld (w : RForm)
  | bmapld (w : RForm)
  | fwait (w : RForm)
  | fwaitMemory (w : XForm)
  | fstat (w : RForm)
  | fpub (w : XForm)
  | freset (w : RForm)
  | barinit (w : RForm)
  | baradd (w : RForm)
  | barwait (w : RForm)
  | qpost (w : RForm)
  | qtake (w : RForm)
  | spawn (w : RForm)
  | signal (w : RForm)
  | evwait (w : RForm)
  | yield (w : RForm)
  | mwait (w : RForm)
  | cwait (w : RForm)
  | rdcnt (w : RForm)
  | trap (w : IForm)
  | rte (w : RForm)
  | rdcause (w : RForm)
  | rdctl (w : RForm)
  | wrctl (w : RForm)
  | amaxrd (w : RForm)
  | amaxrdFront (w : XForm)
  -- V slots (R43)
  | vnop (v : BitVec 1)
  | vadd (w : VForm)
  | vsub (w : VForm)
  | vmul (w : VForm)
  | vfma (w : VForm)
  | vfms (w : VForm)
  | vfnma (w : VForm)
  | vabs (w : VForm)
  | vneg (w : VForm)
  | vmin (w : VForm)
  | vmax (w : VForm)
  | vdiv (w : VForm)
  | vsqrt (w : VForm)
  | vrcp (w : VForm)
  | vrsq (w : VForm)
  | vcurve (w : VForm)
  | vadds (w : VForm)
  | vsubs (w : VForm)
  | vmulh (w : VForm)
  | vand (w : VForm)
  | vor (w : VForm)
  | vxor (w : VForm)
  | vnot (w : VForm)
  | vshl (w : VForm)
  | vshr (w : VForm)
  | vsra (w : VForm)
  | vcmp (w : VForm)
  | vsel (w : VForm)
  | vcvt (w : VForm)
  | vpack (w : VForm)
  | vunpk (w : VForm)
  | vrsum (w : VForm)
  | vrmax (w : VForm)
  | vrmin (w : VForm)
  | vramax (w : VForm)
  | vbcast (w : VForm)
  | vdup (w : VForm)
  | viota (w : VForm)
  | vshuf (w : VForm)
  | vlrot (w : VForm)
  | vxmov (w : VForm)
  | vext (w : VForm)
  | vld (w : VMem)
  | vst (w : VMem)
  | vldr (w : VMem)
  | vgath (w : VMem)
  | vscat (w : VMem)
  | vacc (w : VForm)
  -- M and C slots (R44)
  | mma (w : MmaForm)
  | mmar (w : MmaForm)
  | mmad (w : MmaForm)
  | mclr (w : MclrForm)
  | mdrain (w : MdrainForm)
  | msetRbound (w : MsetForm)
  | msetTap (w : MsetForm)
  | msetNotap (w : MsetForm)
  | cpy (w : CForm)
  | cgath (w : CForm)
  | cscat (w : CForm)
  | cred (w : CForm)
  | cfill (w : CForm)
  | mcast (w : CForm)
  | crem (w : CForm)
  | cstop (w : CstopForm)
  -- engines and fronts
  | commandStart (e : Engine)
  | copyBeat (e : BitVec 1)
  | matrixBeat
  | drainBeat
  | tapBeat
  | matrixCommandComplete
  | frontResume (f : BitVec 6)
  | mcastDelivery (d : DeliverySrc)
  | mcastAck (e : BitVec 1) (group : Nat)
  | cremAck (e : BitVec 1)
  | cremIncoming (m : KretanElem)
  | chaseTimerExpiry (w : Waiter)
  | pageIn (sva : Nat)
  | stashLineFill (sva : Nat) (write : Bool)
  | pinRetryTimeout (line : Nat)
  -- coherence (R225 to R240, R390)
  | transientReadRequest (h : Holder) (line die : Nat)
  | transientWriteRequest (h : Holder) (line die : Nat)
  | transientReduceRequest (h : Holder) (line die : Nat)
  | tokenResponse (i : Nat)
  | upgradeRequest (die line : Nat)
  | clusterInvalidation (die cluster line : Nat) (drop : Bool)
  | clusterAck (die cluster line : Nat)
  | ttoExpiry (die line : Nat)
  | hawserRequest (die line : Nat)
  | hawserActivation (h : Holder) (line : Nat)
  | hawserDeactivation (line : Nat)
  | eviction (die line : Nat)
  | cleaningWriteBack (die line : Nat)
  | writeBackAck (die line : Nat)
  | landing (ia : Nat)
  /-- A flit by its number q on its link and its link end k: 2048·q + k. -/
  | flitCrcFailure (link : Nat)
  | replayLimit (link : Nat)
  | ondieFlitError (die line : Nat) (data : Bool) (suspect : Bool)
  | linkDoze (link : Nat)
  | linkSleep (link : Nat)
  | linkWake (link : Nat)
  | linkWakeTimeout (link : Nat)
  | dieLost (die : Nat)
  -- the scheduler and the watchdog
  | schedulingRound (part : Nat)
  | gangReservation (part node : Nat)
  | preemptionComplete (node gang : Nat)
  | parkTimeout (node gang : Nat)
  | regrouping (die cluster : Nat)
  | watchdogSample (node : Nat)
  | watchdogLim1 (node : Nat)
  | watchdogLim2 (node : Nat)
  | groupRetirement (core : Nat)
  | auditCompare (node gang core : Nat) (sigs : List (BitVec 64))
  | auditTimeout (node gang : Nat)
  | scrubPass (place : ScrubAt) (find : ScrubFind)
  | heatSweep (part : Nat)
  | functionLevelReset (vf : Nat)
  -- the host
  | hostMemoryWrite (pa : Nat) (bytes : List (BitVec 8))
  | hostMemoryRead (pa n : Nat)
  | hostAtomic (pa : Nat) (op : HostOp) (wide : Bool) (x y : BitVec 64)
  | doorbell (vf : Nat)
  | invctl (vf : Nat) (value : BitVec 64)
  | resolve (queue : Nat) (seq : BitVec 24)
  | registerWrite (vf off : Nat) (value : BitVec 64)
  | halt (c : Mgmt)
  | save (c : Mgmt)
  | saveTimeout (slot : Nat)
  | restore (c : Mgmt)
  | resume (c : Mgmt)
  | logarm (c : Mgmt)
  | logclear (c : Mgmt)
  | logread (c : Mgmt)
  | logdisarm (c : Mgmt)
  | partcreate (c : Mgmt)
  | partdestroy (c : Mgmt)
  | s2set (c : Mgmt)
  | s2inv (c : Mgmt)
  | vfbind (c : Mgmt)
  | setmode (c : Mgmt)
  | setports (c : Mgmt)
  | setaudit (c : Mgmt)
  | setweight (c : Mgmt)
  | peerset (c : Mgmt)
  | s2rings (c : Mgmt)
  | fwdfault (c : Mgmt)
  | killctx (c : Mgmt)
  | withdraw (c : Mgmt)
  | tokrebuild (c : Mgmt)
  | boot (b : BootFind)
  | spdmRequest (r : SpdmReq)
  | kretanAcknowledgementTimeout (e : BitVec 1)
  deriving DecidableEq, Repr

end Sys2Proof
end

