-- ==== Sys2Proof/WellFormed.lean ====
section
/-! DEFINITION. Which instructions are legal encodings: the field limits of every entry of the opcode maps (R29 to
R33, R42 to R44 and the entry of each instruction). A word whose fields break them raises illegal instruction (0x02);
fates that depend on the machine's state are found at issue, in Machine/. Events carry no encoding and no check. -/

namespace Sys2Proof

/-- SIZE .d (R29). -/
abbrev sizeD : BitVec 2 := 3

/-- A field that names a32 or above does not name an address register (R30). -/
def isAddrReg (r : BitVec 6) : Bool := decide (r.toNat < 32)

/-- CHP (R248): 0000 own, 1ppp peer; 0001-0111 are illegal. -/
def chpOk (c : Nat) : Bool := c == 0 || (8 ≤ c && c < 16)

/-- Fields of a format-R word that must all be zero. -/
def RForm.zd (w : RForm) : Bool := w.d == 0
/-- SA zero. -/
def RForm.za (w : RForm) : Bool := w.a == 0
/-- SB zero. -/
def RForm.zb (w : RForm) : Bool := w.b == 0
/-- FN zero. -/
def RForm.zf (w : RForm) : Bool := w.f == 0

/-- X = 1 leaves the short immediate zero; X = 0 has no extension word (R29, R30). -/
def IForm.extOk (w : IForm) : Bool := if w.x == 1 then w.i == 0 else w.ext == 0
/-- The immediate of format I (R78). -/
def IForm.imm (w : IForm) : Int := if w.x == 1 then w.ext.toInt else w.i.toInt
/-- A shift immediate is 0 to 63 (R78). -/
def IForm.shiftOk (w : IForm) : Bool := w.extOk && decide (0 ≤ w.imm ∧ w.imm ≤ 63)

/-- The extension rule of format P (R29, R79). -/
def PForm.extOk (w : PForm) : Bool := if w.x == 1 then w.i == 0 else w.ext == 0
/-- The immediate of CMPI (R79). -/
def PForm.imm (w : PForm) : Int := if w.x == 1 then w.ext.toInt else w.i.toInt

/-- The extension rule of format B for PREP (R29, R87). -/
def BForm.extOk (w : BForm) : Bool := if w.x == 1 then w.i == 0 else w.ext == 0
/-- The displacement of PREP in 4-byte units (R87). -/
def BForm.disp (w : BForm) : Int := if w.x == 1 then w.ext.toInt else w.i.toInt

/-- Format M carries the displacement only with X = 1 (R29). -/
def MForm.extOk (w : MForm) : Bool := w.x == 1 || w.ext == 0
/-- The displacement of format M. -/
def MForm.disp (w : MForm) : Int := w.ext.toInt
/-- N = 1 with .d is illegal (R181, R198). -/
def MForm.nOk (w : MForm) : Bool := !(w.n == 1 && w.s == sizeD)

/-! Fields of the extension word of AMO and AMOS (R183). -/

def XForm.aop (w : XForm) : BitVec 4 := w.ext.extractLsb' 28 4
def XForm.asize (w : XForm) : BitVec 2 := w.ext.extractLsb' 26 2
def XForm.ascope (w : XForm) : BitVec 3 := w.ext.extractLsb' 23 3
def XForm.aord (w : XForm) : BitVec 2 := w.ext.extractLsb' 21 2
def XForm.asc (w : XForm) : BitVec 6 := w.ext.extractLsb' 15 6
def XForm.adisp (w : XForm) : BitVec 15 := w.ext.extractLsb' 0 15

/-- The limits of R183 and R204 but for SCOPE. -/
def XForm.amoOk (w : XForm) : Bool :=
  w.f == 0 && decide (w.aop.toNat ≤ 10) && decide (2 ≤ w.asize.toNat)
    && (w.aop != 1 || w.asize == 2) && (w.aop == 10 || w.asc == 0)

/-! Fields of the extension words of SEL (R77) and FPUB (R331). -/

def XForm.selNeg (w : XForm) : Bool := w.ext.getLsbD 4
def XForm.selP (w : XForm) : BitVec 4 := w.ext.extractLsb' 0 4
def XForm.pubScope (w : XForm) : BitVec 3 := w.ext.extractLsb' 5 3
def XForm.pubGran (w : XForm) : BitVec 4 := w.ext.extractLsb' 1 4
def XForm.pubOff (w : XForm) : Bool := w.ext.getLsbD 0

/-- The control registers of R151: 0x00 to 0x15 and 0x30 to 0x3F. -/
def ctlNumberOk (n : BitVec 6) : Bool := decide (n.toNat ≤ 0x15) || decide (0x30 ≤ n.toNat)

/-- A floating-point type of R101: f32, bf16, f16. -/
def isFType (t : BitVec 3) : Bool := decide (t.toNat ≤ 2)
/-- An f8 type. -/
def isF8Type (t : BitVec 3) : Bool := t == 3 || t == 4
/-- An integer type of R101: i32, i16, i8. -/
def isIType (t : BitVec 3) : Bool := decide (5 ≤ t.toNat)
/-- Width in bits of an element of a V type (R32). -/
def vWidth (t : BitVec 3) : Nat :=
  match t.toNat with
  | 0 => 32 | 1 => 16 | 2 => 16 | 3 => 8 | 4 => 8 | 5 => 32 | 6 => 16 | _ => 8

/-- f or i types. -/
def isFI (t : BitVec 3) : Bool := isFType t || isIType t
/-- Modifier free for f, zero for i. -/
def VForm.satF (w : VForm) : Bool := isFType w.t || (isIType w.t && w.u == 0)
/-- Modifier zero for f, free for i. -/
def VForm.modI (w : VForm) : Bool := (isFType w.t && w.u == 0) || isIType w.t
/-- A shift with modifier 1 holds k below the width in VB (R103). -/
def VForm.shiftOk (w : VForm) : Bool := isIType w.t && (w.u == 0 || decide (w.b.toNat < vWidth w.t))
/-- The types of VPACK and VUNPK: bf16, f16, i16, f8e4, f8e5, i8 (R101). -/
def isPackType (t : BitVec 3) : Bool := t != 0 && t != 5

/-- The chase fields of R130. -/
def MmaForm.chaseOk (w : MmaForm) : Bool :=
  w.chm != 3 && (w.chm == 1 || (w.chf == 0 && w.chp == 0)) && chpOk w.chp.toNat
/-- The scale fields of R130. -/
def MmaForm.mxOk (w : MmaForm) : Bool :=
  (w.mxa == 1 || (w.blka == 0 && w.dsa == 0)) && (w.mxb == 1 || (w.blkb == 0 && w.dsb == 0))

/-- The limits of R138, R139, R140 and R142 on the fields of MDRAIN. -/
def MdrainForm.ok (w : MdrainForm) : Bool :=
  decide (w.lay.toNat ≤ 4) && decide (w.ot.toNat ≤ 11) && decide (w.rm.toNat ≤ 5)
    && (w.lay != 4 || (w.sat == 0 && decide (3 ≤ w.ot.toNat ∧ w.ot.toNat ≤ 7)))
    && (w.fen == 1 || w.fc == 0)
    && (w.aen == 1 || (w.amx == 0 && w.aclr == 0))
    && (w.aen == 0 || decide (w.ot.toNat < 8))
    && (w.lay == 4 || (w.blk == 0 && w.ds == 0))
    && (if w.dst == 1 then
          w.dd == 0 && w.lay == 0 && w.fen == 0 && decide (w.vbase.toNat < 768)
            && (decide (w.ot.toNat ≤ 4) || (decide (8 ≤ w.ot.toNat ∧ w.ot.toNat ≤ 10)))
        else w.cl == 0 && w.vbase == 0)

/-- WAIT and WARG of a C word (R248). -/
def CForm.waitOk (w : CForm) : Bool :=
  match w.wait.toNat with
  | 0 => w.warg == 0
  | 1 => w.warg.extractLsb' 0 10 == 0 && chpOk (w.warg.extractLsb' 10 4).toNat
  | 2 => w.warg == 0
  | _ =>
    if w.warg.getLsbD 19 then w.warg.extractLsb' 0 14 == 0
    else chpOk (w.warg.extractLsb' 9 4).toNat
      && (w.warg.extractLsb' 0 6 != 0 || w.warg.extractLsb' 6 3 == 0)
/-- FC is zero without FEN (R246). -/
def CForm.fenOk (w : CForm) : Bool := w.fen == 1 || w.fc == 0
/-- Both. -/
def CForm.ok (w : CForm) : Bool := w.waitOk && w.fenOk

/-- The legal encodings of each instruction: true where its words decode to it. -/
def Instr.wf : Instr → Bool
  | .add w | .sub w | .mul w => w.f != 3
  | .mulh w | .mulhn w | .div w | .divn w | .rem w | .remn w | .and w | .or w | .xor w | .shl w | .shr w | .sra w
  | .min w | .max w | .minn w | .maxn w => w.zf
  | .clz w | .ctz w | .popc w => w.zb && w.zf
  | .sext w | .zext w => w.zb && w.f != 3
  | .sel w => w.f == 0 && w.ext.extractLsb' 5 27 == 0
  | .addi w | .andi w | .ori w | .xori w | .lih w => w.extOk
  | .shli w | .shri w | .srai w => w.shiftOk
  | .li w => w.extOk && w.a == 0
  | .cmp w => w.x == 0 && w.ext == 0 && decide (w.c.toNat < 12)
  | .cmpi w => w.extOk && decide (w.c.toNat < 12)
  | .pand _ | .por _ | .pxor _ => true
  | .pnot w | .pmov w => w.nb == 0 && w.b == 0
  | .aadd w => w.extOk && isAddrReg w.d && isAddrReg w.a
  | .amov w =>
    w.zb && (match w.f.toNat with
      | 0 => isAddrReg w.d && isAddrReg w.a
      | 1 => isAddrReg w.d
      | 2 => isAddrReg w.a
      | _ => false)
  | .astep w => w.extOk && isAddrReg w.d && decide (w.a.toNat < 6)
  | .lcset w => w.extOk && decide (w.d.toNat < 6)
  | .loop w => w.b == 0 && w.f == 0 && decide (w.d.toNat < 16) && decide (1 ≤ w.a.toNat ∧ w.a.toNat ≤ 6)
  | .prep w => w.n == 0 && w.extOk
  | .prepr w => w.n == 0 && w.x == 0 && w.ext == 0 && w.i.extractLsb' 0 10 == 0
  | .go w | .gol w => w.x == 0 && w.ext == 0 && w.i == 0
  | .endGroup w | .rte w | .mwait w => w.zd && w.za && w.zb && w.zf
  | .wset w => w.zd && w.zb && decide (w.f.toNat < 2)
  | .wrot w => w.zd && w.za && decide (w.f.toNat < 2)
  | .ld w => w.extOk && w.nOk && decide (w.c.toNat < 5) && (w.o == 1 || (w.o == 0 && w.c == 0))
  | .st w => w.extOk && w.n == 0 && decide (w.c.toNat < 5) && (w.o == 2 || (w.o == 0 && w.c == 0))
  | .ldPf w => w.extOk && w.d == 0 && w.s == 0 && w.n == 0 && w.o == 0 && (w.c == 0 || w.c == 2)
  | .ldc w => w.extOk && w.nOk && w.c == 0 && w.o == 0
  | .cinv w => w.zd && w.zb && (w.f == 1 || (w.f == 0 && w.za))
  | .lds w => w.extOk && isAddrReg w.a && w.nOk && decide (w.c.toNat < 2) && decide (w.o.toNat < 2)
  | .sts w => w.extOk && isAddrReg w.a && w.n == 0 && decide (w.c.toNat < 2) && (w.o == 0 || w.o == 2)
  | .ldsRaw w => w.extOk && isAddrReg w.a && w.nOk && w.c == 0 && w.o == 0
  | .amo w => w.amoOk && decide (w.ascope.toNat < 5)
  | .amos w => w.amoOk && isAddrReg w.a && decide (w.ascope.toNat < 2)
  | .fence w => w.zd && w.za && w.b.extractLsb' 0 3 == 0 && decide ((w.b.extractLsb' 3 3).toNat < 5) && w.f == 0
  | .fenceE w => w.zd && w.za && w.b.extractLsb' 0 3 == 0 && decide ((w.b.extractLsb' 3 3).toNat < 5) && w.f == 1
  | .cflush w => w.zd && w.zb && w.f != 3
  | .stflush w => w.zd && w.zb && ((w.f == 0 && isAddrReg w.a) || (w.f == 1 && w.za))
  | .spmap w => w.zd && isAddrReg w.a && decide (w.f.toNat < 2)
  | .spunmap w | .spfetch w => w.zd && w.zb && isAddrReg w.a && decide (w.f.toNat < 2)
  | .sppin w | .spevict w => w.zb && w.zf && isAddrReg w.a
  | .spunpin w => w.zd && w.zb && w.zf && isAddrReg w.a
  | .span w => w.zb && w.zf && isAddrReg w.a && isAddrReg w.d
  | .curveld w => w.zb && w.zf && isAddrReg w.a && decide (w.d.toNat < 16)
  | .bmapld w => w.zb && w.zf && isAddrReg w.a && decide (w.d.toNat < 4)
  | .fwait w => w.zf && chpOk w.a.toNat
  | .fwaitMemory w => w.f == 1 && decide (w.ext.toNat < 5)
  | .fstat w => w.f != 3 && chpOk w.a.toNat
  | .fpub w =>
    w.b == 0 && w.f == 0 && w.ext.extractLsb' 8 24 == 0 && decide (w.pubScope.toNat < 5)
      && (!w.pubOff || (w.a == 0 && w.pubScope == 0 && w.pubGran == 0))
  | .freset w => w.za && w.zb && w.zf
  | .barinit w => w.zd && ((w.f == 0 && isAddrReg w.a) || w.f == 1)
  | .baradd w => (w.f == 0 && isAddrReg w.a) || w.f == 1
  | .barwait w => w.zd && w.zb && ((w.f == 0 && isAddrReg w.a) || w.f == 1)
  | .qpost w => w.zd && w.zf
  | .qtake w => decide (w.f.toNat < 2) && w.d != w.b && w.b != 0
  | .spawn w | .evwait w => w.zb && w.zf
  | .signal w => w.zd && ((w.f == 0 && w.zb) || w.f == 1)
  | .yield w => w.za && w.zb && w.zf
  | .cwait w => w.zd && w.za && w.zb && w.f != 3
  | .rdcnt w => w.zb && w.zf && decide (w.a.toNat < 9)
  | .trap w => w.extOk && w.d == 0 && w.a == 0
  | .rdcause w => w.za && w.zb && w.zf
  | .rdctl w => w.zb && w.zf && ctlNumberOk w.a
  | .wrctl w => w.zb && w.zf && ctlNumberOk w.d
  | .amaxrd w => w.zb && w.zf && decide (w.a.toNat < 8)
  | .amaxrdFront w => w.f == 1 && decide (w.a.toNat < 8) && decide (w.ext.toNat < 64)
  | .vadd w | .vsub w | .vmul w => w.satF
  | .vfma w | .vfms w | .vfnma w => isFType w.t
  | .vabs w | .vneg w => w.b == 0 && w.modI
  | .vmin w | .vmax w => w.modI
  | .vdiv w => isFType w.t
  | .vsqrt w | .vrcp w | .vrsq w => isFType w.t && w.b == 0 && w.u == 0
  | .vcurve w => w.t == 0 && w.b.extractLsb' 4 2 == 0
  | .vadds w | .vsubs w | .vmulh w => isIType w.t
  | .vand w | .vor w | .vxor w => isIType w.t && w.u == 0
  | .vnot w => isIType w.t && w.b == 0 && w.u == 0
  | .vshl w | .vshr w | .vsra w => w.shiftOk
  | .vcmp w =>
    w.modI && w.d.extractLsb' 0 3 != 7 && w.d.extractLsb' 3 3 != 0
      && (w.d.extractLsb' 0 3 != 6 || isFType w.t)
  | .vsel w => w.t == 0
  | .vcvt w => decide ((w.b.extractLsb' 0 3).toNat ≤ 5)
  | .vpack w => isPackType w.t && w.m == 0 && (vWidth w.t == 8 || w.u == 0)
  | .vunpk w => isPackType w.t && w.m == 0 && w.u == 0 && decide (w.b.toNat < 32 / vWidth w.t)
  | .vrsum w | .vrmax w | .vrmin w => w.b == 0 && w.modI
  | .vramax w => isFType w.t && w.b == 0 && w.u == 0
  | .vbcast w | .vshuf w | .vlrot w => w.t == 0 && w.u == 0
  | .vdup w => w.b == 0 && w.u == 0
  | .viota w => w.t == 5 && w.a == 0 && w.b == 0
  | .vxmov w => w.t == 0 && w.b == 0 && w.u == 0
  | .vext w => w.m == 0 && (isIType w.t || w.u == 0)
  | .vgath w | .vscat w => w.i == 0
  | .vacc w => (w.t == 0 || w.t == 5) && w.a.extractLsb' 0 4 == 0 && w.u == 0
  | .mma w => w.chaseOk && w.mxOk && w.bm == 0 && w.tap == 0
  | .mmar w =>
    w.chaseOk && w.mxOk && w.bm == 0 && w.tap == 0 && w.db == 0 && w.west == 0 && w.mxb == 0
  | .mmad w => w.chaseOk && w.mxOk && w.tap != 3 && (w.acc == 0 || w.acc == 2)
  | .mclr w => w.amask != 0
  | .mdrain w => w.ok
  | .msetRbound w => w.fc == 0 && w.dt == 0
  | .msetTap w => w.n == 0
  | .msetNotap w => w.n == 0 && w.fc == 0 && w.dt == 0
  | .cpy w => w.ok && decide ((w.xo.extractLsb' 1 3).toNat ≤ 5)
  | .cgath w => w.ok && w.xo.extractLsb' 0 3 == 0
  | .cscat w => w.ok && w.fen == 0 && w.xo.extractLsb' 0 3 == 0
  | .cred w => w.ok && w.xo.getLsbD 0 == false
  | .cfill w => w.ok && w.xo == 0
  | .mcast w =>
    w.ok && w.fen == 1 && w.xo.extractLsb' 0 2 == 0 && w.xo.extractLsb' 2 2 != 3
      && w.walk.extractLsb' 0 4 == 0 && (w.walk.getLsbD 4 || w.walk.extractLsb' 5 5 == 0)
  | .crem w => w.ok && w.xo.getLsbD 0 == false && (w.xo.getLsbD 3 || w.xo.extractLsb' 1 2 == 0)
  | .cstop w => decide (w.kind.toNat < 2) && (w.kind == 1 || w.fc == 0)
  | _ => true

end Sys2Proof
end

