-- ==== Sys2Proof/Decode.lean ====
section
/-! DEFINITION. The decoder: total on any words, refusing by name, and after it the encoder, both written from the
encoding tables of the spec (R19, R20, R29, R32, R33, R42 to R44 and the entries), and the byte layout of a bundle. -/

namespace Sys2Proof

/-- Why a word does not decode. All of them raise illegal instruction (0x02), but for the header's (0x01). -/
inductive DecErr where
  /-- A reserved opcode (R42 to R44). -/
  | reservedOpcode
  /-- X set where the format or the entry allows no extension, or clear where it needs one (R30). -/
  | extension
  /-- A field outside the limits of the instruction's entry (R30, R32, R33). -/
  | field
  /-- POLICY 11, STEP 10 or 11, or a nonzero bit in [7:0] of a header (R21). -/
  | header
  deriving DecidableEq, Repr

/-- Opcode [31:25] of an S or V word. -/
def opOf (w : BitVec 32) : BitVec 7 := w.extractLsb' 25 7
/-- X [24] of an S word (R29). -/
def xOf (w : BitVec 32) : BitVec 1 := w.extractLsb' 24 1
/-- PG [23:20]. -/
def pgOf (w : BitVec 32) : BitVec 4 := w.extractLsb' 20 4

/-- Format R (R29). -/
def parseR (w : BitVec 32) : RForm :=
  ⟨pgOf w, w.extractLsb' 14 6, w.extractLsb' 8 6, w.extractLsb' 2 6, w.extractLsb' 0 2⟩
/-- Format I (R29). -/
def parseI (w e : BitVec 32) : IForm :=
  ⟨pgOf w, w.extractLsb' 14 6, w.extractLsb' 8 6, xOf w, w.extractLsb' 0 8, e⟩
/-- Format P (R29, R79). -/
def parseP (w e : BitVec 32) : PForm :=
  ⟨pgOf w, w.extractLsb' 16 4, w.extractLsb' 12 4, w.extractLsb' 6 6, xOf w, w.extractLsb' 0 6, e⟩
/-- Format P as PLOG uses it (R80); bits [10] and [4] are checked beside it. -/
def parseL (w : BitVec 32) : PLogForm :=
  ⟨pgOf w, w.extractLsb' 16 4, w.extractLsb' 11 1, w.extractLsb' 6 4, w.extractLsb' 5 1, w.extractLsb' 0 4⟩
/-- Format B (R29). -/
def parseB (w e : BitVec 32) : BForm :=
  ⟨pgOf w, w.extractLsb' 19 1, w.extractLsb' 16 3, xOf w, w.extractLsb' 0 16, e⟩
/-- Format M (R29). -/
def parseM (w e : BitVec 32) : MForm :=
  ⟨pgOf w, w.extractLsb' 14 6, w.extractLsb' 8 6, w.extractLsb' 6 2, w.extractLsb' 5 1, w.extractLsb' 2 3,
    w.extractLsb' 0 2, xOf w, e⟩
/-- Format Y, and format R with a required extension word (R29). -/
def parseX (w e : BitVec 32) : XForm :=
  ⟨pgOf w, w.extractLsb' 14 6, w.extractLsb' 8 6, w.extractLsb' 2 6, w.extractLsb' 0 2, e⟩
/-- Register form of a V word (R32). -/
def parseV (v : BitVec 1) (w : BitVec 32) : VForm :=
  ⟨v, w.extractLsb' 22 3, w.extractLsb' 16 6, w.extractLsb' 10 6, w.extractLsb' 4 6, w.extractLsb' 1 3,
    w.extractLsb' 0 1⟩
/-- Memory form of a V word (R32). -/
def parseVM (v : BitVec 1) (w : BitVec 32) : VMem :=
  ⟨v, w.extractLsb' 22 3, w.extractLsb' 16 6, w.extractLsb' 11 5, w.extractLsb' 4 7, w.extractLsb' 1 3,
    w.extractLsb' 0 1⟩

/-- Keep an instruction that is legal (R30, R32, R33). -/
def checked (i : Instr) : Except DecErr Instr := if i.wf then .ok i else .error .field

/-- An entry that allows no extension word: X must be 0 (R30). -/
def noX (w : BitVec 32) (i : Instr) : Except DecErr Instr := if xOf w == 0 then checked i else .error .extension
/-- An entry that requires one: X must be 1 (R30). -/
def needX (w : BitVec 32) (i : Instr) : Except DecErr Instr := if xOf w == 1 then checked i else .error .extension

/-- PLOG: COND tells its five instructions apart; [10] and [4] are zero (R80). -/
def decodePLog (w : BitVec 32) : Except DecErr Instr :=
  if w.getLsbD 10 || w.getLsbD 4 then .error .field
  else
    let f := parseL w
    match (w.extractLsb' 12 4).toNat with
    | 0 => noX w (.pand f)
    | 1 => noX w (.por f)
    | 2 => noX w (.pxor f)
    | 3 => noX w (.pnot f)
    | 4 => noX w (.pmov f)
    | _ => .error .field

/-- An S word and its extension word (any word when X is 0: it is not read), by the S-slot opcode map (R42). -/
def decodeS (w e0 : BitVec 32) : Except DecErr Instr :=
  let e := if xOf w == 1 then e0 else 0
  match (opOf w).toNat with
  | 0x00 => if w == 0 then .ok .nop else .error .field
  | 0x01 => noX w (.add (parseR w))
  | 0x02 => noX w (.sub (parseR w))
  | 0x03 => noX w (.mul (parseR w))
  | 0x04 => noX w (.mulh (parseR w))
  | 0x05 => noX w (.mulhn (parseR w))
  | 0x06 => noX w (.div (parseR w))
  | 0x07 => noX w (.divn (parseR w))
  | 0x08 => noX w (.rem (parseR w))
  | 0x09 => noX w (.remn (parseR w))
  | 0x0A => noX w (.and (parseR w))
  | 0x0B => noX w (.or (parseR w))
  | 0x0C => noX w (.xor (parseR w))
  | 0x0D => noX w (.shl (parseR w))
  | 0x0E => noX w (.shr (parseR w))
  | 0x0F => noX w (.sra (parseR w))
  | 0x10 => noX w (.min (parseR w))
  | 0x11 => noX w (.max (parseR w))
  | 0x12 => noX w (.minn (parseR w))
  | 0x13 => noX w (.maxn (parseR w))
  | 0x14 => noX w (.clz (parseR w))
  | 0x15 => noX w (.ctz (parseR w))
  | 0x16 => noX w (.popc (parseR w))
  | 0x17 => noX w (.sext (parseR w))
  | 0x18 => noX w (.zext (parseR w))
  | 0x19 => needX w (.sel (parseX w e))
  | 0x20 => checked (.addi (parseI w e))
  | 0x21 => checked (.andi (parseI w e))
  | 0x22 => checked (.ori (parseI w e))
  | 0x23 => checked (.xori (parseI w e))
  | 0x24 => checked (.shli (parseI w e))
  | 0x25 => checked (.shri (parseI w e))
  | 0x26 => checked (.srai (parseI w e))
  | 0x27 => checked (.li (parseI w e))
  | 0x28 => checked (.lih (parseI w e))
  | 0x29 => checked (.cmp (parseP w e))
  | 0x2A => checked (.cmpi (parseP w e))
  | 0x2B => decodePLog w
  | 0x2C => checked (.aadd (parseI w e))
  | 0x2D => noX w (.amov (parseR w))
  | 0x2E => checked (.astep (parseI w e))
  | 0x2F => checked (.lcset (parseI w e))
  | 0x30 => checked (.prep (parseB w e))
  | 0x31 => checked (.prepr (parseB w e))
  | 0x32 => checked (.go (parseB w e))
  | 0x33 => checked (.gol (parseB w e))
  | 0x34 => needX w (.loop (parseX w e))
  | 0x35 => noX w (.endGroup (parseR w))
  | 0x36 => noX w (.wset (parseR w))
  | 0x37 => noX w (.wrot (parseR w))
  | 0x40 => checked (.ld (parseM w e))
  | 0x41 => checked (.st (parseM w e))
  | 0x42 => checked (.ldPf (parseM w e))
  | 0x43 => checked (.ldc (parseM w e))
  | 0x44 => noX w (.cinv (parseR w))
  | 0x45 => checked (.lds (parseM w e))
  | 0x46 => checked (.sts (parseM w e))
  | 0x47 => checked (.ldsRaw (parseM w e))
  | 0x48 => needX w (.amo (parseX w e))
  | 0x49 => needX w (.amos (parseX w e))
  | 0x4A => if w.extractLsb' 0 2 == 0 then noX w (.fence (parseR w)) else noX w (.fenceE (parseR w))
  | 0x4B => noX w (.cflush (parseR w))
  | 0x4C => noX w (.stflush (parseR w))
  | 0x50 => noX w (.spmap (parseR w))
  | 0x51 => noX w (.spunmap (parseR w))
  | 0x52 => noX w (.sppin (parseR w))
  | 0x53 => noX w (.spunpin (parseR w))
  | 0x54 => noX w (.spevict (parseR w))
  | 0x55 => noX w (.spfetch (parseR w))
  | 0x56 => noX w (.span (parseR w))
  | 0x57 => noX w (.curveld (parseR w))
  | 0x58 => noX w (.bmapld (parseR w))
  | 0x60 => if xOf w == 0 then checked (.fwait (parseR w)) else checked (.fwaitMemory (parseX w e))
  | 0x61 => noX w (.fstat (parseR w))
  | 0x62 => needX w (.fpub (parseX w e))
  | 0x63 => noX w (.freset (parseR w))
  | 0x64 => noX w (.barinit (parseR w))
  | 0x65 => noX w (.baradd (parseR w))
  | 0x66 => noX w (.barwait (parseR w))
  | 0x67 => noX w (.qpost (parseR w))
  | 0x68 => noX w (.qtake (parseR w))
  | 0x69 => noX w (.spawn (parseR w))
  | 0x6A => noX w (.signal (parseR w))
  | 0x6B => noX w (.evwait (parseR w))
  | 0x6C => noX w (.yield (parseR w))
  | 0x6D => noX w (.mwait (parseR w))
  | 0x6E => noX w (.cwait (parseR w))
  | 0x6F => noX w (.rdcnt (parseR w))
  | 0x70 => checked (.trap (parseI w e))
  | 0x71 => noX w (.rte (parseR w))
  | 0x72 => noX w (.rdcause (parseR w))
  | 0x73 => noX w (.rdctl (parseR w))
  | 0x74 => noX w (.wrctl (parseR w))
  | 0x75 => if xOf w == 0 then checked (.amaxrd (parseR w)) else checked (.amaxrdFront (parseX w e))
  | _ => .error .reservedOpcode

/-- A V word in slot `v`, by the V-slot opcode map (R43). -/
def decodeV (v : BitVec 1) (w : BitVec 32) : Except DecErr Instr :=
  match (opOf w).toNat with
  | 0x00 => if w == 0 then .ok (.vnop v) else .error .field
  | 0x01 => checked (.vadd (parseV v w))
  | 0x02 => checked (.vsub (parseV v w))
  | 0x03 => checked (.vmul (parseV v w))
  | 0x04 => checked (.vfma (parseV v w))
  | 0x05 => checked (.vfms (parseV v w))
  | 0x06 => checked (.vfnma (parseV v w))
  | 0x07 => checked (.vabs (parseV v w))
  | 0x08 => checked (.vneg (parseV v w))
  | 0x09 => checked (.vmin (parseV v w))
  | 0x0A => checked (.vmax (parseV v w))
  | 0x0B => checked (.vdiv (parseV v w))
  | 0x0C => checked (.vsqrt (parseV v w))
  | 0x0D => checked (.vrcp (parseV v w))
  | 0x0E => checked (.vrsq (parseV v w))
  | 0x0F => checked (.vcurve (parseV v w))
  | 0x10 => checked (.vadds (parseV v w))
  | 0x11 => checked (.vsubs (parseV v w))
  | 0x12 => checked (.vmulh (parseV v w))
  | 0x13 => checked (.vand (parseV v w))
  | 0x14 => checked (.vor (parseV v w))
  | 0x15 => checked (.vxor (parseV v w))
  | 0x16 => checked (.vnot (parseV v w))
  | 0x17 => checked (.vshl (parseV v w))
  | 0x18 => checked (.vshr (parseV v w))
  | 0x19 => checked (.vsra (parseV v w))
  | 0x1A => checked (.vcmp (parseV v w))
  | 0x1B => checked (.vsel (parseV v w))
  | 0x1C => checked (.vcvt (parseV v w))
  | 0x1D => checked (.vpack (parseV v w))
  | 0x1E => checked (.vunpk (parseV v w))
  | 0x20 => checked (.vrsum (parseV v w))
  | 0x21 => checked (.vrmax (parseV v w))
  | 0x22 => checked (.vrmin (parseV v w))
  | 0x23 => checked (.vramax (parseV v w))
  | 0x28 => checked (.vbcast (parseV v w))
  | 0x29 => checked (.vdup (parseV v w))
  | 0x2A => checked (.viota (parseV v w))
  | 0x2B => checked (.vshuf (parseV v w))
  | 0x2C => checked (.vlrot (parseV v w))
  | 0x2D => checked (.vxmov (parseV v w))
  | 0x2E => checked (.vext (parseV v w))
  | 0x30 => checked (.vld (parseVM v w))
  | 0x31 => checked (.vst (parseVM v w))
  | 0x32 => checked (.vldr (parseVM v w))
  | 0x33 => checked (.vgath (parseVM v w))
  | 0x34 => checked (.vscat (parseVM v w))
  | 0x35 => checked (.vacc (parseV v w))
  | _ => .error .reservedOpcode

/-- Fields of the word of MMA, MMAR, MMAD (R130). -/
def parseMma (w : BitVec 64) : MmaForm :=
  ⟨w.extractLsb' 53 4, w.extractLsb' 48 5, w.extractLsb' 43 5, w.extractLsb' 41 2, w.extractLsb' 40 1,
    w.extractLsb' 32 1, w.extractLsb' 31 1, w.extractLsb' 30 1, w.extractLsb' 28 2, w.extractLsb' 26 2,
    w.extractLsb' 21 5, w.extractLsb' 16 5, w.extractLsb' 14 2, w.extractLsb' 8 6, w.extractLsb' 4 4,
    w.extractLsb' 2 2, w.extractLsb' 0 2⟩

/-- Fields of MDRAIN's word (R138). -/
def parseMdrain (w : BitVec 64) : MdrainForm :=
  ⟨w.extractLsb' 53 4, w.extractLsb' 51 2, w.extractLsb' 50 1, w.extractLsb' 47 3, w.extractLsb' 43 4,
    w.extractLsb' 40 3, w.extractLsb' 39 1, w.extractLsb' 38 1, w.extractLsb' 32 6, w.extractLsb' 31 1,
    w.extractLsb' 28 3, w.extractLsb' 27 1, w.extractLsb' 25 2, w.extractLsb' 20 5, w.extractLsb' 15 5,
    w.extractLsb' 14 1, w.extractLsb' 4 10⟩

/-- The word of CPY to CREM (R246). -/
def parseC (e : BitVec 1) (w : BitVec 64) : CForm :=
  ⟨e, w.extractLsb' 53 4, w.extractLsb' 48 5, w.extractLsb' 43 5, w.extractLsb' 33 10, w.extractLsb' 32 1,
    w.extractLsb' 26 6, w.extractLsb' 24 2, w.extractLsb' 4 20, w.extractLsb' 0 4⟩

/-- MSET: SEL tells its three forms apart (R143). -/
def decodeMset (w : BitVec 64) : Except DecErr Instr :=
  let p := w.extractLsb' 53 4
  match (w.extractLsb' 50 3).toNat with
  | 0 => if w.extractLsb' 16 34 == 0 then checked (.msetRbound ⟨p, w.extractLsb' 0 16, 0, 0⟩) else .error .field
  | 1 =>
    if w.extractLsb' 11 39 == 0 then checked (.msetTap ⟨p, 0, w.extractLsb' 5 6, w.extractLsb' 0 5⟩)
    else .error .field
  | 2 => if w.extractLsb' 0 50 == 0 then checked (.msetNotap ⟨p, 0, 0, 0⟩) else .error .field
  | _ => .error .field

/-- An M word (R33, R44). -/
def decodeM (w : BitVec 64) : Except DecErr Instr :=
  match (w.extractLsb' 57 7).toNat with
  | 0x01 => if w.extractLsb' 33 7 == 0 then checked (.mma (parseMma w)) else .error .field
  | 0x02 => if w.extractLsb' 33 7 == 0 then checked (.mmar (parseMma w)) else .error .field
  | 0x03 => if w.extractLsb' 33 7 == 0 then checked (.mmad (parseMma w)) else .error .field
  | 0x04 =>
    if w.extractLsb' 0 49 == 0 then checked (.mclr ⟨w.extractLsb' 53 4, w.extractLsb' 49 4⟩) else .error .field
  | 0x05 => if w.extractLsb' 0 4 == 0 then checked (.mdrain (parseMdrain w)) else .error .field
  | 0x06 => decodeMset w
  | _ => .error .reservedOpcode

/-- A C word that goes to copy engine `e` (R33, R44, R246, R259). -/
def decodeC (e : BitVec 1) (w : BitVec 64) : Except DecErr Instr :=
  match (w.extractLsb' 57 7).toNat with
  | 0x01 => checked (.cpy (parseC e w))
  | 0x02 => checked (.cgath (parseC e w))
  | 0x03 => checked (.cscat (parseC e w))
  | 0x04 => checked (.cred (parseC e w))
  | 0x05 => checked (.cfill (parseC e w))
  | 0x06 => checked (.mcast (parseC e w))
  | 0x07 => checked (.crem (parseC e w))
  | 0x08 =>
    if w.extractLsb' 0 45 == 0 then
      checked (.cstop ⟨e, w.extractLsb' 53 4, w.extractLsb' 51 2, w.extractLsb' 45 6⟩)
    else .error .field
  | _ => .error .reservedOpcode

/-! ### The encoder -/

/-- Format R. -/
def packR (op : BitVec 7) (w : RForm) : BitVec 32 := op ++ (0 : BitVec 1) ++ w.p ++ w.d ++ w.a ++ w.b ++ w.f
/-- Format I. -/
def packI (op : BitVec 7) (w : IForm) : BitVec 32 := op ++ w.x ++ w.p ++ w.d ++ w.a ++ w.i
/-- Format P. -/
def packP (op : BitVec 7) (w : PForm) : BitVec 32 := op ++ w.x ++ w.p ++ w.d ++ w.c ++ w.a ++ w.i
/-- Format P of PLOG with its COND. -/
def packL (c : BitVec 4) (w : PLogForm) : BitVec 32 :=
  (0x2B : BitVec 7) ++ (0 : BitVec 1) ++ w.p ++ w.d ++ c ++ w.na ++ (0 : BitVec 1) ++ w.a ++ w.nb ++ (0 : BitVec 1) ++ w.b
/-- Format B. -/
def packB (op : BitVec 7) (w : BForm) : BitVec 32 := op ++ w.x ++ w.p ++ w.n ++ w.t ++ w.i
/-- Format M. -/
def packM (op : BitVec 7) (w : MForm) : BitVec 32 := op ++ w.x ++ w.p ++ w.d ++ w.a ++ w.s ++ w.n ++ w.c ++ w.o
/-- Format Y and format R with X = 1. -/
def packX (op : BitVec 7) (w : XForm) : BitVec 32 := op ++ (1 : BitVec 1) ++ w.p ++ w.d ++ w.a ++ w.b ++ w.f
/-- Register form of a V word. -/
def packV (op : BitVec 7) (w : VForm) : BitVec 32 := op ++ w.t ++ w.d ++ w.a ++ w.b ++ w.m ++ w.u
/-- Memory form of a V word. -/
def packVM (op : BitVec 7) (w : VMem) : BitVec 32 := op ++ w.t ++ w.d ++ w.r ++ w.o ++ w.m ++ w.i
/-- The word of MMA, MMAR, MMAD. -/
def packMma (op : BitVec 7) (w : MmaForm) : BitVec 64 :=
  op ++ w.p ++ w.da ++ w.db ++ w.acc ++ w.zero ++ (0 : BitVec 7) ++ w.west ++ w.mxa ++ w.mxb ++ w.blka ++ w.blkb
    ++ w.dsa ++ w.dsb ++ w.chm ++ w.chf ++ w.chp ++ w.bm ++ w.tap
/-- MDRAIN's word. -/
def packMdrain (w : MdrainForm) : BitVec 64 :=
  (0x05 : BitVec 7) ++ w.p ++ w.acc ++ w.dst ++ w.lay ++ w.ot ++ w.rm ++ w.sat ++ w.fen ++ w.fc ++ w.aen ++ w.amx
    ++ w.aclr ++ w.blk ++ w.dd ++ w.ds ++ w.cl ++ w.vbase ++ (0 : BitVec 4)
/-- The word of CPY to CREM. -/
def packC (op : BitVec 7) (w : CForm) : BitVec 64 :=
  op ++ w.p ++ w.dd ++ w.ds ++ w.walk ++ w.fen ++ w.fc ++ w.wait ++ w.warg ++ w.xo

/-- The slots of a bundle (R20). -/
inductive Slot where
  | s | v0 | v1 | m | c0 | c1
  deriving DecidableEq, Repr

/-- The words of one slot: a 32-bit word and the extension word of an S word, or a 64-bit word. -/
inductive SlotWords where
  | word (slot : Slot) (w : BitVec 32) (ext : Option (BitVec 32))
  | long (slot : Slot) (w : BitVec 64)
  deriving DecidableEq, Repr

/-- The V slot that field `v` stands for. -/
def vSlot (v : BitVec 1) : Slot := if v == 0 then .v0 else .v1
/-- The C slot that field `e` stands for. -/
def cSlot (e : BitVec 1) : Slot := if e == 0 then .c0 else .c1
/-- The extension word of a form that carries one only with X = 1. -/
def extOf (x : BitVec 1) (e : BitVec 32) : Option (BitVec 32) := if x == 1 then some e else none

/-- The words of an instruction; events have none. -/
def encode : Instr → Option SlotWords
  | .nop => some (.word .s 0 none)
  | .add w => some (.word .s (packR 0x01 w) none)
  | .sub w => some (.word .s (packR 0x02 w) none)
  | .mul w => some (.word .s (packR 0x03 w) none)
  | .mulh w => some (.word .s (packR 0x04 w) none)
  | .mulhn w => some (.word .s (packR 0x05 w) none)
  | .div w => some (.word .s (packR 0x06 w) none)
  | .divn w => some (.word .s (packR 0x07 w) none)
  | .rem w => some (.word .s (packR 0x08 w) none)
  | .remn w => some (.word .s (packR 0x09 w) none)
  | .and w => some (.word .s (packR 0x0A w) none)
  | .or w => some (.word .s (packR 0x0B w) none)
  | .xor w => some (.word .s (packR 0x0C w) none)
  | .shl w => some (.word .s (packR 0x0D w) none)
  | .shr w => some (.word .s (packR 0x0E w) none)
  | .sra w => some (.word .s (packR 0x0F w) none)
  | .min w => some (.word .s (packR 0x10 w) none)
  | .max w => some (.word .s (packR 0x11 w) none)
  | .minn w => some (.word .s (packR 0x12 w) none)
  | .maxn w => some (.word .s (packR 0x13 w) none)
  | .clz w => some (.word .s (packR 0x14 w) none)
  | .ctz w => some (.word .s (packR 0x15 w) none)
  | .popc w => some (.word .s (packR 0x16 w) none)
  | .sext w => some (.word .s (packR 0x17 w) none)
  | .zext w => some (.word .s (packR 0x18 w) none)
  | .sel w => some (.word .s (packX 0x19 w) (some w.ext))
  | .addi w => some (.word .s (packI 0x20 w) (extOf w.x w.ext))
  | .andi w => some (.word .s (packI 0x21 w) (extOf w.x w.ext))
  | .ori w => some (.word .s (packI 0x22 w) (extOf w.x w.ext))
  | .xori w => some (.word .s (packI 0x23 w) (extOf w.x w.ext))
  | .shli w => some (.word .s (packI 0x24 w) (extOf w.x w.ext))
  | .shri w => some (.word .s (packI 0x25 w) (extOf w.x w.ext))
  | .srai w => some (.word .s (packI 0x26 w) (extOf w.x w.ext))
  | .li w => some (.word .s (packI 0x27 w) (extOf w.x w.ext))
  | .lih w => some (.word .s (packI 0x28 w) (extOf w.x w.ext))
  | .cmp w => some (.word .s (packP 0x29 w) (extOf w.x w.ext))
  | .cmpi w => some (.word .s (packP 0x2A w) (extOf w.x w.ext))
  | .pand w => some (.word .s (packL 0 w) none)
  | .por w => some (.word .s (packL 1 w) none)
  | .pxor w => some (.word .s (packL 2 w) none)
  | .pnot w => some (.word .s (packL 3 w) none)
  | .pmov w => some (.word .s (packL 4 w) none)
  | .aadd w => some (.word .s (packI 0x2C w) (extOf w.x w.ext))
  | .amov w => some (.word .s (packR 0x2D w) none)
  | .astep w => some (.word .s (packI 0x2E w) (extOf w.x w.ext))
  | .lcset w => some (.word .s (packI 0x2F w) (extOf w.x w.ext))
  | .prep w => some (.word .s (packB 0x30 w) (extOf w.x w.ext))
  | .prepr w => some (.word .s (packB 0x31 w) (extOf w.x w.ext))
  | .go w => some (.word .s (packB 0x32 w) (extOf w.x w.ext))
  | .gol w => some (.word .s (packB 0x33 w) (extOf w.x w.ext))
  | .loop w => some (.word .s (packX 0x34 w) (some w.ext))
  | .endGroup w => some (.word .s (packR 0x35 w) none)
  | .wset w => some (.word .s (packR 0x36 w) none)
  | .wrot w => some (.word .s (packR 0x37 w) none)
  | .ld w => some (.word .s (packM 0x40 w) (extOf w.x w.ext))
  | .st w => some (.word .s (packM 0x41 w) (extOf w.x w.ext))
  | .ldPf w => some (.word .s (packM 0x42 w) (extOf w.x w.ext))
  | .ldc w => some (.word .s (packM 0x43 w) (extOf w.x w.ext))
  | .cinv w => some (.word .s (packR 0x44 w) none)
  | .lds w => some (.word .s (packM 0x45 w) (extOf w.x w.ext))
  | .sts w => some (.word .s (packM 0x46 w) (extOf w.x w.ext))
  | .ldsRaw w => some (.word .s (packM 0x47 w) (extOf w.x w.ext))
  | .amo w => some (.word .s (packX 0x48 w) (some w.ext))
  | .amos w => some (.word .s (packX 0x49 w) (some w.ext))
  | .fence w => some (.word .s (packR 0x4A w) none)
  | .fenceE w => some (.word .s (packR 0x4A w) none)
  | .cflush w => some (.word .s (packR 0x4B w) none)
  | .stflush w => some (.word .s (packR 0x4C w) none)
  | .spmap w => some (.word .s (packR 0x50 w) none)
  | .spunmap w => some (.word .s (packR 0x51 w) none)
  | .sppin w => some (.word .s (packR 0x52 w) none)
  | .spunpin w => some (.word .s (packR 0x53 w) none)
  | .spevict w => some (.word .s (packR 0x54 w) none)
  | .spfetch w => some (.word .s (packR 0x55 w) none)
  | .span w => some (.word .s (packR 0x56 w) none)
  | .curveld w => some (.word .s (packR 0x57 w) none)
  | .bmapld w => some (.word .s (packR 0x58 w) none)
  | .fwait w => some (.word .s (packR 0x60 w) none)
  | .fwaitMemory w => some (.word .s (packX 0x60 w) (some w.ext))
  | .fstat w => some (.word .s (packR 0x61 w) none)
  | .fpub w => some (.word .s (packX 0x62 w) (some w.ext))
  | .freset w => some (.word .s (packR 0x63 w) none)
  | .barinit w => some (.word .s (packR 0x64 w) none)
  | .baradd w => some (.word .s (packR 0x65 w) none)
  | .barwait w => some (.word .s (packR 0x66 w) none)
  | .qpost w => some (.word .s (packR 0x67 w) none)
  | .qtake w => some (.word .s (packR 0x68 w) none)
  | .spawn w => some (.word .s (packR 0x69 w) none)
  | .signal w => some (.word .s (packR 0x6A w) none)
  | .evwait w => some (.word .s (packR 0x6B w) none)
  | .yield w => some (.word .s (packR 0x6C w) none)
  | .mwait w => some (.word .s (packR 0x6D w) none)
  | .cwait w => some (.word .s (packR 0x6E w) none)
  | .rdcnt w => some (.word .s (packR 0x6F w) none)
  | .trap w => some (.word .s (packI 0x70 w) (extOf w.x w.ext))
  | .rte w => some (.word .s (packR 0x71 w) none)
  | .rdcause w => some (.word .s (packR 0x72 w) none)
  | .rdctl w => some (.word .s (packR 0x73 w) none)
  | .wrctl w => some (.word .s (packR 0x74 w) none)
  | .amaxrd w => some (.word .s (packR 0x75 w) none)
  | .amaxrdFront w => some (.word .s (packX 0x75 w) (some w.ext))
  | .vnop v => some (.word (vSlot v) 0 none)
  | .vadd w => some (.word (vSlot w.v) (packV 0x01 w) none)
  | .vsub w => some (.word (vSlot w.v) (packV 0x02 w) none)
  | .vmul w => some (.word (vSlot w.v) (packV 0x03 w) none)
  | .vfma w => some (.word (vSlot w.v) (packV 0x04 w) none)
  | .vfms w => some (.word (vSlot w.v) (packV 0x05 w) none)
  | .vfnma w => some (.word (vSlot w.v) (packV 0x06 w) none)
  | .vabs w => some (.word (vSlot w.v) (packV 0x07 w) none)
  | .vneg w => some (.word (vSlot w.v) (packV 0x08 w) none)
  | .vmin w => some (.word (vSlot w.v) (packV 0x09 w) none)
  | .vmax w => some (.word (vSlot w.v) (packV 0x0A w) none)
  | .vdiv w => some (.word (vSlot w.v) (packV 0x0B w) none)
  | .vsqrt w => some (.word (vSlot w.v) (packV 0x0C w) none)
  | .vrcp w => some (.word (vSlot w.v) (packV 0x0D w) none)
  | .vrsq w => some (.word (vSlot w.v) (packV 0x0E w) none)
  | .vcurve w => some (.word (vSlot w.v) (packV 0x0F w) none)
  | .vadds w => some (.word (vSlot w.v) (packV 0x10 w) none)
  | .vsubs w => some (.word (vSlot w.v) (packV 0x11 w) none)
  | .vmulh w => some (.word (vSlot w.v) (packV 0x12 w) none)
  | .vand w => some (.word (vSlot w.v) (packV 0x13 w) none)
  | .vor w => some (.word (vSlot w.v) (packV 0x14 w) none)
  | .vxor w => some (.word (vSlot w.v) (packV 0x15 w) none)
  | .vnot w => some (.word (vSlot w.v) (packV 0x16 w) none)
  | .vshl w => some (.word (vSlot w.v) (packV 0x17 w) none)
  | .vshr w => some (.word (vSlot w.v) (packV 0x18 w) none)
  | .vsra w => some (.word (vSlot w.v) (packV 0x19 w) none)
  | .vcmp w => some (.word (vSlot w.v) (packV 0x1A w) none)
  | .vsel w => some (.word (vSlot w.v) (packV 0x1B w) none)
  | .vcvt w => some (.word (vSlot w.v) (packV 0x1C w) none)
  | .vpack w => some (.word (vSlot w.v) (packV 0x1D w) none)
  | .vunpk w => some (.word (vSlot w.v) (packV 0x1E w) none)
  | .vrsum w => some (.word (vSlot w.v) (packV 0x20 w) none)
  | .vrmax w => some (.word (vSlot w.v) (packV 0x21 w) none)
  | .vrmin w => some (.word (vSlot w.v) (packV 0x22 w) none)
  | .vramax w => some (.word (vSlot w.v) (packV 0x23 w) none)
  | .vbcast w => some (.word (vSlot w.v) (packV 0x28 w) none)
  | .vdup w => some (.word (vSlot w.v) (packV 0x29 w) none)
  | .viota w => some (.word (vSlot w.v) (packV 0x2A w) none)
  | .vshuf w => some (.word (vSlot w.v) (packV 0x2B w) none)
  | .vlrot w => some (.word (vSlot w.v) (packV 0x2C w) none)
  | .vxmov w => some (.word (vSlot w.v) (packV 0x2D w) none)
  | .vext w => some (.word (vSlot w.v) (packV 0x2E w) none)
  | .vld w => some (.word (vSlot w.v) (packVM 0x30 w) none)
  | .vst w => some (.word (vSlot w.v) (packVM 0x31 w) none)
  | .vldr w => some (.word (vSlot w.v) (packVM 0x32 w) none)
  | .vgath w => some (.word (vSlot w.v) (packVM 0x33 w) none)
  | .vscat w => some (.word (vSlot w.v) (packVM 0x34 w) none)
  | .vacc w => some (.word (vSlot w.v) (packV 0x35 w) none)
  | .mma w => some (.long .m (packMma 0x01 w))
  | .mmar w => some (.long .m (packMma 0x02 w))
  | .mmad w => some (.long .m (packMma 0x03 w))
  | .mclr w => some (.long .m ((0x04 : BitVec 7) ++ w.p ++ w.amask ++ (0 : BitVec 49)))
  | .mdrain w => some (.long .m (packMdrain w))
  | .msetRbound w => some (.long .m ((0x06 : BitVec 7) ++ w.p ++ (0 : BitVec 3) ++ (0 : BitVec 34) ++ w.n))
  | .msetTap w => some (.long .m ((0x06 : BitVec 7) ++ w.p ++ (1 : BitVec 3) ++ (0 : BitVec 39) ++ w.fc ++ w.dt))
  | .msetNotap w => some (.long .m ((0x06 : BitVec 7) ++ w.p ++ (2 : BitVec 3) ++ (0 : BitVec 50)))
  | .cpy w => some (.long (cSlot w.e) (packC 0x01 w))
  | .cgath w => some (.long (cSlot w.e) (packC 0x02 w))
  | .cscat w => some (.long (cSlot w.e) (packC 0x03 w))
  | .cred w => some (.long (cSlot w.e) (packC 0x04 w))
  | .cfill w => some (.long (cSlot w.e) (packC 0x05 w))
  | .mcast w => some (.long (cSlot w.e) (packC 0x06 w))
  | .crem w => some (.long (cSlot w.e) (packC 0x07 w))
  | .cstop w => some (.long (cSlot w.e) ((0x08 : BitVec 7) ++ w.p ++ w.kind ++ w.fc ++ (0 : BitVec 45)))
  | _ => none

/-- The instruction that a slot's words decode to; a present word belongs to its own slot. -/
def decodeWords : SlotWords → Except DecErr Instr
  | .word .s w e => if (xOf w == 1) == e.isSome then decodeS w (e.getD 0) else .error .extension
  | .word .v0 w none => decodeV 0 w
  | .word .v1 w none => decodeV 1 w
  | .long .m w => decodeM w
  | .long .c0 w => decodeC 0 w
  | .long .c1 w => decodeC 1 w
  | _ => .error .field

/-! ### Bundles in memory (R19, R20) -/

/-- The header's fields (R19). -/
structure Header where
  present : BitVec 6
  rep : BitVec 6
  policy : BitVec 2
  step : BitVec 2
  rota : BitVec 4
  rotb : BitVec 4
  low : BitVec 8
  deriving DecidableEq, Repr

/-- The header word's fields. -/
def parseHeader (w : BitVec 32) : Header :=
  ⟨w.extractLsb' 26 6, w.extractLsb' 20 6, w.extractLsb' 18 2, w.extractLsb' 16 2, w.extractLsb' 12 4,
    w.extractLsb' 8 4, w.extractLsb' 0 8⟩
/-- The header word. -/
def packHeader (h : Header) : BitVec 32 := h.present ++ h.rep ++ h.policy ++ h.step ++ h.rota ++ h.rotb ++ h.low
/-- A header of R21 that is not illegal by itself. -/
def Header.ok (h : Header) : Bool := h.policy != 3 && decide (h.step.toNat < 2) && h.low == 0
def Header.hasS (h : Header) : Bool := h.present.getLsbD 5
def Header.hasV0 (h : Header) : Bool := h.present.getLsbD 4
def Header.hasV1 (h : Header) : Bool := h.present.getLsbD 3
def Header.hasM (h : Header) : Bool := h.present.getLsbD 2
def Header.hasC0 (h : Header) : Bool := h.present.getLsbD 1
def Header.hasC1 (h : Header) : Bool := h.present.getLsbD 0

/-- The words of a fetched bundle (R20), and its length in bytes. -/
structure Bundle where
  header : BitVec 32
  s : Option (BitVec 32)
  ext : Option (BitVec 32)
  v0 : Option (BitVec 32)
  v1 : Option (BitVec 32)
  m : Option (BitVec 64)
  c0 : Option (BitVec 64)
  c1 : Option (BitVec 64)
  deriving DecidableEq, Repr

/-- Its header's fields. -/
def Bundle.hdr (b : Bundle) : Header := parseHeader b.header
/-- Bytes of an optional word. -/
def optBytes {α : Type} (n : Nat) (o : Option α) : Nat := if o.isSome then n else 0
/-- Length in bytes, 4 to 44 (R20). -/
def Bundle.size (b : Bundle) : Nat :=
  4 + optBytes 4 b.s + optBytes 4 b.ext + optBytes 4 b.v0 + optBytes 4 b.v1 + optBytes 8 b.m + optBytes 8 b.c0
    + optBytes 8 b.c1

/-- A little-endian number from bytes, the first byte least significant (R20, R54). -/
def leNat : List (BitVec 8) → Nat
  | [] => 0
  | b :: bs => b.toNat + 256 * leNat bs
/-- `n` little-endian bytes of a number. -/
def leBytes : Nat → Nat → List (BitVec 8)
  | 0, _ => []
  | n + 1, x => BitVec.ofNat 8 x :: leBytes n (x / 256)

/-- A 32-bit word at the head of the bytes. -/
def take32 (bs : List (BitVec 8)) : BitVec 32 := BitVec.ofNat 32 (leNat (bs.take 4))
/-- A 64-bit word at the head of the bytes. -/
def take64 (bs : List (BitVec 8)) : BitVec 64 := BitVec.ofNat 64 (leNat (bs.take 8))

/-- Cut an optional 32-bit word from the bytes. -/
def cut32 (p : Bool) (bs : List (BitVec 8)) : Option (BitVec 32) × List (BitVec 8) :=
  if p then (some (take32 bs), bs.drop 4) else (none, bs)
/-- Cut an optional 64-bit word. -/
def cut64 (p : Bool) (bs : List (BitVec 8)) : Option (BitVec 64) × List (BitVec 8) :=
  if p then (some (take64 bs), bs.drop 8) else (none, bs)

/-- Cut a bundle from 44 bytes at its address, in the order of R20. -/
def cutBundle (bs : List (BitVec 8)) : Bundle :=
  let h := take32 bs
  let f := parseHeader h
  let r := bs.drop 4
  let s := cut32 f.hasS r
  let e := cut32 (match s.1 with | some w => xOf w == 1 | none => false) s.2
  let v0 := cut32 f.hasV0 e.2
  let v1 := cut32 f.hasV1 v0.2
  let m := cut64 f.hasM v1.2
  let c0 := cut64 f.hasC0 m.2
  let c1 := cut64 f.hasC1 c0.2
  ⟨h, s.1, e.1, v0.1, v1.1, m.1, c0.1, c1.1⟩

/-- The bytes of a bundle, in memory order (R20). -/
def bundleBytes (b : Bundle) : List (BitVec 8) :=
  let o32 := fun (o : Option (BitVec 32)) => match o with | some w => leBytes 4 w.toNat | none => []
  let o64 := fun (o : Option (BitVec 64)) => match o with | some w => leBytes 8 w.toNat | none => []
  leBytes 4 b.header.toNat ++ o32 b.s ++ o32 b.ext ++ o32 b.v0 ++ o32 b.v1 ++ o64 b.m ++ o64 b.c0 ++ o64 b.c1

/-- A header with one slot present, no repetition, POLICY hold (so that no latched V word issues beside it), and no
rotation. -/
def oneSlotHeader (slot : Slot) : BitVec 32 :=
  let p : BitVec 6 := match slot with
    | .s => 32 | .v0 => 16 | .v1 => 8 | .m => 4 | .c0 => 2 | .c1 => 1
  packHeader ⟨p, 0, 1, 0, 0, 0, 0⟩

/-- The bundle that holds one slot's words. -/
def oneSlotBundle : SlotWords → Bundle
  | .word .v0 w _ => ⟨oneSlotHeader .v0, none, none, some w, none, none, none, none⟩
  | .word .v1 w _ => ⟨oneSlotHeader .v1, none, none, none, some w, none, none, none⟩
  | .word k w e => ⟨oneSlotHeader k, some w, e, none, none, none, none, none⟩
  | .long .c0 w => ⟨oneSlotHeader .c0, none, none, none, none, none, some w, none⟩
  | .long .c1 w => ⟨oneSlotHeader .c1, none, none, none, none, none, none, some w⟩
  | .long k w => ⟨oneSlotHeader k, none, none, none, none, some w, none, none⟩

/-- The result of a decoder as an option. -/
def okOf (r : Except DecErr Instr) : Option Instr := match r with | .ok i => some i | .error _ => none

/-- The slot words that `w` stands for when only its bits are given: an S word (with its extension word above it when
X is 1); else a V word in V0; else an M word; else a C word of copy engine 0. A 32-bit word may be legal in both kinds
of slot, and then it is read as an S word. -/
def tableWords (nbits w : Nat) : Option (SlotWords × Instr) :=
  let lo := BitVec.ofNat 32 w
  let s : SlotWords := .word .s lo (if xOf lo == 1 then some (BitVec.ofNat 32 (w / 2 ^ 32)) else none)
  let l := BitVec.ofNat 64 w
  let try1 := fun (c : SlotWords) => (okOf (decodeWords c)).map fun i => (c, i)
  if nbits ≤ 32 then (try1 s).or (try1 (.word .v0 lo none))
  else ((try1 s).or (try1 (.long .m l))).or (try1 (.long .c0 l))

/-- The instruction the decoder reads from a word given by its bits alone. -/
def decodeTableWord (nbits w : Nat) : Option Instr := (tableWords nbits w).map (·.2)

end Sys2Proof
end

