-- ==== Sys2Proof/Machine/State.lean ====
section
/-! DEFINITION. The state of the machine: plain data, holding all that the spec gives the module, and the state
after reset. INVENTORY.md lists every field with its rule. -/

namespace Sys2Proof.Machine

/-! ### Descriptors, ranges, curves -/

/-- A span descriptor (R148). -/
structure Desc where
  valid : Bool := false
  inj : Bool := false
  rp : Bool := false
  wp : Bool := false
  peer : Nat := 0
  base : Nat := 0
  etype : BitVec 4 := 0
  rank : Nat := 0
  space : Nat := 0
  strides : List Int := []
  extents : List Nat := []
  deriving DecidableEq, Repr

/-- A range register (R188). -/
structure Range where
  valid : Bool := false
  base : Nat := 0
  limit : Nat := 0
  r : Bool := false
  w : Bool := false
  c : Bool := false
  offset : Nat := 0
  deriving DecidableEq, Repr

/-- A curve (R310): LO, INVW, POLICY, and 64 segments (SLOPE, ICPT), all FP32 encodings. -/
structure Curve where
  lo : BitVec 32 := 0
  invw : BitVec 32 := 0x3F800000
  clamp : Bool := false
  segs : List (BitVec 32 × BitVec 32) := []
  deriving DecidableEq, Repr

/-- A buffer of the image's plan (R408), its live range as text offsets (R412). -/
structure Buffer where
  first : Nat
  pages : Nat
  live : Option (Nat × Nat) := none
  banks : Nat := 0
  deriving DecidableEq, Repr

/-! ### Sequencing and results in flight -/

/-- A pending transfer (R37). -/
structure Xfer where
  taken : Bool
  target : BitVec 32
  left : Nat
  deriving DecidableEq, Repr

/-- The loop state (R39, R85): where the body starts, its length and depth, the mask, the index at each level, the body
bundle at hand, and the bundles captured with their text offsets (R38). -/
structure LoopSt where
  body : BitVec 32
  len : Nat
  depth : Nat
  amask : BitVec 32
  idx : List Nat
  pos : Nat
  buf : List (BitVec 32 × Bundle)
  /-- Set by RTE and by a restore: the LOOP words are to be read back (R85). -/
  reload : Bool := false
  deriving DecidableEq, Repr

/-- What follows a bundle's issue: the trap of TRAP with its immediate, RTE, END, or the pre-emption of a YIELD (R90, R161,
R162, R290). -/
inductive After where
  | trap (imm : BitVec 64) | rte | endGroup | yield
  deriving DecidableEq, Repr

/-- Where a result in flight lands (R155 KIND). -/
inductive VKind where
  | vec | qreg | scalar
  deriving DecidableEq, Repr

/-- A vector result in flight (R97, R155). `data` are the lanes (or the low word's outcomes for a q register), `word` the
V word, `lfl` the flags of each lane, `acc` the accumulator row that a VACC still reads (R114). -/
structure VRec where
  kind : VKind
  slot : BitVec 1
  cl : BitVec 1
  dest : Nat
  mask : BitVec 64
  data : Vec
  value : BitVec 64
  lfl : List (BitVec 5)
  rem : Nat
  word : BitVec 32
  acc : Option Nat
  bad : BitVec 64
  deriving DecidableEq, Repr

/-- The stage of an access, as TSTAGE records it (R152). -/
structure Stage where
  agent : Nat := 6
  walk : Bool := false
  write : Bool := false
  stage : Nat := 0
  deriving DecidableEq, Repr

/-- The access that a deferred-access record keeps (R195): a load, an LDC, an atomic, or (for poison, R357) a scratchpad
load or atomic. -/
inductive DefAccess where
  | load (va size : Nat) (zeroExt : Bool)
  | const (va size : Nat) (zeroExt : Bool)
  | atomic (va size : Nat) (op scope : Nat) (x c : BitVec 64)
  | spad (sva size : Nat) (zeroExt : Bool)
  | spadAtomic (sva size : Nat) (op : Nat) (x c : BitVec 64)
  deriving DecidableEq, Repr

/-- A deferred-access record (R195, R196): no cause for an access cancelled while it waited on a stage-2 record. -/
structure DefRec where
  access : DefAccess
  va : Nat
  cause : Option Nat
  stage : Stage
  order : Nat
  /-- It is an acquire (R213). -/
  acq : Bool := false
  /-- A younger access of its core to its bytes has been performed since it read poison: it is not performed again (R211, R212). -/
  once : Bool := false
  deriving DecidableEq, Repr

/-- What lands in a scalar register (R73), by its index in the file `Core.s`: a value, perhaps with a deferred-access
record. -/
structure SPend where
  dest : Nat
  value : BitVec 64
  record : Option DefRec
  /-- The access waits at the memory side on the fault record with this identity (R196). -/
  waits : Option Nat
  /-- It is an acquire: accesses after it are performed after it (R213). -/
  acq : Bool := false
  deriving DecidableEq, Repr

/-- An operation of the multiply-divide unit (R72). -/
structure MulDiv where
  dest : Nat
  divide : Bool
  value : BitVec 64
  deriving DecidableEq, Repr

/-- What a parked entry replays (R197, R288). -/
inductive ParkOp where
  | store | amo (op scope : Nat) (c : BitVec 64) | flush (fn : Nat) | signal (cls : Nat)
  deriving DecidableEq, Repr

/-- A parked store (R197); `cause` is 0 while it waits on a fault record (R196), and then `waits` names the record. -/
structure Parked where
  va : Nat
  size : Nat
  data : BitVec 64
  op : ParkOp
  cause : Nat
  stage : Stage
  waits : Option Nat := none
  /-- Its place in the issue order of the core's accesses (R197, R224). -/
  order : Nat := 0
  /-- It is an acquire: an AMO with .acq or .ar whose destination is s0 (R213). -/
  acq : Bool := false
  /-- Bytes of a store that a later write of an engine has replaced: the replay leaves them (R387). -/
  gone : BitVec 8 := 0
  deriving DecidableEq, Repr

/-- A record of the S slot's signature (R366): it waits for an atomic that was issued before it and has not been performed, or is that
of the atomic itself, whose bytes are not known yet. -/
structure SigRec where
  order : Nat
  addr : Nat
  bytes : Option (List (BitVec 8))
  deriving DecidableEq, Repr

/-- A touch that waits for its page, in the order of arrival at a pager (R176): when it began, the core whose pager it is, and the page
there. -/
structure PageWait where
  since : Nat
  pager : Nat
  page : Nat
  deriving DecidableEq, Repr

/-- A pending asynchronous cause (R160, R173). `lvl1` tells that it was raised at handler level and is held. -/
structure Async where
  cause : Nat
  tval : BitVec 64
  stage : Stage
  deriving DecidableEq, Repr

/-- The group's sequencing state and records as a trap saves them (R41, R155, R156). -/
structure TrapSt where
  owed : Nat
  xfer : Option Xfer
  loop : Option LoopSt
  latch0 : BitVec 32
  latch1 : BitVec 32
  vwa : Nat
  vwb : Nat
  srcnt : BitVec 32
  records : List VRec
  since : Nat := 0
  deriving DecidableEq, Repr

/-- What the core's group is doing (R14, R90, R158, R281). -/
inductive Run where
  | idle | running | ended | stopped | killed | retired | frozen
  deriving DecidableEq, Repr, Inhabited

/-- The core and the group bound to it. -/
structure Core where
  num : Nat := 0
  run : Run := .idle
  fresh : Bool := true
  -- sequencing
  pc : BitVec 32 := 0
  /-- Issues already made of the bundle at PC. -/
  made : Nat := 0
  /-- Issues owed of the bundle at PC when RTE or a restore fixed them; 0: REPEAT + 1 as its header gives. -/
  owed : Nat := 0
  cur : Option Bundle := none
  /-- Where fetch goes on after the bundle at hand: set by a zero-trip LOOP (R85), consumed when its bundle has issued. -/
  jump : Option (BitVec 32) := none
  /-- What TRAP, RTE or END does once every slot of its bundle has issued (R90, R161, R162). -/
  after : Option After := none
  xfer : Option Xfer := none
  loop : Option LoopSt := none
  latch0 : BitVec 32 := 0
  latch1 : BitVec 32 := 0
  -- scalar side (R68)
  /-- s0 to s63 of the group bank at 0 to 63; s48 to s63 of the handler bank at 112 to 127 (R69, R155: the bank in bit 6). -/
  s : Sparse (BitVec 64) := []
  pr : BitVec 16 := 0
  br : Sparse (Option (BitVec 32)) := []
  a : Sparse (BitVec 32) := []
  step : Sparse (BitVec 32) := []
  lc : Sparse (BitVec 32) := []
  muldiv : List MulDiv := []
  pend : List SPend := []
  -- vector side (R94)
  va : Sparse Vec := []
  vb : Sparse Vec := []
  bad : Sparse Bool := []
  vwa : Nat := 0
  vwb : Nat := 0
  q : Sparse (BitVec 64) := []
  vrm : BitVec 64 := 0
  vfly : List VRec := []
  seed : BitVec 64 := 0
  srcnt : BitVec 32 := 0
  -- descriptors, control and trap registers (R147, R151)
  d : Sparse Desc := []
  lvl : Bool := false
  clk : Bool := false
  cause : BitVec 64 := 0
  tval : BitVec 64 := 0
  tstage : BitVec 64 := 0
  tpc : BitVec 32 := 0
  thb : BitVec 32 := 1
  qmode : BitVec 2 := 0
  rbound : Nat := 65536
  chaselim : BitVec 32 := 65536
  group : BitVec 64 := 0
  gang : BitVec 64 := 0
  node : BitVec 64 := 0
  args : BitVec 64 := 0
  rqtag : BitVec 16 := 0
  part : BitVec 5 := 0
  cycle : BitVec 64 := 0
  retired : BitVec 64 := 0
  tstate : Option TrapSt := none
  held : List Async := []
  -- the global path (R189)
  rg : Sparse Range := []
  textva : Nat := 0
  imgid : BitVec 64 := 0
  plan : List Buffer := []
  s1root : BitVec 64 := 0
  sptva : Nat := 0
  parked : List Parked := []
  defrec : Sparse (Option DefRec) := []
  pins : List Nat := []
  -- tables (R293)
  curve : Sparse Curve := []
  bmap : Sparse (Option (List (BitVec 32))) := []
  -- counters 2 to 8 of R339, and the chase timer of the bundle (R327)
  cnt : Sparse (BitVec 64) := []
  timer : Nat := 0
  /-- The VALUE of the front waited on at the timer's last tick, and that front by owner and number. -/
  timerAt : Nat := 0
  waitOn : Option (Option Nat × Nat) := none
  /-- The binding waited on has broken, or has completed, since (R322, R333). -/
  waitBroken : Bool := false
  waitDone : Bool := false
  /-- The barrier that the bundle at hand waits on, by owner and own SVA, and whether it has been open since (R337, R338). -/
  waitBar : Option (Bool × Nat) := none
  barMet : Bool := false
  /-- The order in which the bundle at hand was begun: commands with a later stamp are its own (R206, R260, R291). -/
  since : Nat := 0
  /-- The page instruction in the S slot of the bundle at hand has been performed for the issue that is due: its register results, by
  index in the file (R187). -/
  paged : Option (List (Nat × BitVec 64)) := none
  /-- The page that the bundle at hand waits for (R176). -/
  pw : Option PageWait := none
  /-- The stalled enqueues of the bundle at PC that counters 6 and 7 have counted: bit 0 C0, bit 1 C1. -/
  qstall : BitVec 2 := 0
  -- signatures of R366, by number 0 to 4: S, V, M, C0, C1
  sig : Sparse (BitVec 64) := []
  /-- Records of the first that wait, in program order. -/
  sigq : List SigRec := []
  deriving DecidableEq, Repr, Inhabited

/-! ### Scratchpad -/

/-- A scratchpad and its page table (R169 to R171, R294). -/
structure Spad where
  /-- Bytes by physical address, page × 4096 + offset. -/
  phys : Sparse (BitVec 8) := []
  /-- SPT entries by own page index, as the scratchpad TLB and the pager have them. -/
  spt : Sparse (BitVec 64) := []
  /-- The entries as the device last wrote them to the SPT in global memory (R170). -/
  back : Sparse (BitVec 64) := []
  /-- Last-touch stamps by physical page. -/
  stamp : Sparse Nat := []
  /-- Stash line states by physical page × 64 + line: bit 0 valid, bit 1 dirty. -/
  line : Sparse (BitVec 2) := []
  /-- Poisoned 8-byte words by physical address / 8. -/
  poison : Sparse Bool := []
  deriving DecidableEq, Repr, Inhabited

/-! ### Fronts and engine commands -/

/-- STATE of a front (R316). -/
inductive FState where
  | idle | running | halted | complete | broken
  deriving DecidableEq, Repr

/-- KIND of a front (R316). -/
inductive FKind where
  | span | ack | tap
  deriving DecidableEq, Repr

/-- A front counter (R316), the span bound to it and the own pages it tagged (R319). -/
structure Front where
  gen : BitVec 16 := 0
  value : Nat := 0
  state : FState := .idle
  cause : Nat := 0
  pscope : Nat := 0
  pgran : Nat := 0
  pub : Bool := false
  tagged : Bool := false
  limit : Nat := 0
  prod : Nat := 0
  pva : Nat := 0
  walk : List Nat := []
  kind : FKind := .span
  span : Option Desc := none
  pages : List Nat := []
  /-- The fault record that a mirror write waits on; the write is made again, with the state then, once it is resolved (R332). -/
  mwait : Option Nat := none
  /-- A mirror write waits for its line to be rebuilt after the loss of a die (R240). -/
  mlate : Bool := false
  deriving DecidableEq, Repr

/-- Why an engine command is suspended: the front's halt cause (R317), the address, the fault record it waits on, and
whether only a cancellation ends it (R194, R253). -/
structure Susp where
  cause : Nat
  addr : Nat
  waits : Option Nat := none
  stay : Bool := false
  /-- It is a write that waits. -/
  write : Bool := false
  /-- The other scratchpad addresses that the access needs (R174). -/
  need : List Nat := []
  /-- The page that it waits for (R176). -/
  pw : Option PageWait := none
  deriving DecidableEq, Repr

/-- A suspension. -/
def suspAt (cause addr : Nat) (waits : Option Nat) (stay write : Bool) : Susp :=
  { cause := cause, addr := addr, waits := waits, stay := stay, write := write }

/-- A command in an engine's queue (R123, R125, R242, R243): its instruction and word, the captured descriptors, values,
branch map, tap configuration, RBOUND, rounding mode and draw key, the captured generation of the front it chases or is
armed on, its arming record, its age, and its position. -/
structure Cmd where
  ins : Instr
  word : BitVec 64
  descs : List Desc := []
  vals : List (BitVec 64) := []
  bmap : List (BitVec 32) := []
  tap : Option (Desc × Nat) := none
  rbound : Nat := 65536
  mode : BitVec 3 := 0
  srBase : BitVec 32 := 0
  seed : BitVec 64 := 0
  gen : BitVec 16 := 0
  /-- The front it chases or is armed on, by owner and number; its binding of generation `gen` has completed or broken. -/
  armOn : Option (Option Nat × Nat) := none
  armDone : Bool := false
  armBroken : Bool := false
  stamp : Nat := 0
  tag : BitVec 16 := 0
  /-- Receivers of an MCAST, by group index (R256). -/
  recv : List Nat := []
  front : Option Nat := none
  started : Bool := false
  /-- Walk index of the next element (copies and drains). -/
  pos : Nat := 0
  /-- Chunk, row, branch and phase (0 product, 1 curve and taps, 2 finished) of a product. -/
  chunk : Nat := 0
  row : Nat := 0
  branch : Nat := 0
  phase : Nat := 0
  /-- The tree element at a faulted tap element is already written (R136). -/
  treeDone : Bool := false
  susp : Option Susp := none
  /-- The front it waits on at a chased read: the owner (none: the own group; else a gang position) and its number;
  the chase timer, and the VALUE at its last tick (R327). -/
  waitOn : Option (Option Nat × Nat) := none
  /-- The VALUE that covers what it waits for. -/
  waitNeed : Nat := 0
  timer : Nat := 0
  timerAt : Nat := 0
  /-- Receivers whose acknowledgement has been counted (MCAST), elements acknowledged (CREM). -/
  acked : List Nat := []
  cacked : Nat := 0
  deriving DecidableEq, Repr

/-- The resident latch (R123, R131, R132): the captured B operand of the last chunk. -/
structure Latch where
  etype : BitVec 4
  west : Bool
  n : Nat
  kcount : Nat
  mx : Bool
  blk : Nat
  /-- Element encodings by k × 64 + j, and poison. -/
  data : Sparse (BitVec 32)
  bad : Bool
  /-- Scale bytes by (k / blk) × 64 + j. -/
  scales : Sparse (BitVec 32)
  deriving DecidableEq, Repr

/-- A delivery of an MCAST that waits, whose receiver has been told why: when the wait began, and the receiver's core (R176, R256). -/
structure Told where
  delivery : Delivery
  since : Nat
  pager : Nat
  deriving DecidableEq, Repr

/-- The engines and the front unit. -/
structure Eng where
  /-- Accumulator bits by acc × 4096 + 64 × i + j. -/
  acc : Sparse (BitVec 32) := []
  /-- Poison bits by acc × 64 + row. -/
  accBad : Sparse Bool := []
  latch : Option Latch := none
  /-- The staging latch: the chunk that the running product streams (not architectural). -/
  staging : Option Latch := none
  /-- The accumulators with their poison bits as they stood at the start of the running chunk (R145; not architectural). -/
  shadow : Option (Sparse (BitVec 32) × Sparse Bool) := none
  amax : Sparse (BitVec 32) := []
  tap : Option (Desc × Nat) := none
  mq : List Cmd := []
  c0q : List Cmd := []
  c1q : List Cmd := []
  fc : Sparse Front := []
  /-- Multicast deliveries on their way, with the engine that sent them (R256). -/
  flight : List (Nat × Delivery) := []
  /-- Those of them that wait at their receivers. -/
  told : List Told := []
  /-- Elements of a CREM sent and not yet acknowledged, per engine (R257). -/
  crem : Sparse Nat := []
  /-- What has left on the Kretan ports and is not acknowledged, oldest first, by engine (3: its command was cancelled). -/
  sent : List (Nat × KretanElem) := []
  deriving DecidableEq, Repr, Inhabited

/-- A group on another core, whole: its core, scratchpad and engines (R14, R168, R256). A retired one is kept, for its fronts,
while its gang has groups left (R168); a slot whose core is idle holds no group. -/
structure Other where
  ctx : Core := {}
  spad : Spad := {}
  eng : Eng := {}
  sepDomain : Bool := false
  deriving DecidableEq, Repr

/-! ### Caches and coherence -/

/-- An L1 line of a core (R189): valid, its WP copy, whether it holds data not yet in L2, and whether this copy is poisoned
(R239), by its 8-byte words (R354). The data are those of `Mem.bytes`. -/
structure L1Line where
  valid : Bool := false
  wp : Bool := false
  dirty : Bool := false
  bad : BitVec 8 := 0
  deriving DecidableEq, Repr

/-- Stable state of a line in a die (R228). -/
inductive DState where
  | i | s | o | e | m
  deriving DecidableEq, Repr

/-- Transient state of a line in a die (R231). -/
inductive TState where
  | none | is | im | sm | rc | wb | hs | hm
  deriving DecidableEq, Repr

/-- What a foreign request asks for (R230, R234). -/
inductive Ask where
  | read | write | reduce
  deriving DecidableEq, Repr

/-- What reduce state a line is in (R234): CRED's OP code, element code, mode. -/
structure RedKey where
  op : Nat
  etype : BitVec 4
  fast : Bool
  deriving DecidableEq, Repr

/-- A partial (R234, R235), by element of the line: the exact value, or the last rounded one in fast mode. -/
structure Partial where
  die : Nat
  spilled : Bool
  /-- Its place in the order of arrival at the merge, for fast mode. -/
  order : Nat
  vals : Sparse Val
  deriving DecidableEq, Repr

/-- A line as one die's L2 and directory hold it (R225, R228); `prev` is the transient state that RC was entered from. -/
structure DieLine where
  trans : TState := .none
  prev : TState := .none
  tokens : Nat := 0
  owner : Bool := false
  reduce : Option RedKey := none
  /-- Data have come with a token (R227). -/
  data : Bool := false
  wp : Bool := false
  dirty : BitVec 4 := 0
  sharers : BitVec 16 := 0
  parityBad : Bool := false
  writer : Option Nat := none
  /-- Clusters whose acknowledgement is awaited (R229). -/
  awaits : List Nat := []
  /-- Foreign requests held while in RC, with the requester (R231). -/
  heldReq : List (Ask × Nat) := []
  /-- The activation sequence number seen and still in force, and the latest deactivation seen (R232). -/
  activeFor : Option (Nat × Nat) := none
  deact : Nat := 0
  deriving DecidableEq, Repr

/-- A message with tokens of a line (R226, R227): to a die, home, the control die. -/
structure TokMsg where
  line : Nat
  dst : Holder
  tokens : Nat
  owner : Bool
  data : Bool
  dirty : BitVec 4
  reduce : Option RedKey
  /-- The die that sent it, as R369 numbers dies, and its sequence number (R238). -/
  src : Nat := 0
  seq : Nat := 0
  deriving DecidableEq, Repr

/-- A 256-byte line's coherence state (R225): the dies, the home, the control die, the watch table, the hawser queue, and
the machine address that its copies were filled from. -/
structure Line where
  pa : Nat := 0
  dies : Sparse DieLine := []
  homeTok : Nat := 16
  homeOwner : Bool := true
  homeDirty : Bool := false
  homeReduce : Option RedKey := none
  ctlTok : Nat := 0
  ctlOwner : Bool := false
  ctlData : Bool := false
  ctlDirty : BitVec 4 := 0
  ctlReduce : Option RedKey := none
  watched : Bool := false
  haw : Option Nat := none
  hawQ : List Nat := []
  hawSeq : Nat := 0
  hawDeact : Nat := 0
  partials : List Partial := []
  /-- Write-backs sent to the home and not yet acknowledged, by die: the sectors (R231, R233). -/
  wbs : Sparse (BitVec 4) := []
  /-- The key that its copies were filled with, 0 for plain (R297). -/
  key : Nat := 0
  deriving DecidableEq, Repr

/-- Power state of a link (R225, R237). -/
inductive Power where
  | active | dozing | sleeping | retraining | failed
  deriving DecidableEq, Repr

/-- A Pontoon link's end (R225, R237, R238), with how often each unacknowledged flit has been replayed, by its sequence number. -/
structure Link where
  power : Power := .active
  trains : Nat := 0
  replays : Sparse Nat := []
  rerouted : Bool := false
  /-- The protocol revision that the two dies negotiated at boot (R379). -/
  rev : Option Nat := none
  deriving DecidableEq, Repr

/-- An entry of a translation cache (R299), per 64 KiB of IA: the base die, the IA page, the machine address and the GPA of its first
byte, what each stage grants (bit 0 R, 1 W, 2 C), and the page's key, 0 for plain (R297). -/
structure TEntry where
  die : Nat
  iapage : Nat
  pa : Nat
  gpa : Nat
  p1 : BitVec 3
  p2 : BitVec 3
  key : Nat
  deriving DecidableEq, Repr

/-- Machine memory, caches, tokens and links. -/
structure Mem where
  /-- The coherent value of every byte of machine memory, as L2 and the tokens hold it. -/
  bytes : Sparse (BitVec 8) := []
  /-- The bytes of the stacks' own image where it differs from the coherent one (what no cache has written back yet,
  R233). -/
  stale : Sparse (Option (BitVec 8)) := []
  /-- What L2 holds of the bytes that a dirty L1 line of a core or a dirty stash line covers (R396). -/
  under : Sparse (Option (BitVec 8)) := []
  /-- Poisoned 64-byte sectors, by PA / 64 (R354). -/
  poison : Sparse Bool := []
  /-- L1 lines of every core, by core × 2^46 + IA / 64. -/
  l1 : Sparse L1Line := []
  /-- The constant caches: lines of 64 bytes, by core and IA / 64 (R201), and which of them hold poison. -/
  cc : Sparse (List (BitVec 8)) := []
  ccBad : Sparse Bool := []
  /-- The instruction caches: by core and IA / 64, the image identifier that tags a line and its bytes (R201, R282). -/
  ic : Sparse (BitVec 64 × List (BitVec 8)) := []
  lines : Sparse Line := []
  msgs : List TokMsg := []
  /-- Copies of messages that were sent again by another path (R238), and the next sequence number. -/
  resent : List TokMsg := []
  nextSeq : Nat := 0
  tcache : List TEntry := []
  /-- By 64 KiB page of machine memory: the key under which `bytes` shows it, 0 for plain (R297). -/
  keys : Sparse Nat := []
  /-- Link ends: end i of die d at d × 64 + i. -/
  links : Sparse Link := []
  lost : List Nat := []
  /-- An access of the step under way met a line that waits for its tokens to be rebuilt (R240), or one that another party's core holds
  pinned (R222): the step does not take place. -/
  blocked : Bool := false
  /-- It was a pinned line. -/
  stood : Bool := false
  /-- Lines on which a party stands in a retry, since a core holds them pinned (R222). -/
  retry : List Nat := []
  deriving DecidableEq, Repr

/-! ### The control die, the host's windows, errors -/

/-- A partition (R373 to R376). -/
structure Part where
  live : Bool := false
  clusters : List Nat := []
  rootva : Nat := 0
  rootUp : Bool := false
  s2root : BitVec 64 := 0
  /-- The number of its AES-256-XTS key, 0 for none (R373). -/
  key : Nat := 0
  weight : Nat := 0
  ports : BitVec 18 := 0
  funcmode : BitVec 64 := 0
  audit : Option Nat := none
  /-- Peer-table entries: ARG, ARG2 (R376). -/
  peers : Sparse (BitVec 64 × BitVec 64) := []
  free2 : Nat := 0
  ret2 : Nat := 0
  free1 : Nat := 0
  ret1 : Nat := 0
  logBase : Nat := 0
  logPages : Nat := 0
  armed : Bool := false
  ovf : Bool := false
  vfs : List Nat := []
  /-- The reservation of R275: node, gang, cluster. -/
  reserve : Option (Nat × Nat × Nat) := none
  roundDue : Bool := false
  /-- Lost dies whose lines wait for the host's TOKREBUILD (R240). -/
  tokWait : List Nat := []
  deriving DecidableEq, Repr

/-- A function's control window (R370); number 0 is the physical function's queue (R369). -/
structure Vf where
  part : Option Nat := none
  iabase : Nat := 0
  iapages : Nat := 0
  invctl : Nat := 0
  qbase : Nat := 0
  qsize : Nat := 0
  /-- SEQ of the next record. -/
  prod : Nat := 0
  landFree : BitVec 64 := 0
  landRet : BitVec 64 := 0
  /-- MSI-X table words by offset / 8, each as its difference from its reset value, and the pending bits (R370). -/
  msix : Sparse (BitVec 64) := []
  pba : BitVec 32 := 0
  down : Bool := false
  deriving DecidableEq, Repr

/-- Who waits on a fault record (R196, R303); `gone`: the access was dropped with its context. -/
inductive FWaiter where
  | scalar (dest : Nat) | fetch | store | engine (e : Engine) | mirror (f : Nat) | other | gone
  deriving DecidableEq, Repr

/-- An outstanding fault record (R302): its identity in the model, its queue (0 the physical function's, else the VF's
number) and SEQ; `sent` is false while the ring is full (R370). -/
structure FRec where
  id : Nat
  queue : Nat
  seq : Nat
  sent : Bool
  rqtag : BitVec 16
  code : Nat
  part : Nat
  stage : Stage
  poison : Bool
  moved : Bool
  ia : Nat
  gpa : Nat
  core : Nat
  group : Nat
  waiter : FWaiter
  /-- FUNCMODE.S1FLT of its partition when the fault was raised (R375). -/
  s1flt : Bool := false
  /-- Resolved by being forwarded to the guest (R303): the core's retried access raises 0x11. -/
  fwd : Bool := false
  deriving DecidableEq, Repr

/-- A command slot (R341). -/
structure CmdSlot where
  w0 : BitVec 64 := 0
  node : BitVec 64 := 0
  arg : BitVec 64 := 0
  arg2 : BitVec 64 := 0
  status : Nat := 0
  deriving DecidableEq, Repr

/-- Effective values of an admitted node (R265). -/
structure Eff where
  cores : Nat := 0
  pages : Nat := 0
  bw : Nat := 0
  prio : Nat := 0
  domain : Nat := 0
  tag : BitVec 16 := 0
  deriving DecidableEq, Repr

/-- What the scheduler keeps of a node (R263, R264 0xA0 to 0xFF, R273 to R280), by the node's VA within its partition. -/
structure NodeRt where
  part : Nat := 0
  parent : Nat := 0
  launch : Bool := false
  eff : Eff := {}
  ownBudget : Bool := false
  split : Bool := false
  gangsz : Nat := 1
  count : Nat := 0
  pagesPer : Nat := 0
  image : Nat := 0
  /-- When the node was admitted, in the order of admissions (R267). -/
  admitted : Nat := 0
  svc : Bool := false
  /-- Gangs waiting to be placed, in increasing index: never placed, or pre-empted (R273). -/
  todo : List Nat := []
  /-- Parked gangs with what each member waits on: a queue (true) by number, or an event (false) by VA (R279). -/
  parked : List (Nat × List (Bool × Nat)) := []
  /-- Gangs being pre-empted, and whether they are to be parked (R278, R279). -/
  leaving : List (Nat × Bool) := []
  /-- Groups whose image slot holds their saved state (R278, R352). -/
  saved : List Nat := []
  /-- Those of them that a RESTORE loaded and that have not run since (R352). -/
  restored : List Nat := []
  /-- What the scheduler has allocated for its groups: the group, first IA offset, size (R170, R412). -/
  given : List (Nat × Nat × Nat) := []
  /-- Indices of the retired groups. -/
  retired : List Nat := []
  /-- Groups that a fatal fault has stopped (R368). -/
  dead : Nat := 0
  /-- A function-level reset has killed the node, which counts as complete (R395). -/
  wiped : Bool := false
  deficit : Nat := 0
  rrpos : Nat := 0
  halted : Bool := false
  /-- Rounds that a gang has stayed unplaced for at the highest wanting priority (R275). -/
  unplaced : Sparse Nat := []
  sample : BitVec 64 := 0
  stuckMs : Nat := 0
  forced : Bool := false
  strikes : Nat := 0
  strikeLim : Nat := 0
  lim1 : Nat := 0
  lim2 : Nat := 0
  saving : Bool := false
  /-- An expiry of LIM1, and one of LIM2, latched during a SAVE (R350). -/
  wdpend : Bool := false
  lim2pend : Bool := false
  auditing : List Nat := []
  auditable : Bool := false
  done : Bool := false
  deriving DecidableEq, Repr

/-- A group placed on a core (R274); `wait` is what its bundle waits on while it stalls in QTAKE (true, a queue's number) or
EVWAIT (false, an event's VA) (R279). -/
structure Placed where
  core : Nat
  node : Nat
  index : Nat
  gang : Nat
  order : Nat
  wait : Option (Bool × Nat)
  progress : BitVec 64
  deriving DecidableEq, Repr

/-- A task queue entry (R283). -/
structure Task where
  tag : BitVec 16
  key : Nat
  payload : BitVec 64
  /-- VA of the node whose group posted it (R377 step 6). -/
  node : Nat
  deriving DecidableEq, Repr

/-- An error-record bank (R360). -/
structure Bank where
  v : Bool := false
  rank : Nat := 0
  ovf : Bool := false
  cls : Nat := 0
  code : Nat := 0
  count : Nat := 0
  addr : Nat := 0
  syndrome : BitVec 64 := 0
  aspace : Nat := 0
  utype : Nat := 0
  uindex : Nat := 0
  rqtag : BitVec 16 := 0xFFFF
  part : Nat := 0
  time : Nat := 0
  deriving DecidableEq, Repr

/-- A unit of the module (R360 UTYPE, UINDEX) on a die as R369 numbers dies. -/
structure UnitId where
  die : Nat
  utype : Nat
  uindex : Nat
  deriving DecidableEq, Repr

/-- The five signatures of a group's first run, with its core (R366, R367). -/
structure AuditRun where
  node : Nat
  gang : Nat
  core : Nat
  index : Nat
  sigs : List (BitVec 64)
  deriving DecidableEq, Repr

/-- A group of a gang that is replayed for audit, by its node's key, on a core (R367). -/
structure Replay where
  core : Nat
  node : Nat
  gang : Nat
  index : Nat
  order : Nat
  deriving DecidableEq, Repr

/-- Boot state (R379). -/
inductive BootSt where
  | off | recovery | up
  deriving DecidableEq, Repr

/-- The control die and the host's windows. -/
structure Sys where
  parts : Sparse Part := []
  /-- Keys derived since reset (R373). -/
  keys : Nat := 0
  vfs : Sparse Vf := []
  recs : List FRec := []
  slots : Sparse CmdSlot := []
  nodes : Sparse NodeRt := []
  placed : List Placed := []
  order : Nat := 0
  queues : Sparse (List Task) := []
  overflow : Sparse (List Task) := []
  banks : Sparse Bank := []
  errs : Sparse Nat := []
  health : List UnitId := []
  /-- HBM rows that the health record marks, each by a machine address in it (R363, R364). -/
  rows : List Nat := []
  /-- What the signed configuration record set at boot (R379). -/
  conf : ConfRecord := {}
  withdrawn : List UnitId := []
  /-- MSI-X messages sent: function, vector, newest last. -/
  msix : List (Nat × Nat) := []
  /-- Data returned to host reads and atomics with the EP bit (R356), newest last. -/
  hostReads : List (Bool × List (BitVec 8)) := []
  time : Nat := 0
  boot : BootSt := .off
  measures : List (BitVec 64) := []
  /-- Answers to SPDM requests (R379): the request, the measurements and the signature, newest last. -/
  spdm : List (SpdmReq × List (BitVec 64) × BitVec 64) := []
  /-- The identity key that the boot ROM derived (R379). -/
  identity : Option (BitVec 64) := none
  /-- First-run signatures of auditable groups (R366). -/
  audits : List AuditRun := []
  /-- Groups being replayed for audit (R367). -/
  replays : List Replay := []
  deriving DecidableEq, Repr

/-! ### The whole state -/

/-- The machine: the core that acts with its group, scratchpad and engines, the groups of the other cores, each held whole
as well (log 2), memory and coherence, the control die, and the model's own fields: the agenda of the event steps that come
next (data of the interleaving), and the counter at which free values are drawn. -/
structure State where
  core : Core := {}
  spad : Spad := {}
  eng : Eng := {}
  others : List Other := []
  mem : Mem := {}
  sys : Sys := {}
  agenda : List Instr := []
  free : Nat := 0
  deriving DecidableEq, Repr

/-- Why the machine stops with a fault. No step of this model raises one where the spec gives an effect. -/
inductive Fault where
  /-- Raised by no meaning: kept so that a stop has a named form. Safe: a stop where the hardware goes on. -/
  | noEffect
  deriving DecidableEq, Repr

/-- Why an instruction has no meaning. -/
inductive Refusal where
  /-- An arm of exec that is not modelled yet; raised by such an arm only. Safe: the machine stops. -/
  | notModelled (mnemonic : String)
  deriving DecidableEq, Repr

/-- The outcome of a step of this machine. -/
abbrev Out := Host.Outcome State Fault Refusal

/-- The module right after reset: no group is placed, every register at its group-start value (R68, R94, R123, R147,
R151, R242, R315), no partition created, memory with nothing listed, the home of every line holding its 16 tokens
(R225). -/
def State.reset : State := {}

end Sys2Proof.Machine
end

