-- ==== Sys2Proof/Machine/Base.lean ====
section
/-! DEFINITION. Accessors: the registers of the core, the bytes of machine memory, the parts of the state. -/

namespace Sys2Proof.Machine

/-! ### Lifting an operation on one part of the state -/

def State.onCore (f : Core → Core) (s : State) : State := { s with core := f s.core }
def State.onSpad (f : Spad → Spad) (s : State) : State := { s with spad := f s.spad }
def State.onEng (f : Eng → Eng) (s : State) : State := { s with eng := f s.eng }
def State.onMem (f : Mem → Mem) (s : State) : State := { s with mem := f s.mem }
def State.onSys (f : Sys → Sys) (s : State) : State := { s with sys := f s.sys }
/-- Draw the counter of free values. -/
def State.draw (s : State) : State := { s with free := s.free + 1 }

/-! ### Where the core stands (R11) -/

/-- Die of a module core number. -/
def dieOf (core : Nat) : Nat := core / 128
/-- Cluster of the module, 0 to 127. -/
def clusterOf (core : Nat) : Nat := core / 8
def Core.die (c : Core) : Nat := dieOf c.num
def Core.cluster (c : Core) : Nat := clusterOf c.num

/-- An L1, constant-cache or instruction-cache line of a core: by core and IA / 64. -/
def coreKey (core ia : Nat) : Nat := core * 2 ^ 46 + ia / 64
/-- The core and the IA / 64 of such a key. -/
def keyCore (k : Nat) : Nat := k / 2 ^ 46
def keyLine (k : Nat) : Nat := k % 2 ^ 46
/-- A core's lines of a cache are dropped. -/
def dropCore {α : Type} (m : Sparse α) (core : Nat) : Sparse α := m.filter fun e => keyCore e.1 != core
/-- A line of a core's cache that is full makes room: line `pick` of those the core holds and may drop, in the order of the list (R2: the
capacity; which line goes is left open). -/
def lineToDrop {α : Type} (m : Sparse α) (core cap k pick : Nat) (held : Nat → Bool := fun _ => false) : Option Nat :=
  let own := m.filter fun e => keyCore e.1 == core
  if own.any (fun e => e.1 == k) || decide (own.length < cap) then none
  else
    let free := own.filter fun e => !held e.1
    (free[pick % free.length]?).map (·.1)

/-! ### Scalar, predicate, branch and address registers (R68, R69) -/

/-- Index in the file of scalar register n at the current level. -/
def Core.sIdx (c : Core) (n : Nat) : Nat := if 48 ≤ n && c.lvl then 64 + n else n
/-- The value of scalar register n: s0 reads 0. -/
def Core.rdS (c : Core) (n : Nat) : BitVec 64 := if n = 0 then 0 else sget 0 c.s (c.sIdx n)
/-- Write by index in the file; the write discards a deferred-access record (R195). Index 0 is s0: nothing written. -/
def Core.wrIdx (c : Core) (k : Nat) (v : BitVec 64) : Core :=
  if k = 0 then c else { c with s := sset 0 c.s k v, defrec := sset none c.defrec k none }
/-- Write scalar register n at the current level. -/
def Core.wrS (c : Core) (n : Nat) (v : BitVec 64) : Core := c.wrIdx (c.sIdx n) v

/-- p0 reads true. -/
def Core.rdP (c : Core) (n : Nat) : Bool := n == 0 || c.pr.getLsbD n
def Core.wrP (c : Core) (n : Nat) (v : Bool) : Core :=
  if n = 0 then c
  else { c with pr := if v then c.pr ||| (1#16 <<< n) else c.pr &&& ~~~ (1#16 <<< n) }

def Core.rdA (c : Core) (n : Nat) : BitVec 32 := sget 0 c.a n
def Core.wrA (c : Core) (n : Nat) (v : BitVec 32) : Core := { c with a := sset 0 c.a n v }
/-- step[level] of aN. -/
def Core.rdStep (c : Core) (n lvl : Nat) : BitVec 32 := sget 0 c.step (n * 6 + lvl)
def Core.wrStep (c : Core) (n lvl : Nat) (v : BitVec 32) : Core := { c with step := sset 0 c.step (n * 6 + lvl) v }
def Core.rdLc (c : Core) (n : Nat) : BitVec 32 := sget 0 c.lc n
def Core.wrLc (c : Core) (n : Nat) (v : BitVec 32) : Core := { c with lc := sset 0 c.lc n v }
/-- The target that a GO through b[n] takes: text offset 0 when it was never loaded (R35). -/
def Core.rdB (c : Core) (n : Nat) : BitVec 32 := (sget none c.br n).getD 0
def Core.wrB (c : Core) (n : Nat) (v : BitVec 32) : Core := { c with br := sset none c.br n (some v) }

/-! ### Vector registers (R92, R94) -/

def zeroVec : Vec := List.replicate 64 0
/-- Physical register that a name reaches (R89, R92). -/
def physOf (base n : Nat) : Nat := (base + n) % 768
/-- A register of cluster A (0) or B (1) by physical number. -/
def Core.rdPhys (c : Core) (cl k : Nat) : Vec := if cl = 0 then sget zeroVec c.va k else sget zeroVec c.vb k
def Core.wrPhys (c : Core) (cl k : Nat) (v : Vec) : Core :=
  if cl = 0 then { c with va := sset zeroVec c.va k v } else { c with vb := sset zeroVec c.vb k v }
/-- Window base of a cluster. -/
def Core.base (c : Core) (cl : Nat) : Nat := if cl = 0 then c.vwa else c.vwb
/-- Index of a lane's parity mark. -/
def badIdx (cl k l : Nat) : Nat := (cl * 768 + k) * 64 + l
/-- q0 reads all ones. -/
def Core.rdQ (c : Core) (n : Nat) : BitVec 64 := if n = 0 then BitVec.allOnes 64 else sget 0 c.q n
def Core.wrQ (c : Core) (n : Nat) (v : BitVec 64) : Core := if n = 0 then c else { c with q := sset 0 c.q n v }

def Core.rdD (c : Core) (n : Nat) : Desc := sget {} c.d n
def Core.wrD (c : Core) (n : Nat) (v : Desc) : Core := { c with d := sset {} c.d n v }

/-- Counter k of RDCNT (2 to 8 are kept in `cnt`). -/
def Core.rdCnt (c : Core) (k : Nat) : BitVec 64 := if k = 0 then c.cycle else if k = 1 then c.retired else sget 0 c.cnt k
def Core.bump (c : Core) (k : Nat) (n : Nat := 1) : Core :=
  { c with cnt := sset 0 c.cnt k (sget 0 c.cnt k + BitVec.ofNat 64 n) }

/-- Hold an asynchronous cause until the next bundle boundary of the group (R156, R173): one per cause and agent. -/
def Core.raise (c : Core) (a : Async) : Core :=
  if c.held.any fun h => h.cause == a.cause && h.stage.agent == a.stage.agent then c else { c with held := c.held ++ [a] }

/-- GROUP.INDEX, GROUP.COUNT, GANG.POS, GANG.SIZE (R153). -/
def Core.index (c : Core) : Nat := c.group.toNat % 2 ^ 24
def Core.count (c : Core) : Nat := c.group.toNat / 2 ^ 24 % 2 ^ 24
def Core.gpos (c : Core) : Nat := c.gang.toNat / 16 % 8
def Core.gsize (c : Core) : Nat := c.gang.toNat % 16

/-! ### The groups on other cores (R14, R168) -/

def Other.core (o : Other) : Nat := o.ctx.num
def Other.node (o : Other) : Nat := o.ctx.node.toNat
def Other.index (o : Other) : Nat := o.ctx.index
def Other.fc (o : Other) : Sparse Front := o.eng.fc
/-- It has stopped by a fatal fault or a kill (R168). -/
def Other.dead (o : Other) : Bool := o.ctx.run == .stopped || o.ctx.run == .killed
def Other.retired (o : Other) : Bool := o.ctx.run == .retired
/-- The core holds a group that a kill or a purge can stop. -/
def Core.live (c : Core) : Bool := c.run == .running || c.run == .ended || c.run == .frozen || c.run == .stopped
/-- Two groups of one gang. -/
def Core.mate (c d : Core) : Bool :=
  d.run != .idle && d.part == c.part && d.node == c.node && d.gsize == c.gsize && c.gsize != 0
    && d.index / c.gsize == c.index / c.gsize
/-- The group on another core, by its place in the list. -/
def State.otherOn (s : State) (core : Nat) : Option Nat := s.others.findIdx? fun o => o.core == core && o.ctx.live
/-- The group of the core's gang at another gang position, by its place in the list. -/
def State.peerAt (s : State) (pos : Nat) : Option Nat := s.others.findIdx? fun o => s.core.mate o.ctx && o.ctx.gpos == pos

/-! ### Machine memory -/

/-- Machine addresses at or above 2^40 are host memory, not cached in L2 (R226, R369). -/
def hostBase : Nat := 2 ^ 40
/-- The canonical form of machine memory: addresses strictly rising, no listed byte 0 (what an unlisted one reads as). -/
def Memory.wf (m : Sparse (BitVec 8)) : Bool := swf 0 none m
def Mem.rd (m : Mem) (pa : Nat) : BitVec 8 := sget 0 m.bytes pa
/-- What the stack itself holds of a byte (R233). -/
def Mem.stackByte (m : Mem) (pa : Nat) : BitVec 8 := (sget none m.stale pa).getD (m.rd pa)
/-- A coherent write of one byte: the stack keeps its own until a write-back. -/
def Mem.wr (m : Mem) (pa : Nat) (b : BitVec 8) : Mem :=
  let old := m.stackByte pa
  { m with
    bytes := sset 0 m.bytes pa b
    stale := if pa < hostBase then sset none m.stale pa (if old = b then none else some old) else m.stale }
def Mem.rdN (m : Mem) (pa n : Nat) : List (BitVec 8) := sgetN 0 m.bytes pa n
def Mem.wrAll (m : Mem) (pa : Nat) : List (BitVec 8) → Mem
  | [] => m
  | b :: bs => (m.wr pa b).wrAll (pa + 1) bs
def Mem.rd64 (m : Mem) (pa : Nat) : BitVec 64 := BitVec.ofNat 64 (leNat (m.rdN pa 8))
/-- Poison mark of the 64-byte sector that holds an address (R354). -/
def Mem.bad (m : Mem) (pa : Nat) : Bool := sget false m.poison (pa / 64)
def Mem.setBad (m : Mem) (pa : Nat) (v : Bool) : Mem := { m with poison := sset false m.poison (pa / 64) v }
/-- A store that covers whole sectors clears their poison (R356). -/
def Mem.cleanCovered (m : Mem) (pa n : Nat) : Mem :=
  { m with poison := m.poison.filter fun e => !(decide (pa ≤ e.1 * 64) && decide (e.1 * 64 + 64 ≤ pa + n)) }
/-- A coherent store of bytes. -/
def Mem.wrN (m : Mem) (pa : Nat) (bs : List (BitVec 8)) : Mem := (m.wrAll pa bs).cleanCovered pa bs.length
def Mem.wr64 (m : Mem) (pa : Nat) (v : BitVec 64) : Mem := m.wrN pa (leBytes 8 v.toNat)
/-! ### Encrypted pages (R297, R373) -/

/-- A block with its exchanges made. -/
def exchange (b : BitVec 128) (xs : List (BitVec 128 × BitVec 128)) : BitVec 128 :=
  xs.foldl (fun b x => if b = x.1 then x.2 else if b = x.2 then x.1 else b) b
/-- A 16-byte block of memory seen under key `k` that is `b` under key `o`: encrypted again, and decrypted. -/
def recrypt (o k a : Nat) (b : BitVec 128) : BitVec 128 :=
  let raw := if o = 0 then b else exchange b (Config.xts o a)
  if k = 0 then raw else exchange raw (Config.xts k a).reverse
/-- The key under which a page shows its bytes. -/
def Mem.keyOf (m : Mem) (pa : Nat) : Nat := sget 0 m.keys (pa / 65536)
/-- The bytes of the page at `pa` under another key. -/
def recryptPage (bytes : Sparse (BitVec 8)) (o k pa : Nat) : Sparse (BitVec 8) :=
  (List.range 4096).foldl (fun b i =>
    let a := pa / 65536 * 65536 + 16 * i
    ssetN 0 b a (leBytes 16 (recrypt o k a (BitVec.ofNat 128 (leNat (sgetN 0 b a 16)))).toNat)) bytes
/-- Show the page of an address under a key: an access through a leaf with E 1 uses its partition's, any other access none. A plain page
that lists no byte takes the key as it is. -/
def Mem.view (m : Mem) (pa k : Nat) : Mem :=
  let o := m.keyOf pa
  if o = k then m
  else
    let p := pa / 65536 * 65536
    let blank := o == 0 && m.bytes.all fun e => !(decide (p ≤ e.1) && decide (e.1 < p + 65536))
    { m with
      bytes := if blank then m.bytes else recryptPage m.bytes o k pa, stale := sclear m.stale p 65536
      keys := sset 0 m.keys (pa / 65536) k }
/-- Zero bytes of machine memory. -/
def Mem.zeroRange (m : Mem) (a n : Nat) : Mem :=
  ((m.bytes.filter fun e => decide (a ≤ e.1) && decide (e.1 < a + n)).map (·.1)).foldl (fun (m : Mem) a => m.wr a 0) m
/-- Write the dirty bytes of a range to the stacks (R233). -/
def Mem.writeBack (m : Mem) (pa n : Nat) : Mem := { m with stale := sclear m.stale pa n }
/-- Before a store into an L1 or stash line: L2's bytes are kept (R396). -/
def Mem.keepUnder (m : Mem) (pa : Nat) : Nat → Mem
  | 0 => m
  | n + 1 =>
    let m := match sget none m.under pa with
      | some _ => m
      | none => { m with under := sset none m.under pa (some (m.rd pa)) }
    m.keepUnder (pa + 1) n
/-- Dirty lines of a range have been merged into L2. -/
def Mem.merged (m : Mem) (pa n : Nat) : Mem := { m with under := sclear m.under pa n }
/-- Drop the dirty L1 or stash bytes of a range (R396): every later read returns what L2 holds. -/
def Mem.dropUnder (m : Mem) (pa n : Nat) : Mem :=
  let lost := m.under.filter fun e => decide (pa ≤ e.1) && decide (e.1 < pa + n)
  (lost.foldl (fun (m : Mem) e => match e.2 with | some b => m.wr e.1 b | none => m) m).merged pa n

/-! ### Partitions, functions, nodes -/

def State.part (s : State) (p : Nat) : Part := sget {} s.sys.parts p
def State.setPart (s : State) (p : Nat) (v : Part) : State := { s with sys := { s.sys with parts := sset {} s.sys.parts p v } }
def State.vf (s : State) (v : Nat) : Vf := sget {} s.sys.vfs v
def State.setVf (s : State) (v : Nat) (w : Vf) : State := { s with sys := { s.sys with vfs := sset {} s.sys.vfs v w } }
/-- Run-time data of a node, by its VA and partition. -/
def nodeKey (part va : Nat) : Nat := va * 32 + part
/-- VA and partition of a node key. -/
def keyVa (k : Nat) : Nat := k / 32
def keyPart (k : Nat) : Nat := k % 32
def State.node? (s : State) (part va : Nat) : NodeRt := sget {} s.sys.nodes (nodeKey part va)
def State.setNode (s : State) (part va : Nat) (n : NodeRt) : State :=
  { s with sys := { s.sys with nodes := sset {} s.sys.nodes (nodeKey part va) n } }
def State.onNode (s : State) (part va : Nat) (f : NodeRt → NodeRt) : State := s.setNode part va (f (s.node? part va))

/-! ### The core that acts -/

/-- The core's group as one of the others. -/
def State.asOther (s : State) : Other :=
  ⟨s.core, s.spad, s.eng, (sget {} s.sys.nodes (nodeKey s.core.part.toNat s.core.node.toNat)).split⟩
/-- The group at place k of the list becomes the one that acts; the two change places. -/
def State.focus (s : State) (k : Nat) : State :=
  match s.others[k]? with
  | some o => { s with core := o.ctx, spad := o.spad, eng := o.eng, others := s.others.set k s.asOther }
  | none => s
/-- Do something on the core with a number, whichever acts; nothing where no group is there. -/
def State.at (s : State) (core : Nat) (f : State → State) : State :=
  if s.core.num = core then f s
  else match s.otherOn core with
    | some k => (f (s.focus k)).focus k
    | none => s
/-- Do something on every core that is held here. -/
def State.everyCore (s : State) (f : State → State) : State :=
  (List.range s.others.length).foldl (fun s k => (f (s.focus k)).focus k) (f s)
/-- Some group of a group's gang has not retired. -/
def State.gangLeft (s : State) (c : Core) : Bool :=
  let n := s.node? c.part.toNat c.node.toNat
  !n.done && (List.range c.gsize).any fun k => !n.retired.contains (c.index / c.gsize * c.gsize + k)
/-- The acting core holds a retired group of a gang with groups left: the group is kept among the others, for its fronts. -/
def State.setAside (s : State) : State :=
  if s.core.run == .retired && s.gangLeft s.core then
    { s with others := s.others ++ [s.asOther], core := { num := s.core.num }, spad := {}, eng := {} }
  else s
/-- Do something on a core with a number that is free to take a group. -/
def State.onFree (s : State) (core : Nat) (f : State → State) : State :=
  if s.core.num = core then f s.setAside
  else
    let idle := fun (o : Other) => o.core == core && o.ctx.run == .idle
    let s := if s.others.any idle then s else { s with others := s.others ++ [{ ctx := { num := core } }] }
    match s.others.findIdx? idle with
    | some k => (f (s.focus k)).focus k
    | none => s
/-- The same with a result; `d` where no group is there. -/
def State.atWith {α : Type} (s : State) (core : Nat) (d : α) (f : State → α × State) : α × State :=
  if s.core.num = core then f s
  else match s.otherOn core with
    | some k => let r := f (s.focus k); (r.1, r.2.focus k)
    | none => (d, s)
/-- Cores that hold a group, the acting one first. -/
def State.liveCores (s : State) : List Nat :=
  (if s.core.live then [s.core.num] else []) ++ (s.others.filter fun o => o.ctx.live).map (·.core)

/-- FUNCMODE bits (R375): 1 is the host-assisted mode. -/
def Part.mode (p : Part) (bit : Nat) : Bool := p.funcmode.getLsbD bit
def modePaging : Nat := 0
def modeS1Flt : Nat := 1
def modeLand : Nat := 2
def modeTree : Nat := 3
def modeSweep : Nat := 4
def modeTriage : Nat := 5
def modeToken : Nat := 6

/-- The partition of the core's group, as a number. -/
def Core.partNo (c : Core) : Nat := c.part.toNat
/-- An IA from a partition and an offset (R191). -/
def iaOf (part off : Nat) : Nat := part * 2 ^ 47 + off % 2 ^ 47
def partOfIa (ia : Nat) : Nat := ia / 2 ^ 47 % 32

end Sys2Proof.Machine
end

