-- ==== Sys2Proof/Machine/Codec.lean ====
section
/-! DEFINITION. Values as bytes: small writers and readers from which the sections of a ferry image are put together (R346). -/

namespace Sys2Proof.Machine

/-- A way to write values as bytes, and to read one back from the front of bytes. -/
structure Codec (α : Type) where
  put : α → List (BitVec 8)
  get : List (BitVec 8) → α × List (BitVec 8)

/-- A number of w bytes, little-endian. -/
def cNat (w : Nat) : Codec Nat := ⟨fun x => leBytes w x, fun bs => (leNat (bs.take w), bs.drop w)⟩
/-- Values that stand for others. -/
def Codec.map {α β : Type} (c : Codec α) (out : α → β) (back : β → α) : Codec β :=
  ⟨fun x => c.put (back x), fun bs => let r := c.get bs; (out r.1, r.2)⟩
/-- One value after another. -/
def Codec.pair {α β : Type} (a : Codec α) (b : Codec β) : Codec (α × β) :=
  ⟨fun x => a.put x.1 ++ b.put x.2, fun bs => let r := a.get bs; let t := b.get r.2; ((r.1, t.1), t.2)⟩
/-- A value whose writer depends on one that it holds, which is written before it. -/
def Codec.after {α β : Type} (a : Codec α) (key : β → α) (b : α → Codec β) : Codec β :=
  ⟨fun x => a.put (key x) ++ (b (key x)).put x, fun bs => let r := a.get bs; (b r.1).get r.2⟩
/-- Nothing is written: the value is known. -/
def cConst {α : Type} (x : α) : Codec α := ⟨fun _ => [], fun bs => (x, bs)⟩

/-- Read n values. -/
def getMany {α : Type} (get : List (BitVec 8) → α × List (BitVec 8)) : Nat → List (BitVec 8) → List α × List (BitVec 8)
  | 0, bs => ([], bs)
  | n + 1, bs =>
    let r := get bs
    let t := getMany get n r.2
    (r.1 :: t.1, t.2)
/-- A list of known length. -/
def Codec.vec {α : Type} (c : Codec α) (n : Nat) : Codec (List α) := ⟨fun l => (l.map c.put).flatten, getMany c.get n⟩
/-- A list with its length before it, in w bytes. -/
def Codec.many {α : Type} (c : Codec α) (w : Nat) : Codec (List α) := (cNat w).after List.length c.vec
/-- Values at the rising numbers of a list. -/
def Codec.table {α : Type} [DecidableEq α] (c : Codec α) (d : α) (keys : List Nat) : Codec (Sparse α) :=
  (c.vec keys.length).map (fun l => (keys.zip l).filter fun e => e.2 ≠ d) fun m => keys.map fun k => sget d m k

def cBool : Codec Bool := (cNat 1).map (fun n => n % 2 == 1) fun b => if b then 1 else 0
/-- A bit vector in whole bytes. -/
def cBits (n : Nat) : Codec (BitVec n) := (cNat ((n + 7) / 8)).map (BitVec.ofNat n) BitVec.toNat
/-- A signed number of w bytes. -/
def cInt (w : Nat) : Codec Int := (cNat w).map (fun x => if x < 2 ^ (8 * w - 1) then (x : Int) else (x : Int) - 2 ^ (8 * w)) (natOf (8 * w))
/-- A value that may be absent. -/
def Codec.opt {α : Type} (c : Codec α) : Codec (Option α) :=
  cBool.after Option.isSome fun b =>
    if b then ⟨fun x => (x.map c.put).getD [], fun bs => let r := c.get bs; (some r.1, r.2)⟩ else cConst none
/-- Numbers of a list of n as a mask. -/
def cMask (keys : List Nat) : Codec (List Nat) :=
  (cNat ((keys.length + 7) / 8)).map (fun m => (keys.zipIdx.filter fun e => m.testBit e.2).map (·.1))
    fun l => keys.zipIdx.foldl (fun a e => if l.contains e.1 then a + 2 ^ e.2 else a) 0

end Sys2Proof.Machine
end

