-- ==== Sys2Proof/Machine/Errors.lean ====
section
/-! DEFINITION. Error records (R360, R361) and the interrupts the control die sends (R372). -/

namespace Sys2Proof.Machine

/-- The control die as R369 numbers dies. -/
def ctlDie : Nat := 8
def rankCorrected : Nat := 1
def rankDeferred : Nat := 2
def rankUncorrected : Nat := 3

/-- A bank at reset: every field zero (R360); a record has RQTAG 0xFFFF where no tag applies. -/
def Bank.empty : Bank := { rqtag := 0 }
def State.bank (s : State) (die b : Nat) : Bank := sget Bank.empty s.sys.banks (die * 32 + b)
def State.setBank (s : State) (die b : Nat) (v : Bank) : State :=
  { s with sys := { s.sys with banks := sset Bank.empty s.sys.banks (die * 32 + b) v } }

/-- The first bank of a die, from bank b on, that satisfies a test. -/
def findBank (s : State) (die : Nat) (p : Bank → Bool) : Nat → Nat → Option Nat
  | 0, _ => none
  | n + 1, b => if p (s.bank die b) then some b else findBank s die p n (b + 1)

/-- The oldest bank of a die that satisfies a test. -/
def oldestBank (s : State) (die : Nat) (p : Bank → Bool) : Option Nat :=
  (List.range 32).foldl
    (fun o b =>
      if p (s.bank die b) then
        match o with
        | none => some b
        | some c => if (s.bank die b).time < (s.bank die c).time then some b else o
      else o) none

/-- Send MSI-X vector `vec` of function `fn`, which exists (R372). -/
def State.sendMsix (s : State) (fn vec : Nat) : State := { s with sys := { s.sys with msix := s.sys.msix ++ [(fn, vec)] } }

/-- Write an error record in a bank of a die (R360, R361). The time base advances, so that records of one die are in
age order. -/
def State.record (s : State) (die : Nat) (r : Bank) : State :=
  let s := { s with sys := { s.sys with time := s.sys.time + 1 } }
  let r := { r with v := true, ovf := false, time := s.sys.time }
  let same := fun (b : Bank) =>
    b.v && b.rank == rankCorrected && b.utype == r.utype && b.uindex == r.uindex && b.addr == r.addr
  let merged := if r.rank = rankCorrected then findBank s die same 32 0 else none
  match merged with
  | some b =>
    let k := s.bank die b
    s.setBank die b { k with count := if k.count < 65535 then k.count + 1 else k.count }
  | none =>
    let put := fun (b : Nat) =>
      let s := s.setBank die b r
      if rankDeferred ≤ r.rank then s.sendMsix 0 0 else s
    match findBank s die (fun b => !b.v) 32 0 with
    | some b => put b
    | none => match oldestBank s die (fun b => b.v && b.rank < r.rank) with
      | some b => put b
      | none => match oldestBank s die (fun b => b.v && b.rank == r.rank) with
        | some b => s.setBank die b { s.bank die b with ovf := true }
        | none => s

/-- Reset value of word k of an MSI-X table: PCI Express masks every vector, by bit 0 of the last 4 bytes of its 16 (R370). PRESUMED -/
def msixReset (k : Nat) : BitVec 64 := if k % 2 = 1 then 0x100000000 else 0
/-- Word k of a function's MSI-X table. -/
def Vf.msixWord (w : Vf) (k : Nat) : BitVec 64 := sget 0 w.msix k ^^^ msixReset k
def Vf.masked (w : Vf) (vec : Nat) : Bool := (w.msixWord (2 * vec + 1)).getLsbD 32
/-- A function sends a vector: a masked one of a VF waits in its pending bit. -/
def State.msixOrPend (s : State) (fn vec : Nat) : State :=
  if fn ≠ 0 && (s.vf fn).masked vec then s.setVf fn { s.vf fn with pba := (s.vf fn).pba ||| (1#32 <<< vec) } else s.sendMsix fn vec
/-- A write of word k of a VF's MSI-X table; a vector that it unmasks leaves its pending bit. -/
def State.msixWrite (s : State) (f k : Nat) (v : BitVec 64) : State :=
  let w := s.vf f
  let v := if k % 2 = 1 then v &&& 0x1FFFFFFFF else v &&& ~~~3#64
  let s := s.setVf f { w with msix := sset 0 w.msix k (v ^^^ msixReset k) }
  let vec := k / 2
  if (s.vf f).pba.getLsbD vec && !(s.vf f).masked vec then
    (s.setVf f { s.vf f with pba := (s.vf f).pba &&& ~~~(1#32 <<< vec) }).sendMsix f vec
  else s
/-- Send an event's interrupt, or write the deferred record of R372. During its reset a function's messages are discarded
(R395). -/
def State.eventMsix (s : State) (fn vec part ia : Nat) : State :=
  let ok := if fn = 0 then decide (vec < 2048) else (s.vf fn).part.isSome && decide (vec < 32)
  if (s.vf fn).down then s
  else if ok then s.msixOrPend fn vec
  else s.record ctlDie { rank := rankDeferred, utype := 14, aspace := 1, addr := ia, part := part }

end Sys2Proof.Machine
end

