-- ==== Sys2Proof/Machine/Coherence.lean ====
section
/-! DEFINITION. Tokens of a line, and how a die of the module gathers them (R225 to R236). Every operation that moves
tokens takes from one holder what it gives to another. -/

namespace Sys2Proof.Machine

/-- The 256-byte line of an IA. -/
def lineOf (ia : Nat) : Nat := ia / 256
def Mem.line (m : Mem) (l : Nat) : Line := sget {} m.lines l
def Mem.setLine (m : Mem) (l : Nat) (v : Line) : Mem := { m with lines := sset {} m.lines l v }
def Line.die (l : Line) (d : Nat) : DieLine := sget {} l.dies d
def Line.setDie (l : Line) (d : Nat) (v : DieLine) : Line := { l with dies := sset {} l.dies d v }

/-- Base die that is a line's home: its translator and the holder of its home tokens (R8, R193, R299). The spec gives no hash of the IA, and
the line mod 16 stands for it. DESIGN CHOICE -/
def homeOf (l : Nat) : Nat := l % 16
/-- L2 slice of a die that serves a line (R192), for which the spec gives no hash either. DESIGN CHOICE -/
def sliceOf (l : Nat) : Nat := l % 16

/-- The stable state, fixed by the die's tokens (R228). -/
def DieLine.st (x : DieLine) : DState :=
  if x.tokens = 0 then .i
  else if x.tokens = 16 then (if x.dirty = 0 then .e else .m)
  else if x.owner && x.dirty != 0 then .o else .s

/-- Tokens that the dies hold. -/
def dieTokens (d : Sparse DieLine) : Nat := (d.map fun e => e.2.tokens).sum
/-- Tokens of a line at rest. -/
def Line.tokens (l : Line) : Nat := dieTokens l.dies + l.homeTok + l.ctlTok + (if l.watched then 1 else 0)
/-- Tokens of a line in messages. -/
def msgTokens (ms : List TokMsg) (l : Nat) : Nat := ((ms.filter fun m => m.line == l).map fun m => m.tokens).sum
/-- All tokens of a line, which R226 says are 16. -/
def Mem.tokens (m : Mem) (l : Nat) : Nat := (m.line l).tokens + msgTokens m.msgs l
/-- Owner tokens of a line, of which R226 says there is exactly one. -/
def Mem.owners (m : Mem) (l : Nat) : Nat :=
  (((m.line l).dies.map fun e => if e.2.owner then 1 else 0).sum : Nat) + (if (m.line l).homeOwner then 1 else 0)
    + (if (m.line l).ctlOwner then 1 else 0)
    + ((m.msgs.filter fun x => x.line == l).map fun x => if x.owner then 1 else 0).sum

/-- Dirty L1 copies, by core and IA / 64, are merged into L2, with the poison of a copy (R229, R239, R356). -/
def Mem.mergeL1 (m : Mem) (ks : List (Nat × L1Line)) : Mem :=
  ks.foldl
    (fun (m : Mem) e =>
      let a := (m.line (keyLine e.1 / 4)).pa + keyLine e.1 % 4 * 64
      let m := if e.2.bad = 0 then m else m.setBad a true
      m.merged a 64) m
/-- L1 copies of a line in the cores that satisfy a test are dropped, or made clean; dirty ones are merged into L2 (R229). -/
def Mem.recallL1 (m : Mem) (p : Nat → Bool) (l : Nat) (drop : Bool) : Mem :=
  let hit := fun (k : Nat) => keyLine k / 4 == l && p (keyCore k)
  let ds := m.l1.filter fun e => hit e.1 && e.2.dirty
  { m with
    l1 := smap {} (fun k (x : L1Line) => if hit k then (if drop then {} else { x with dirty := false }) else x) m.l1 }.mergeL1 ds

/-- The line has left the die: its tokens, data, copies and permission are gone. -/
def DieLine.gone (x : DieLine) : DieLine :=
  { x with
    tokens := 0, owner := false, reduce := none, data := false, wp := false, dirty := 0, sharers := 0, writer := none }
/-- A waiting die completes as soon as its tokens and data are there (R231). -/
def DieLine.complete (x : DieLine) : DieLine :=
  let read := x.tokens != 0 && x.data
  let write := x.tokens == 16 && x.data
  match x.trans with
  | .is | .hs => if read then { x with trans := .none } else x
  | .im | .sm | .hm => if write then { x with trans := .none } else x
  | _ => x

/-- Deliver a message's tokens to a holder (R226, R227). Data of a message stay only beside a token. -/
def Line.receive (l : Line) (m : TokMsg) : Line :=
  let l := match m.dst with
    | .die d =>
      let x := l.die d
      l.setDie d { x with
        tokens := x.tokens + m.tokens, owner := x.owner || m.owner, dirty := x.dirty ||| m.dirty
        data := x.data || m.data || m.owner, reduce := if m.owner then m.reduce else x.reduce }
    | .home =>
      { l with
        homeTok := l.homeTok + m.tokens, homeOwner := l.homeOwner || m.owner, homeDirty := l.homeDirty || m.dirty != 0
        homeReduce := if m.owner then m.reduce else l.homeReduce }
    | .ctl =>
      { l with
        ctlTok := l.ctlTok + m.tokens, ctlOwner := l.ctlOwner || m.owner, ctlData := l.ctlData || m.data || m.owner
        ctlDirty := l.ctlDirty ||| m.dirty, ctlReduce := if m.owner then m.reduce else l.ctlReduce }
    | .watch =>
      if l.watched || m.tokens != 1 then { l with homeTok := l.homeTok + m.tokens, homeOwner := l.homeOwner || m.owner }
      else { l with watched := true, homeOwner := l.homeOwner || m.owner }
  l

/-- Write back the sectors that a message brings home. -/
def Mem.mergeSectors (m : Mem) (pa : Nat) (dirty : BitVec 4) : Mem :=
  (List.range 4).foldl (fun (m : Mem) k => if dirty.getLsbD k then m.writeBack (pa + 64 * k) 64 else m) m
/-- A message arrives at its holder: a waiting die that has what it asked for completes, unless an activation for another is in force; the
home merges dirty sectors into its stack (R231 to R233). -/
def Mem.deliver (m : Mem) (x : TokMsg) : Mem :=
  let y := (m.line x.line).receive x
  match x.dst with
  | .die d => match (y.die d).activeFor with
    | some (_, r) => m.setLine x.line (if r = d then y.setDie d (y.die d).complete else y)
    | none => m.setLine x.line (y.setDie d (y.die d).complete)
  | .home => (m.setLine x.line y).mergeSectors y.pa x.dirty
  | _ => m.setLine x.line y
/-- All messages of a line arrive. -/
def Mem.settle (m : Mem) (l : Nat) : Mem :=
  { (m.msgs.foldl (fun a x => if x.line = l then a.deliver x else a) m) with
    msgs := m.msgs.filter fun x => x.line != l }

/-- The reduce attribute, which travels with the owner token (R234). -/
def Line.reduceKey (l : Line) : Option RedKey :=
  if l.homeOwner then l.homeReduce
  else if l.ctlOwner then l.ctlReduce
  else (l.dies.filter fun e => e.2.owner).head?.bind fun e => e.2.reduce
/-- The same while the owner token is in a message. -/
def Mem.reduceKey (m : Mem) (l : Nat) : Option RedKey :=
  match (m.line l).reduceKey with
  | some k => some k
  | none => (m.msgs.find? fun x => x.line == l && x.owner).bind fun x => x.reduce

/-- Dirty sectors that any holder beside the home has. -/
def Line.dirtyAll (l : Line) : BitVec 4 := l.dies.foldl (fun b e => b ||| e.2.dirty) l.ctlDirty
/-- The dies without the line. -/
def Line.noDies (l : Line) : Sparse DieLine := smap {} (fun _ (x : DieLine) => x.gone) l.dies
/-- Home and control die hold nothing. -/
def Line.bare (l : Line) : Line :=
  { l with
    homeTok := 0, homeOwner := false, homeReduce := none, ctlTok := 0, ctlOwner := false, ctlData := false, ctlDirty := 0
    ctlReduce := none, watched := false }

/-- Every token of the line goes to die d, with the data (R230, transient write; R232). -/
def Line.gather (l : Line) (d : Nat) : Line :=
  let x := l.die d
  { l.bare with
    dies := sset {} l.noDies d (DieLine.complete { x with
      tokens := l.tokens, owner := true, data := true, dirty := l.dirtyAll, reduce := l.reduceKey, sharers := 0, writer := none }) }
/-- Every token of a line goes to the control die. -/
def Line.gatherCtl (l : Line) : Line :=
  { l.bare with
    dies := l.noDies, ctlTok := l.tokens, ctlOwner := true, ctlData := true, ctlDirty := l.dirtyAll, ctlReduce := l.reduceKey }

/-- The watch table gives its token of the line back (R226, R267). -/
def Line.unwatch (l : Line) : Line := if l.watched then { l with watched := false, homeTok := l.homeTok + 1 } else l

/-- Every token of the line goes home, dirty sectors merged there (R233); what stood under the old translation is cancelled
(R241). -/
def Line.goHome (l : Line) : Line :=
  { l.bare with
    dies := [], homeTok := l.tokens, homeOwner := true, homeReduce := l.reduceKey, haw := none, hawQ := [], hawDeact := l.hawSeq
    wbs := [] }

/-- Whom the line's data come to: a die, or the control die. -/
def Line.give (l : Line) (who : Option Nat) (n : Nat) (owner : Bool) (dirty : BitVec 4) (red : Option RedKey) : Line :=
  match who with
  | some d =>
    let x := l.die d
    l.setDie d (DieLine.complete { x with
      tokens := x.tokens + n, owner := x.owner || owner, data := true, dirty := x.dirty ||| dirty
      reduce := if owner then red else x.reduce })
  | none =>
    { l with
      ctlTok := l.ctlTok + n, ctlOwner := l.ctlOwner || owner, ctlData := true, ctlDirty := l.ctlDirty ||| dirty
      ctlReduce := if owner then red else l.ctlReduce }
/-- A holder's answer to a transient read of a die, or of the control die (R230): one non-owner token with data, or its owner token
when that is all it has. -/
def Line.giveRead (l : Line) (who : Option Nat) : Line :=
  if l.homeOwner then
    if 2 ≤ l.homeTok then { l with homeTok := l.homeTok - 1 }.give who 1 false 0 none
    else { l with homeTok := l.homeTok - 1, homeOwner := false, homeReduce := none }.give who 1 true 0 l.homeReduce
  else if l.ctlOwner then
    if who.isNone then l
    else if 2 ≤ l.ctlTok then { l with ctlTok := l.ctlTok - 1 }.give who 1 false 0 none
    else { l with ctlTok := 0, ctlOwner := false, ctlData := false, ctlDirty := 0, ctlReduce := none }.give who l.ctlTok true
      l.ctlDirty l.ctlReduce
  else match (l.dies.filter fun e => e.2.owner).head? with
    | none => l
    | some (o, y) =>
      if some o = who then l
      else if 2 ≤ y.tokens then (l.setDie o { y with tokens := y.tokens - 1, writer := none }).give who 1 false 0 none
      else (l.setDie o y.gone).give who y.tokens true y.dirty y.reduce

/-- The holder has a token with data, or all of them. -/
def Line.canRead (l : Line) (who : Option Nat) : Bool :=
  match who with
  | some d => (l.die d).tokens != 0 && (l.die d).data
  | none => l.ctlTok != 0 && l.ctlData
def Line.canWrite (l : Line) (who : Option Nat) : Bool :=
  match who with
  | some d => (l.die d).tokens == 16 && (l.die d).data
  | none => l.ctlTok == 16 && l.ctlData
/-- A holder reads the line: it holds a token with data afterwards (R227). -/
def Line.forRead (l : Line) (who : Option Nat) : Line := if l.canRead who then l else l.giveRead who
/-- Every token for a holder. -/
def Line.forAll (l : Line) (who : Option Nat) : Line := match who with | some d => l.gather d | none => l.gatherCtl
/-- A holder has written the line (R227): the sector is dirty, WP as granted. -/
def Line.written (l : Line) (who : Option Nat) (sectors : BitVec 4) : Line :=
  match who with
  | some d => l.setDie d { l.die d with dirty := (l.die d).dirty ||| sectors, wp := true, reduce := none }
  | none => { l with ctlDirty := l.ctlDirty ||| sectors, ctlReduce := none }

/-- The hawser requests that stand are served before an access that lacks tokens: each requester in turn has them all (R232). -/
def Line.serveHaw (l : Line) : Line :=
  let rs := l.haw.toList ++ l.hawQ
  if rs.isEmpty then l
  else
    let l := rs.foldl (fun (l : Line) r => l.forAll (if r < 8 then some r else none)) l
    let seq := l.hawSeq + l.hawQ.length
    { l with
      haw := none, hawQ := [], hawSeq := seq, hawDeact := seq
      dies := smap {} (fun _ (d : DieLine) => { d with activeFor := none, deact := seq }) l.dies }

/-! ### Reduce state (R234, R235) -/

/-- Format of a reduce line: CRED's element code, or f32 and i32 for code-less AMOs. -/
def RedKey.fmt (k : RedKey) : Fmt := fmtOf k.etype.toNat
/-- Bytes of an element of a reduce line. -/
def RedKey.width (k : RedKey) : Nat := k.fmt.bits / 8
/-- IEEE minimum and maximum (R102): NaN gives NaN, −0 is less than +0. -/
def Val.minmax (mx : Bool) (a b : Val) : Val :=
  if a.isNaN || b.isNaN then .nan false
  else
    let less := if a.eqv b then a.isNeg && !b.isNeg else a.lt b
    if mx then (if less then b else a) else (if less then a else b)
/-- Combine two exact contributions, by CRED's operation codes (R254): 0 integer add, 1 FP add, 2 min, 3 max. -/
def RedKey.comb (k : RedKey) (a b : Val) : Val :=
  match k.op with
  | 0 => (exactSum [a, b] false).1
  | 1 => (exactSum [a, b] false).1
  | 2 => Val.minmax false a b
  | _ => Val.minmax true a b
/-- The value a combination leaves in the format. -/
def RedKey.enc (k : RedKey) (v : Val) : Nat :=
  match k.fmt with
  | .int _ n => match v with | .fin _ _ _ => natOf n (v.at 0) | _ => 0
  | f => (f.round v rne).1
/-- A partial's entry joins the base's encoding: ordered partials combine exactly and round once; fast ones round. -/
def RedKey.join (k : RedKey) (base : Nat) (v : Val) : Nat := k.enc (k.comb (k.fmt.val base) v)

/-- Partials in merge order: die number in ordered mode, arrival in fast mode (R235). -/
def insertPartial (fast : Bool) (p : Partial) : List Partial → List Partial
  | [] => [p]
  | q :: r => if (if fast then p.order < q.order else p.die < q.die) then p :: q :: r else q :: insertPartial fast p r
def sortPartials (fast : Bool) (l : List Partial) : List Partial := l.foldl (fun a p => insertPartial fast p a) []

/-- The merged value of element j. -/
def mergeElem (k : RedKey) (ps : List Partial) (j base : Nat) : Nat :=
  let vs := ps.filterMap fun p => (p.vals.find? fun e => e.1 = j).map (·.2)
  if vs.isEmpty then base
  else if k.fast then vs.foldl (fun b v => k.join b v) base
  else match vs with
    | [] => base
    | v :: r => k.join base (r.foldl (fun a b => k.comb a b) v)

/-- The numbers of a list, each once. -/
def nub : List Nat → List Nat
  | [] => []
  | x :: r => let r' := nub r; if r'.contains x then r' else x :: r'

/-- A contribution to element j of a partial: exact in ordered mode, rounded in fast mode (R235); the previous value comes back. -/
def RedKey.addTo (k : RedKey) (vs : Sparse Val) (j : Nat) (v : Val) : Option Val × Sparse Val :=
  let old := (vs.find? fun e => e.1 = j).map (·.2)
  let new := match old with | none => v | some o => k.comb o v
  let new := if k.fast then k.fmt.val (k.enc new) else new
  (old, (j, new) :: vs.filter fun e => e.1 != j)
/-- The partial that a die holds (R234), beside the one that it has spilled (R236). -/
def Line.partialOf (l : Line) (d : Nat) : Option Partial := l.partials.find? fun p => p.die == d && !p.spilled
/-- Apply a contribution to element j of die d's partial; `ord` is its arrival (R235). The partial's previous value comes back. -/
def Line.contribute (l : Line) (k : RedKey) (d j ord : Nat) (v : Val) : Option Val × Line :=
  let p := (l.partialOf d).getD ⟨d, false, ord, []⟩
  let r := k.addTo p.vals j v
  (r.1, { l with partials := { p with vals := r.2 } :: l.partials.filter fun q => q.die != d || q.spilled })
/-- Die d's partial goes to the home's spill store, into the one that the die has there: one per line and die (R225, R236). -/
def Line.spill (l : Line) (key : Option RedKey) (d : Nat) : Line :=
  match l.partialOf d, key with
  | some p, some k =>
    let rest := l.partials.filter fun q => q.die != d
    let q := (l.partials.find? fun q => q.die == d && q.spilled).getD { p with spilled := true, vals := [] }
    { l with partials := { q with vals := p.vals.foldl (fun vs e => (k.addTo vs e.1 e.2).2) q.vals } :: rest }
  | _, _ => l

/-- Merge the partials of a line into its base and leave reduce state (R235). -/
def Mem.mergeLine (m : Mem) (l : Nat) : Mem :=
  let x := m.line l
  match x.reduceKey with
  | none => m
  | some k =>
    let w := k.width
    let ps := sortPartials k.fast x.partials
    let js := nub (ps.map fun p => p.vals.map (·.1)).flatten
    let m := js.foldl
      (fun m j =>
        let pa := x.pa + j * w
        m.wrN pa (leBytes w (mergeElem k ps j (leNat (m.rdN pa w)))))
      m
    m.setLine l { x with
      partials := [], homeReduce := none, ctlReduce := none
      dies := smap {} (fun _ (y : DieLine) => { y with reduce := none }) x.dies }

/-! ### Write-backs (R231, R233) -/

/-- The home acknowledges a die's write-back: the sectors stand in the stack, and the die leaves WB, or will not return to it. -/
def Mem.wbDone (m : Mem) (l d : Nat) : Mem :=
  let x := m.line l
  let b := sget 0 x.wbs d
  if b = 0 then m
  else
    let y := x.die d
    let clean := { y with dirty := y.dirty &&& ~~~b }
    let y := if y.trans == .wb then { clean with trans := .none }
      else if y.trans == .rc && y.prev == .wb then { clean with prev := .none } else y
    (m.mergeSectors x.pa b).setLine l ({ x with wbs := sset 0 x.wbs d 0, homeDirty := true }.setDie d y)
/-- Every write-back of a line is acknowledged: the owner token leaves no die in WB (R231). -/
def Mem.wbAll (m : Mem) (l : Nat) : Mem := ((m.line l).wbs.map (·.1)).foldl (fun m d => m.wbDone l d) m

/-! ### The accesses of a die, and of the control die -/

/-- Some die holds a copy. -/
def Line.resident (l : Line) : Bool := l.dies.any fun e => e.2.tokens != 0
/-- What is on its way arrives, write-backs are acknowledged and hawser requests served, before an access that lacks tokens. -/
def Mem.quiet (m : Mem) (l : Nat) : Mem :=
  let m := (m.settle l).wbAll l
  m.setLine l (m.line l).serveHaw

/-- The line is at hand for a read by a holder: merged if it is in reduce state (R235), with a token and data. -/
def Mem.lineRead (m : Mem) (l : Nat) (who : Option Nat) (pa : Nat) : Mem :=
  if (m.line l).canRead who && (m.reduceKey l).isNone then m
  else
    let m := m.quiet l
    let m := if (m.line l).reduceKey.isSome then (m.setLine l ((m.line l).forAll who)).mergeLine l else m
    let x := m.line l
    m.setLine l ({ x with pa := if x.resident || x.ctlTok != 0 then x.pa else pa }.forRead who)

/-- The line is at hand for a write by a holder. -/
def Mem.lineWrite (m : Mem) (l : Nat) (who : Option Nat) (pa : Nat) (sectors : BitVec 4) : Mem :=
  let m := if (m.line l).canWrite who && (m.reduceKey l).isNone then m
    else
      let m := m.quiet l
      (m.setLine l { ((m.line l).forAll who) with pa := pa }).mergeLine l
  m.setLine l ((m.line l).written who sectors)

/-- Write a line back to its stack and send its tokens home (R233, R241). -/
def Mem.flushLine (m : Mem) (l : Nat) : Mem :=
  let m := ((m.settle l).wbAll l).mergeLine l
  let x := m.line l
  let m := m.writeBack x.pa 256
  let m := m.recallL1 (fun _ => true) l true
  m.setLine l x.goHome

end Sys2Proof.Machine
end

