-- ==== Sys2Proof/Machine/Recall.lean ====
section
/-! DEFINITION. SPT entries as words (R294), the copies of a line in L1s and stash pages and their recall (R177, R178, R228,
R229), and room in a full L2 (R2). -/

namespace Sys2Proof.Machine

/-! ### SPT entries as words (R294) -/

def sptV (e : BitVec 64) : Bool := e.getLsbD 63
def sptRes (e : BitVec 64) : Bool := e.getLsbD 62
def sptPin (e : BitVec 64) : Bool := e.getLsbD 61
def sptStash (e : BitVec 64) : Bool := e.getLsbD 60
def sptDirty (e : BitVec 64) : Bool := e.getLsbD 59
def sptShared (e : BitVec 64) : Bool := e.getLsbD 58
def sptFt (e : BitVec 64) : Bool := e.getLsbD 57
def sptFidx (e : BitVec 64) : Nat := (e.extractLsb' 51 6).toNat
def sptPpage (e : BitVec 64) : Nat := (e.extractLsb' 42 9).toNat
def sptIapn (e : BitVec 64) : Nat := (e.extractLsb' 0 40).toNat
/-- Set or clear one bit. -/
def setBit64 (e : BitVec 64) (b : Nat) (v : Bool) : BitVec 64 :=
  if v then e ||| (1#64 <<< b) else e &&& ~~~(1#64 <<< b)
/-- A field of an entry replaced. -/
def setField64 (e : BitVec 64) (lo n v : Nat) : BitVec 64 :=
  (e &&& ~~~(BitVec.ofNat 64 ((2 ^ n - 1) * 2 ^ lo))) ||| BitVec.ofNat 64 (v % 2 ^ n * 2 ^ lo)

def Spad.entry (sp : Spad) (pg : Nat) : BitVec 64 := sget 0 sp.spt pg
def Spad.setEntry (sp : Spad) (pg : Nat) (e : BitVec 64) : Spad := { sp with spt := sset 0 sp.spt pg e }

/-! ### Copies inside a die (R229) -/

/-- Stash copies of a line in a scratchpad: dropped, or made clean. -/
def Spad.stashRecall (sp : Spad) (l : Nat) (drop : Bool) : Spad :=
  let hit := fun (k : Nat) => sp.spt.any fun e => sptRes e.2 && sptStash e.2 && sptPpage e.2 == k / 64
    && lineOf (sptIapn e.2 * 4096 + k % 64 * 64) == l
  { sp with line := smap 0 (fun k v => if hit k then (if drop then 0 else v &&& 1) else v) sp.line }
/-- Offsets in a line of its dirty stash copies. -/
def Spad.stashDirty (sp : Spad) (l : Nat) : List Nat :=
  (sp.line.filter fun x => x.2.getLsbD 1).flatMap fun x =>
    (sp.spt.filter fun e => sptRes e.2 && sptStash e.2 && sptPpage e.2 == x.1 / 64
      && lineOf (sptIapn e.2 * 4096 + x.1 % 64 * 64) == l).map fun _ => x.1 % 4 * 64
/-- Dirty stash lines have been merged into L2 (R178, R229). -/
def Mem.mergeOffsets (m : Mem) (l : Nat) (xs : List Nat) : Mem := xs.foldl (fun (m : Mem) x => m.merged ((m.line l).pa + x) 64) m
/-- The copies of a line in L1s and stash pages of the cores that satisfy a test are dropped, or merged and made clean. -/
def State.recallWhere (s : State) (p : Nat → Bool) (l : Nat) (drop : Bool) : State :=
  let own := if p s.core.num then s.spad.stashDirty l else []
  let xs := own ++ (s.others.filter fun (o : Other) => p o.core).flatMap fun (o : Other) => o.spad.stashDirty l
  let s := s.onMem fun m => (m.recallL1 p l drop).mergeOffsets l xs
  let s := if p s.core.num then s.onSpad fun sp => sp.stashRecall l drop else s
  { s with others := s.others.map fun (o : Other) => if p o.core then { o with spad := o.spad.stashRecall l drop } else o }
/-- The own core's copies. -/
def State.recallOwn (s : State) (l : Nat) (drop : Bool) : State := s.recallWhere (fun c => c == s.core.num) l drop
/-- Every core's. -/
def State.recallAll (s : State) (l : Nat) (drop : Bool) : State := s.recallWhere (fun _ => true) l drop
/-- Those of the cores other than the one that accesses the line. -/
def State.recallElse (s : State) (l : Nat) (drop : Bool) : State := s.recallWhere (fun c => c != s.core.num) l drop

/-- A core's stash copies of a line are merged into L2, and dropped for a store into its L1 (R178). -/
def State.recallStash (s : State) (core l : Nat) (drop : Bool) : State :=
  let hit := fun (sp : Spad) => sp.line.isEmpty
  if core = s.core.num then
    if hit s.spad then s
    else (s.onMem fun m => m.mergeOffsets l (s.spad.stashDirty l)).onSpad fun sp => sp.stashRecall l drop
  else
    let xs := (s.others.filter fun (o : Other) => o.core == core).flatMap fun (o : Other) => o.spad.stashDirty l
    { (s.onMem fun m => m.mergeOffsets l xs) with
      others := s.others.map fun (o : Other) => if o.core == core then { o with spad := o.spad.stashRecall l drop } else o }

/-- The directory of a core's die takes its cluster as a sharer of a line, a writer of before becoming one too, or as the one writer
(R228). -/
def Mem.share (m : Mem) (core l : Nat) (w : Bool) : Mem :=
  let y := m.line l
  let d := y.die (dieOf core)
  let c := clusterOf core % 16
  let bit := fun (k : Nat) => (1#16 <<< k : BitVec 16)
  let d := if w then { d with writer := some c, sharers := 0 }
    else match d.writer with
      | some k => if k = c then d else { d with writer := none, sharers := d.sharers ||| bit k ||| bit c }
      | none => { d with sharers := d.sharers ||| bit c }
  m.setLine l (y.setDie (dieOf core) d)

/-! ### Pins (R222) -/

/-- A core other than the one that acts holds the line pinned. -/
def State.pinnedElse (s : State) (l : Nat) : Bool := s.others.any fun (o : Other) => o.ctx.pins.contains l
/-- Some core does. -/
def State.pinnedAny (s : State) (l : Nat) : Bool := s.core.pins.contains l || s.pinnedElse l
/-- A core of this die does. -/
def State.pinned (s : State) (d l : Nat) : Bool :=
  (s.core.die == d && s.core.pins.contains l) || s.others.any fun (o : Other) => dieOf o.core == d && o.ctx.pins.contains l
/-- A party meets a pinned line: the step does not take place, and the party stands in a retry. -/
def Mem.stand (m : Mem) (l : Nat) : Mem := { m with blocked := true, stood := true, retry := if m.retry.contains l then m.retry else m.retry ++ [l] }
/-- The core that acts, or one of its engines, accesses a line. -/
def State.contend (s : State) (l : Nat) : State :=
  if s.pinnedElse l then s.onMem fun m => m.stand l
  else if s.mem.retry.isEmpty then s
  else s.onMem fun m => { m with retry := m.retry.filter fun x => x != l }
/-- A party that is no core accesses a line. -/
def State.outside (s : State) (l : Nat) : State :=
  if s.pinnedAny l then s.onMem fun m => m.stand l
  else if s.mem.retry.isEmpty then s
  else s.onMem fun m => { m with retry := m.retry.filter fun x => x != l }

/-! ### Room in L2 (R2) -/

/-- Lines of an L2 slice: 6 MiB, 96 MiB in all (R2, R11). -/
def sliceLines : Nat := 24576
/-- Reduce lines of which an L2 slice holds partials, and partials of a base die's spill store (R236). -/
def slicePartials : Nat := 256
def spillStore : Nat := 49152
/-- A base die's stack is its 64 GiB of machine memory (R8). -/
def stackOf (pa : Nat) : Nat := pa / 2 ^ 36 % 16
/-- The spill store of a line's home has no room for one more partial of die d. -/
def Mem.spillFull (m : Mem) (d l : Nat) : Bool :=
  let mine := m.lines.filter fun e => homeOf e.1 == homeOf l
  !((m.line l).partials.any fun p => p.die == d && p.spilled)
    && decide (spillStore ≤ (mine.map fun e => (e.2.partials.filter (·.spilled)).length).sum)
/-- A die's tokens and dirty sectors of a line go home, and its partial to the home's spill store (R233, R236). -/
def Mem.leave (m : Mem) (l d : Nat) : Mem :=
  let y := (m.line l).spill (m.reduceKey l) d
  let x := y.die d
  (m.mergeSectors y.pa x.dirty).setLine l { (y.setDie d x.gone) with
    homeTok := y.homeTok + x.tokens, homeOwner := y.homeOwner || x.owner, homeDirty := y.homeDirty || x.dirty != 0
    homeReduce := if x.owner then x.reduce else y.homeReduce }
/-- A die's slice that is full evicts a line at rest, which one is left open, before it takes another (R2, R192, R233); a line whose partial
finds no room in the spill store stays (R236). -/
def State.l2Room (s : State) (d l : Nat) : State :=
  let held := s.mem.lines.filter fun e => sliceOf e.1 == sliceOf l && (e.2.die d).tokens != 0
  if 8 ≤ d || ((s.mem.line l).die d).tokens ≠ 0 || held.length < sliceLines then s
  else
    let free := held.filter fun e => (e.2.die d).trans == .none && !s.pinned d e.1 && !((e.2.partialOf d).isSome && s.mem.spillFull d e.1)
    match free[Config.pick s.free % free.length]? with
    | none => s
    | some e => (s.draw.recallWhere (fun c => dieOf c == d) e.1 true).onMem fun m => m.leave e.1 d

end Sys2Proof.Machine
end

