-- ==== Sys2Proof/Machine/Walk.lean ====
section
/-! DEFINITION. Translation: the range registers (R159, R188), the memory-side tables and their walk (R295 to R300), the
dirty log (R308), the landing engine (R306), and reaching machine memory from an IA or a VA. -/

namespace Sys2Proof.Machine

/-! ### Range registers -/

/-- Permission sets: bit 0 R, bit 1 W, bit 2 C. -/
abbrev Perm := BitVec 3
def needR : Perm := 1
def needW : Perm := 2
def needRW : Perm := 3
def needC : Perm := 4
def Perm.within (a b : Perm) : Bool := a &&& b == a
def Range.perm (r : Range) : Perm :=
  (if r.r then 1 else 0) ||| (if r.w then 2 else 0) ||| (if r.c then 4 else 0)

/-- Outcome of Translate: an IA, or cause 0x10 or 0x13. -/
inductive Tr where
  | ia (a : Nat) | cause (c : Nat)
  deriving DecidableEq, Repr

/-- The lowest range register that holds a VA (R159). -/
def findRange (rg : Sparse Range) (va : Nat) : Nat → Nat → Option Nat
  | 0, _ => none
  | k + 1, n =>
    let r := sget {} rg n
    if r.valid && decide (r.base ≤ va) && decide (va ≤ r.limit) then some n else findRange rg va k (n + 1)

/-- Translate (R159); a VA with a nonzero bit in [63:56] misses every range (R190). -/
def Core.translate (c : Core) (va : Nat) (need : Perm) : Tr :=
  if 2 ^ 56 ≤ va then .cause 0x10
  else match findRange c.rg va 16 0 with
    | none => .cause 0x10
    | some n =>
      let r := sget {} c.rg n
      if need.within r.perm then .ia (iaOf c.partNo (va + r.offset)) else .cause 0x13

/-! ### Tables -/

/-- A fault of a walk: the code, the stage (2 or 3), whether it was met while a stage-1 table was read, the GPA of R302,
poison, and a MOVED leaf that makes a record. -/
structure WFault where
  code : Nat
  stage : Nat
  walk : Bool := false
  gpa : Nat := 0
  poison : Bool := false
  moved : Bool := false
  deriving DecidableEq, Repr

/-- An entry word read from a table: where it lies in machine memory, the word, for a stage-1 table the GPA and whether stage 2 grants W
there (R299), and the machine addresses of the entries that were read on the way to it. -/
structure Entry where
  pa : Nat
  word : BitVec 64
  gpa : Nat := 0
  wok : Bool := true
  via : List Nat := []
  deriving DecidableEq, Repr

/-- A leaf that a tree found: the output address of the input, the entry, and whether it maps 512 MiB. -/
structure Leaf where
  out : Nat
  entry : Entry
  big : Bool
  deriving DecidableEq, Repr

/-- Permissions of a leaf word (R297). -/
def leafPerm (e : BitVec 64) : Perm := e.extractLsb' 2 3
/-- Permissions that a leaf grants. -/
def Leaf.perm (l : Leaf) : Perm := leafPerm l.entry.word
/-- Address field [51:16] of an entry. -/
def entryAddr (e : BitVec 64) : Nat := (e.extractLsb' 16 36).toNat * 65536
/-- A pointer entry of R296, for which V and LEAF have been read. -/
def ptrOk (e : BitVec 64) : Bool := e.getLsbD 0 && !e.getLsbD 1 && e.extractLsb' 2 14 == 0
/-- A leaf entry that R297 allows. -/
def leafOk (e : BitVec 64) (big : Bool) : Bool :=
  e.getLsbD 0 && e.getLsbD 1 && e.extractLsb' 13 3 == 0 && !(e.getLsbD 3 && !e.getLsbD 2)
    && (!big || e.extractLsb' 16 13 == 0)

/-- One tree (R299): `read` reads an entry word at an input address of the stage's tables, with where the word lies. -/
def tree (root : BitVec 64) (x : Nat) (bad : WFault)
    (read : Nat → Except WFault Entry) : Except WFault Leaf :=
  if !root.getLsbD 0 || root.extractLsb' 52 4 != 0 || root.extractLsb' 1 12 != 0 then .error bad
  else do
    let base := (root.extractLsb' 13 39).toNat * 8192
    let past := fun (xs : List Entry) => xs.flatMap fun (e : Entry) => e.via ++ [e.pa]
    let t ← read (base + 8 * (x / 2 ^ 42 % 1024))
    if !ptrOk t.word then .error bad
    else
      let m ← read (entryAddr t.word + 8 * (x / 2 ^ 29 % 8192))
      if m.word.getLsbD 0 && m.word.getLsbD 1 then
        if leafOk m.word true then .ok ⟨entryAddr m.word + x % 2 ^ 29, { m with via := past [t] ++ m.via }, true⟩ else .error bad
      else if !ptrOk m.word then .error bad
      else
        let e ← read (entryAddr m.word + 8 * (x / 2 ^ 16 % 8192))
        if leafOk e.word false then .ok ⟨entryAddr e.word + x % 65536, { e with via := past [t, m] ++ e.via }, false⟩ else .error bad

/-- A read of a table word in machine memory; an uncorrectable one faults the walk (R299). -/
def readPa (m : Mem) (bad : WFault) (pa : Nat) : Except WFault Entry :=
  if m.bad pa then .error { bad with poison := true } else .ok { pa := pa, word := m.rd64 pa }

/-- Stage 2 of a GPA; `walk` when the GPA is that of a stage-1 table entry. -/
def tree2 (m : Mem) (root2 : BitVec 64) (g : Nat) (walk : Bool) : Except WFault Leaf :=
  let bad : WFault := { code := 0x12, stage := 3, walk := walk, gpa := g }
  tree root2 g bad (readPa m bad)

/-- A MOVED leaf met on the way: its stage and the leaf, with the GPA that led to a stage-2 one. -/
structure Moved where
  stage : Nat
  leaf : Leaf
  walk : Bool
  gpa : Nat
  deriving DecidableEq, Repr

/-- What a walk comes to before its effects: a fault, a MOVED leaf, or both leaves. -/
inductive WRes where
  | fault (f : WFault)
  | moved (v : Moved)
  | leaves (g : Nat) (p1 : Perm) (l1 : Option Leaf) (l2 : Leaf)
  deriving DecidableEq, Repr

/-- Bit 6 of a leaf word (R297). -/
def isMoved (e : BitVec 64) : Bool := e.getLsbD 6

/-- A read of a stage-1 table entry through stage 2 (R299); a MOVED stage-2 leaf is carried in the error as stage 3 with
`moved`. -/
def readGpa (m : Mem) (root2 : BitVec 64) (g : Nat) : Except WFault Entry := do
  let l ← tree2 m root2 g true
  let bad : WFault := { code := 0x12, stage := 3, walk := true, gpa := g }
  if isMoved l.entry.word then .error { bad with moved := true }
  else if !Perm.within needR l.perm then .error bad
  else if m.bad l.out then .error { code := 0x11, stage := 2, walk := true, poison := true }
  else .ok ⟨l.out, m.rd64 l.out, g, Perm.within needW l.perm, l.entry.via ++ [l.entry.pa]⟩

/-- The walk without its effects (R299). -/
def findLeaves (m : Mem) (root1 root2 : BitVec 64) (ia : Nat) : WRes :=
  let off := ia % 2 ^ 47
  let movedAt (g : Nat) (walk : Bool) : WRes := match tree2 m root2 g walk with
    | .ok l => .moved ⟨3, l, walk, g⟩
    | .error f => .fault f
  let second (g : Nat) (p1 : Perm) (l1 : Option Leaf) : WRes := match tree2 m root2 g false with
    | .error f => .fault f
    | .ok l2 => if isMoved l2.entry.word then .moved ⟨3, l2, false, g⟩ else .leaves g p1 l1 l2
  if root1.getLsbD 0 then
    match tree root1 off { code := 0x11, stage := 2 } (readGpa m root2) with
    | .error f => if f.moved then movedAt f.gpa true else .fault f
    | .ok l => if isMoved l.entry.word then .moved ⟨2, l, false, 0⟩ else second l.out l.perm (some l)
  else if root1.extractLsb' 52 4 != 0 || root1.extractLsb' 1 12 != 0 then .fault { code := 0x11, stage := 2 }
  else second off 7 none

/-! ### The landing engine (R306) -/

/-- Copy a 64 KiB page with its poison, as its key shows it: only what memory lists. -/
def copyPage (m : Mem) (src dst : Nat) : Mem :=
  let m := { m with
    bytes := sclear m.bytes dst 65536, stale := sclear m.stale dst 65536, keys := sset 0 m.keys (dst / 65536) (m.keyOf src) }
  let bad := m.poison.filter fun (e : Nat × Bool) => decide (src / 64 ≤ e.1) && decide (e.1 < src / 64 + 1024)
  let m := { m with
    poison := bad.foldl (fun p (e : Nat × Bool) => sset false p (dst / 64 + (e.1 - src / 64)) true) (sclear m.poison (dst / 64) 1024) }
  (m.bytes.filter fun e => decide (src ≤ e.1) && decide (e.1 < src + 65536)).foldl
    (fun m e => m.wr (dst + (e.1 - src)) e.2) m

/-- A leaf word after landing: PA the frame, MOVED 0, both heat fields 0. -/
def landedWord (e : BitVec 64) (frame : Nat) : BitVec 64 :=
  (e &&& ~~~(0x000FFFFFFFFF0000#64 ||| 0x1E40#64)) ||| BitVec.ofNat 64 (frame / 65536 % 2 ^ 36 * 65536)

/-- Where a frame number of the ring's owner lies in machine memory: a PA for stage 2, a GPA through stage 2 for stage
1. An error holds the MOVED stage-2 leaf where that is what stands in the way. -/
def framePa (m : Mem) (root2 : BitVec 64) (stage addr : Nat) (need : Perm) : Except (Option Moved) Nat :=
  if stage = 3 then .ok addr
  else match tree2 m root2 addr false with
    | .ok l => if isMoved l.entry.word then .error (some ⟨3, l, false, addr⟩) else if need.within l.perm then .ok l.out else .error none
    | .error _ => .error none

/-- What a landing comes to: done, a record of R306, a stage-2 fault of a page's GPA, or a stage-2 leaf that is to be landed first. -/
inductive Landing where
  | landed (m : Mem) | record | frame (gpa : Nat) | first (v : Moved)

/-- Entries of a ring with free-running 64-bit counters. -/
def ringUsed (prod cons : BitVec 64) : Nat := (prod - cons).toNat
/-- Land a MOVED leaf with the rings at machine addresses `free` and `ret` (R306). -/
def landLeaf (m : Mem) (root2 : BitVec 64) (v : Moved) (free ret : Nat) : Landing :=
  if v.leaf.big || free = 0 || ret = 0 then .record
  else
    let prod := m.rd64 free
    let cons := m.rd64 (free + 8)
    let size := (m.rd64 (free + 16)).toNat
    let rprod := m.rd64 ret
    let rsize := (m.rd64 (ret + 16)).toNat
    if prod = cons || size = 0 || rsize = 0 || rsize ≤ ringUsed rprod (m.rd64 (ret + 8)) then .record
    else
      let frame := entryAddr (m.rd64 (free + 64 + 8 * (cons.toNat % size)))
      let old := entryAddr v.leaf.entry.word
      match framePa m root2 v.stage old needR, framePa m root2 v.stage frame needW with
      | .ok src, .ok dst =>
        let m := copyPage m src dst
        let m := m.wr64 v.leaf.entry.pa (landedWord v.leaf.entry.word frame)
        let m := m.wr64 (free + 8) (cons + 1)
        let m := m.wr64 (ret + 64 + 8 * (rprod.toNat % rsize)) (BitVec.ofNat 64 old)
        .landed (m.wr64 ret (rprod + 1))
      | .error (some w), _ => .first w
      | _, .error (some w) => .first w
      | .error none, _ => .frame old
      | _, .error none => .frame frame

/-- The landing rings of a MOVED leaf of partition p (R306, R370, R374). Host-assisted mode has none. -/
def State.ringsOf (s : State) (p : Nat) (stage : Nat) : Nat × Nat :=
  let pt := s.part p
  if pt.mode modeLand then (0, 0)
  else if stage = 3 then (pt.free2, pt.ret2) else (pt.free1, pt.ret1)

/-- The fault of a MOVED leaf that cannot be landed. -/
def Moved.fault (v : Moved) : WFault :=
  if v.stage = 3 then { code := 0x12, stage := 3, walk := v.walk, gpa := v.gpa, moved := true } else { code := 0x11, stage := 2, moved := true }
/-- Land a stage-2 leaf of a partition: none where it makes a record. -/
def State.landTwo (s : State) (p : Nat) (v : Moved) : Option State :=
  match landLeaf s.mem (s.part p).s2root v (s.ringsOf p 3).1 (s.ringsOf p 3).2 with
  | .landed m => some { s with mem := m }
  | _ => none
/-- Land what a walk of `ia` meets, at most `fuel` leaves; then what the walk comes to. A leaf that cannot be landed is a
fault with `moved`; a stage-1 leaf that stage 2 does not let the engine write is one of stage 2 (R299). The stage-2 leaf of a page that a
landing copies is landed before it. -/
def State.landWalk (s : State) (root1 : BitVec 64) (ia : Nat) : Nat → WRes × State
  | 0 => (findLeaves s.mem root1 (s.part (partOfIa ia)).s2root ia, s)
  | n + 1 =>
    let p := partOfIa ia
    let root2 := (s.part p).s2root
    match findLeaves s.mem root1 root2 ia with
    | .moved v =>
      let r := s.ringsOf p v.stage
      if !v.leaf.entry.wok then (.fault { code := 0x12, stage := 3, walk := true, gpa := v.leaf.entry.gpa }, s)
      else match landLeaf s.mem root2 v r.1 r.2 with
      | .landed m => State.landWalk { s with mem := m } root1 ia n
      | .frame g => (.fault { code := 0x12, stage := 3, gpa := g }, s)
      | .record => (.fault v.fault, s)
      | .first w => match s.landTwo p w with
        | some t => State.landWalk t root1 ia n
        | none => (.fault w.fault, s)
    | r => (r, s)

/-! ### Grants -/

/-- Raise a heat field [hi:lo] at bit `b`, up to 3 (R305). -/
def raiseHeat (e : BitVec 64) (b : Nat) : BitVec 64 :=
  if (e >>> b) &&& 3 == 3 then e else e + (1#64 <<< b)
/-- A leaf word after a grant: A, D for W, and heat in stage 1 (R297, R305). -/
def grantWord (e : BitVec 64) (need : Perm) (heat : Bool) : BitVec 64 :=
  let e := e ||| 0x100
  let e := if Perm.within needW need then e ||| 0x80 else e
  if !heat then e
  else
    let e := if need &&& 5 != 0 then raiseHeat e 9 else e
    if Perm.within needW need then raiseHeat e 11 else e

/-- Mark the dirty log (R308), or set OVF. -/
def State.markDirty (s : State) (p gpage : Nat) : State :=
  let pt := s.part p
  if !pt.armed then s
  else if pt.logPages ≤ gpage then s.setPart p { pt with ovf := true }
  else
    let a := pt.logBase + 8 * (gpage / 64)
    { s with mem := s.mem.wr64 a (s.mem.rd64 a ||| (1#64 <<< (gpage % 64))) }

/-- Base die whose walker serves an IA: its line's home (R8, R299). -/
def walkerOf (ia : Nat) : Nat := homeOf (lineOf ia)
def tcacheMax : Nat := 8192
/-- A base die's translation cache takes a walk's result (R293, R299); a full one drops another entry, which one is left open. -/
def State.enter (s : State) (t : TEntry) : State :=
  let rest := s.mem.tcache.filter fun x => !(x.iapage == t.iapage && x.die == t.die)
  let mine := rest.filter fun x => x.die == t.die
  if mine.length < tcacheMax then s.onMem fun m => { m with tcache := t :: rest }
  else
    let old := mine[Config.pick s.free % mine.length]?
    s.draw.onMem fun m => { m with tcache := t :: rest.filter fun x => some x != old }
def Mem.cached (m : Mem) (ia : Nat) : Option TEntry := m.tcache.find? fun t => t.iapage == ia / 65536 && t.die == walkerOf ia

/-- Outcome of a walk or of an access: the machine address, or a fault. -/
inductive Acc where
  | pa (a : Nat) | fault (f : WFault)
  deriving DecidableEq, Repr

/-- The effects of a walk that both stages grant: A and D in both leaves, heat in the stage-1 leaf, the dirty log; or the
fault of R299 when stage 2 denies the write into the stage-1 table. -/
def State.grant (s : State) (p : Nat) (need : Perm) (g : Nat) (l1 : Option Leaf) (l2 : Leaf) : Option WFault × State :=
  let w1 := l1.map fun l => (l, grantWord l.entry.word need true)
  let w2 := grantWord l2.entry.word need false
  let put2 := fun (s : State) => if w2 = l2.entry.word then s else { s with mem := s.mem.wr64 l2.entry.pa w2 }
  let log := fun (s : State) => if Perm.within needW need then s.markDirty p (g / 65536) else s
  match w1 with
  | none => (none, log (put2 s))
  | some (l, w) =>
    if w = l.entry.word then (none, log (put2 s))
    else if l.entry.wok then (none, log (put2 { s with mem := s.mem.wr64 l.entry.pa w }))
    else (some { code := 0x12, stage := 3, walk := true, gpa := l.entry.gpa }, s)

/-- A walker reads table entries at machine addresses: one of a line that a core holds pinned gets a retry (R222). -/
def State.walked (s : State) (as : List Nat) : State :=
  let pins := s.core.pins ++ s.others.flatMap fun (o : Other) => o.ctx.pins
  match pins.find? fun l => as.any fun a => (s.mem.line l).pa == a / 256 * 256 with
  | some l => s.onMem fun m => m.stand l
  | none => s
/-- The key of a page of partition p, from its stage-2 leaf (R297). -/
def State.keyFor (s : State) (p : Nat) (leaf : BitVec 64) : Nat := if leaf.getLsbD 5 then (s.part p).key else 0
/-- Walk (R299) with its effects. `cache` is false for the control die's own accesses, which use stage 2 alone. An entry
of the translation cache grants W only once a grant of W has set D (R193, R297); a grant of W marks the dirty log in
every case (R308). -/
def State.walk (s : State) (root1 : BitVec 64) (ia : Nat) (need : Perm) (cache : Bool := true) : Acc × State :=
  let p := partOfIa ia
  let hit := if cache then
      match s.mem.cached ia with
      | some t => if need.within t.p1 && need.within t.p2 then some t else none
      | none => none
    else none
  match hit with
  | some t =>
    let s := if Perm.within needW need then s.markDirty p (t.gpa / 65536) else s
    (.pa (t.pa + ia % 65536), s.onMem fun m => m.view t.pa t.key)
  | none =>
    match s.landWalk root1 ia 7 with
    | (.fault f, s) => (.fault f, s)
    | (.moved v, s) =>
      (.fault { code := if v.stage = 3 then 0x12 else 0x11, stage := v.stage, walk := v.walk, gpa := v.gpa, moved := true }, s)
    | (.leaves g p1 l1 l2, s) =>
      if !need.within p1 then (.fault { code := 0x13, stage := 2 }, s)
      else if !need.within l2.perm then (.fault { code := 0x12, stage := 3, gpa := g }, s)
      else
        let read := fun (l : Leaf) => l.entry.via ++ [l.entry.pa]
        let s := s.walked (read l2 ++ (l1.map read).getD [])
        match s.grant p need g l1 l2 with
        | (some f, s) => (.fault f, s)
        | (none, s) =>
          let q1 := if Perm.within needW need then p1 else p1 &&& 5
          let k := s.keyFor p l2.entry.word
          let s := if cache then s.enter ⟨walkerOf ia, ia / 65536, l2.out - ia % 65536, g - ia % 65536, q1, l2.perm, k⟩ else s
          (.pa l2.out, s.onMem fun m => m.view l2.out k)

/-! ### Reaching memory -/

/-- A line some of whose tokens a lost die held, and whose partition waits for TOKREBUILD (R240). -/
def Mem.waitsRebuild (m : Mem) (l : Nat) : Bool := m.lost.any fun d => ((m.line l).die d).tokens != 0

/-- Hawser requests that stand on a line are served before an access that lacks tokens: the copies in the dies are recalled, and each
requester's slice makes room (R229, R230, R232). -/
def State.hawRoom (s : State) (l : Nat) : State :=
  let rs := (s.mem.line l).haw.toList ++ (s.mem.line l).hawQ
  if rs.isEmpty then s else rs.foldl (fun s r => s.l2Room r l) (s.recallAll l true)
/-- A line's copies were filled with the key of their page. -/
def Mem.noteKey (m : Mem) (l pa : Nat) : Mem :=
  if (m.line l).key = m.keyOf pa then m else m.setLine l { m.line l with key := m.keyOf pa }
/-- Access a line from a die for a core, whose own copies stay (R192, R193, R226): a resident line, with WP where W is needed, needs no walk; else the
line's home walks, and the die gathers the tokens. Host memory is not cached. -/
def State.reachBy (s : State) (root1 : BitVec 64) (core die ia : Nat) (need : Perm) : Acc × State :=
  let l := lineOf ia
  let s := s.contend l
  let x := s.mem.line l
  let dl := x.die die
  let w := Perm.within needW need
  let here := (if w then x.canWrite (some die) else x.canRead (some die)) && (s.mem.reduceKey l).isNone
  let hold := fun (s : State) (pa : Nat) =>
    if hostBase ≤ pa then s
    else
      let base := pa - ia % 256
      let s := if here then s else (s.hawRoom l).l2Room die l
      (s.onMem fun m => if w then m.lineWrite l (some die) base (1 <<< (ia % 256 / 64)) else m.lineRead l (some die) base).recallWhere (fun c => c != core) l w
  if !here && s.mem.waitsRebuild l then (.pa x.pa, s.onMem fun m => { m with blocked := true })
  else if x.canRead (some die) && (!w || dl.wp) then
    let pa := x.pa + ia % 256
    (.pa pa, hold (s.onMem fun m => m.view x.pa x.key) pa)
  else match s.walk root1 ia need with
    | (.fault f, s) => (.fault f, s)
    | (.pa pa, s) => (.pa pa, (hold s pa).onMem fun m => m.noteKey l pa)
/-- The same by the core that acts. -/
def State.reach (s : State) (root1 : BitVec 64) (die ia : Nat) (need : Perm) : Acc × State := s.reachBy root1 s.core.num die ia need

/-- Lines of an L1: 128 KiB (R2). -/
def l1Lines : Nat := 2048
/-- 8-byte words of a 64-byte line that a store of n bytes covers whole (R354, R356). -/
def wordsCovered (ia n : Nat) : BitVec 8 := if ia % 8 = 0 && n = 8 then 1 <<< (ia % 64 / 8) else 0
/-- A core's L1 copy of a 64-byte line after an S-slot access, a store of n bytes where n is not 0 (R189, R193): a copy that comes from a
poisoned sector is poisoned, and a store clears the words that it covers whole (R356). -/
def Mem.l1Touch (m : Mem) (core ia n : Nat) : Mem :=
  let k := coreKey core ia
  let x := sget {} m.l1 k
  let m := m.share core (lineOf ia) (n != 0)
  let bad := if x.valid then x.bad else if m.bad ((m.line (lineOf ia)).pa + ia % 256) then BitVec.allOnes 8 else 0
  let y : L1Line := ⟨true, ((m.line (lineOf ia)).die (dieOf core)).wp, x.dirty || n != 0, bad &&& ~~~(wordsCovered ia n)⟩
  { m with l1 := sset {} m.l1 k y }
/-- The core's L1 takes the line of an access; a full one first gives a line back that it does not hold pinned, a dirty one merged into L2
(R2, R222). -/
def State.l1Touch (s : State) (ia n : Nat) : State :=
  let pinned := fun (k : Nat) => s.core.pins.contains (keyLine k / 4)
  let s := match lineToDrop s.mem.l1 s.core.num l1Lines (coreKey s.core.num ia) (Config.pick s.free) pinned with
    | none => s
    | some k =>
      let x : L1Line := sget {} s.mem.l1 k
      s.draw.onMem fun m => { m with l1 := sset {} m.l1 k {} }.mergeL1 (if x.dirty then [(k, x)] else [])
  let s := s.recallStash s.core.num (lineOf ia) (n != 0)
  s.onMem fun m => m.l1Touch s.core.num ia n
/-- Poison of the 8-byte word at an IA as a core's S slot reads it: its L1 copy's, else the sector's. -/
def State.wordBad (s : State) (ia pa : Nat) : Bool :=
  let x : L1Line := sget {} s.mem.l1 (coreKey s.core.num ia)
  if x.valid then x.bad.getLsbD (ia % 64 / 8) else s.mem.bad pa

/-! ### The control die's host agent (R223, R225, R227) -/

/-- Lines of which a copy, a watch or a partial stands at a machine address. -/
def Mem.linesAt (m : Mem) (pa : Nat) : List Nat :=
  (m.lines.filter fun e => e.2.pa == pa / 256 * 256
    && (e.2.resident || e.2.watched || e.2.ctlTok != 0 || !e.2.partials.isEmpty || e.2.homeReduce.isSome)).map (·.1)
/-- Entries of the control die's host agent (R225). -/
def ctlLines : Nat := 256
/-- The control die's tokens and dirty sectors of a line go home. -/
def Line.ctlLeave (l : Line) : Line :=
  { l with
    homeTok := l.homeTok + l.ctlTok, homeOwner := l.homeOwner || l.ctlOwner, homeDirty := l.homeDirty || l.ctlDirty != 0
    homeReduce := if l.ctlOwner then l.ctlReduce else l.homeReduce
    ctlTok := 0, ctlOwner := false, ctlData := false, ctlDirty := 0, ctlReduce := none }
/-- A host agent that is full gives a line back, which one is left open, before it takes another. -/
def State.ctlRoom (s : State) (l : Nat) : State :=
  let held := s.mem.lines.filter fun e => e.2.ctlTok != 0
  if (s.mem.line l).ctlTok ≠ 0 || held.length < ctlLines then s
  else match held[Config.pick s.free % held.length]? with
    | some e => s.draw.onMem fun m => (m.writeBack e.2.pa 256).setLine e.1 e.2.ctlLeave
    | none => s
/-- The control die has a line at hand: a pin stands in its way (R222), copies are recalled, a reduce line is merged, the tokens come. -/
def State.ctlLine (s : State) (write : Bool) (l base : Nat) : State :=
  let s := s.outside l
  let x := s.mem.line l
  let here := (if write then x.canWrite none else x.canRead none) && (s.mem.reduceKey l).isNone
  if !here && s.mem.waitsRebuild l then s.onMem fun m => { m with blocked := true }
  else
    let s := if here then s else ((s.hawRoom l).recallAll l write).ctlRoom l
    s.onMem fun m => if write then m.lineWrite l none base 15 else m.lineRead l none base

/-! ### The control die's own accesses by VA of a partition -/

/-- Machine address of a VA for the control die: the IA offset is the VA, and stage 2 alone translates it. -/
def State.ctlPa (s : State) (part va : Nat) (need : Perm) : Option Nat × State :=
  if 2 ^ 47 ≤ va then (none, s)
  else match s.walk 0 (iaOf part va) need false with
    | (.pa a, s) => (some a, s)
    | (.fault _, s) => (none, s)

/-- Read the 8-byte word at a VA: none outside the tables. -/
def State.ctlRd (s : State) (part va : Nat) : Option (BitVec 64) := let r := s.ctlPa part va needR; r.1.map fun a => r.2.mem.rd64 a

/-- The control die reads the line of a VA: it holds a token of it with the data (R227); the walk's marks stand (R299). -/
def State.ctlTake (s : State) (part va : Nat) : State :=
  match s.ctlPa part va needR with
  | (some a, s) => if hostBase ≤ a then s else s.ctlLine false (lineOf (iaOf part va)) (a / 256 * 256)
  | (none, s) => s

/-- The control die holds the line of a VA for its reads: what its walk marks or lands stands, and a line of which a die has tokens, or that is
in reduce state, comes to it (R227, R235, R299). -/
def State.ctlHold (s : State) (part va : Nat) : State :=
  let l := lineOf (iaOf part va)
  let x := s.mem.line l
  let home := x.homeTok + (if x.watched then 1 else 0) == 16 && x.homeReduce.isNone && x.partials.isEmpty
  if home || x.canRead none then (s.ctlPa part va needR).2 else s.ctlTake part va
/-- The same for the lines of n bytes. -/
def State.ctlHoldN (s : State) (part va n : Nat) : State := (List.range ((n + 255) / 256)).foldl (fun s k => s.ctlHold part (va + 256 * k)) s

/-- The line stands at its home alone, out of reduce state. -/
def Mem.atHome (m : Mem) (l : Nat) : Bool :=
  (m.line l).homeTok == 16 && (m.line l).homeReduce.isNone && m.msgs.all fun x => x.line != l
/-- The control die takes every token of a line for a write of its own, and gives them to the home within the step, a watched one to
the watch table again (R227, R267). -/
def State.ctlOwn (s : State) (l : Nat) : State :=
  let s := s.outside l
  if s.mem.atHome l then s
  else if s.mem.waitsRebuild l then s.onMem fun m => { m with blocked := true }
  else
    let w := (s.mem.line l).watched
    (s.recallAll l true).onMem fun m =>
      let m := m.flushLine l
      let x := m.line l
      m.setLine l (if w then { x with watched := true, homeTok := x.homeTok - 1 } else x)
/-- Write a word at a VA; nothing where the tables do not grant it. -/
def State.ctlWr (s : State) (part va : Nat) (v : BitVec 64) : State :=
  match s.ctlPa part va needRW with
  | (some a, s) => (s.ctlOwn (lineOf (iaOf part va))).onMem fun m => (m.wr64 a v).writeBack a 8
  | (none, s) => s

end Sys2Proof.Machine
end

