-- ==== Sys2Proof/Machine/Records.lean ====
section
/-! DEFINITION. Fault records: which queue, the record's words, the ring (R301, R302, R370, R371). -/

namespace Sys2Proof.Machine

/-- Bound of a list or of a tree's depth: blocks of 256 bytes in 2^47 bytes of IA (R264). -/
def treeBound : Nat := 2 ^ 39
/-- VF whose function root is at `va`. -/
def vfOfRoot (rootva : Nat) (vfs : List Nat) (va : Nat) : Option Nat := vfs.find? fun v => rootva + 0x100 * v == va
/-- The function root above a node, looked for upwards. -/
def State.rootAbove (s : State) (part : Nat) : Nat → Nat → Option Nat
  | 0, _ => none
  | n + 1, va =>
    if va = 0 then none
    else match vfOfRoot (s.part part).rootva (s.part part).vfs va with
      | some v => some v
      | none => s.rootAbove part n (s.node? part va).parent
/-- The lowest VF of a list with its queue on. -/
def State.lowestOn (s : State) (vfs : List Nat) : Option Nat :=
  vfs.foldl
    (fun o v => if (s.vf v).qsize = 0 then o else match o with | none => some v | some w => if v < w then some v else o)
    none
/-- Queue of a record (R371): 0 is the physical function's. -/
def State.route (s : State) (part node : Nat) (pf : Bool) : Nat :=
  if pf then 0
  else
    let v := match s.rootAbove part treeBound node with
      | some v => v
      | none => (s.lowestOn (s.part part).vfs).getD 0
    if (s.vf v).qsize = 0 then 0 else v

/-- Outstanding written records of a queue. -/
def State.outstanding (s : State) (q : Nat) : Nat := (s.sys.recs.filter fun r => r.queue == q && r.sent && !r.fwd).length

/-- The record's four words (R302). -/
def FRec.words (r : FRec) : List (BitVec 64) :=
  [BitVec.ofNat 64 (r.rqtag.toNat * 2 ^ 48 + r.code % 256 * 2 ^ 40 + r.part % 32 * 2 ^ 35 + r.stage.agent % 8 * 2 ^ 32
    + (if r.stage.walk then 2 ^ 31 else 0) + (if r.stage.write then 2 ^ 30 else 0) + (if r.poison then 2 ^ 29 else 0)
    + (if r.moved then 2 ^ 28 else 0) + r.stage.stage % 8 * 2 ^ 24 + r.seq % 2 ^ 24),
   BitVec.ofNat 64 (r.ia % 2 ^ 52), BitVec.ofNat 64 (r.gpa % 2 ^ 52),
   BitVec.ofNat 64 (r.core % 1024 * 2 ^ 24 + r.group % 2 ^ 24)]
def FRec.bytes (r : FRec) : List (BitVec 8) := (r.words.map fun w => leBytes 8 w.toNat).flatten

/-- Write a record to its ring, when the ring has room: it takes the queue's next SEQ. -/
def State.sendRec (s : State) (r : FRec) : FRec × State :=
  let v := s.vf r.queue
  if v.qsize = 0 || v.qsize ≤ s.outstanding r.queue then (r, s)
  else
    let r := { r with seq := v.prod, sent := true }
    let s := s.setVf r.queue { v with prod := (v.prod + 1) % 2 ^ 24 }
    (r, { s with mem := s.mem.wrN (v.qbase + 32 * (r.seq % v.qsize)) r.bytes })

/-- File the record of a fault of the core's group (R301, R371): its identity, or none when both queues are off. Poison is also an
error record (R361). -/
def State.fileRec (s : State) (pf : Bool) (code : Nat) (stage : Stage) (ia gpa : Nat) (poison moved : Bool)
    (w : FWaiter) : Option Nat × State :=
  let c := s.core
  let q := s.route c.partNo c.node.toNat pf
  let s := if poison then
      s.record (9 + walkerOf ia)
        { rank := rankUncorrected, code := code, addr := ia, aspace := 1, utype := 8, uindex := walkerOf ia, rqtag := c.rqtag, part := c.partNo }
    else s
  if (s.vf q).qsize = 0 then (none, s)
  else
    let id := s.sys.order
    let r : FRec :=
      { id := id, queue := q, seq := 0, sent := false, rqtag := c.rqtag, code := code, part := c.partNo, stage := stage
        poison := poison, moved := moved, ia := ia, gpa := gpa, core := c.num, group := c.index, waiter := w
        s1flt := (s.part c.partNo).mode modeS1Flt }
    let (r, s) := s.sendRec r
    (some id, { s with sys := { s.sys with order := id + 1, recs := s.sys.recs ++ [r] } })

/-- Records that wait for room go out in order. -/
def State.pump (s : State) : State :=
  s.sys.recs.foldl
    (fun s r =>
      if r.sent then s
      else
        let (r', s) := s.sendRec r
        { s with sys := { s.sys with recs := s.sys.recs.map fun x => if x.id == r.id then r' else x } }) s

/-- A record is outstanding. -/
def State.waiting (s : State) (id : Nat) : Bool := s.sys.recs.any fun r => r.id == id && !r.fwd

/-- Whether a walk's fault goes to the physical function's queue (R301, R306): stage 2 always; stage 1 of an engine
unless FUNCMODE selects hardware stage-1 resolution; a stage-1 MOVED leaf goes to the partition's. -/
def State.toPf (s : State) (f : WFault) : Bool :=
  f.code == 0x12 || (!f.moved && (s.part s.core.partNo).mode modeS1Flt)

/-- An uncorrectable table read that a walk met is an error record where no fault record says so (R299, R361). -/
def State.walkRecord (s : State) (f : WFault) (ia : Nat) : State :=
  if f.poison then
    s.record (9 + walkerOf ia)
      { rank := rankUncorrected, code := f.code, addr := ia, aspace := 1, utype := 8, uindex := walkerOf ia, rqtag := s.core.rqtag
        part := s.core.partNo }
  else s

end Sys2Proof.Machine
end

