-- ==== Sys2Proof/Machine/Span.lean ====
section
/-! DEFINITION. Spans: element places, walk orders and the inverse questions (R54, R148, R150, R321). -/

namespace Sys2Proof.Machine

/-- Bits of an element. -/
def Desc.bits (d : Desc) : Nat := (fmtOf d.etype.toNat).bits
/-- A packed format (R54): f6e3, f6e2, f4, i4. -/
def packedCode (t : Nat) : Bool := t == 5 || t == 6 || t == 7 || t == 11
def Desc.packed (d : Desc) : Bool := packedCode d.etype.toNat
/-- Elements and bytes of a packed group: 2 in 1, or 4 in 3. -/
def groupElems (bits : Nat) : Nat := if bits = 6 then 4 else 2
def groupBytes (bits : Nat) : Nat := if bits = 6 then 3 else 1
/-- Extents and strides of the dimensions below RANK. -/
def Desc.dims (d : Desc) : List Nat := d.extents.take d.rank
def Desc.strs (d : Desc) : List Int := d.strides.take d.rank
def natProd : List Nat → Nat
  | [] => 1
  | x :: r => x * natProd r
/-- Number of elements. -/
def Desc.count (d : Desc) : Nat := natProd d.dims
/-- Bytes of an element as InjTest and the bounds count them: for a packed format the dense dimension 0 (R150). -/
def Desc.width (d : Desc) : Nat := if d.packed then d.dims.headD 0 * d.bits / 8 else d.bits / 8

/-- Σ xn × STRIDEn. -/
def dotStride : List Nat → List Int → Int
  | x :: xs, s :: ss => (x : Int) * s + dotStride xs ss
  | _, _ => 0

/-- Place of an element: its first byte (of its 3-byte group for 6-bit elements), and its bit offset there. -/
def Desc.place (d : Desc) (x : List Nat) : Nat × Nat :=
  let b := d.bits
  if d.packed then
    let x0 := x.headD 0
    let g := groupElems b
    (((d.base : Int) + ((x0 / g * groupBytes b : Nat) : Int) + dotStride x.tail d.strs.tail).toNat, x0 % g * b)
  else (((d.base : Int) + dotStride x d.strs).toNat, 0)

/-- Bytes that hold an element. -/
def Desc.placeBytes (d : Desc) : Nat := if d.bits = 6 then 3 else if d.packed then 1 else d.bits / 8

/-- Lowest and highest byte offsets from BASE of the bounds of R149. -/
def Desc.loOff : List Nat → List Int → Int
  | e :: es, s :: ss => (if s < 0 then ((e : Int) - 1) * s else 0) + Desc.loOff es ss
  | _, _ => 0
def Desc.hiOff : List Nat → List Int → Int
  | e :: es, s :: ss => (if 0 < s then ((e : Int) - 1) * s else 0) + Desc.hiOff es ss
  | _, _ => 0
def Desc.lo (d : Desc) : Int := d.base + Desc.loOff d.dims d.strs
def Desc.hi (d : Desc) : Int := d.base + Desc.hiOff d.dims d.strs + d.width - 1

/-- The dimensions that move: extent above 1, and not the dense one of a packed format, with their number. -/
def Desc.moving (d : Desc) : List (Nat × Nat × Int) :=
  let all := (List.range d.rank).map fun n => (n, d.dims.getD n 0, d.strs.getD n 0)
  all.filter fun e => decide (1 < e.2.1) && !(d.packed && e.1 == 0)
/-- Insert by increasing |stride|, ties after. -/
def insDim (e : Nat × Nat × Int) : List (Nat × Nat × Int) → List (Nat × Nat × Int)
  | [] => [e]
  | f :: r => if e.2.2.natAbs < f.2.2.natAbs then e :: f :: r else f :: insDim e r
/-- In increasing |stride|, ties in increasing number. -/
def Desc.sorted (d : Desc) : List (Nat × Nat × Int) := d.moving.foldl (fun a e => insDim e a) []
/-- InjTest (R150) from a reach on. -/
def injFrom (reach : Nat) : List (Nat × Nat × Int) → Bool
  | [] => true
  | (_, e, s) :: r => if s.natAbs < reach then false else injFrom (reach + (e - 1) * s.natAbs) r
def Desc.injTest (d : Desc) : Bool := injFrom d.width d.sorted

/-! ### Walk orders (R247, R321): dimension numbers, outermost first -/

/-- WalkIndex. -/
def walkIndex (walk dims x : List Nat) : Nat := walk.foldl (fun k d => k * dims.getD d 1 + x.getD d 0) 0
/-- Coordinates of walk index k, from the innermost dimension out. -/
def coordsGo (dims : List Nat) : List Nat → Nat → List Nat → List Nat
  | [], _, x => x
  | d :: r, k, x => let e := dims.getD d 1; coordsGo dims r (k / e) (x.set d (k % e))
def coordsOf (walk dims : List Nat) (k : Nat) : List Nat :=
  coordsGo dims walk.reverse k (List.replicate dims.length 0)
/-- The 18-bit code of a walk (R247): 3 bits a dimension, the outermost in [17:15]. -/
def walkCode : List Nat → Nat → Nat
  | [], _ => 0
  | d :: r, sh => d * 2 ^ sh + walkCode r (sh - 3)

/-- Coordinates along the moving dimensions from the largest |stride| down, and the rest of the offset. -/
def peel : List (Nat × Nat × Int) → Nat → List Nat → Option (List Nat × Nat)
  | [], off, x => some (x, off)
  | (n, e, s) :: r, off, x =>
    let st := s.natAbs
    if st = 0 then none
    else
      let q := off / st
      let q := if e ≤ q then e - 1 else q
      peel r (off - q * st) (x.set n (if s < 0 then e - 1 - q else q))

/-- The elements of an injective span that hold byte `a` (R322): none, one, or two of a packed format. -/
def Desc.elemsAt (d : Desc) (a : Nat) : List (List Nat) :=
  let lo := d.base + Desc.loOff d.dims d.strs
  if (a : Int) < lo then []
  else match peel d.sorted.reverse ((a : Int) - lo).toNat (List.replicate d.rank 0) with
    | none => []
    | some (x, r) =>
      if d.width ≤ r then []
      else if d.packed then
        if d.bits = 6 then
          let g := r / 3 * 4
          [x.set 0 (g + r % 3), x.set 0 (g + r % 3 + 1)]
        else [x.set 0 (2 * r), x.set 0 (2 * r + 1)]
      else [x]

/-! ### Element bits in bytes -/

/-- The element's encoding from the bytes of its place. -/
def elemGet (bits off : Nat) (bs : List (BitVec 8)) : Nat := leNat bs / 2 ^ off % 2 ^ bits
/-- The bytes of its place with a new encoding. -/
def elemPut (bits off v : Nat) (bs : List (BitVec 8)) : List (BitVec 8) :=
  let x := leNat bs
  let old := x / 2 ^ off % 2 ^ bits
  leBytes bs.length (x - old * 2 ^ off + v % 2 ^ bits * 2 ^ off)

end Sys2Proof.Machine
end

