-- ==== Sys2Proof/Machine/FrontCore.lean ====
section
/-! DEFINITION. Front counters: their words, tags, mirror words, and how a front breaks (R315 to R332). -/

namespace Sys2Proof.Machine

def Eng.front (e : Eng) (n : Nat) : Front := sget {} e.fc n
def Eng.setFront (e : Eng) (n : Nat) (f : Front) : Eng := { e with fc := sset {} e.fc n f }
def State.front (s : State) (n : Nat) : Front := s.eng.front n
def State.setFront (s : State) (n : Nat) (f : Front) : State := { s with eng := s.eng.setFront n f }

def FState.code : FState → Nat | .idle => 0 | .running => 1 | .halted => 2 | .complete => 3 | .broken => 4
def FKind.code : FKind → Nat | .span => 0 | .ack => 1 | .tap => 2
/-- Words 0 to 3 (R316). -/
def Front.word0 (f : Front) : BitVec 64 := BitVec.ofNat 64 (f.gen.toNat * 2 ^ 48 + f.value % 2 ^ 48)
def Front.word1 (f : Front) : BitVec 64 :=
  BitVec.ofNat 64 (f.state.code * 2 ^ 61 + f.cause % 16 * 2 ^ 57 + f.pscope % 8 * 2 ^ 54 + f.pgran % 16 * 2 ^ 50
    + (if f.pub then 2 ^ 49 else 0) + (if f.tagged then 2 ^ 48 else 0) + f.limit % 2 ^ 48)
def Front.word2 (f : Front) : BitVec 64 := BitVec.ofNat 64 (f.prod % 4 * 2 ^ 62 + f.pva % 2 ^ 56)
def Front.word3 (f : Front) : BitVec 64 := BitVec.ofNat 64 (walkCode f.walk 15 % 2 ^ 18 * 2 ^ 46 + f.kind.code * 2 ^ 44)
/-- The mirror word (R332). -/
def Front.mirror (f : Front) : BitVec 64 := BitVec.ofNat 64 (f.state.code * 2 ^ 61 + f.value % 2 ^ 48)

/-! ### Queues of commands -/

/-- The queue of an engine. -/
def Eng.queue (e : Eng) : Engine → List Cmd
  | .matrix => e.mq | .copy0 => e.c0q | .copy1 => e.c1q
def Eng.setQueue (e : Eng) : Engine → List Cmd → Eng
  | .matrix, q => { e with mq := q } | .copy0, q => { e with c0q := q } | .copy1, q => { e with c1q := q }
/-- PROD code of an engine (R316), and its AGENT code (R152). -/
def engProd : Engine → Nat | .matrix => 0 | .copy0 => 1 | .copy1 => 2
def engAgent : Engine → Nat | .matrix => 3 | .copy0 => 4 | .copy1 => 5
def engineOf : Nat → Option Engine | 0 => some .matrix | 1 => some .copy0 | 2 => some .copy1 | _ => none

/-- What an engine has sent on its way completes without its command (R259). -/
def Eng.orphanSent (e : Eng) (pr : Nat) : Eng :=
  let away := fun (k : Nat) => if k = pr then 3 else k
  { e with
    flight := e.flight.map fun x => (away x.1, x.2), sent := e.sent.map fun x => (away x.1, x.2), crem := sset 0 e.crem pr 0 }
/-- The commands of a queue that satisfy a test are cancelled: what a copy command at the head has sent completes without it
(R259), and the staged chunk of a product at the head is discarded (R123, R145). -/
def Eng.cancel (e : Eng) (g : Engine) (hit : Cmd → Bool) : Eng :=
  let head := match (e.queue g).head? with | some c => hit c | none => false
  let e := e.setQueue g ((e.queue g).filter fun c => !hit c)
  if !head then e
  else match g with
    | .matrix => { e with staging := none, shadow := none }
    | _ => e.orphanSent (engProd g)
/-- In every queue. -/
def Eng.cancelAll (e : Eng) (hit : Cmd → Bool) : Eng := ((e.cancel .matrix hit).cancel .copy0 hit).cancel .copy1 hit
/-- All commands, queue by queue. -/
def Eng.commands (e : Eng) : List Cmd := e.mq ++ e.c0q ++ e.c1q

/-! ### Tags -/

/-- Clear the tags that a front set (R319). -/
def Spad.clearTags (sp : Spad) (n : Nat) : List Nat → Spad
  | [] => sp
  | p :: r =>
    let e := sp.entry p
    (if sptFt e && sptFidx e == n then sp.setEntry p (setBit64 e 57 false) else sp).clearTags n r

/-! ### A group's own access by VA -/

/-- Write a word at a VA of the core's group with need W: a Translate failure or a walk's fault comes back. -/
def State.vaWr64 (s : State) (va : Nat) (v : BitVec 64) : Option (Nat × WFault) × State :=
  match s.core.translate va needW with
  | .cause c => (some (0, { code := c, stage := 1 }), s)
  | .ia ia => match s.reach s.core.s1root s.core.die ia needW with
    | (.pa a, s) => (none, { s with mem := s.mem.wr64 a v })
    | (.fault f, s) => (some (ia, f), s)

/-- The agent of a front's mirror writes: its engine. -/
def Front.agent (f : Front) : Nat := if f.prod = 3 then 0 else f.prod + 3
/-- The mirror word of front n lies in a poisoned sector, which a write of 8 bytes leaves poisoned (R356). -/
def State.mirrorBad (s : State) (n : Nat) : Bool :=
  match s.core.translate (s.front n).pva needW with
  | .ia ia => (s.mem.line (lineOf ia)).resident && s.mem.bad ((s.mem.line (lineOf ia)).pa + ia % 256)
  | .cause _ => false
/-- Write the mirror of front n with its present state (R331, R332). A fault comes back to the caller. A word that stays poisoned is
consumed (R357). -/
def State.mirror (s : State) (n : Nat) : Option (Nat × WFault) × State :=
  let f := s.front n
  let r := s.vaWr64 f.pva f.mirror
  if r.1.isNone && r.2.mirrorBad n then (none, r.2.onCore fun c => c.raise ⟨0x30, BitVec.ofNat 64 f.pva, ⟨f.agent, false, true, 0⟩⟩) else r
/-- The mirror's line waits to be rebuilt (R240). -/
def State.mirrorWaits (s : State) (n : Nat) : Bool :=
  match s.core.translate (s.front n).pva needW with
  | .ia ia => !(s.mem.line (lineOf ia)).canWrite (some s.core.die) && s.mem.waitsRebuild (lineOf ia)
  | .cause _ => false

/-- End a front's tags. -/
def State.untag (s : State) (n : Nat) : State :=
  let f := s.front n
  { (s.setFront n { f with tagged := false, pages := [] }) with spad := s.spad.clearTags n f.pages }

/-- The binding of a generation of front n of an owner, as the group sees it, has completed or broken: queue entries that follow it
record that (R258, R322), and a command that waits at it meets the break. -/
def recordArm (o : Option Nat) (n : Nat) (gen : BitVec 16) (broken : Bool) (q : List Cmd) : List Cmd :=
  q.map fun c =>
    if (c.armOn == some (o, n) && c.gen == gen || broken && c.waitOn == some (o, n)) && !c.armDone && !c.armBroken then
      { c with armDone := !broken, armBroken := broken }
    else c
def Eng.recordArm (e : Eng) (o : Option Nat) (n : Nat) (gen : BitVec 16) (broken : Bool) : Eng :=
  let f := Machine.recordArm o n gen broken
  { e with mq := f e.mq, c0q := f e.c0q, c1q := f e.c1q }
/-- A bundle that waits at the front meets the end of its binding (R322, R323, R333). -/
def Core.meetEnd (c : Core) (o : Option Nat) (n : Nat) (broken : Bool) : Core :=
  if c.waitOn == some (o, n) && !c.waitBroken && !c.waitDone then { c with waitBroken := broken, waitDone := !broken } else c
/-- The binding of a generation of own front n has ended: the followers in the group and its gang record that. -/
def State.frontEnded (s : State) (n : Nat) (gen : BitVec 16) (broken : Bool) : State :=
  let pos := some s.core.gpos
  { s with
    core := s.core.meetEnd none n broken
    eng := s.eng.recordArm none n gen broken
    others := s.others.map fun (x : Other) =>
      if s.core.mate x.ctx then
        { x with ctx := x.ctx.meetEnd pos n broken, eng := x.eng.recordArm pos n gen broken }
      else x }

/-- What a walk met is filed, where a queue is on. -/
def State.fileWalk (s : State) (f : WFault) (agent : Nat) (write : Bool) (ia : Nat) (w : FWaiter) : Option Nat × State :=
  s.fileRec (s.toPf f) f.code ⟨agent, f.walk, write, f.stage⟩ ia (if f.code = 0x12 then f.gpa else 0) f.poison f.moved w

/-- A front breaks with a cause (R329): state, tags, one last mirror write, and the end of its publication. A mirror write waits for
the one before it, and a memory-side fault of it is filed (R332). -/
def State.breakFront (s : State) (n cause : Nat) : State :=
  let f := s.front n
  let s := s.setFront n { f with state := .broken, cause := cause, span := none }
  let s := (s.untag n).frontEnded n f.gen true
  if !f.pub || f.mwait.isSome then s.setFront n { s.front n with pub := false }
  else if s.mirrorWaits n then s.setFront n { s.front n with pub := false, mlate := true }
  else match s.mirror n with
    | (none, s) => s.setFront n { s.front n with pub := false }
    | (some (ia, x), s) =>
      let r := if x.stage = 1 then (none, s) else s.fileWalk x f.agent true ia (.mirror n)
      r.2.setFront n { r.2.front n with pub := false, mwait := r.1 }

/-- Last mirror writes that waited for their lines to be rebuilt (R240, R332). -/
def State.lateMirrors (s : State) : State :=
  s.everyCore fun s => ((s.eng.fc.filter fun x => x.2.mlate).map (·.1)).foldl
    (fun s n =>
      if s.mirrorWaits n then s
      else match (s.setFront n { s.front n with mlate := false }).mirror n with
        | (none, s) => s
        | (some (ia, x), s) =>
          let f := s.front n
          let r := if x.stage = 1 then (none, s) else s.fileWalk x f.agent true ia (.mirror n)
          r.2.setFront n { r.2.front n with mwait := r.1 }) s
/-- Fronts in STATE running or halted. -/
def Eng.liveFronts (e : Eng) : List Nat :=
  (e.fc.filter fun x => x.2.state == .running || x.2.state == .halted).map (·.1)

def State.breakAll (s : State) (cause : Nat) (ns : List Nat) : State := ns.foldl (fun s n => s.breakFront n cause) s

end Sys2Proof.Machine
end

