-- ==== Sys2Proof/Machine/Events.lean ====
section
/-! DEFINITION. Event objects, node control blocks as the control die writes them, kills and purges (R264, R269 to R272,
R358, R368). -/

namespace Sys2Proof.Machine

/-- A round of the partition's scheduler is due (R273). -/
def State.due (s : State) (part : Nat) : State :=
  let pt := s.part part
  if pt.live then s.setPart part { pt with roundDue := true } else s

/-! ### Event objects (R270, R271) -/

/-- The event address of a VA: bits [5:0] are ignored (R288). -/
def evAddr (va : Nat) : Nat := va / 64 * 64

/-- STATE after a signal: it becomes 1, or 2 with an error class, when COUNT is 0, and never falls. -/
def evState (count cls old : Nat) : Nat :=
  let n := if count = 0 then (if cls = 0 then 1 else 2) else old
  if n < old then old else n

/-- Apply a signal with class `cls` (0: none) to the event at a machine address (R271). At the change of STATE its waiters are looked at
(R273, R279). `ia` is its IA, for the record of a lost interrupt. -/
def State.signalPa (s : State) (part ia pa cls : Nat) : State :=
  let s := s.ctlOwn (lineOf ia)
  let c := s.mem.rd64 pa
  let w := s.mem.rd64 (pa + 8)
  let count := if c = 0 then 0 else c.toNat - 1
  let old := w.toNat % 4
  let err := w.toNat / 16 % 16
  let err' := if err = 0 then cls % 16 else err
  let st := evState count err' old
  let s := s.onMem fun m => ((m.wr64 pa (BitVec.ofNat 64 count)).wr64 (pa + 8) (BitVec.ofNat 64 (err' * 16 + st))).writeBack pa 16
  if st = old then s
  else
    let s := s.due part
    let ien := s.mem.rd64 (pa + 0x30)
    if ien.getLsbD 63 then s.eventMsix (ien.extractLsb' 16 7).toNat (ien.extractLsb' 0 11).toNat part ia else s
/-- The same for the event at a VA of a partition, as the control die finds it. -/
def State.signalEvent (s : State) (part va cls : Nat) : State :=
  match s.ctlPa part (evAddr va) needRW with
  | (some pa, s) => s.signalPa part (iaOf part (evAddr va)) pa cls
  | (none, s) => s

/-- An event with COUNT 0 and STATE 0 when it is first named is signalled at once (R270). -/
def State.namePa (s : State) (part ia pa : Nat) : State :=
  if s.mem.rd64 pa = 0 && (s.mem.rd64 (pa + 8)).toNat % 4 = 0 then s.signalPa part ia pa 0 else s
def State.nameEvent (s : State) (part va : Nat) : State :=
  match s.ctlPa part (evAddr va) needR with
  | (some pa, _) => if s.mem.rd64 pa = 0 && (s.mem.rd64 (pa + 8)).toNat % 4 = 0 then s.signalEvent part va 0 else s
  | (none, _) => s

/-- STATE of an event: 3 is treated as 2. -/
def State.eventState (s : State) (part va : Nat) : Nat := ((s.ctlRd part (evAddr va + 8)).getD 0).toNat % 4
/-- Class of an event. -/
def State.eventClass (s : State) (part va : Nat) : Nat := ((s.ctlRd part (evAddr va + 8)).getD 0).toNat / 16 % 16

/-! ### Node control blocks (R264) -/

def stNew : Nat := 0
def stWaiting : Nat := 1
def stAdmitted : Nat := 2
def stComplete : Nat := 3
def stKilled : Nat := 4

def State.nodeWord (s : State) (part va off : Nat) : BitVec 64 := (s.ctlRd part (va + off)).getD 0
def State.nodeState (s : State) (part va : Nat) : Nat := (s.nodeWord part va 0).toNat / 2 ^ 16 % 256
def State.nodeErr (s : State) (part va : Nat) : Nat := (s.nodeWord part va 0).toNat / 2 ^ 24 % 16
def State.nodeSeal (s : State) (part va : Nat) : Bool := (s.nodeWord part va 0).getLsbD 8
def State.nodeKind (s : State) (part va : Nat) : Nat := (s.nodeWord part va 0).toNat % 256
def State.nodeParent (s : State) (part va : Nat) : Nat := (s.nodeWord part va 8).toNat % 2 ^ 56
def State.nodeSignalEv (s : State) (part va : Nat) : Nat := (s.nodeWord part va 0x60).toNat % 2 ^ 56
def State.setNodeState (s : State) (part va st : Nat) : State :=
  s.ctlWr part va (setField64 (s.nodeWord part va 0) 16 8 st)
/-- ERRCLASS takes the first nonzero class (R362). -/
def State.nodeClass (s : State) (part va cls : Nat) : State :=
  if s.nodeErr part va = 0 then s.ctlWr part va (setField64 (s.nodeWord part va 0) 24 4 cls) else s

/-- Children in list order, at most `fuel`. -/
def State.childrenFrom (s : State) (part : Nat) : Nat → Nat → List Nat
  | 0, _ => []
  | n + 1, va => if va = 0 then [] else va :: s.childrenFrom part n ((s.nodeWord part va 0x18).toNat % 2 ^ 56)
def State.children (s : State) (part va : Nat) : List Nat :=
  s.childrenFrom part treeBound ((s.nodeWord part va 0x10).toNat % 2 ^ 56)

/-- A placed group belongs to a node of a partition: the partition owns its cluster (R373). -/
def State.placedAt (s : State) (part va : Nat) (p : Placed) : Bool :=
  p.node == va && (s.part part).clusters.contains (clusterOf p.core)
/-- Groups of a node that hold cores. -/
def State.placedOf (s : State) (part va : Nat) : List Placed := s.sys.placed.filter fun p => s.placedAt part va p

/-- A node that is complete, and not a new one in its reused block (R268). -/
def State.finished (s : State) (part va : Nat) : Bool :=
  (s.node? part va).done && (decide (stComplete ≤ s.nodeState part va) || (s.ctlRd part va).isNone)

/-- The group on a core, whole. -/
def State.groupOn (s : State) (core : Nat) : Option Other :=
  if s.core.num = core then some s.asOther else (s.otherOn core).bind fun k => s.others[k]?
/-- A placed group has stopped for good and only holds its core (R368). -/
def State.stoppedAt (s : State) (p : Placed) : Bool := ((s.groupOn p.core).map fun o => o.ctx.run == .stopped).getD false
/-- The node is the partition root or a function root (R415). -/
def State.isRoot (s : State) (part va : Nat) : Bool :=
  let p := s.part part
  va == p.rootva || p.vfs.any fun v => va == p.rootva + 0x100 * v
/-- A launch node's groups have all retired, or those that survive a fatal fault have (R269, R368). With every group stopped the node
stays, since the groups' state is still read through HALT and SAVE (R158). -/
def NodeRt.over (n : NodeRt) : Bool := decide (n.count ≤ n.retired.length + n.dead) && (n.dead == 0 || !n.retired.isEmpty)
/-- Whether a node's completion is due (R269): the node's own condition and that of its children. A root never completes (R415). -/
def State.completeNow (s : State) (part va : Nat) : Bool :=
  let n := s.node? part va
  let kids := (s.children part va).all fun c => s.finished part c
  if n.launch then kids && n.auditing.isEmpty && (if s.nodeState part va = stKilled then (s.placedOf part va).all s.stoppedAt else n.over)
  else kids && !s.isRoot part va && (s.nodeSeal part va || n.wiped)

/-- Is this the node of the core's group? -/
def Core.ofNode (c : Core) (part va : Nat) : Bool := c.partNo == part && c.node.toNat == va
/-- The core is empty: no group, no engine command, no page; its caches hold nothing, dirty lines merged into L2. -/
def Mem.clearCore (m : Mem) (core : Nat) : Mem :=
  let m := m.mergeL1 (m.l1.filter fun e => keyCore e.1 == core && e.2.dirty)
  { m with l1 := dropCore m.l1 core, cc := dropCore m.cc core, ccBad := dropCore m.ccBad core, ic := dropCore m.ic core }
def State.blank (s : State) : State :=
  { s with core := { num := s.core.num }, eng := {}, spad := {}, mem := s.mem.clearCore s.core.num }
/-- Retired groups that satisfy a test are forgotten. -/
def State.forget (s : State) (hit : Core → Bool) : State :=
  { s with others := s.others.map fun (o : Other) => if o.retired && hit o.ctx then { ctx := { num := o.core } } else o }
/-- A node that is complete frees the cores of its stopped groups, scrubbed (R368). -/
def State.dropStopped (s : State) (part va : Nat) : State :=
  let s := s.liveCores.foldl
    (fun s k => s.at k fun s => if s.core.ofNode part va && s.core.run == .stopped then s.blank else s) s
  ((s.forget fun c => c.ofNode part va).onSys fun y => { y with placed := y.placed.filter fun p => !s.placedAt part va p }).due part

/-- Line of a node's FIRSTCHILD. -/
def childLine (part va : Nat) : Nat := lineOf (iaOf part (va + 0x10))
/-- A node that is complete is watched no more (R267). -/
def State.unwatchNode (s : State) (part va : Nat) : State :=
  s.onMem fun m => m.setLine (childLine part va) (m.line (childLine part va)).unwatch

/-- Complete a node whose completion is due, then look at its parent (R269). -/
def State.complete (s : State) (part : Nat) : Nat → Nat → State
  | 0, _ => s
  | fuel + 1, va =>
    let s := if va = 0 then s else s.ctlHold part va
    let n := s.node? part va
    let st := s.nodeState part va
    if va = 0 || n.done || st < stAdmitted || !s.completeNow part va then s
    else
      let s := if st = stKilled then s else s.setNodeState part va stComplete
      let s := ((s.onNode part va fun n => { n with done := true }).dropStopped part va).unwatchNode part va
      let cls := s.nodeErr part va
      let ev := s.nodeSignalEv part va
      let s := if ev = 0 then s else s.signalEvent part ev cls
      let up := n.parent
      let s := if cls != 0 && up != 0 then s.nodeClass part up cls else s
      s.complete part fuel up

/-! ### Stopping groups -/


/-- The accesses that wait on some records are dropped (R303): a record in its ring stays until it is resolved. -/
def Sys.orphan (y : Sys) (hit : FRec → Bool) : Sys :=
  { y with recs := (y.recs.filter fun r => (r.sent && !r.fwd) || !hit r).map fun r => if hit r then { r with waiter := .gone } else r }
/-- The core's group stops as at a kill: its queues are discarded, its fronts break, it issues nothing more (R146, R262,
R280). -/
def State.stopGroup (s : State) (run : Run) (cause : Nat) : State :=
  let s := s.breakAll cause s.eng.liveFronts
  { s with
    core := { s.core with run := run, pend := [], muldiv := [], pins := [] }
    eng := { s.eng with mq := [], c0q := [], c1q := [], flight := [], crem := [], sent := [], staging := none, shadow := none }
    sys := { s.sys.orphan fun r => r.core == s.core.num with placed := s.sys.placed.filter fun p => p.core != s.core.num } }

/-- The groups of a node stop as at a kill, on whichever cores they are. -/
def State.stopNode (s : State) (part va cause : Nat) : State :=
  s.liveCores.foldl (fun s k => s.at k fun s => if s.core.ofNode part va && s.core.live then s.stopGroup .killed cause else s) s

/-- A node's audits are over: its replays leave their cores (R367). -/
def State.dropReplays (s : State) (part va : Nat) : State :=
  s.onSys fun y => { y with replays := y.replays.filter fun r => r.node != nodeKey part va }
/-- A node that is killed has nothing to place, and no audit goes on. -/
def State.discardNode (s : State) (part va : Nat) : State :=
  (s.onNode part va fun n => { n with todo := [], parked := [], leaving := [], auditing := [] }).dropReplays part va

/-- Kill a launch node's context with a class (R280, R374): every group stops, the node goes to STATE 4. -/
def State.killNode (s : State) (part va cls : Nat) : State :=
  let s := s.nodeClass part va cls
  let s := s.setNodeState part va stKilled
  let s := s.discardNode part va
  let s := s.stopNode part va 8
  let s := s.onSys fun y => { y with placed := y.placed.filter fun p => !s.placedAt part va p }
  (s.complete part treeBound va).due part

/-- Some group of the node is left when `n` more of its groups are dead (R368). -/
def State.survivors (s : State) (part va n : Nat) : Bool :=
  let x := s.node? part va
  decide (x.retired.length + x.dead + n < x.count)
/-- The group and, with SPLIT 0, its whole gang stop at a fatal fault (R158, R368): they hold their cores and their state. With
SPLIT 1 the survivors' node takes class 7. The launch node's event carries `cls`. -/
def State.fatalFault (s : State) (cls : Nat) : State :=
  let part := s.core.partNo
  let va := s.core.node.toNat
  let split := (s.node? part va).split
  let mates := if split then [] else
    ((s.others.filter fun (o : Other) => s.core.mate o.ctx && o.ctx.live && o.ctx.run != .stopped)).map fun (o : Other) => o.core
  let n := mates.length + 1
  let s := s.onCore fun c => { c with run := .stopped, pins := [] }
  let s := mates.foldl (fun s k => s.at k fun s => s.onCore fun c => { c with run := .stopped, pins := [] }) s
  let s := (s.nodeClass part va (if split && s.survivors part va n then 7 else cls)).onNode part va fun x => { x with dead := x.dead + n }
  let ev := s.nodeSignalEv part va
  let s := if ev = 0 then s else s.signalEvent part ev cls
  s.complete part treeBound va

/-! ### Purge by request tag (R358) -/

/-- Resident entries of a task queue (R283). -/
def residentMax : Nat := 2048

/-- Nodes of a partition with a tag. -/
def State.tagged (s : State) (part : Nat) (tag : BitVec 16) : List Nat :=
  (s.sys.nodes.filter fun e => e.2.part == part && e.2.eff.tag == tag && !e.2.done && e.1 % 32 == part).map fun e => e.1 / 32

/-- Commands of the own engines that carry a tag are cancelled, and their fronts break with cause 13. -/
def State.cancelTagged (s : State) (tag : BitVec 16) : State :=
  let hit := fun (c : Cmd) => c.tag == tag
  let fs := (s.eng.commands.filter hit).filterMap fun c => c.front
  (s.onEng fun e => e.cancelAll hit).breakAll 13 (fs.filter fun f => s.eng.liveFronts.contains f)

/-- Tasks that satisfy a test, by queue, are removed, and the queues refilled from their overflow (R283). -/
def Sys.dropTasks (y : Sys) (hit : Nat → Task → Bool) : Sys :=
  let rest := fun (q : Nat) => (sget [] y.queues q ++ sget [] y.overflow q).filter fun t => !hit q t
  { y with
    queues := smap [] (fun q _ => (rest q).take residentMax) y.queues
    overflow := smap [] (fun q _ => (rest q).drop residentMax) y.overflow }

/-- The purge: `spare` when the core's group is the consumer, which its trap then decides on. -/
def State.purge (s : State) (part : Nat) (tag : BitVec 16) (spare : Bool) : State :=
  let nodes := s.tagged part tag
  let s := nodes.foldl
    (fun s va =>
      let s := (s.nodeClass part va 5).setNodeState part va stKilled
      s.discardNode part va) s
  let me := s.core.num
  let s := s.liveCores.foldl
    (fun s k => s.at k fun s =>
      if s.core.partNo == part && s.core.rqtag == tag && s.core.live then
        if spare && k == me then s.cancelTagged tag else (s.cancelTagged tag).stopGroup .killed 13
      else s) s
  let s := s.onSys fun y => { y.dropTasks (fun q t => (s.part part).clusters.contains q && t.tag == tag) with
    placed := y.placed.filter fun p => (p.core == me && spare) || !(nodes.contains p.node && s.placedAt part p.node p) }
  nodes.foldl
    (fun s va =>
      let ev := s.nodeSignalEv part va
      let s := if ev = 0 then s else s.signalEvent part ev 5
      s.complete part treeBound va) s

end Sys2Proof.Machine
end

