-- ==== Sys2Proof/Machine/Faults.lean ====
section
/-! DEFINITION. Fault records: which queue, the record's words, the ring (R301, R302, R370, R371). -/

namespace Sys2Proof.Machine

/-- Post a fault of the core's group (R301, R371): the record's identity, or none when both queues are off and the
context is killed. -/
def State.postFault (s : State) (pf : Bool) (code : Nat) (stage : Stage) (ia gpa : Nat) (poison moved : Bool)
    (w : FWaiter) : Option Nat × State :=
  let c := s.core
  match s.fileRec pf code stage ia gpa poison moved w with
  | (some id, s) => (some id, s)
  | (none, s) =>
    let s := s.record c.die
      { rank := rankUncorrected, cls := 4, code := code, addr := ia, aspace := 1, utype := 1, uindex := c.num
        rqtag := c.rqtag, part := c.partNo }
    (none, s.killNode c.partNo c.node.toNat 4)

/-- A fault that no queue takes (R371): its context is killed with class 4, and an error record is written. -/
def State.lose (s : State) (r : FRec) : State :=
  let s := s.onSys fun y => { y with recs := y.recs.filter fun x => x.id != r.id }
  let s := s.record (dieOf r.core)
    { rank := rankUncorrected, cls := 4, code := r.code, addr := r.ia, aspace := 1, utype := 1, uindex := r.core, rqtag := r.rqtag
      part := r.part }
  if r.core = s.core.num && s.core.live then s.killNode r.part s.core.node.toNat 4
  else match s.others.find? fun (o : Other) => o.core == r.core with
    | some o => s.killNode r.part o.node 4
    | none => s
/-- Records that wait for a ring that is off go to the physical function's queue (R371). -/
def State.divert (s : State) (f : Nat) : State :=
  if (s.vf f).qsize ≠ 0 then s
  else
    let s := s.onSys fun y => { y with recs := y.recs.map fun r => if r.queue == f && !r.sent then { r with queue := 0 } else r }
    if (s.vf 0).qsize ≠ 0 then s.pump
    else (s.sys.recs.filter fun r => r.queue == 0 && !r.sent).foldl (fun s r => s.lose r) s

/-- Post what a walk met. -/
def State.postWalk (s : State) (f : WFault) (agent : Nat) (write : Bool) (ia : Nat) (w : FWaiter) : Option Nat × State :=
  s.postFault (s.toPf f) f.code ⟨agent, f.walk, write, f.stage⟩ ia (if f.code = 0x12 then f.gpa else 0) f.poison f.moved w

end Sys2Proof.Machine
end

