-- ==== Sys2Proof/Machine/SpadOps.lean ====
section
/-! DEFINITION. The virtual scratchpad: where an SVA lies, what a touch meets, reading and writing bytes with poison,
stash lines, and the pager (R167 to R180, R294). -/

namespace Sys2Proof.Machine

/-- A group of the core's gang: the own one, or the one at another gang position. -/
abbrev Owner := Option Nat

/-- The group itself, where it stands. -/
def State.groupOf (s : State) (o : Owner) : Other :=
  match o with
  | none => s.asOther
  | some p => match s.peerAt p with | some i => (s.others[i]?).getD {} | none => {}
def State.coreOf (s : State) (o : Owner) : Core := match o with | none => s.core | some _ => (s.groupOf o).ctx
def State.spadOf (s : State) (o : Owner) : Spad := match o with | none => s.spad | some _ => (s.groupOf o).spad
def State.setSpad (s : State) (o : Owner) (sp : Spad) : State :=
  match o with
  | none => { s with spad := sp }
  | some p => match s.peerAt p with
    | some i => { s with others := s.others.modify i fun x => { x with spad := sp } }
    | none => s
/-- The fronts of a group. -/
def State.fcOf (s : State) (o : Owner) : Sparse Front := match o with | none => s.eng.fc | some _ => (s.groupOf o).fc
/-- A group that is not there, or is dead in a separate fault domain (R168, R325). -/
def State.lostPeer (s : State) (o : Owner) : Bool :=
  match o with
  | none => false
  | some p => (s.peerAt p).isNone || ((s.groupOf o).dead && (s.groupOf o).sepDomain)

/-- Where an SVA lies (R167, R168): the owner and its own SVA; or cause 0x09 or 0x0A, and whether it is a window. -/
inductive Loc where
  | own (o : Owner) (sva : Nat) (window : Bool)
  | cause (c : Nat) (window : Bool)
  deriving DecidableEq, Repr

def State.locate (s : State) (sva : Nat) : Loc :=
  if 0x10000000 ≤ sva then .cause 0x09 false
  else if sva < 0x8000000 then .own none sva false
  else
    let p := sva / 2 ^ 24 % 8
    let x := sva % 2 ^ 24
    if s.core.gsize ≤ p then .cause 0x09 true
    else if p = s.core.gpos then .own none x true
    else if (s.peerAt p).isNone || (s.groupOf (some p)).retired then .cause 0x09 true
    else .own (some p) x true

/-- A place that can be accessed: the owner, its page, the offset in it, and either the physical page or the IA of a stash
page. -/
structure Place where
  owner : Owner
  page : Nat
  off : Nat
  phys : Nat
  stash : Bool
  ia : Nat
  deriving DecidableEq, Repr

/-- What a touch meets (R172): a place; 0x09 or 0x0A with its STAGE; a page or a stash line that is not there. -/
inductive Touch where
  | at (p : Place)
  | cause (c stage : Nat)
  | page (o : Owner) (pg : Nat) (window : Bool)
  | line (p : Place)
  deriving DecidableEq, Repr

def stageOf (window : Bool) : Nat := if window then 5 else 4
/-- The stash line's copy is valid here, with permission to write where asked. -/
def State.lineReady (s : State) (die : Nat) (sp : Spad) (phys off ia : Nat) (write : Bool) : Bool :=
  let l := s.mem.line (lineOf ia)
  let me := some die
  (sget 0 sp.line (phys * 64 + off / 64)).getLsbD 0 && l.canRead me && (!write || ((l.die die).wp && l.canWrite me))

/-- Touch the page of an SVA (R172). -/
def State.touch (s : State) (sva : Nat) (write : Bool) : Touch :=
  match s.locate sva with
  | .cause c w => .cause c (stageOf w)
  | .own o x w =>
    let sp := s.spadOf o
    let pg := x / 4096
    let e := sp.entry pg
    if !sptV e || (o.isSome && !sptShared e) then .cause 0x09 (stageOf w)
    else if s.lostPeer o then .cause 0x0A (stageOf w)
    else if !sptRes e then .page o pg w
    else
      let p : Place := ⟨o, pg, x % 4096, sptPpage e, sptStash e, sptIapn e * 4096 + x % 4096⟩
      if sptStash e && !s.lineReady (s.coreOf o).die sp p.phys p.off p.ia write then .line p else .at p

/-- Machine address of a stash place: that of its resident line. -/
def State.stashPa (s : State) (ia : Nat) : Nat := (s.mem.line (lineOf ia)).pa + ia % 256

/-- Is a byte range of a scratchpad poisoned (R354)? -/
def badWords (sp : Spad) (a n : Nat) : Bool := (List.range (((a + n - 1) / 8) - a / 8 + 1)).any fun k => sget false sp.poison (a / 8 + k)
/-- Set or clear the poison of a range's words: a clean store clears only words it covers whole (R356). -/
def markWords (sp : Spad) (a n : Nat) (bad : Bool) : Spad :=
  (List.range (((a + n - 1) / 8) - a / 8 + 1)).foldl
    (fun sp k =>
      let w := a / 8 + k
      if bad then { sp with poison := sset false sp.poison w true }
      else if a ≤ w * 8 && w * 8 + 8 ≤ a + n then { sp with poison := sset false sp.poison w false }
      else sp) sp

/-- The bytes at a place, and whether they are poisoned. -/
def State.placeRd (s : State) (p : Place) (n : Nat) : List (BitVec 8) × Bool :=
  if p.stash then
    let a := s.stashPa p.ia
    (s.mem.rdN a n, s.mem.bad a)
  else
    let sp := s.spadOf p.owner
    let a := p.phys * 4096 + p.off
    (sgetN 0 sp.phys a n, badWords sp a n)

/-- Stamp a page as touched, in units of 4,096 clock cycles (R171). -/
def State.stampPage (s : State) (p : Place) : State :=
  let sp := s.spadOf p.owner
  s.setSpad p.owner { sp with stamp := sset 0 sp.stamp p.phys (s.core.cycle.toNat / 4096) }

/-- Write bytes at a place: DIRTY for a backed page; for a stash page the line's dirty mark, its cluster being the one writer and every
other copy gone (R178, R228). Poison as given. -/
def State.placeWr (s : State) (p : Place) (bs : List (BitVec 8)) (bad : Bool) : State :=
  let sp := s.spadOf p.owner
  if p.stash then
    let a := s.stashPa p.ia
    let k := p.phys * 64 + p.off / 64
    let l := lineOf p.ia
    let c := s.coreOf p.owner
    let s := (s.recallWhere (fun k => k != c.num) l true).onMem fun m => m.recallL1 (fun k => k == c.num) l true
    let m := (s.mem.keepUnder a bs.length).wrN a bs
    let m := if bad then m.setBad a true else m
    let m := m.setLine l ((m.line l).written (some c.die) (1 <<< (p.ia % 256 / 64)))
    ({ s with mem := m.share c.num l true }).setSpad p.owner { sp with line := sset 0 sp.line k (sget 0 sp.line k ||| 3) }
  else
    let a := p.phys * 4096 + p.off
    let e := sp.entry p.page
    let sp := { sp with phys := ssetN 0 sp.phys a bs }
    let sp := markWords sp a bs.length bad
    s.setSpad p.owner (if sptDirty e then sp else sp.setEntry p.page (setBit64 e 59 true))

/-- Bytes that a store has written: in machine memory or in a scratchpad's SRAM, and whether they are poisoned. -/
structure Wrote where
  mem : Bool
  owner : Owner
  addr : Nat
  n : Nat
  bad : Bool
  deriving DecidableEq, Repr

/-- What a store of `n` bytes at a place writes. -/
def State.wroteAt (s : State) (p : Place) (n : Nat) (bad : Bool) : Wrote :=
  ⟨p.stash, p.owner, if p.stash then s.stashPa p.ia else p.phys * 4096 + p.off, n, bad⟩
/-- The unit of `size` bytes at `a` is written whole by clean stores of one memory, and by no poisoned one. -/
def wholeUnit (ws : List Wrote) (a size : Nat) : Bool :=
  let hit := fun (w : Wrote) (b : Nat) => decide (w.addr ≤ b) && decide (b < w.addr + w.n)
  (List.range size).all fun j => ws.any (fun w => hit w (a + j)) && ws.all fun w => !(w.bad && hit w (a + j))
/-- Stores that together overwrite whole poisoned units clear their poison (R356). -/
def State.cleanUnits (s : State) (ws : List Wrote) : State :=
  let s := s.onMem fun m => { m with poison := m.poison.filter fun e => !wholeUnit (ws.filter (·.mem)) (e.1 * 64) 64 }
  ws.foldl
    (fun s w =>
      if w.mem then s
      else
        let sp := s.spadOf w.owner
        let own := ws.filter fun x => !x.mem && x.owner == w.owner
        s.setSpad w.owner { sp with poison := sp.poison.filter fun e => !wholeUnit own (e.1 * 8) 8 }) s

/-! ### Global pages behind scratchpad pages -/

/-- Reach `n` lines of 256 bytes from an IA on; the first fault stops. -/
def State.reachLines (s : State) (root1 : BitVec 64) (ia : Nat) (need : Perm) : Nat → Option (Nat × WFault) × State
  | 0 => (none, s)
  | n + 1 => match s.reach root1 s.core.die ia need with
    | (.fault f, s) => (some (ia, f), s)
    | (.pa _, s) => s.reachLines root1 (ia + 256) need n

/-- Copy the listed bytes of [a, a + 4096) of one sparse memory to another base, replacing what is there. -/
def copyListed (src dst : Sparse (BitVec 8)) (a b : Nat) : Sparse (BitVec 8) :=
  (src.filter fun e => decide (a ≤ e.1) && decide (e.1 < a + 4096)).foldl (fun d e => sset 0 d (b + (e.1 - a)) e.2)
    (sclear dst b 4096)

/-- Read a 4 KiB page of machine memory into a physical page, with its poison. -/
def fillPage (m : Mem) (sp : Spad) (pa phys : Nat) : Spad :=
  let bad := (m.poison.filter fun e => decide (pa / 64 ≤ e.1) && decide (e.1 < pa / 64 + 64)).map fun e => e.1 - pa / 64
  let words := (bad.map fun k => (List.range 8).map fun j => phys * 512 + k * 8 + j).flatten
  { sp with
    phys := copyListed m.bytes sp.phys pa (phys * 4096)
    poison := words.foldl (fun p w => sset false p w true) (sclear sp.poison (phys * 512) 512) }

/-- Write a physical page to a 4 KiB page of machine memory, with its poison. -/
def spillPage (m : Mem) (sp : Spad) (phys pa : Nat) : Mem :=
  let old := (m.bytes.filter fun e => decide (pa ≤ e.1) && decide (e.1 < pa + 4096)).map (·.1)
  let m := old.foldl (fun m a => m.wr a 0) m
  let m := (sp.phys.filter fun e => decide (phys * 4096 ≤ e.1) && decide (e.1 < phys * 4096 + 4096)).foldl
    (fun m e => m.wr (pa + (e.1 - phys * 4096)) e.2) m
  let m := m.cleanCovered pa 4096
  (sp.poison.filter fun e => decide (phys * 512 ≤ e.1) && decide (e.1 < phys * 512 + 512)).foldl
    (fun m e => m.setBad (pa + (e.1 - phys * 512) * 8) true) m

/-- Forget a physical page's lines, poison and contents. -/
def Spad.dropPhys (sp : Spad) (phys : Nat) : Spad :=
  { sp with
    phys := sclear sp.phys (phys * 4096) 4096, poison := sclear sp.poison (phys * 512) 512
    line := sclear sp.line (phys * 64) 64, stamp := sset 0 sp.stamp phys 0 }

/-- Dirty lines of a stash page, as IAs. -/
def dirtyLines (sp : Spad) (e : BitVec 64) : List Nat :=
  let phys := sptPpage e
  (sp.line.filter fun x => decide (phys * 64 ≤ x.1) && decide (x.1 < phys * 64 + 64) && x.2.getLsbD 1).map
    fun x => sptIapn e * 4096 + (x.1 - phys * 64) * 64

/-- Write a page's dirty data to its global page (R174, R185, R187): none on success. Stash lines are in L2 already and
stay valid and clean; a backed page goes through L2. -/
def State.writePage (s : State) (o : Owner) (pg : Nat) : Option (Nat × WFault) × State :=
  let sp := s.spadOf o
  let e := sp.entry pg
  if !sptRes e then (none, s)
  else if sptStash e then
    let ls := dirtyLines sp e
    let r := ls.foldl (fun (r : Option (Nat × WFault) × State) ia =>
      match r.1 with
      | some _ => r
      | none => match r.2.reachBy r.2.core.s1root (r.2.coreOf o).num (r.2.coreOf o).die ia needW with
        | (.fault f, s) => (some (ia, f), s)
        | (.pa _, s) => (none, s)) (none, s)
    match r.1 with
    | some f => (some f, r.2)
    | none =>
      let s := r.2.onMem fun m => ls.foldl (fun (m : Mem) ia => m.merged ((m.line (lineOf ia)).pa + ia % 256) 64) m
      let sp := s.spadOf o
      let phys := sptPpage e
      (none, s.setSpad o { sp with
        line := smap 0 (fun k v => if phys * 64 ≤ k && k < phys * 64 + 64 then v &&& 1 else v) sp.line })
  else if !sptDirty e then (none, s)
  else
    let ia := sptIapn e * 4096
    match s.reachLines s.core.s1root ia needW 16 with
    | (some f, s) => (some f, s)
    | (none, s) =>
      let pa := s.stashPa ia
      let s := { s with mem := spillPage s.mem sp (sptPpage e) pa }
      (none, s.setSpad o ((s.spadOf o).setEntry pg (setBit64 e 59 false)))

/-! ### The pager (R174) -/

/-- Physical pages in use. -/
def Spad.used (sp : Spad) : List Nat := (sp.spt.filter fun e => sptRes e.2).map fun e => sptPpage e.2
/-- The lowest free physical page. -/
def Spad.freePage (sp : Spad) : Option Nat := let u := sp.used; (List.range 512).find? fun p => !u.contains p

/-- Pages under a running or halted front of a group, by SVA / 4,096 (R179). -/
def underFront (fc : Sparse Front) (pg : Nat) : Bool :=
  fc.any fun f => (f.2.state == .running || f.2.state == .halted) && f.2.pages.contains pg
/-- A group's own page as the window shows it (R168). -/
def windowPage (pos pg : Nat) : Nat := 0x8000 + pos * 4096 + pg
/-- A page of a group has an implicit pin: under a front of its own, or under one of a gang member that writes through the window
(R179). -/
def State.pinnedPage (s : State) (o : Owner) (pg : Nat) : Bool :=
  let pos := (s.coreOf o).gpos
  let hit := fun (fc : Sparse Front) => underFront fc (windowPage pos pg)
  underFront (s.fcOf o) pg || hit s.eng.fc || s.others.any fun x => s.core.mate x.ctx && hit x.fc

/-- Pages of buffers whose live range contains a text offset (R174); a buffer without a range is live throughout (R404). -/
def inLive (plan : List Buffer) (text pg : Nat) : Bool :=
  plan.any fun b => decide (b.first ≤ pg) && decide (pg < b.first + b.pages)
    && (match b.live with | none => true | some (lo, hi) => decide (lo ≤ text) && decide (text ≤ hi))

/-- Candidates: resident, not pinned, not under a front, not among the pages that this access needs. -/
def State.candidates (s : State) (o : Owner) (need : List Nat) : List (Nat × BitVec 64) :=
  (s.spadOf o).spt.filter fun e => sptRes e.2 && !sptPin e.2 && !need.contains e.1 && !s.pinnedPage o e.1

/-- Older by stamp, ties to the lower physical page. -/
def olderPage (sp : Spad) (a b : Nat × BitVec 64) : Bool :=
  let sa := sget 0 sp.stamp (sptPpage a.2)
  let sb := sget 0 sp.stamp (sptPpage b.2)
  sa < sb || (sa == sb && sptPpage a.2 < sptPpage b.2)
def oldest (sp : Spad) (l : List (Nat × BitVec 64)) : Option (Nat × BitVec 64) :=
  l.foldl (fun o e => match o with | none => some e | some x => if olderPage sp e x then some e else o) none
/-- The victim of R174. -/
def State.victim (s : State) (o : Owner) (cands : List (Nat × BitVec 64)) : Option (Nat × BitVec 64) :=
  let sp := s.spadOf o
  let dead := cands.filter fun e => !inLive (s.coreOf o).plan (s.coreOf o).pc.toNat e.1
  match oldest sp dead with
  | some e => some e
  | none => oldest sp cands

/-- Evict a page whose data are written: RES 0, its physical page free. -/
def State.unload (s : State) (o : Owner) (pg : Nat) : State :=
  let sp := s.spadOf o
  let e := sp.entry pg
  s.setSpad o ((sp.dropPhys (sptPpage e)).setEntry pg (setBit64 (setBit64 e 62 false) 59 false))

/-- Free a physical page by evicting victims; one whose write-back faults stays, and the next is tried. -/
def State.makeRoom (s : State) (o : Owner) : Nat → List (Nat × BitVec 64) → Option State
  | 0, _ => none
  | n + 1, cands =>
    match s.victim o cands with
    | none => none
    | some v => match s.writePage o v.1 with
      | (none, s) => some (s.unload o v.1)
      | (some _, s) => s.makeRoom o n (cands.filter fun e => e.1 != v.1)

/-- Outcome of PageIn: the page is resident; no victim (0x08); or the fault of its backing page. -/
inductive PageR where
  | done (s : State) | noVictim (s : State) | fault (ia : Nat) (f : WFault) (s : State)

/-- PageIn (R174) of an owner's page; `need` are the other own pages that the same access needs. The access that brings a page in
stamps it. -/
def State.pageIn (s : State) (o : Owner) (pg : Nat) (need : List Nat := []) : PageR :=
  let e := (s.spadOf o).entry pg
  if sptRes e then .done s
  else
    let room := match (s.spadOf o).freePage with
      | some _ => some s
      | none => s.makeRoom o 512 (s.candidates o (pg :: need))
    match room with
    | none => .noVictim s
    | some s =>
      let p := ((s.spadOf o).freePage).getD 0
      let put := fun (s : State) (sp : Spad) =>
        s.setSpad o ({ sp with stamp := sset 0 sp.stamp p (s.core.cycle.toNat / 4096) }.setEntry pg
          (setField64 (setBit64 (setBit64 e 62 true) 59 false) 42 9 p))
      if sptStash e then .done (put s (s.spadOf o))
      else match s.reachLines s.core.s1root (sptIapn e * 4096) needR 16 with
        | (some (ia, f), s) => .fault ia f s
        | (none, s) => .done (put s (fillPage s.mem (s.spadOf o) (s.stashPa (sptIapn e * 4096)) p))

/-- Fill a stash line for a read or a write (R177). -/
def State.fillLine (s : State) (p : Place) (write : Bool) : Option (Nat × WFault) × State :=
  let c := s.coreOf p.owner
  match s.reachBy s.core.s1root c.num c.die p.ia (if write then needW else needR) with
  | (.fault f, s) => (some (p.ia, f), s)
  | (.pa _, s) =>
    let s := s.onMem fun m => m.recallL1 (fun k => k == c.num) (lineOf p.ia) write
    let sp := s.spadOf p.owner
    let k := p.phys * 64 + p.off / 64
    (none, (s.onMem fun m => m.share (s.coreOf p.owner).num (lineOf p.ia) write).setSpad p.owner
      { sp with line := sset 0 sp.line k (sget 0 sp.line k ||| 1) })

/-! ### Touches in the order of arrival (R176) -/

/-- Every touch that waits for a page, by its pager's core. -/
def Eng.pageWaits (e : Eng) : List PageWait :=
  ([e.mq, e.c0q, e.c1q].filterMap fun q => (q.head?.bind fun c => c.susp).bind fun x => x.pw)
    ++ (e.told.map fun t => (t.delivery.sva :: t.delivery.bar.toList).map fun a => ({ since := t.since, pager := t.pager, page := a / 4096 } : PageWait)).flatten
def State.pageWaits (s : State) : List PageWait :=
  s.core.pw.toList ++ s.eng.pageWaits ++ (s.others.map fun (o : Other) => o.ctx.pw.toList ++ o.eng.pageWaits).flatten
/-- A page of the group on a core is resident. -/
def State.residentAt (s : State) (core pg : Nat) : Bool :=
  if core = s.core.num then sptRes (s.spad.entry pg)
  else s.others.any fun (o : Other) => o.core == core && sptRes (o.spad.entry pg)
/-- No touch of another page arrived before at the pager and still waits. -/
def State.pageTurn (s : State) (w : PageWait) : Bool :=
  !(s.pageWaits.any fun x => x.pager == w.pager && x.page != w.page && decide (x.since < w.since) && !s.residentAt x.pager x.page)
/-- The next stamp of an order of events. -/
def State.stamped (s : State) : State := s.onSys fun y => { y with order := y.order + 1 }
/-- The core's bundle waits for a page of an owner, from now on unless it did before. -/
def State.waitPage (s : State) (o : Owner) (pg : Nat) : PageWait × State :=
  let k := (s.coreOf o).num
  match s.core.pw with
  | some w => if w.pager = k && w.page = pg then (w, s)
    else ({ since := s.sys.order, pager := k, page := pg }, s.stamped.onCore fun c => { c with pw := some { since := s.sys.order, pager := k, page := pg } })
  | none => ({ since := s.sys.order, pager := k, page := pg }, s.stamped.onCore fun c => { c with pw := some { since := s.sys.order, pager := k, page := pg } })

/-! ### Chases by page tag (R118, R322) -/

/-- What a chase meets: nothing to wait for; a wait on front n of an owner, running or halted, for the VALUE that covers the bytes; a broken front; an idle or
acknowledgement front. -/
inductive Chase where
  | pass
  | wait (o : Owner) (n need : Nat) (running : Bool)
  | broken (o : Owner) (n : Nat)
  | unbound (o : Owner) (n : Nat)
  deriving DecidableEq, Repr

/-- ChaseWait (R322) of the bytes [a, a + n) of the producer's own space on front k of an owner. -/
def chaseFront (fc : Sparse Front) (o : Owner) (k a n : Nat) : Chase :=
  let f := sget {} fc k
  match f.state with
  | .complete => .pass
  | .idle => .unbound o k
  | .broken => .broken o k
  | st =>
    match f.span with
      | none => .unbound o k
      | some d =>
        let xs := ((List.range n).map fun j => d.elemsAt (a + j)).flatten
        if xs.isEmpty then .pass
        else
          let need := xs.foldl (fun n x => Nat.max n (walkIndex f.walk d.dims x + 1)) 0
          if st == .running && decide (need ≤ f.value) then .pass else .wait o k need (st == .running)

/-- The chase of an access to [sva, sva + n) by the tag of its page. -/
def State.chase (s : State) (sva n : Nat) : Chase :=
  match s.locate sva with
  | .cause _ _ => .pass
  | .own o x _ =>
    let e := (s.spadOf o).entry (x / 4096)
    if sptV e && sptFt e then
      match (sget {} (s.fcOf o) (sptFidx e)).span with
      | some d => if d.space = 0 then chaseFront (s.fcOf o) o (sptFidx e) x n else .pass
      | none => chaseFront (s.fcOf o) o (sptFidx e) x n
    else .pass

/-- The chase stands at a front of a group that is lost (R325, R368). -/
def Chase.lost (s : State) : Chase → Bool
  | .wait o _ _ _ => s.lostPeer o
  | .broken o _ => s.lostPeer o
  | _ => false
/-- Gang position of an owner, for the TVAL of 0x19 and 0x1A (R160). -/
def State.posOf (s : State) (o : Owner) : Nat :=
  match o with
  | none => s.core.gpos
  | some p => p
def State.frontTval (s : State) (o : Owner) (n : Nat) : BitVec 64 := BitVec.ofNat 64 (s.posOf o * 256 + n)

end Sys2Proof.Machine
end

