-- ==== Sys2Proof/Machine/MemOps.lean ====
section
/-! DEFINITION. The S slot's accesses to global memory: reading, writing and atomics at a VA, deferred-access records,
parked stores, the constant cache, and the audit signatures (R195 to R205, R366). -/

namespace Sys2Proof.Machine

/-! ### Signatures (R366) -/

/-- The CRC register of signature k: 0 S, 1 V, 2 M, 3 C0, 4 C1. -/
def Core.rdSig (c : Core) (k : Nat) : BitVec 64 := sget (BitVec.allOnes 64) c.sig k
/-- A signature takes one record: the address, the size, the bytes. -/
def Core.sigOne (c : Core) (k addr : Nat) (bs : List (BitVec 8)) : Core :=
  { c with sig := sset (BitVec.allOnes 64) c.sig k (crcBytes (c.rdSig k) (leBytes 8 addr ++ [BitVec.ofNat 8 bs.length] ++ bs)) }
/-- An atomic with this place in the issue order is still to be performed. -/
def Core.owes (c : Core) (o : Nat) : Bool :=
  (c.pend.any fun p => (p.record.map (·.order)) == some o) || (c.defrec.any fun e => (e.2.map (·.order)) == some o)
    || c.parked.any fun p => p.order == o
/-- The S slot's signature takes what waits, up to the first record whose atomic is still to be performed; one that never will be leaves
none. -/
def Core.flushSig (c : Core) : List SigRec → Core
  | [] => { c with sigq := [] }
  | r :: q => match r.bytes with
    | some bs => (c.sigOne 0 r.addr bs).flushSig q
    | none => if c.owes r.order then { c with sigq := r :: q } else c.flushSig q
/-- The group's node is auditable. -/
def State.audited (s : State) : Bool := (s.node? s.core.partNo s.core.node.toNat).auditable
/-- Add a write to a signature's stream, for a group of an auditable node; that of the S slot is in program order. -/
def State.sign (s : State) (k addr : Nat) (bs : List (BitVec 8)) : State :=
  if !s.audited then s
  else if k = 0 then s.onCore fun c => c.flushSig (c.sigq ++ [⟨0, addr, some bs⟩])
  else s.onCore fun c => c.sigOne k addr bs
/-- An atomic that is not performed at its issue holds its place in the stream. -/
def State.sigHold (s : State) (order addr : Nat) : State :=
  if s.audited then s.onCore fun c => { c with sigq := c.sigq ++ [⟨order, addr, none⟩] } else s
/-- The bytes that an atomic has written: in the place that it holds, when it is performed again. -/
def State.sigAmo (s : State) (again : Option Nat) (addr : Nat) (bs : List (BitVec 8)) : State :=
  match again with
  | none => s.sign 0 addr bs
  | some o => if !s.audited then s else s.onCore fun c =>
      c.flushSig (c.sigq.map fun r => if r.order == o && r.bytes.isNone then { r with bytes := some bs } else r)

/-! ### Accesses that a record keeps (R195) -/

def DefAccess.va : DefAccess → Nat
  | .load v _ _ => v | .const v _ _ => v | .atomic v _ _ _ _ _ => v | .spad v _ _ => v | .spadAtomic v _ _ _ _ => v
def DefAccess.size : DefAccess → Nat
  | .load _ n _ => n | .const _ n _ => n | .atomic _ n _ _ _ _ => n | .spad _ n _ => n | .spadAtomic _ n _ _ _ => n
/-- A load or an atomic of global memory, which keeps the order of its location (R211, R212). -/
def DefAccess.ordered : DefAccess → Bool | .load .. => true | .atomic .. => true | _ => false
/-- A load or an atomic of the scratchpad space. -/
def DefAccess.inPad : DefAccess → Bool | .spad .. => true | .spadAtomic .. => true | _ => false
def DefAccess.write : DefAccess → Bool | .atomic .. => true | .spadAtomic .. => true | _ => false

/-! ### Locations (R209) -/

/-- The IA of a VA of the core's group, whatever is permitted there. -/
def Core.iaAt (c : Core) (va : Nat) : Option Nat :=
  if 2 ^ 56 ≤ va then none
  else (findRange c.rg va 16 0).map fun n => iaOf c.partNo (va + (sget {} c.rg n : Range).offset)
/-- Two ranges of addresses overlap. -/
def rangesMeet (a n b m : Nat) : Bool := decide (a < b + m) && decide (b < a + n)
/-- Accesses of n bytes at VA `a` and m bytes at VA `b` share a location. -/
def Core.sameBytes (c : Core) (a n b m : Nat) : Bool :=
  match c.iaAt a, c.iaAt b with
  | some x, some y => rangesMeet x n y m
  | _, _ => false
/-- A parked entry shares a location with an access. -/
def Core.overlaps (c : Core) (p : Parked) (va n : Nat) : Bool := c.sameBytes p.va p.size va n
/-- It is a store, whose bytes are known. -/
def Parked.isStore (p : Parked) : Bool := match p.op with | .store => true | _ => false
/-- The byte that a parked store holds for an IA. -/
def Core.heldByte (c : Core) (p : Parked) (ia : Nat) : Option (BitVec 8) :=
  match c.iaAt p.va with
  | some x =>
    if p.isStore && decide (x ≤ ia) && decide (ia < x + p.size) && !p.gone.getLsbD (ia - x)
      then (leBytes p.size p.data.toNat)[ia - x]? else none
  | none => none
/-- The bytes of parked stores over those of memory from an IA on, the younger over the older (R197). -/
def Core.overlay (c : Core) (ps : List Parked) (ia : Nat) (bs : List (BitVec 8)) : List (BitVec 8) :=
  ps.foldl (fun bs p => bs.mapIdx fun i b => (c.heldByte p (ia + i)).getD b) bs
/-- Parked stores hold every byte of a range. -/
def Core.allCovered (c : Core) (ia n : Nat) : Bool := (List.range n).all fun i => c.parked.any fun p => (c.heldByte p (ia + i)).isSome
/-- A younger access of the core to a location has been performed: what read poison there before is not performed again (R211, R212). -/
def Core.passed (c : Core) (va n : Nat) : Core :=
  let mark := fun (r : DefRec) =>
    if r.cause == some 0x30 && r.access.ordered && c.sameBytes r.va r.access.size va n then { r with once := true } else r
  { c with
    pend := c.pend.map fun p => { p with record := p.record.map mark }
    defrec := c.defrec.map fun e => (e.1, e.2.map mark) }

/-- The same for a location of the scratchpad space (R209). -/
def State.passedSpad (s : State) (sva n : Nat) : State :=
  let hit := fun (r : DefRec) => r.cause == some 0x30 && (match r.access with | .spad .. => true | _ => false)
    && (match s.locate r.va, s.locate sva with
      | .own o x _, .own o' y _ => decide (o = o') && rangesMeet x r.access.size y n
      | _, _ => false)
  let mark := fun (r : DefRec) => if hit r then { r with once := true } else r
  if s.core.pend.isEmpty && s.core.defrec.isEmpty then s
  else s.onCore fun c => { c with
    pend := c.pend.map fun p => { p with record := p.record.map mark }
    defrec := c.defrec.map fun e => (e.1, e.2.map mark) }

/-! ### Reading and writing -/

/-- Outcome of an access at a VA: done with a value and its poison, a core-side failure of Translate, or a memory-side
fault with the IA. -/
inductive MemR where
  | ok (bytes : List (BitVec 8)) (bad : Bool)
  | core (cause : Nat)
  | mem (ia : Nat) (f : WFault)
  deriving DecidableEq, Repr

/-- Read `size` bytes at a VA (R199), with forwarding from parked stores. -/
def State.memRead (s : State) (va size : Nat) (need : Perm) : MemR × State :=
  match s.core.translate va need with
  | .cause c => (.core c, s)
  | .ia ia =>
    if s.core.allCovered ia size then (.ok (s.core.overlay s.core.parked ia (List.replicate size 0)) false, s)
    else match s.reach s.core.s1root s.core.die ia need with
      | (.fault f, s) => (.mem ia f, s)
      | (.pa a, s) =>
        let bs := s.mem.rdN a size
        let bad := s.wordBad ia a
        let s := if a < hostBase then s.l1Touch ia 0 else s
        (.ok (s.core.overlay s.core.parked ia bs) bad, s)

/-- A value from little-endian bytes, extended (R199). -/
def extend (zeroExt : Bool) (bs : List (BitVec 8)) : BitVec 64 :=
  let n := 8 * bs.length
  BitVec.ofInt 64 (intOf (!zeroExt) n (leNat bs))

/-- The new value of AMOS and AMO (R184), by OP, on 4 or 8 bytes. -/
def amoNew (op size old x c : Nat) : Nat :=
  let n := 8 * size
  match op with
  | 0 => (old + x) % 2 ^ n
  | 1 => ((Fmt.fp fp32).round (exactSum [fp32.val old, fp32.val x] false).1 rne).1
  | 2 => if intOf true n x < intOf true n old then x else old
  | 3 => if intOf true n old < intOf true n x then x else old
  | 4 => if x < old then x else old
  | 5 => if old < x then x else old
  | 6 => Nat.land old x
  | 7 => Nat.lor old x
  | 8 => Nat.xor old x
  | 9 => x
  | _ => if old = c then x else old

/-- Does an AMO match the operation of a reduce line (R205, R234)? -/
def amoMatches (k : RedKey) (op size : Nat) : Bool :=
  size == 4 && (match op with
    | 0 => k.op == 0
    | 1 => k.op == 1
    | 2 => k.op == 2 && k.etype == 8
    | 3 => k.op == 3 && k.etype == 8
    | 4 => k.op == 2 && k.etype == 12
    | 5 => k.op == 3 && k.etype == 12
    | _ => false)

/-- A die gets a reduce token without data from a holder that has two (R234); the home first. -/
def Line.forReduce (l : Line) (d : Nat) : Line :=
  if 0 < (l.die d).tokens then l
  else if 2 ≤ l.homeTok then
    { l with homeTok := l.homeTok - 1 }.setDie d { l.die d with tokens := (l.die d).tokens + 1 }
  else if 2 ≤ l.ctlTok then
    { l with ctlTok := l.ctlTok - 1 }.setDie d { l.die d with tokens := (l.die d).tokens + 1 }
  else match l.dies.find? fun e => e.1 != d && decide (2 ≤ e.2.tokens) with
    | some (o, y) => (l.setDie o { y with tokens := y.tokens - 1 }).setDie d { l.die d with tokens := (l.die d).tokens + 1 }
    | none => l

/-- A die's first contribution to a line goes to the spill store at once: its slice holds partials of 256 other lines (R236). -/
def Mem.mustSpill (m : Mem) (d l : Nat) : Bool :=
  ((m.line l).partialOf d).isNone
    && decide (slicePartials ≤ (m.lines.filter fun e => e.1 != l && sliceOf e.1 == sliceOf l && (e.2.partialOf d).isSome).length)
/-- A contribution finds no room in the spill store (R236). -/
def Mem.noPartial (m : Mem) (d l : Nat) : Bool := m.mustSpill d l && m.spillFull d l
/-- The core's die contributes to element j of a reduce line (R234, R236); fast mode's order of arrival at the merge is left open
(R235). The partial's previous value comes back. -/
def State.contribute (s : State) (l : Nat) (k : RedKey) (j : Nat) (v : Val) : Option Val × State :=
  let d := s.core.die
  let full := s.mem.mustSpill d l
  let r := (s.mem.line l).contribute k d j (Config.pick s.free) v
  (r.1, s.draw.onMem fun m => let m := m.setLine l r.2; if full then m.leave l d else m)
/-- The core's die comes to hold a token of a line in reduce state, with W granted (R193, R234): none where the step cannot take place, or
the walk's fault. -/
def State.reduceToken (s : State) (root1 : BitVec 64) (ia : Nat) : Option WFault × State :=
  let l := lineOf ia
  let d := s.core.die
  let s := (s.contend l).onMem fun m => m.settle l
  if ((s.mem.line l).die d).tokens = 0 && s.mem.waitsRebuild l then (none, s.onMem fun m => { m with blocked := true })
  else
    let take := fun (s : State) => (s.l2Room d l).onMem fun m =>
      let x := (m.line l).forReduce d
      m.setLine l (x.setDie d { x.die d with wp := true })
    if ((s.mem.line l).die d).tokens ≠ 0 && ((s.mem.line l).die d).wp then (none, s)
    else match s.walk root1 ia needRW with
      | (.fault f, s) => (some f, s)
      | (.pa _, s) => (none, take s)
/-- An AMO finds the spill store full and waits in a retry (R236). -/
def State.amoWaits (s : State) (va size op : Nat) : Bool :=
  match s.core.translate va needRW with
  | .ia ia => match s.mem.reduceKey (lineOf ia) with
    | some k => amoMatches k op size && s.mem.noPartial s.core.die (lineOf ia)
    | none => false
  | .cause _ => false

/-- What an AMO leaves in memory at its machine address, at the place that its scope names (R205): in the L1, in the die's slice, or at the
home. -/
def State.amoPut (s : State) (scope ia a : Nat) (new : List (BitVec 8)) (bad : Bool) : State :=
  let l := lineOf ia
  if hostBase ≤ a then s.onMem fun m => m.wrN a new
  else if scope < 2 then
    let s := ((s.onMem fun m => (m.keepUnder a new.length).wrN a new)).l1Touch ia new.length
    if bad then s.onMem fun m =>
      let k := coreKey s.core.num ia
      { m with l1 := sset {} m.l1 k { (sget {} m.l1 k : L1Line) with bad := (sget {} m.l1 k : L1Line).bad ||| (1 <<< (ia % 64 / 8)) } }
    else s
  else if scope = 2 then (s.recallAll l true).onMem fun m => let m := m.wrN a new; if bad then m.setBad a true else m
  else (s.recallAll l true).onMem fun m => let m := ((m.flushLine l).wrN a new).writeBack a new.length; if bad then m.setBad a true else m

/-- An atomic at a VA (R205): the old value. On a reduce line of the same operation it acts on the die's partial; of an
empty partial the previous value of a sum is 0, and that of a minimum or maximum is open. -/
def State.memAmo (s : State) (va size op scope : Nat) (x c : BitVec 64) : MemR × State :=
  match s.core.translate va needRW with
  | .cause k => (.core k, s)
  | .ia ia =>
    let l := lineOf ia
    match s.mem.reduceKey l with
    | some k =>
      if amoMatches k op size then
        match s.reduceToken s.core.s1root ia with
        | (some f, s) => (.mem ia f, s)
        | (none, s) =>
          let r := s.contribute l k (ia % 256 / k.width) (k.fmt.val (x.toNat % 2 ^ 32))
          let old : BitVec 64 := match r.1 with
            | some v => BitVec.ofNat 64 (k.enc v)
            | none => if k.op ≤ 1 then 0 else (Config.freeWord s.free).zeroExtend 32 |>.zeroExtend 64
          (.ok (leBytes 8 old.toNat) false, r.2.draw)
      else amoLine s ia
    | none => amoLine s ia
where
  amoLine (s : State) (ia : Nat) : MemR × State :=
    match s.reach s.core.s1root s.core.die ia needRW with
    | (.fault f, s) => (.mem ia f, s)
    | (.pa a, s) =>
      let bad := s.wordBad ia a
      let old := leNat (s.mem.rdN a size)
      let new := leBytes size (amoNew op size old (x.toNat % 2 ^ (8 * size)) (c.toNat % 2 ^ (8 * size)))
      (.ok (leBytes 8 old) bad, s.amoPut scope ia a new (bad && op != 9))

/-! ### Loads with deferred faults (R195, R196) -/

/-- A stage of the core's S slot. -/
def sStage (write : Bool) (stage : Nat) (walk : Bool := false) : Stage := ⟨0, walk, write, stage⟩

/-- Lines of a constant cache: 32 KiB (R2). -/
def ccLines : Nat := 512
/-- The core's constant-cache line of an IA, with its poison. -/
def State.ccLine (s : State) (ia : Nat) : Option (List (BitVec 8) × Bool) :=
  let k := coreKey s.core.num ia
  (s.mem.cc.find? fun e => e.1 = k).map fun e => (e.2, sget false s.mem.ccBad k)
/-- The constant cache takes a line; a full one drops another, which one is left open. -/
def State.ccFill (s : State) (ia : Nat) (line : List (BitVec 8)) (bad : Bool) : State :=
  let k := coreKey s.core.num ia
  let s := match lineToDrop s.mem.cc s.core.num ccLines k (Config.pick s.free) with
    | none => s
    | some j => s.draw.onMem fun m => { m with cc := sset [] m.cc j [], ccBad := sset false m.ccBad j false }
  s.onMem fun m => { m with cc := sset [] m.cc k line, ccBad := sset false m.ccBad k bad }
/-- Read through the constant cache (R201): a cached line may differ from memory, and then each byte group read whole is
the cached value or the present one, with its poison, as the free bit chooses. -/
def State.constRead (s : State) (va size : Nat) : MemR × State :=
  match s.core.translate va needC with
  | .cause c => (.core c, s)
  | .ia ia => match s.ccLine ia with
    | some (line, bad) =>
      let old := (line.drop (ia % 64)).take size
      match s.reach s.core.s1root s.core.die ia needC with
      | (.fault _, _) => (.ok old bad, s)
      | (.pa a, t) =>
        let new := t.mem.rdN a size
        if old = new && bad == t.mem.bad a then (.ok old bad, s)
        else if Config.freeBit s.free 0 then (.ok old bad, s.draw)
        else (.ok new (t.mem.bad a), t.draw)
    | none => match s.reach s.core.s1root s.core.die ia needC with
      | (.fault f, s) => (.mem ia f, s)
      | (.pa a, s) =>
        (.ok (s.mem.rdN a size) (s.mem.bad a), s.ccFill ia (s.mem.rdN (a - ia % 64) 64) (s.mem.bad a))

/-- Read the scratchpad for a register, where the touch finds the page (R182); where it does not, as when a record is
performed again after an eviction, the poison record stays. -/
def State.spadRead (s : State) (sva size : Nat) : MemR × State :=
  match s.touch sva false with
  | .at p => let r := s.placeRd p size; (.ok r.1 r.2, s.stampPage p)
  | _ => (.ok (List.replicate size 0) true, s)
/-- An atomic on the scratchpad (R184): the old value, in 8 bytes. Poisoned data stay poisoned but for a swap. -/
def State.spadAmo (s : State) (sva size op : Nat) (x c : BitVec 64) : MemR × State :=
  match s.touch sva true with
  | .at p =>
    let r := s.placeRd p size
    let old := leNat r.1
    let new := leBytes size (amoNew op size old (x.toNat % 2 ^ (8 * size)) (c.toNat % 2 ^ (8 * size)))
    (.ok (leBytes 8 old) r.2, (s.placeWr p new (r.2 && op != 9)).stampPage p)
  | _ => (.ok (List.replicate 8 0) true, s)
/-- Perform the access of a load, an LDC or an atomic. -/
def State.perform (s : State) : DefAccess → MemR × State
  | .load va size _ => s.memRead va size needR
  | .const va size _ => s.constRead va size
  | .atomic va size op scope x c => s.memAmo va size op scope x c
  | .spad sva size _ => s.spadRead sva size
  | .spadAtomic sva size op x c => s.spadAmo sva size op x c
/-- The value it delivers. -/
def DefAccess.value : DefAccess → List (BitVec 8) → BitVec 64
  | .load _ _ z, bs => extend z bs
  | .const _ _ z, bs => extend z bs
  | .atomic _ size _ _ _ _, bs => BitVec.ofNat 64 (leNat bs % 2 ^ (8 * size))
  | .spad _ _ z, bs => extend z bs
  | .spadAtomic _ size _ _ _, bs => BitVec.ofNat 64 (leNat bs % 2 ^ (8 * size))

/-- What an access must wait behind. -/
structure Behind where
  /-- The cause that it shares, or none while the older access waits on a fault record. -/
  cause : Option Nat
  stage : Stage
  waits : Option Nat
  deriving DecidableEq, Repr

/-- What stands before an access of `n` bytes at a VA in the order of its location (R197, R211, R212): an older access of a register that
has not been performed, since it waits on a fault record, was cancelled, or has met a fault, or an entry of the store buffer whose bytes it
cannot take. `before` bounds the issue order of what is older. -/
def Core.behind (c : Core) (va n : Nat) (load : Bool) (before : Option Nat) : Option Behind :=
  let old := fun (o : Nat) => match before with | some b => decide (o < b) | none => true
  let stands := fun (r : DefRec) => r.access.ordered && old r.order && r.cause != some 0x30 && c.sameBytes r.va r.access.size va n
  let ofRec := fun (w : Option Nat) (r : DefRec) => if stands r then some (⟨r.cause, r.stage, w⟩ : Behind) else none
  let waits := c.pend.findSome? fun p => p.record.bind fun r => if p.waits.isSome || r.cause.isSome then ofRec p.waits r else none
  match waits with
  | some b => some b
  | none => match c.defrec.findSome? fun e => e.2.bind fun r => ofRec none r with
    | some b => some b
    | none =>
      let entry := c.parked.find? fun q => old q.order && c.overlaps q va n && !(load && q.isStore)
      entry.map fun q => ⟨if q.cause = 0 then none else some q.cause, q.stage, q.waits⟩

/-- The bytes that an atomic writes, from the old value that it delivers. -/
def DefAccess.wrote (a : DefAccess) (old : List (BitVec 8)) : Option (List (BitVec 8)) :=
  let new := fun (size op : Nat) (x c : BitVec 64) =>
    some (leBytes size (amoNew op size (leNat old % 2 ^ (8 * size)) (x.toNat % 2 ^ (8 * size)) (c.toNat % 2 ^ (8 * size))))
  match a with
  | .atomic _ size op _ x c => new size op x c
  | .spadAtomic _ size op x c => new size op x c
  | _ => none

/-- Issue an access whose result goes to the scalar register with index `dest` (R195, R196): the register is pending. `again` is its
place in the issue order when it is performed once more. An atomic that read poison has been performed, once (R217). -/
def State.issueAccess (s : State) (dest : Nat) (a : DefAccess) (again : Option Nat := none) (acq : Bool := false) : State :=
  let load := match a with | .load .. => true | _ => false
  let behind := if a.ordered then s.core.behind a.va a.size load again else none
  let order := fun (s : State) => again.getD s.sys.order
  let rec' := fun (s : State) (cause : Option Nat) (st : Stage) => some ({ access := a, va := a.va, cause := cause, stage := st, order := order s, acq := acq } : DefRec)
  let push := fun (s : State) (p : SPend) =>
    { s with core := { s.core with pend := s.core.pend ++ [p] }, sys := { s.sys with order := s.sys.order + 1 } }
  let late := fun (s : State) (p : SPend) => push (if a.write && again.isNone then s.sigHold s.sys.order a.va else s) p
  match behind with
  | some b => late s ⟨dest, 0, rec' s b.cause b.stage, if b.cause.isSome then none else b.waits, acq⟩
  | none =>
    let r := s.perform a
    let s := r.2
    match r.1 with
    | .ok bs bad =>
      let s := if bad && !a.write then s else if a.ordered then s.onCore fun c => c.passed a.va a.size
        else if a.inPad then s.passedSpad a.va a.size else s
      let s := match a.wrote bs with | some new => s.sigAmo again a.va new | none => s
      push s ⟨dest, a.value bs, if bad then (rec' s (some 0x30) (sStage a.write 0)).map fun r => { r with once := a.write } else none, none, acq⟩
    | .core c => late s ⟨dest, 0, rec' s (some c) (sStage a.write 1), none, acq⟩
    | .mem ia f =>
      if f.code = 0x12 || f.moved then
        let w := s.postWalk f 0 a.write ia (.scalar dest)
        match w.1 with
        | some id => late w.2 ⟨dest, 0, rec' s none (sStage a.write f.stage f.walk), some id, acq⟩
        | none => w.2
      else late (s.walkRecord f ia) ⟨dest, 0, rec' s (some f.code) (sStage a.write f.stage f.walk), none, acq⟩

/-- A pending result lands (R73, R195). -/
def Core.land (c : Core) (p : SPend) : Core :=
  if p.dest = 0 then c
  else { c with s := sset 0 c.s p.dest p.value, defrec := sset none c.defrec p.dest p.record }

/-- The result at place i of the outstanding ones lands, unless it waits on a fault record. -/
def State.landPend (s : State) (i : Nat) : State :=
  match s.core.pend[i]? with
  | some p =>
    if p.waits.isSome then s
    else { s with core := { s.core.land p with pend := s.core.pend.eraseIdx i } }
  | none => s

/-! ### Stores that park (R197) -/

/-- Parked entries that carry a cause: STATUS.PARKED is set while there is one. -/
def Core.parkedReal (c : Core) : List Parked := c.parked.filter fun p => p.cause != 0

/-- Keep an entry, in issue order. -/
def insertParked (p : Parked) : List Parked → List Parked
  | [] => [p]
  | q :: r => if p.order < q.order then p :: q :: r else q :: insertParked p r
/-- Keep an entry in the buffer: a new one is the youngest. -/
def State.keep (s : State) (p : Parked) (again : Bool) : State :=
  if again then s.onCore fun c => { c with parked := insertParked p c.parked }
  else
    let s := match p.op with | .amo _ _ _ => s.sigHold s.sys.order p.va | _ => s
    { s with
      core := { s.core with parked := s.core.parked ++ [{ p with order := s.sys.order }] }, sys := { s.sys with order := s.sys.order + 1 } }
/-- Park an entry; a seventeenth raises 0x14 asynchronously. -/
def State.park (s : State) (p : Parked) (again : Bool) : State :=
  let s := s.keep p again
  if 16 < s.core.parkedReal.length then
    match s.core.parkedReal.head? with
    | some o => s.onCore fun c => c.raise ⟨0x14, BitVec.ofNat 64 o.va, o.stage⟩
    | none => s
  else s

/-- What a parked operation does when it can be performed, at a machine address. -/
def State.performParked (s : State) (p : Parked) : MemR × State :=
  match p.op with
  | .store => match s.core.translate p.va needW with
    | .cause c => (.core c, s)
    | .ia ia => match s.reach s.core.s1root s.core.die ia needW with
      | (.fault f, s) => (.mem ia f, s)
      | (.pa a, s) =>
        let bs := (leBytes p.size p.data.toNat).mapIdx fun i b => if p.gone.getLsbD i then s.mem.rd (a + i) else b
        let m := if a < hostBase then s.mem.keepUnder a p.size else s.mem
        let s := { s with mem := m.wrN a bs }
        (.ok [] false, if a < hostBase then s.l1Touch ia p.size else s)
  | .amo op scope c => s.memAmo p.va p.size op scope p.data c
  | .flush fn => match s.core.translate p.va needR with
    | .cause c => (.core c, s)
    | .ia ia => match s.reach s.core.s1root s.core.die ia needR with
      | (.fault f, s) => (.mem ia f, s)
      | (.pa a, s) =>
        if fn = 2 then
          (.ok [] false, (s.recallAll (lineOf ia) true).onMem fun m => m.flushLine (lineOf ia))
        else
          let k := coreKey s.core.num ia
          let x := sget {} s.mem.l1 k
          (.ok [] false, s.onMem fun m =>
            ({ m with l1 := sset {} m.l1 k (if fn = 1 then {} else { x with dirty := false }) }).merged (a / 64 * 64) 64)
  | .signal cls => match s.core.translate p.va needW with
    | .cause c => (.core c, s)
    | .ia ia => match s.reach s.core.s1root s.core.die ia needW with
      | (.fault f, s) => (.mem ia f, s)
      | (.pa a, s) => (.ok [] false, s.signalPa s.core.partNo ia a cls)

/-- Whether a parked operation needs W (R190). -/
def ParkOp.write (o : ParkOp) : Bool := match o with | .flush _ => false | _ => true
/-- Issue a store, an atomic without a destination, a CFLUSH or a SIGNAL, whose Translate has passed (R197): it parks behind an older
access of its bytes that has not been performed, or when a memory-side fault meets it. One performed `again` whose VA misses every
range, as after a RESTORE, raises that cause (R208). -/
def State.issueParked (s : State) (p : Parked) (again : Bool := false) : State :=
  match s.core.behind p.va p.size false (if again then some p.order else none) with
  | some b => match b.cause with
    | some c => s.park { p with cause := c, stage := b.stage, waits := none } again
    | none => s.keep { p with cause := 0, stage := b.stage, waits := b.waits } again
  | none => match s.performParked p with
    | (.ok bs _, s) => match p.op with
      | .store => s.onCore fun c => c.passed p.va p.size
      | .amo op scope c =>
        let s := s.onCore fun c => c.passed p.va p.size
        match (DefAccess.atomic p.va p.size op scope p.data c).wrote bs with
        | some new => s.sigAmo (if again then some p.order else none) p.va new
        | none => s
      | _ => s
    | (.core c, s) =>
      let s := s.park { p with cause := c, stage := sStage p.op.write 1 } again
      if again then s.onCore fun x => x.raise ⟨c, BitVec.ofNat 64 p.va, sStage p.op.write 1⟩ else s
    | (.mem ia f, s) =>
      if f.code = 0x12 || f.moved then
        let w := s.postWalk f 0 p.op.write ia .store
        match w.1 with
        | some id => w.2.keep { p with cause := 0, waits := some id } again
        | none => w.2
      else (s.walkRecord f ia).park { p with cause := f.code, stage := sStage p.op.write f.stage f.walk } again

/-! ### Accesses performed again (R195 to R197, R224) -/

/-- An access that is to be performed again, a load or an atomic for its register, or an entry of the store buffer. -/
inductive Redo where
  | access (dest : Nat) (r : DefRec) | entry (p : Parked)
  deriving DecidableEq, Repr
def Redo.order : Redo → Nat | .access _ r => r.order | .entry p => p.order
/-- By issue order. -/
def insertRedo (x : Redo) : List Redo → List Redo
  | [] => [x]
  | y :: r => if x.order < y.order then x :: y :: r else y :: insertRedo x r
/-- Perform accesses again, in issue order. -/
def State.redoAll (s : State) (xs : List Redo) : State :=
  (xs.foldl (fun a x => insertRedo x a) []).foldl
    (fun s x => match x with
      | .access dest r => s.issueAccess dest r.access (some r.order) r.acq
      | .entry p => s.issueParked { p with cause := 0, waits := none } true) s
/-- RTE performs every deferred access and every parked entry again, in the order of their issue; a resume those alone that a Freeze
cancelled (R195, R196, R197). -/
def State.replay (s : State) (all : Bool) : State :=
  let mine := fun (r : Option DefRec) => match r with | some r => (all || r.cause.isNone) && !r.once | none => false
  let again := fun (p : Parked) => p.waits.isNone && (all || p.cause == 0)
  let ps := s.core.parked.filter again
  let xs := (s.core.defrec.filterMap fun e => if mine e.2 then e.2.map fun r => Redo.access e.1 r else none) ++ ps.map Redo.entry
  (s.onCore fun c => { c with
    parked := c.parked.filter fun p => !again p
    defrec := c.defrec.filter fun e => !mine e.2 }).redoAll xs
/-- An access that a Freeze cancelled stands in the way of one of the handler: it shares a location with it. -/
def Core.cancelledAt (c : Core) (va n : Nat) : Bool :=
  (c.parked.any fun p => p.cause == 0 && p.waits.isNone && c.overlaps p va n)
    || c.defrec.any fun e => match e.2 with | some r => r.cause.isNone && r.access.ordered && c.sameBytes r.va r.access.size va n | none => false
/-- Some access that a Freeze cancelled is kept. -/
def Core.cancelled (c : Core) : Bool :=
  (c.parked.any fun p => p.cause == 0 && p.waits.isNone) || c.defrec.any fun e => match e.2 with | some r => r.cause.isNone | none => false
/-- Accesses that a Freeze cancelled are performed again in the handler, before one that they must come before (R211 to R213, R224). DEDUCED -/
def State.clearWay (s : State) (hit : Core → Bool) : State := if s.core.run == .running && hit s.core then s.replay false else s
/-- A new access of the S slot for a register. -/
def State.startAccess (s : State) (dest : Nat) (a : DefAccess) (acq : Bool := false) : State :=
  (s.clearWay fun c => a.ordered && c.cancelledAt a.va a.size).issueAccess dest a none acq
/-- A new store, atomic without a destination, CFLUSH or SIGNAL. -/
def State.startParked (s : State) (p : Parked) : State := (s.clearWay fun c => c.cancelledAt p.va p.size).issueParked p
/-- The accesses that wait on record `id` leave the core, in issue order: the first is the one that made the record, and the others stand
behind it. -/
def State.takeWaiting (s : State) (id : Nat) : List Redo × State :=
  let ps := s.core.parked.filter fun p => p.waits == some id
  let xs := (s.core.pend.filterMap fun p => if p.waits == some id then p.record.map fun r => Redo.access p.dest r else none)
    ++ ps.map Redo.entry
  (xs.foldl (fun a x => insertRedo x a) [], s.onCore fun c => { c with
    pend := c.pend.filter fun q => q.waits != some id, parked := c.parked.filter fun p => p.waits != some id })
/-- They are performed again (R196, R303). -/
def State.retry (s : State) (id : Nat) : State := let r := s.takeWaiting id; r.2.redoAll r.1
/-- The record was forwarded (R303): its access ends with 0x11 of stage 2, and those behind it are performed again. -/
def State.forwardAccess (s : State) (id : Nat) (t : Stage) : State :=
  let r := s.takeWaiting id
  match r.1 with
  | [] => r.2
  | .access dest x :: xs =>
    (r.2.onCore fun c => { c with
      pend := c.pend ++ [⟨dest, 0, some { x with cause := some 0x11, stage := t }, none, x.acq⟩] }).redoAll xs
  | .entry p :: xs => (r.2.park { p with cause := 0x11, stage := t, waits := none } true).redoAll xs

end Sys2Proof.Machine
end

