-- ==== Sys2Proof/Machine/Ops.lean ====
section
/-! DEFINITION. The shared operations of an issue: guards and the scoreboard (R31, R73), the core's touches and chases,
taking a trap (R155 to R160), returning from one (R162), stalls, and how a slot's result becomes an outcome. -/

namespace Sys2Proof.Machine

/-! ### What a slot meets -/

/-- Why a bundle stalls. -/
inductive Stall where
  | scoreboard
  | chase (o : Owner) (n need : Nat)
  | page
  | queue (e : Nat)
  | other
  deriving DecidableEq, Repr

/-- A slot does not issue: a trap with its step of R414, or a stall at that step. `st` is the state to go on from: that
before the issue, with what the wait has brought about (a page brought in, a fault record posted). -/
inductive Halt where
  | trap (rank cause : Nat) (tval : BitVec 64) (stage : Stage) (st : State)
  | stall (rank : Nat) (why : Stall) (st : State)

/-- The result of a slot's issue. -/
abbrev Res := Except Halt State

/-- No access behind a trap (TSTAGE 0 but for AGENT none reads as 0 by R156). -/
def noStage : Stage := ⟨0, false, false, 0⟩
/-- TSTAGE as a word (R152). -/
def Stage.word (t : Stage) : BitVec 64 :=
  BitVec.ofNat 64 (t.agent % 8 * 32 + (if t.walk then 16 else 0) + (if t.write then 8 else 0) + t.stage % 8)

/-- Illegal instruction that depends on a register's value, found at issue with the S word (R40); the bundle's registers
have been read by then, so it ranks with the S instruction's own fates (R414 step 6). -/
def illegal (w : BitVec 32) (s : State) : Res := .error (.trap 6 0x02 (w.zeroExtend 64) noStage s)
/-- Privileged (0x04) with the S word. -/
def privileged (w : BitVec 32) (s : State) : Res := .error (.trap 4 0x04 (w.zeroExtend 64) noStage s)

/-! ### Guards and the scoreboard -/

/-- A VEXT in flight to a scalar register (R113). -/
def VRec.toScalar (r : VRec) (k : Nat) : Bool := r.kind == .scalar && r.dest == k
/-- The VEXT results to a register land now: a stall's clock cycles have passed for them (R113). -/
def Core.landExt (c : Core) (k : Nat) : Core :=
  let c' := c.vfly.foldl (fun (c : Core) r => if r.toScalar k then c.wrIdx k r.value else c) c
  { c' with vfly := c.vfly.filter fun r => !r.toScalar k }

/-- Register k of the file is pending (R73). -/
def Core.pending (c : Core) (k : Nat) : Bool :=
  k != 0 && (c.pend.any (fun p => p.dest == k) || c.muldiv.any (fun p => p.dest == k) || c.vfly.any fun r => r.toScalar k)

/-- Wait while one of the registers (by name) is pending. -/
def State.scoreboard (s : State) : List Nat → Except Halt Unit
  | [] => .ok ()
  | n :: r =>
    let k := if n = 0 then 0 else s.core.sIdx n
    if s.core.pending k then .error (.stall 5 .scoreboard (s.onCore fun c => c.landExt k)) else s.scoreboard r

/-- A deferred-access record on a register that is read raises its cause (R195, R414). In a handler, one without a cause is that of an
access that the Freeze cancelled (R196): the read needs its value, so that it is performed again before the resume, and the register is
pending. DEDUCED -/
def State.deferredOf (s : State) : List Nat → Except Halt Unit
  | [] => .ok ()
  | n :: r =>
    match (if n = 0 then none else sget none s.core.defrec (s.core.sIdx n)) with
    | some d => match d.cause with
      | some c => .error (.trap 5 c (BitVec.ofNat 64 d.va) d.stage s)
      | none => .error (.stall 5 .scoreboard (s.replay false))
    | none => s.deferredOf r

/-- An S instruction (R31): a false guard does nothing; else its registers are waited for and read. -/
def sSlot (p : BitVec 4) (reads writes : List Nat) (s : State) (body : State → Res) : Res :=
  if s.core.rdP p.toNat then do
    s.scoreboard (reads ++ writes)
    s.deferredOf reads
    body s
  else .ok s

/-! ### Touches and chases of a core slot -/

/-- The core waits on a posted record for this page (R196). -/
def State.waitsFor (s : State) (ia : Nat) : Bool :=
  s.sys.recs.any fun r => r.core == s.core.num && r.waiter == .other && r.ia / 4096 == ia / 4096 && !r.fwd
/-- A record for this page was forwarded to the guest (R303): the retried access ends as 0x11. -/
def State.forwarded (s : State) (ia : Nat) : Bool :=
  s.sys.recs.any fun r => r.core == s.core.num && r.waiter == .other && r.ia / 4096 == ia / 4096 && r.fwd
/-- That record is used up. -/
def State.dropForwarded (s : State) (ia : Nat) : State :=
  s.onSys fun y => { y with recs := y.recs.filter fun r =>
    !(r.core == s.core.num && r.waiter == .other && r.ia / 4096 == ia / 4096 && r.fwd) }

/-- A memory-side fault of a fetch, of the pager or of a precise access serving a core slot (R175, R190): precise for
stage 1; else a record, and the bundle waits; a forwarded record is a precise 0x11 of stage 2. -/
def State.preciseWalk (s : State) (rank agent : Nat) (tval : Nat) (write : Bool) (ia : Nat) (f : WFault) : Halt :=
  if f.code = 0x12 || f.moved then
    if s.forwarded ia then .trap rank 0x11 (BitVec.ofNat 64 tval) ⟨agent, false, write, 2⟩ (s.dropForwarded ia)
    else if s.waitsFor ia then .stall rank .page s
    else .stall rank .page (s.postWalk f agent write ia .other).2
  else .trap rank f.code (BitVec.ofNat 64 tval) ⟨agent, f.walk, write, f.stage⟩ (s.walkRecord f ia)

/-- Pages of an owner among addresses. -/
def State.neededPages (s : State) (o : Owner) (need : List Nat) : List Nat :=
  need.filterMap fun a => match s.locate a with
    | .own o' x _ => if o' = o then some (x / 4096) else none
    | .cause _ _ => none
/-- A core slot's touch of [sva, sva + n), which lies in one page (R172); `need` are the other addresses of the same access. -/
def State.coreTouch (s : State) (agent sva : Nat) (write : Bool) (need : List Nat := []) : Except Halt Place :=
  match s.touch sva write with
  | .at p => .ok p
  | .cause c st => .error (.trap 7 c (BitVec.ofNat 64 sva) ⟨agent, false, write, st⟩ s)
  | .page o pg w =>
    if (s.part s.core.partNo).mode modePaging then
      .error (.trap 7 0x08 (BitVec.ofNat 64 sva) ⟨agent, false, write, stageOf w⟩ s)
    else
      let (turn, s) := s.waitPage o pg
      if !s.pageTurn turn then .error (.stall 7 .page s)
      else match s.pageIn o pg (s.neededPages o need) with
      | .done t => .error (.stall 7 .page t)
      | .noVictim t => .error (.trap 7 0x08 (BitVec.ofNat 64 sva) ⟨agent, false, write, stageOf w⟩ t)
      | .fault ia f t => .error (t.preciseWalk 7 agent sva write ia f)
  | .line p => match s.fillLine p write with
    | (none, t) => .error (.stall 7 .page t)
    | (some (ia, f), t) => .error (t.preciseWalk 7 agent sva write ia f)

/-- A core slot's chase (R118, R182, R323): a bundle that waited at a binding that has broken since meets the break. -/
def State.coreChase (s : State) (sva n : Nat) : Except Halt Unit :=
  if (s.chase sva n).lost s then .error (.trap 7 0x0A (BitVec.ofNat 64 sva) noStage s)
  else match s.chase sva n, s.core.waitBroken, s.core.waitOn with
  | _, true, some (o, k) => .error (.trap 7 0x19 (s.frontTval o k) noStage s)
  | .pass, _, _ => .ok ()
  | .wait o k need _, _, _ => .error (.stall 7 (.chase o k need) s)
  | .broken o k, _, _ => .error (.trap 7 0x19 (s.frontTval o k) noStage s)
  | .unbound o k, _, _ => .error (.trap 7 0x1A (s.frontTval o k) noStage s)

/-! ### Freeze (R155) -/

/-- The multiply-divide unit finishes (R74). -/
def Core.landMulDiv (c : Core) : Core :=
  c.muldiv.foldl (fun (c : Core) m => c.wrIdx m.dest m.value) { c with muldiv := [] }
/-- Outstanding results land; an access that waits on a fault record is cancelled and kept without a cause (R196). -/
def Core.landAll (c : Core) : Core :=
  let c := c.landMulDiv
  c.pend.foldl (fun (c : Core) p => c.land p) { c with pend := [] }

/-- Freeze: S results land, pins end (R222), waiting stores are kept for the resume. -/
def Core.freeze (c : Core) : Core :=
  let c := c.landAll
  { c with pins := [], paged := none, parked := c.parked.map fun p => { p with waits := none } }

/-- Issues owed of the bundle at PC (R40, R152): 0 when it has not been fetched and is owed whole. -/
def Core.owedNow (c : Core) : Nat :=
  match c.cur with
  | some b => (if c.owed = 0 then b.hdr.rep.toNat + 1 else c.owed) - c.made
  | none => c.owed

/-- The sequencing state of R41 with the records of R155. -/
def Core.saveTrap (c : Core) : TrapSt :=
  ⟨c.owedNow, c.xfer, c.loop, c.latch0, c.latch1, c.vwa, c.vwb, c.srcnt, c.vfly, c.since⟩

/-! ### Trap (R156 to R158) -/

/-- CAUSE as a word. -/
def causeWord (code orig : Nat) (async : Bool) : BitVec 64 :=
  BitVec.ofNat 64 (code % 256 + orig % 256 * 256 + (if async then 65536 else 0))
/-- THB.OFF and THB.BASE (R153). -/
def Core.thbOff (c : Core) : Bool := c.thb.getLsbD 0
def Core.thbBase (c : Core) : BitVec 32 := c.thb &&& ~~~3#32

/-- CODE becomes 0x3F; the locked record is kept, or describes the new trap when unlocked (R158). -/
def Core.nestedCause (c : Core) (cause : Nat) (tval : BitVec 64) (stage : Stage) (async : Bool) : Core :=
  if c.clk then { c with cause := causeWord 0x3F (c.cause.toNat % 256) (c.cause.getLsbD 16) }
  else { c with cause := causeWord 0x3F cause async, tval := tval, tstage := stage.word }

/-- NestedStop (R158): the group stops, the record goes to the partition's fault queue when one is on, an uncorrected error
record is written (R361), and the stop is a fatal fault. A chase cycle without a handler carries class 9 (R328). -/
def State.nestedStop (s : State) (cause : Nat) (tval : BitVec 64) (stage : Stage) (async : Bool) : State :=
  let s := s.onCore fun c => c.nestedCause cause tval stage async
  let c := s.core
  let q := s.route c.partNo c.node.toNat false
  let s := if (s.vf q).qsize = 0 then s else (s.postFault false 0x3F stage 0 0 false false .other).2
  let s := s.record c.die
    { rank := rankUncorrected, cls := 4, code := 0x3F, utype := 1, uindex := c.num, rqtag := c.rqtag, part := c.partNo }
  s.fatalFault (if cause = 0x18 && !c.lvl then 9 else 4)

/-- The core's part of a trap that enters the handler (R156). -/
def Core.enterTrap (c : Core) (cause : Nat) (tval : BitVec 64) (stage : Stage) (async : Bool) : Core :=
  { c with
    tstate := some c.saveTrap
    tpc := c.pc, cause := causeWord cause 0 async, tval := tval, tstage := stage.word
    lvl := true, clk := true, latch0 := 0, latch1 := 0
    pc := c.thbBase, cur := none, made := 0, owed := 0, jump := none, after := none, xfer := none, loop := none, vfly := [], timer := 0, waitOn := none, waitBroken := false, waitDone := false, waitBar := none, barMet := false, pw := none, qstall := 0, paged := none }

/-- Mark what the core's group waits on in QTAKE or EVWAIT (R279), or nothing. -/
def State.setWaiting (s : State) (v : Option (Bool × Nat)) : State :=
  s.onSys fun y => { y with placed := y.placed.map fun p => if p.core = s.core.num then { p with wait := v } else p }
/-- A word of V0 or V1 of the bundle at hand is a VACC of the row that TVAL names (R357). -/
def Core.atVacc (c : Core) (tval : BitVec 64) : Bool :=
  let at' := fun (k : BitVec 1) (w : Option (BitVec 32)) => match w.map (decodeV k) with
    | some (.ok (.vacc x)) => BitVec.ofNat 64 ((x.a.extractLsb' 4 2).toNat + x.b.toNat * 256) == tval
    | _ => false
  match c.cur with
  | some b => at' 0 b.v0 || at' 1 b.v1
  | none => false
/-- Where consumed poison lay, for its record (R360): the register cluster, the accumulators, a scratchpad bank (R169), or memory. -/
def State.poisonPlace (s : State) (cause : Nat) (tval : BitVec 64) : Bank :=
  let c := s.core
  let v := tval.toNat
  let k := c.num % 128
  if cause = 0x31 then { utype := 3, uindex := k * 2 + v / 2048 % 2 }
  else if c.atVacc tval then { utype := 12, uindex := k }
  else if c.defrec.any fun e => e.2.any fun r => r.va == v && r.cause == some 0x30 && (match r.access with | .spad .. | .spadAtomic .. => true | _ => false) then
    let pg := sptPpage (s.spad.entry (v / 4096))
    { utype := 2, uindex := k * 32 + (v % 2048 / 64 + pg) % 32, addr := v, aspace := 3 }
  else match c.translate v needR with
    | .ia a => { utype := 1, uindex := c.num, addr := a, aspace := 1 }
    | .cause _ => { utype := 1, uindex := c.num }
/-- Trap (R156): held while asynchronous at handler level; else Freeze, then the handler or a nested stop. Consumed poison
purges its request tag first (R357, R358). -/
def State.takeTrap (s : State) (cause : Nat) (tval : BitVec 64) (stage : Stage) (async : Bool) : State :=
  if s.core.lvl && !s.core.thbOff && async then s.onCore fun c => c.raise ⟨cause, tval, stage⟩
  else
    let s := if cause = 0x30 || cause = 0x31 then
        let c := s.core
        let s := s.record c.die
          { s.poisonPlace cause tval with rank := rankUncorrected, cls := 5, code := cause, rqtag := c.rqtag, part := c.partNo }
        s.purge c.partNo c.rqtag true
      else s
    let s := (s.onCore Core.freeze).setWaiting none
    if s.core.lvl || s.core.thbOff then s.nestedStop cause tval stage async
    else s.onCore fun c => c.enterTrap cause tval stage async

/-! ### Results in flight (R97 to R99) -/

/-- Enabled flags of VRM. -/
def Core.vrmEn (c : Core) : Fl := c.vrm.extractLsb' 8 5
/-- Flags of a result: those of the lanes that land. -/
def VRec.flags (r : VRec) : Fl :=
  ((r.lfl.mapIdx fun i f => if r.mask.getLsbD i then f else 0).foldl (fun a f => a ||| f) 0)
/-- Lanes of a register with a result's enabled lanes. -/
def mergeLanes (mask : BitVec 64) (old new : Vec) : Vec :=
  (List.range 64).map fun l => if mask.getLsbD l then new.getD l 0 else old.getD l 0
/-- Lane l of a VACC's row (R114): the value taken so far or the one that stands now. -/
def accLane (e : Eng) (acc : Option Nat) (free l : Nat) (old : BitVec 32) : BitVec 32 :=
  match acc with
  | none => old
  | some a => let new := sget 0 e.acc (a * 64 + l); if old = new then old else if Config.freeBit free l then old else new

/-- The lanes of a VACC in flight at one more moment. -/
def VRec.sample (e : Eng) (free : Nat) (r : VRec) : VRec :=
  match r.acc with
  | none => r
  | some _ => { r with data := r.data.mapIdx fun i x => accLane e r.acc free i x }
/-- Each lane of a VACC in flight holds what its element held at some moment since the issue (R114). -/
def State.sampleAcc (s : State) : State :=
  let saved := match s.core.tstate with | some t => t.records | none => []
  if (s.core.vfly ++ saved).any fun r => r.acc.isSome then
    (s.onCore fun c => { c with
      vfly := c.vfly.map fun r => r.sample s.eng s.free
      tstate := c.tstate.map fun t => { t with records := t.records.map fun r => r.sample s.eng s.free } }).draw
  else s
/-- Land one result: the register or q bits its mask enables, or the scalar of a VEXT; then its flags. -/
def State.landVec (s : State) (r : VRec) : State :=
  let c := s.core
  let c := match r.kind with
    | .vec =>
      let data := (r.sample s.eng s.free).data
      let cl := r.cl.toNat
      let bad := (List.range 64).foldl
        (fun b l => if r.mask.getLsbD l then sset false b (badIdx cl r.dest l) (r.bad.getLsbD l) else b) c.bad
      { c.wrPhys cl r.dest (mergeLanes r.mask (c.rdPhys cl r.dest) data) with bad := bad }
    | .qreg => c.wrQ r.dest ((c.rdQ r.dest &&& ~~~r.mask) ||| (r.value &&& r.mask))
    | .scalar => c.wrIdx r.dest r.value
  let s := if r.acc.isSome then s.draw else s
  { s with core := { c with vrm := c.vrm ||| ((r.flags.zeroExtend 64) <<< 3) } }

/-- TVAL of a vector FP trap (R99): none when no enabled flag is raised. -/
def Core.fpTrap (c : Core) (r : VRec) : Option (BitVec 64) :=
  let en := r.flags &&& c.vrmEn
  if en = 0 then none
  else
    let lane := ((List.range 64).find? fun l => r.mask.getLsbD l && ((r.lfl.getD l 0) &&& c.vrmEn) != 0).getD 0
    some (BitVec.ofNat 64 (r.word.toNat + lane * 2 ^ 32 + r.slot.toNat * 2 ^ 38 + en.toNat * 2 ^ 39))

/-- The results that are due land in issue order, V0 before V1 (R98); the first enabled flag is reported. -/
def State.landDue (s : State) : Option (BitVec 64) × State :=
  let due := s.core.vfly.filter fun r => r.rem == 0
  let rest := s.core.vfly.filter fun r => r.rem != 0
  let s := { s with core := { s.core with vfly := rest } }
  due.foldl (fun a r =>
    let t := a.2.core.fpTrap r
    (match a.1 with | some x => some x | none => t, a.2.landVec r)) (none, s)

/-- One issue cycle passes for the results in flight. -/
def Core.ageVec (c : Core) : Core := { c with vfly := c.vfly.map fun r => { r with rem := r.rem - 1 } }

/-- All results in flight land, as issue cycles would pass (R162, at most 14): the first enabled flag is reported. -/
def State.landAllVec (s : State) : Nat → Option (BitVec 64) × State
  | 0 => (none, s)
  | n + 1 =>
    let r := s.landDue
    match r.1 with
    | some t => (some t, r.2)
    | none => if r.2.core.vfly.isEmpty then r else (r.2.onCore Core.ageVec).landAllVec n

/-! ### Return (R162) -/

/-- The core's part of RTE: the group's sequencing state and records come back. -/
def Core.leaveTrap (c : Core) : Core :=
  match c.tstate with
  | none => { c with lvl := false, clk := false, pc := c.tpc, cur := none, made := 0, owed := 0, timer := 0, waitOn := none, waitBroken := false, waitDone := false, waitBar := none, barMet := false, pw := none, qstall := 0, paged := none }
  | some t =>
    { c with
      lvl := false, clk := false, pc := c.tpc, cur := none, made := 0, owed := t.owed
      xfer := t.xfer, loop := t.loop.map fun l => { l with buf := [], reload := true }
      latch0 := t.latch0, latch1 := t.latch1, vwa := t.vwa, vwb := t.vwb, srcnt := t.srcnt, vfly := t.records, since := t.since
      tstate := none, timer := 0, waitOn := none, waitBroken := false, waitDone := false, waitBar := none, barMet := false, pw := none, qstall := 0, paged := none }

/-- RTE after its bundle has issued: handler results land (a trap there is nested), the state returns, parked stores are
replayed and deferred accesses performed again. -/
def State.returnTrap (s : State) : State :=
  let r := s.landAllVec 15
  match r.1 with
  | some t => r.2.takeTrap 0x28 t noStage false
  | none => (r.2.onCore fun c => c.landMulDiv.leaveTrap).replay true

/-! ### Chase cycles (R327, R328) -/

/-- The front of an owner. -/
def State.frontOf (s : State) (o : Owner) (n : Nat) : Front := sget {} (s.fcOf o) n

/-- What an owner named by the group at `from` is as the acting group names it. -/
def State.seenFrom (s : State) (from' o : Owner) : Owner :=
  match o with
  | none => from'
  | some p => if p = s.core.gpos then none else some p
/-- The queue of an engine of a group. -/
def State.queueOf (s : State) (o : Owner) (e : Engine) : List Cmd := match o with | none => s.eng.queue e | some _ => (s.groupOf o).eng.queue e

/-- Follow the producers from a front; the members of a cycle, as the engines of a gang's groups whose head commands they are. -/
def State.cycleFrom (s : State) (o : Owner) (n : Nat) (seen : List (Owner × Engine)) : Nat → List (Owner × Engine)
  | 0 => []
  | k + 1 =>
    match engineOf (s.frontOf o n).prod with
    | none => []
    | some e =>
      let q := s.queueOf o e
      if q.any fun c => c.front == some n then
        if seen.contains (o, e) then seen.dropWhile fun x => x != (o, e)
        else match q.head?.bind fun c => if c.susp.isNone then c.waitOn.map fun x => (x, c.waitNeed) else none with
          | some ((o', n'), need) =>
            let o' := s.seenFrom o o'
            if (s.frontOf o' n').state == .running && decide ((s.frontOf o' n').value < need) then s.cycleFrom o' n' (seen ++ [(o, e)]) k else []
          | none => []
      else []

/-- The oldest head command of a cycle, ties to the lower module core number. -/
def State.oldestHead (s : State) (es : List (Owner × Engine)) : Option ((Owner × Engine) × Cmd) :=
  es.foldl
    (fun o e => match (s.queueOf e.1 e.2).head? with
      | none => o
      | some c => match o with
        | none => some (e, c)
        | some (b, d) =>
          if c.stamp < d.stamp || (c.stamp == d.stamp && decide ((s.coreOf e.1).num < (s.coreOf b.1).num)) then some (e, c) else o) none

/-- The check of R328 for a waiter on front n of an owner: a cycle raises 0x18 asynchronously in the group of its oldest command. -/
def State.checkCycle (s : State) (waiter : Waiter) (o : Owner) (n : Nat) : State :=
  let seen := match waiter with | .core => [] | .engine e => [((none : Owner), e)]
  match s.oldestHead (s.cycleFrom o n seen 8) with
  | some ((w, e), c) => match c.waitOn with
    | some (o', n') =>
      let tval := s.frontTval (s.seenFrom w o') n'
      s.at (s.coreOf w).num fun s => s.onCore fun c => c.raise ⟨0x18, tval, ⟨engAgent e, false, false, 0⟩⟩
    | none => s
  | none => s

/-! ### Stalls and outcomes -/

/-- The core's chase timer reaches CHASELIM (R327, R328): the chain of producers is looked at, and the timer restarts. -/
def State.coreExpiry (s : State) : State :=
  match s.core.waitOn with
  | some (o, n) =>
    if s.core.chaselim.toNat ≤ s.core.timer then (s.checkCycle .core o n).onCore fun c => { c with timer := 0 } else s
  | none => s

/-- One clock cycle of a stalled core (R13, R339). -/
def State.stallTick (s : State) (why : Stall) : State :=
  let s := s.onCore fun c => { c with cycle := c.cycle + 1 }
  match why with
  | .scoreboard => s.onCore fun c => c.bump 4
  | .page => s.onCore fun c => c.bump 8
  | .queue e => s.onCore fun c =>
      if c.qstall.getLsbD e then c else { c.bump (6 + e) with qstall := c.qstall ||| (1 <<< e) }
  | .chase o n need =>
    let f := s.frontOf o n
    let s := s.onCore fun c => c.bump 5
    let same := s.core.waitOn == some (o, n)
    let t := if f.state != .running || need ≤ f.value then (if same then s.core.timer else 0)
      else if same && f.value = s.core.timerAt then s.core.timer + 1 else 0
    (s.onCore fun c => { c with
      timer := t, timerAt := f.value, waitOn := some (o, n), waitBroken := same && c.waitBroken, waitDone := same && c.waitDone }).coreExpiry
  | .other => s

/-- The kind of a stall, by the counter that it adds to (R339). -/
def Stall.kind : Stall → Option Nat
  | .scoreboard => some 4
  | .chase _ _ _ => some 5
  | .page => some 8
  | _ => none
/-- A stall of several kinds at once counts in each (R339): those beside the one that was counted. -/
def State.alsoStalls (s : State) (why : Stall) (ws : List Stall) : State :=
  (nub ((ws.filterMap Stall.kind).filter fun k => some k != why.kind)).foldl (fun s k => s.onCore fun c => c.bump k) s
/-- What comes of a slot that does not issue. -/
def Halt.after : Halt → State
  | .trap _ cause tval stage st => st.takeTrap cause tval stage false
  | .stall _ why st => st.stallTick why

/-- The outcome of a slot's issue by itself. -/
def finish (r : Res) : Out :=
  match r with
  | .ok t => .next t
  | .error h => .next h.after

/-- An event's outcome. -/
def done (s : State) : Out := .next s

end Sys2Proof.Machine
end

