-- ==== Sys2Proof/Machine/Operands.lean ====
section
/-! DEFINITION. Operand forms: immediates, addresses, register operands of every slot (R29, R32, R33, R78, R115, R182,
R199). -/

namespace Sys2Proof

/-- The immediate of format I as a 64-bit operand (R78). -/
def IForm.imm64 (w : IForm) : BitVec 64 := BitVec.ofInt 64 w.imm
/-- The immediate of CMPI as a 64-bit operand (R79). -/
def PForm.imm64 (w : PForm) : BitVec 64 := BitVec.ofInt 64 w.imm
/-- Bytes of a SIZE code (R29). -/
def sizeBytes (s : BitVec 2) : Nat := 2 ^ s.toNat

namespace Machine

/-- Clear the low bits of an address to the access size. -/
def alignTo (a n : Nat) : Nat := a / n * n
/-- VA of a format-M access (R199). -/
def Core.gAddr (c : Core) (w : MForm) : Nat :=
  alignTo (c.rdS w.a.toNat + BitVec.ofInt 64 w.disp).toNat (sizeBytes w.s)
/-- VA of AMO (R204). -/
def Core.amoAddr (c : Core) (w : XForm) : Nat :=
  alignTo (c.rdS w.a.toNat + BitVec.ofInt 64 w.adisp.toInt).toNat (sizeBytes w.asize)
/-- SVA of a format-M scratchpad access (R182). -/
def Core.sAddr (c : Core) (w : MForm) : Nat :=
  alignTo (c.rdA w.a.toNat + BitVec.ofInt 32 w.disp).toNat (sizeBytes w.s)
/-- SVA of AMOS (R184). -/
def Core.amosAddr (c : Core) (w : XForm) : Nat :=
  alignTo (c.rdA w.a.toNat + BitVec.ofInt 32 w.adisp.toInt).toNat (sizeBytes w.asize)
/-- Base SVA of a V memory form (R115). -/
def Core.vAddr (c : Core) (w : VMem) : Nat :=
  alignTo (c.rdA w.r.toNat + BitVec.ofInt 32 (w.o.toInt * 256)).toNat (vWidth w.t / 8)

/-- The S word of an instruction, as a trap reports it. -/
def sWord (i : Instr) : BitVec 32 := match encode i with | some (.word _ w _) => w | _ => 0

/-! ### Vector operands -/

/-- Physical register of a name of a slot's own cluster. -/
def Core.vPhys (c : Core) (v : BitVec 1) (n : BitVec 6) : Nat := physOf (c.base v.toNat) n.toNat
/-- The lanes of a named register. -/
def Core.vReg (c : Core) (v : BitVec 1) (n : BitVec 6) : Vec := c.rdPhys v.toNat (c.vPhys v n)
/-- Encoding of an element of type t in a lane: the low bits (R93). -/
def lowBits (t : BitVec 3) (x : BitVec 32) : Nat := x.toNat % 2 ^ vWidth t
/-- The mask of a V word. -/
def Core.vMask (c : Core) (m : BitVec 3) : BitVec 64 := c.rdQ m.toNat
/-- TVAL of 0x31 (R119). -/
def parityTval (cl k l : Nat) : BitVec 64 := BitVec.ofNat 64 (l * 4096 + cl * 2048 + k)
/-- Read lanes of named registers: the lowest lane that fails its parity check raises 0x31 (R119). -/
def State.vReadBy (s : State) (v : BitVec 1) (reads : BitVec 6 → Nat → Bool) (ns : List (BitVec 6)) : Except Halt Unit :=
  let bad := fun (l : Nat) => (ns.find? fun n => reads n l && sget false s.core.bad (badIdx v.toNat (s.core.vPhys v n) l)).map fun n => (l, n)
  if s.core.bad.isEmpty then .ok ()
  else match (List.range 64).findSome? bad with
    | some (l, n) => .error (.trap 7 0x31 (parityTval v.toNat (s.core.vPhys v n) l) noStage s)
    | none => .ok ()
/-- Read the same lanes of every named register. -/
def State.vRead (s : State) (v : BitVec 1) (lanes : Nat → Bool) (ns : List (BitVec 6)) : Except Halt Unit := s.vReadBy v (fun _ => lanes) ns

end Machine
end Sys2Proof
end

