-- ==== Sys2Proof/Machine/Curves.lean ====
section
/-! DEFINITION. The segment function of a curve (R310). -/

namespace Sys2Proof.Machine

/-- What the segment function chooses for a non-NaN x: a segment's slope and intercept (FP32 encodings), or a clamped
result, whose value is the encoding and whose slope is +0. -/
inductive SegR where
  | seg (slope icpt : Nat) | clamped (value : Nat)
  deriving DecidableEq, Repr

/-- Slope and intercept of segment k. -/
def Curve.segment (c : Curve) (k : Nat) : Nat × Nat := let e := c.segs.getD k (0, 0); (e.1.toNat, e.2.toNat)

/-- Segment (R310), exactly. The upper domain end LO + 64 / INVW enters as (LO × INVW + 64) / INVW. -/
def Curve.choose (c : Curve) (x : Val) : SegR :=
  let lo := fp32.val c.lo.toNat
  let iw := fp32.val c.invw.toNat
  let t := ((exactSum [x, lo.neg] false).1.mul iw).1
  let zero := Val.zero false
  let n64 := Val.ofInt 64
  if !t.lt zero && t.lt n64 then
    let e := c.segment ((t.roundInt ⟨1, 0⟩).1.toNat)
    .seg e.1 e.2
  else
    let low := t.lt zero
    let e := c.segment (if low then 0 else 63)
    if !c.clamp then .seg e.1 e.2
    else
      let sl := fp32.val e.1
      let ic := fp32.val e.2
      let v :=
        if low then (exactSum [(sl.mul lo).1, ic] false).1
        else
          let q := (exactSum [(lo.mul iw).1, n64] false).1
          ((exactSum [(sl.mul q).1, (ic.mul iw).1] false).1.div iw).1
      .clamped (fp32.round v rne).1

/-- The value of a curve at x with its flags, as VCURVE delivers it (R105). -/
def Curve.value (c : Curve) (x : Val) : Nat × Fl :=
  if x.isNaN then (fp32.defaultNaN, if x.isSig then flInvalid else 0)
  else match c.choose x with
    | .clamped v => (v, 0)
    | .seg sl ic =>
      let p := (fp32.val sl).mul x
      let s := exactSum [p.1, fp32.val ic] false
      let r := fp32.round s.1 rne
      let sg : Fl := if (fp32.val sl).isSig || (fp32.val ic).isSig then flInvalid else 0
      (r.1, p.2 ||| s.2 ||| r.2 ||| sg)

/-- The slope of the chosen segment (R105): +0 for a clamped result. -/
def Curve.slope (c : Curve) (x : Val) : Nat × Fl :=
  if x.isNaN then (fp32.defaultNaN, if x.isSig then flInvalid else 0)
  else match c.choose x with
    | .clamped _ => (0, 0)
    | .seg sl _ => (sl, 0)

def Core.rdCurve (c : Core) (k : Nat) : Curve := sget {} c.curve k

end Sys2Proof.Machine
end

