-- ==== Sys2Proof/Machine/Flags.lean ====
section
/-! DEFINITION. Rounding modes, draws and exception flags (R55, R56, R59, R60, R96, R99). -/

namespace Sys2Proof.Machine

/-- RM of VRM (R96). -/
def Core.rm (c : Core) : Nat := (c.vrm.extractLsb' 0 3).toNat
/-- The mode of an instruction with a rounding code: 101 takes VRM's (R55). -/
def Core.modeOf (c : Core) (code : Nat) : Nat := if code = 5 then c.rm else code
/-- The rounding mode of lane l in one issue, with its draw for .sr (R59, R60). -/
def Core.laneMode (c : Core) (mode l : Nat) : RMode :=
  ⟨mode, if mode = 4 then srDraw c.seed c.index l c.srcnt.toNat else 0⟩
/-- SRCNT after an issue that uses .sr (R60). -/
def Core.useSr (c : Core) (mode n : Nat) : Core := if mode = 4 then { c with srcnt := c.srcnt + BitVec.ofNat 32 n } else c

/-- FLAGS of VRM. -/
def Core.flags (c : Core) : Fl := c.vrm.extractLsb' 3 5
/-- A value of VRM that WRCTL may write: RM 000 to 100 (R96); reserved bits stay 0. -/
def vrmOk (v : BitVec 64) : Bool := decide ((v.extractLsb' 0 3).toNat ≤ 4)
def vrmClean (v : BitVec 64) : BitVec 64 := v &&& 0x1FFF

/-- Invalid when a signalling NaN is consumed (R50). -/
def sigFlag (vs : List Val) : Fl := if vs.any Val.isSig then flInvalid else 0

end Sys2Proof.Machine
end

