-- ==== Sys2Proof/Machine/Fetch.lean ====
section
/-! DEFINITION. Fetching a bundle's words through the instruction cache (R20, R40, R190, R201, R282). -/

namespace Sys2Proof.Machine

/-- Lines of an instruction cache: 64 KiB (R2). -/
def icLines : Nat := 1024
/-- The bytes of the core's instruction-cache line of an IA when it hits: same image identifier (R282). -/
def State.icLine (s : State) (ia : Nat) : Option (List (BitVec 8)) :=
  match s.mem.ic.find? fun e => e.1 == coreKey s.core.num ia with
  | some e => if e.2.1 = s.core.imgid then some e.2.2 else none
  | none => none
/-- The instruction cache takes a line; a full one drops another, which one is left open. -/
def State.icFill (s : State) (ia : Nat) (line : List (BitVec 8)) : State :=
  let k := coreKey s.core.num ia
  let s := match lineToDrop s.mem.ic s.core.num icLines k (Config.pick s.free) with
    | none => s
    | some j => s.draw.onMem fun m => { m with ic := sset (0, []) m.ic j (0, []) }
  s.onMem fun m => { m with ic := sset (0, []) m.ic k (s.core.imgid, line) }

/-- The halt of a fetch fault at a VA (R190). -/
def fetchTrap (cause va : Nat) (st : Stage) (s : State) : Halt := .trap 3 cause (BitVec.ofNat 64 va) st s

/-- Fetch the 32-bit word at a text offset: from VA TEXTVA + t with need C, precise. A line that is not cached is filled
from memory. The end of the image's text is no bound of its own: a fetch past it faults where Translate or the walk refuses it, and
runs what the tables grant. DESIGN CHOICE -/
def State.fetchWord (s : State) (t : BitVec 32) : Except Halt (BitVec 32 × State) :=
  let va := s.core.textva + t.toNat
  match s.core.translate va needC with
  | .cause c => .error (fetchTrap c va ⟨0, false, false, 1⟩ s)
  | .ia ia => match s.icLine ia with
    | some line => .ok (take32 (line.drop (ia % 64)), s)
    | none => match s.reach s.core.s1root s.core.die ia needC with
      | (.fault f, s) => .error (s.preciseWalk 3 0 va false ia f)
      | (.pa a, s) =>
        if s.mem.bad a then .error (fetchTrap 0x30 va noStage s)
        else
          let line := s.mem.rdN (a - ia % 64) 64
          .ok (take32 (line.drop (ia % 64)), s.icFill ia line)

/-- Fetch n words from a text offset on. -/
def State.fetchWords (s : State) (t : BitVec 32) : Nat → Except Halt (List (BitVec 32) × State)
  | 0 => .ok ([], s)
  | n + 1 => do
    let (w, s) ← s.fetchWord t
    let (ws, s) ← s.fetchWords (t + 4) n
    return (w :: ws, s)

/-- 1 for a slot that is present. -/
def bit1 (b : Bool) : Nat := if b then 1 else 0
/-- Words of a bundle from its header and whether its S word has an extension (R20). -/
def bundleWords (h : Header) (x : Bool) : Nat :=
  1 + bit1 h.hasS + bit1 x + bit1 h.hasV0 + bit1 h.hasV1 + 2 * bit1 h.hasM + 2 * bit1 h.hasC0 + 2 * bit1 h.hasC1

/-- How many words the bundle at a text offset has, from its header and S word. -/
def State.fetchSize (s : State) (t : BitVec 32) : Except Halt (Nat × State) := do
  let (w, s) ← s.fetchWord t
  let h := parseHeader w
  if h.hasS then
    let (sw, s) ← s.fetchWord (t + 4)
    return (bundleWords h (xOf sw == 1), s)
  else return (bundleWords h false, s)

/-- Fetch the bundle at a text offset. -/
def State.fetchBundle (s : State) (t : BitVec 32) : Except Halt (Bundle × State) := do
  let (n, s) ← s.fetchSize t
  let (ws, s) ← s.fetchWords t n
  return (cutBundle ((ws.map fun w => leBytes 4 w.toNat).flatten), s)

/-- The text offset after the next n bundles, from their headers and S words (R85, R88). -/
def State.skipBundles (s : State) (t : BitVec 32) : Nat → Except Halt (BitVec 32 × State)
  | 0 => .ok (t, s)
  | n + 1 => do
    let (k, s) ← s.fetchSize t
    s.skipBundles (t + BitVec.ofNat 32 (4 * k)) n

/-- Its fates as those of the S instruction that reads ahead (R88). -/
def State.skipAtIssue (s : State) (t : BitVec 32) (n : Nat) : Except Halt (BitVec 32 × State) :=
  match s.skipBundles t n with
  | .ok r => .ok r
  | .error (.trap _ c v st t) => .error (.trap 6 c v st t)
  | .error (.stall _ y t) => .error (.stall 6 y t)

end Sys2Proof.Machine
end

