-- ==== Sys2Proof/Machine/SFlow.lean ====
section
/-! DEFINITION. Branches, loops, window control and END of the S slot (R34 to R39, R84 to R90), and what follows a bundle
whose S slot holds TRAP, RTE or END. -/

namespace Sys2Proof.Machine

/-! ### Branch targets -/

/-- PREP (R87): PC + 4 × DISP, modulo 2^32. -/
def runPrep (w : BForm) (s : State) : Res :=
  sSlot w.p [] [] s fun s => .ok (s.onCore fun c => c.wrB w.t.toNat (c.pc + BitVec.ofInt 32 (4 * w.disp)))
def execPrep (w : BForm) (s : State) : Out := finish (runPrep w s)

/-- The scalar register that PREPR names. -/
def BForm.sa (w : BForm) : Nat := (w.i.extractLsb' 10 6).toNat
/-- PREPR (R35, R87). -/
def runPrepr (w : BForm) (s : State) : Res :=
  sSlot w.p [BForm.sa w] [] s fun s =>
    let x := s.core.rdS (BForm.sa w)
    if x.extractLsb' 0 2 != 0 || x.extractLsb' 32 32 != 0 then illegal (sWord (.prepr w)) s
    else .ok (s.onCore fun c => c.wrB w.t.toNat (x.extractLsb' 0 32))
def execPrepr (w : BForm) (s : State) : Out := finish (runPrepr w s)

/-- The transfer of GO (R34): taken when PG XOR NEG is 1, to the target the register holds now, after two bundles. -/
def Core.goXfer (c : Core) (w : BForm) : Xfer := ⟨c.rdP w.p.toNat ^^ w.n == 1, c.rdB w.t.toNat, 2⟩
/-- GO (R34, R88). -/
def runGo (w : BForm) (s : State) : Res := .ok (s.onCore fun c => { c with xfer := some (c.goXfer w) })
def execGo (w : BForm) (s : State) : Out := finish (runGo w s)

/-- GOL (R34, R88): s63 takes the text offset after the second delay bundle, whether or not the branch is taken. -/
def runGol (w : BForm) (s : State) : Res := do
  s.scoreboard [63]
  let (t, s) ← s.skipAtIssue s.core.pc 3
  return s.onCore fun c => { c.wrS 63 (t.zeroExtend 64) with xfer := some (c.goXfer w) }
def execGol (w : BForm) (s : State) : Out := finish (runGol w s)

/-! ### LOOP (R84, R85) -/

/-- Some count of the nest is zero. -/
def Core.zeroTrip (c : Core) (depth : Nat) : Bool := (List.range depth).any fun k => c.rdLc k == 0
/-- A LOOP bundle is 12 bytes long. -/
def loopBytes : BitVec 32 := 12
/-- LOOP: the loop state over the next L bundles; a zero-trip LOOP goes on after them. -/
def runLoop (w : XForm) (s : State) : Res :=
  sSlot w.p [] [] s fun s =>
    let len := w.d.toNat + 1
    if s.core.zeroTrip w.a.toNat then do
      let (t, s) ← s.skipAtIssue (s.core.pc + loopBytes) len
      return s.onCore fun c => { c with jump := some t }
    else .ok (s.onCore fun c =>
      { c with loop := some ⟨c.pc + loopBytes, len, w.a.toNat, w.ext, List.replicate w.a.toNat 0, 0, [], false⟩ })
def execLoop (w : XForm) (s : State) : Out := finish (runLoop w s)

/-- The level that advances at a boundary, and the indices with those below it reset (R85); none at the last pass. -/
def loopNext (lc : Nat → BitVec 32) (depth : Nat) : Nat → Nat → List Nat → Option (Nat × List Nat)
  | 0, _, _ => none
  | n + 1, k, idx =>
    if depth ≤ k then none
    else if (lc k).toNat ≤ idx.getD k 0 + 1 then loopNext lc depth n (k + 1) (idx.set k 0)
    else some (k, idx.set k (idx.getD k 0 + 1))

/-- The level steps of the address registers in the mask. -/
def Core.stepAll (c : Core) (mask : BitVec 32) (k : Nat) : Core :=
  (List.range 32).foldl (fun (c : Core) n => if mask.getLsbD n then c.wrA n (c.rdA n + c.rdStep n k) else c) c

/-- After the last issue of a loop's bundle: the next bundle of the body, the next pass, or the end of the nest. -/
def Core.loopAdvance (c : Core) (l : LoopSt) (next : BitVec 32) : Core :=
  if l.pos + 1 < l.len then { c with loop := some { l with pos := l.pos + 1 }, pc := next }
  else match loopNext c.rdLc l.depth 7 0 l.idx with
    | none => { c with loop := none, pc := next }
    | some (k, idx) =>
      let c := c.stepAll l.amask k
      { c with loop := some { l with idx := idx, pos := 0 }, pc := l.body }

/-- After a delay bundle (R34): one fewer is left, and after the last the transfer completes. -/
def Core.xferAdvance (c : Core) (x : Xfer) (next : BitVec 32) : Core :=
  if 1 < x.left then { c with xfer := some { x with left := x.left - 1 }, pc := next }
  else { c with xfer := none, pc := if x.taken then x.target else next }

/-- The core after the last issue of a bundle: `pre` is the core before that issue. -/
def Core.advance (pre c : Core) (next : BitVec 32) : Core :=
  let c := { c with cur := none, made := 0, owed := 0, jump := none }
  match pre.xfer with
  | some x => c.xferAdvance x next
  | none => match pre.loop with
    | some l => c.loopAdvance l next
    | none => { c with pc := next }

/-! ### Windows (R89) -/

def Core.setBase (c : Core) (cl v : Nat) : Core := if cl = 0 then { c with vwa := v % 768 } else { c with vwb := v % 768 }
/-- WSET. -/
def runWset (w : RForm) (s : State) : Res :=
  sSlot w.p [w.a.toNat] [] s fun s => .ok (s.onCore fun c => c.setBase w.f.toNat (c.rdS w.a.toNat).toNat)
def execWset (w : RForm) (s : State) : Out := finish (runWset w s)
/-- WROT. -/
def runWrot (w : RForm) (s : State) : Res :=
  sSlot w.p [] [] s fun s => .ok (s.onCore fun c => c.setBase w.f.toNat (c.base w.f.toNat + w.b.toNat))
def execWrot (w : RForm) (s : State) : Out := finish (runWrot w s)
/-- The header rotation after an issue (R22). -/
def Core.rotate (c : Core) (a b : Nat) : Core := (c.setBase 0 (c.vwa + a)).setBase 1 (c.vwb + b)

/-! ### TRAP, RTE, END -/

/-- A parked store raises 0x14 at a fence, a release or END (R197). -/
def State.parkedTrap (s : State) : Except Halt Unit :=
  match s.core.parkedReal.head? with
  | some p => .error (.trap 6 0x14 (BitVec.ofNat 64 p.va) p.stage s)
  | none => .ok ()
/-- No store waits at the memory side on a fault record, and no load does (R196). -/
def Core.settled (c : Core) : Bool := c.parked.all (fun p => p.waits.isNone) && c.pend.all fun p => p.waits.isNone

/-- TRAP (R161). -/
def runTrap (w : IForm) (s : State) : Res :=
  sSlot w.p [] [] s fun s => .ok (s.onCore fun c => { c with after := some (.trap w.imm64) })
/-- RTE (R162): privileged at group level. -/
def runRte (w : RForm) (s : State) : Res :=
  if s.core.rdP w.p.toNat && !s.core.lvl then privileged (sWord (.rte w)) s
  else sSlot w.p [] [] s fun s => .ok (s.onCore fun c => { c with after := some .rte })
/-- END (R90, R197). -/
def runEnd (w : RForm) (s : State) : Res :=
  sSlot w.p [] [] s fun s => do
    s.parkedTrap
    return s.onCore fun c => { c with after := some .endGroup }

/-- Results in flight land after END, without trapping (R99). -/
def State.landRest (s : State) : Nat → State
  | 0 => s
  | n + 1 => if s.core.vfly.isEmpty then s else ((s.landDue.2).onCore Core.ageVec).landRest n

/-- END: fetch stops, pins end (R222), vector results land, deferred-access records and a saved trap state are discarded (R90, R195). -/
def State.endGroup (s : State) : State :=
  (s.landRest 16).onCore fun c =>
    { c.landMulDiv with
      run := .ended, pins := [], tstate := none, held := [], defrec := []
      pend := c.pend.map fun p => { p with record := none }, xfer := none, loop := none, cur := none }

/-- Pre-emption of a gang begins (R278): every member that runs freezes at its bundle boundary, and the gang is marked as leaving, to be
parked or not. -/
def State.startPreempt (s : State) (part node gang : Nat) (park : Bool) : State :=
  let freeze := fun (s : State) =>
    if s.core.ofNode part node && s.core.index / s.core.gsize == gang && s.core.run == .running then
      s.onCore fun c => { c.freeze with run := .frozen }
    else s
  (s.liveCores.foldl (fun s k => s.at k freeze) s).onNode part node fun n =>
    if n.leaving.any fun x => x.1 == gang then n else { n with leaving := n.leaving ++ [(gang, park)] }

/-- What the S slot left to do once its bundle has issued; PC is the next bundle in fetch order. -/
def State.actAfter (s : State) : State :=
  match s.core.after with
  | none => s
  | some a =>
    let s := s.onCore fun c => { c with after := none }
    match a with
    | .trap imm => s.takeTrap 0x05 imm noStage false
    | .rte => s.returnTrap
    | .endGroup => s.endGroup
    | .yield => s.startPreempt s.core.partNo s.core.node.toNat (s.core.index / s.core.gsize) false

/-- The outcome of TRAP, RTE or END by itself. -/
def finishAfter (r : Res) : Out :=
  match r with
  | .ok t => .next t.actAfter
  | .error h => .next h.after

def execTrap (w : IForm) (s : State) : Out := finishAfter (runTrap w s)
def execRte (w : RForm) (s : State) : Out := finishAfter (runRte w s)
def execEndGroup (w : RForm) (s : State) : Out := finishAfter (runEnd w s)

end Sys2Proof.Machine
end

