-- ==== Sys2Proof/Machine/SMem.lean ====
section
/-! DEFINITION. The S slot's global memory instructions: LD, ST, LD.PF, LDC, CINV, AMO, FENCE, CFLUSH (R198 to R207,
R213, R222). -/

namespace Sys2Proof.Machine

/-- File index of a destination, 0 for s0. -/
def Core.destIdx (c : Core) (n : Nat) : Nat := if n = 0 then 0 else c.sIdx n

/-! ### Pins (R222) -/

/-- A release at .core pins the line of a VA; the ninth pin ends the oldest. -/
def State.pin (s : State) (va : Nat) : State :=
  match s.core.translate va needW with
  | .cause _ => s
  | .ia ia => (s.onMem fun m => { m with retry := m.retry.filter fun x => x != lineOf ia }).onCore fun c =>
      let l := c.pins.filter (fun x => x != lineOf ia) ++ [lineOf ia]
      { c with pins := if 8 < l.length then l.drop 1 else l }
/-- A release or a fence at .clus or wider ends the core's pins. -/
def State.relScope (s : State) (scope : BitVec 3) : State :=
  if scope = 0 then s else s.onCore fun c => { c with pins := [] }

/-- What a release or a fence waits for: no parked store with a cause (it raises 0x14), and every earlier access performed
(R197, R213). -/
def State.ordered (s : State) : Res := do
  s.parkedTrap
  let s := s.clearWay Core.cancelled
  s.parkedTrap
  if s.core.settled then .ok s else .error (.stall 6 .other s)
/-- A core-side Translate failure that is precise (R190, R197). -/
def State.preciseTr (s : State) (va : Nat) (need : Perm) (write : Bool) : Except Halt Nat :=
  match s.core.translate va need with
  | .cause c => .error (.trap 6 c (BitVec.ofNat 64 va) (sStage write 1) s)
  | .ia ia => .ok ia

/-! ### Loads -/

/-- LD (R198, R199): SD is pending until the result lands; every fault is deferred (R195). -/
def runLd (w : MForm) (s : State) : Res :=
  sSlot w.p [w.a.toNat] [w.d.toNat] s fun s =>
    .ok (s.startAccess (s.core.destIdx w.d.toNat) (.load (s.core.gAddr w) (sizeBytes w.s) (w.n == 1)) (w.o == 1))
def execLd (w : MForm) (s : State) : Out := finish (runLd w s)

/-- LDC (R201, R202). -/
def runLdc (w : MForm) (s : State) : Res :=
  sSlot w.p [w.a.toNat] [w.d.toNat] s fun s =>
    .ok (s.startAccess (s.core.destIdx w.d.toNat) (.const (s.core.gAddr w) (sizeBytes w.s) (w.n == 1)))
def execLdc (w : MForm) (s : State) : Out := finish (runLdc w s)

/-- The prefetch of a VA (R200): the line comes with read permission, into the L1 too with .l1; every fault is dropped. -/
def State.prefetch (s : State) (va : Nat) (l1 : Bool) : State :=
  match s.core.translate va needR with
  | .cause _ => s
  | .ia ia => match s.reach s.core.s1root s.core.die ia needR with
    | (.fault _, s) => s
    | (.pa a, s) => if l1 && decide (a < hostBase) then s.l1Touch ia 0 else s
/-- LD.PF. -/
def runLdPf (w : MForm) (s : State) : Res :=
  sSlot w.p [w.a.toNat] [] s fun s => .ok (s.prefetch (s.core.gAddr w) (w.c == 0))
def execLdPf (w : MForm) (s : State) : Out := finish (runLdPf w s)

/-- CINV (R203): the whole constant cache, or the line of a VA, without a permission check and without a fault. -/
def runCinv (w : RForm) (s : State) : Res :=
  sSlot w.p [w.a.toNat] [] s fun s =>
    if w.f = 0 then .ok (s.onMem fun m => { m with cc := dropCore m.cc s.core.num, ccBad := dropCore m.ccBad s.core.num })
    else
      let va := (s.core.rdS w.a.toNat).toNat
      match findRange s.core.rg va 16 0 with
      | none => .ok s
      | some n =>
        let ia := iaOf s.core.partNo (va + (sget {} s.core.rg n : Range).offset)
        .ok (s.onMem fun m => { m with
          cc := sset [] m.cc (coreKey s.core.num ia) [], ccBad := sset false m.ccBad (coreKey s.core.num ia) false })
def execCinv (w : RForm) (s : State) : Out := finish (runCinv w s)

/-! ### Stores and atomics -/

/-- ST (R198, R199, R197, R222). -/
def runSt (w : MForm) (s : State) : Res :=
  sSlot w.p [w.a.toNat, w.d.toNat] [] s fun s => do
    let s ← if w.o = 2 then s.ordered else .ok s
    let va := s.core.gAddr w
    let _ ← s.preciseTr va needW true
    let x := s.core.rdS w.d.toNat
    let n := sizeBytes w.s
    let t := (s.sign 0 va (leBytes n x.toNat)).startParked { va := va, size := n, data := x, op := .store, cause := 0, stage := sStage true 0 }
    return if w.o = 2 then (if w.c = 0 then t.pin va else t.relScope w.c) else t
def execSt (w : MForm) (s : State) : Out := finish (runSt w s)

/-- A release: .rel or .ar. -/
def XForm.rel (w : XForm) : Bool := w.aord.getLsbD 1
/-- An acquire: .acq or .ar. -/
def XForm.acq (w : XForm) : Bool := w.aord.getLsbD 0
/-- Registers an atomic reads. -/
def XForm.amoReads (w : XForm) (addr : List Nat) : List Nat := addr ++ [w.b.toNat] ++ (if w.aop = 10 then [w.asc.toNat] else [])

/-- AMO (R204, R205): with SD the old value is pending, and faults are deferred; with s0 it parks as a store does. -/
def runAmo (w : XForm) (s : State) : Res :=
  sSlot w.p (XForm.amoReads w [w.a.toNat]) [w.d.toNat] s fun s => do
    let s ← if XForm.rel w then s.ordered else .ok s
    let va := s.core.amoAddr w
    let n := sizeBytes w.asize
    let x := s.core.rdS w.b.toNat
    let c := s.core.rdS w.asc.toNat
    if s.amoWaits va n w.aop.toNat then .error (.stall 6 .other s)
    else
    let t ←
      if w.d = 0 then do
        let _ ← s.preciseTr va needRW true
        .ok (s.startParked { va := va, size := n, data := x, op := .amo w.aop.toNat w.ascope.toNat c, cause := 0, stage := sStage true 0, acq := XForm.acq w })
      else
        .ok (s.startAccess (s.core.destIdx w.d.toNat) (.atomic va n w.aop.toNat w.ascope.toNat x c) (XForm.acq w))
    return if XForm.rel w then (if w.ascope = 0 then t.pin va else t.relScope w.ascope) else t
def execAmo (w : XForm) (s : State) : Out := finish (runAmo w s)

/-! ### FENCE and CFLUSH -/

/-- The scope of a FENCE. -/
def RForm.scope (w : RForm) : BitVec 3 := w.b.extractLsb' 3 3
/-- FENCE (R206): it waits until every earlier access is performed, and ends the pins at .clus or wider. -/
def runFence (w : RForm) (s : State) : Res :=
  sSlot w.p [] [] s fun s => do
    let s ← s.ordered
    return s.relScope (RForm.scope w)
def execFence (w : RForm) (s : State) : Out := finish (runFence w s)

/-- The command belongs to an earlier bundle than the one at hand, whose own earlier issues may have enqueued some (R206, R260,
R291). -/
def Core.earlier (c : Core) (x : Cmd) : Bool := (c.made == 0 && c.owed == 0) || decide (x.stamp < c.since)
/-- Every command of a queue that earlier bundles enqueued has completed. -/
def Core.drained (c : Core) (q : List Cmd) : Bool := q.all fun x => !c.earlier x
/-- FENCE.E (R206) waits for the engines too. -/
def runFenceE (w : RForm) (s : State) : Res :=
  sSlot w.p [] [] s fun s => do
    let s ← s.ordered
    if s.core.drained s.eng.commands then .ok (s.relScope (RForm.scope w)) else .error (.stall 6 .other s)
def execFenceE (w : RForm) (s : State) : Out := finish (runFenceE w s)

/-- CFLUSH (R207): a core-side fault is precise, a memory-side one parks it. -/
def runCflush (w : RForm) (s : State) : Res :=
  sSlot w.p [w.a.toNat] [] s fun s => do
    let va := (s.core.rdS w.a.toNat).toNat
    let _ ← s.preciseTr va needR false
    return s.startParked { va := va, size := 64 - va % 64, data := 0, op := .flush w.f.toNat, cause := 0, stage := sStage false 0 }
def execCflush (w : RForm) (s : State) : Out := finish (runCflush w s)

end Sys2Proof.Machine
end

