-- ==== Sys2Proof/Machine/SSpad.lean ====
section
/-! DEFINITION. The S slot's scratchpad instructions: LDS, STS, LDS.RAW, AMOS, STFLUSH, the page instructions, SPAN,
CURVELD, BMAPLD (R149, R150, R181 to R187, R311 to R313). -/

namespace Sys2Proof.Machine

/-! ### Accesses -/

/-- LDS and LDS.RAW (R181, R182): faults are precise; poison goes with the register (R357). -/
def State.ldsAt (s : State) (w : MForm) (chase : Bool) : Res := do
  let a := s.core.sAddr w
  let n := sizeBytes w.s
  let _ ← s.coreTouch 0 a false
  if chase then s.coreChase a n
  return s.issueAccess (s.core.destIdx w.d.toNat) (.spad a n (w.n == 1))
def runLds (w : MForm) (s : State) : Res := sSlot w.p [] [w.d.toNat] s fun s => s.ldsAt w true
def execLds (w : MForm) (s : State) : Out := finish (runLds w s)
def runLdsRaw (w : MForm) (s : State) : Res := sSlot w.p [] [w.d.toNat] s fun s => s.ldsAt w false
def execLdsRaw (w : MForm) (s : State) : Out := finish (runLdsRaw w s)

/-- STS. -/
def runSts (w : MForm) (s : State) : Res :=
  sSlot w.p [w.d.toNat] [] s fun s => do
    let s ← if w.o = 2 then s.ordered else .ok s
    let a := s.core.sAddr w
    let bs := leBytes (sizeBytes w.s) (s.core.rdS w.d.toNat).toNat
    let p ← s.coreTouch 0 a true
    let t := (((s.placeWr p bs false).stampPage p).sign 0 a bs).passedSpad a bs.length
    return if w.o = 2 then t.relScope w.c else t
def execSts (w : MForm) (s : State) : Out := finish (runSts w s)

/-- AMOS (R183, R184): it chases as LDS does. -/
def runAmos (w : XForm) (s : State) : Res :=
  sSlot w.p (XForm.amoReads w []) [w.d.toNat] s fun s => do
    let s ← if XForm.rel w then s.ordered else .ok s
    let a := s.core.amosAddr w
    let _ ← s.coreTouch 0 a true
    s.coreChase a (sizeBytes w.asize)
    let t := s.issueAccess (s.core.destIdx w.d.toNat)
      (.spadAtomic a (sizeBytes w.asize) w.aop.toNat (s.core.rdS w.b.toNat) (s.core.rdS w.asc.toNat)) none (XForm.acq w)
    return if XForm.rel w then t.relScope w.ascope else t
def execAmos (w : XForm) (s : State) : Out := finish (runAmos w s)

/-! ### Pages -/

/-- 0x09 or 0x0A of a page instruction (R172, R187). -/
def pageTrap (cause sva stage : Nat) (write : Bool) (s : State) : Halt :=
  .trap 7 cause (BitVec.ofNat 64 sva) ⟨0, false, write, stage⟩ s

/-- The own page that a page instruction names: a window address raises 0x02, the third region 0x09 (R186, R187). -/
def State.ownPage (s : State) (w : BitVec 32) (sva : Nat) : Except Halt Nat :=
  if 0x10000000 ≤ sva then .error (pageTrap 0x09 sva 4 false s)
  else if 0x8000000 ≤ sva then .error (.trap 6 0x02 (w.zeroExtend 64) noStage s)
  else .ok (sva / 4096)
/-- Its entry is valid. -/
def State.validPage (s : State) (sva pg : Nat) : Except Halt Unit :=
  if sptV (s.spad.entry pg) then .ok () else .error (pageTrap 0x09 sva 4 false s)
/-- A page under a running or halted front is neither mapped nor unmapped (R187). -/
def State.notUnderFront (s : State) (w : BitVec 32) (pg : Nat) : Except Halt Unit :=
  if s.pinnedPage none pg then .error (.trap 6 0x02 (w.zeroExtend 64) noStage s) else .ok ()

/-- Write a page back for the S slot; a fault is the slot's (R175, R185). -/
def State.spill (s : State) (sva : Nat) (o : Owner) (pg : Nat) : Res :=
  match s.writePage o pg with
  | (none, t) => .ok t
  | (some (ia, f), t) => .error (t.preciseWalk 7 0 sva true ia f)

/-- Bring a page in for the S slot; the core is frozen meanwhile. -/
def State.pageNow (s : State) (sva : Nat) (o : Owner) (pg : Nat) (window : Bool := false) : Except Halt Unit :=
  if sptRes ((s.spadOf o).entry pg) then .ok ()
  else
    let (turn, s) := s.waitPage o pg
    if !s.pageTurn turn then .error (.stall 7 .page s)
    else match s.pageIn o pg with
    | .done t => .error (.stall 7 .page t)
    | .noVictim t => .error (pageTrap 0x08 sva (stageOf window) false t)
    | .fault ia f t => .error (t.preciseWalk 7 0 sva false ia f)

/-- Addresses in [va, va + n) where a range register begins or has just ended, and va itself. -/
def rangeCuts (rg : Sparse Range) (va n : Nat) : List Nat :=
  va :: (((rg.map fun e => [e.2.base, e.2.limit + 1]).flatten).filter fun a => decide (va < a) && decide (a < va + n))
/-- Translate of every byte of [va, va + n); the first failing address raises its cause (R187). -/
def State.translateAll (s : State) (need : Perm) (write : Bool) : List Nat → Except Halt Unit
  | [] => .ok ()
  | a :: r => do
    let _ ← s.preciseTr a need write
    s.translateAll need write r

/-- Unmap a page: its dirty data are written back unless dropped, its physical page is freed. -/
def State.unmap (s : State) (sva pg : Nat) (drop : Bool) : Res := do
  let e := s.spad.entry pg
  let s ← if sptRes e && !drop then s.spill sva none pg else .ok s
  let s := if drop && sptRes e && sptStash e then
      s.onMem fun m => (dirtyLines s.spad e).foldl (fun (m : Mem) ia => m.dropUnder ((m.line (lineOf ia)).pa + ia % 256) 64) m
    else s
  let s := if sptRes e then s.unload none pg else s
  return s.onSpad fun sp => sp.setEntry pg (setBit64 (setBit64 (sp.entry pg) 63 false) 61 false)

/-- A fresh entry: V 1, SHARED 1, STASH as given, the IA page (R187, R294). -/
def freshEntry (stash : Bool) (iapn : Nat) : BitVec 64 :=
  setField64 (setBit64 (setBit64 (setBit64 0 63 true) 58 true) 60 stash) 0 40 iapn

/-- SPMAP. -/
def runSpmap (w : RForm) (s : State) : Res :=
  sSlot w.p [w.b.toNat] [] s fun s => do
    let word := sWord (.spmap w)
    let sva := (s.core.rdA w.a.toNat).toNat
    let va := (s.core.rdS w.b.toNat).toNat
    let pg ← s.ownPage word sva
    let _ ← if va % 4096 ≠ 0 then illegal word s else .ok s
    s.notUnderFront word pg
    s.translateAll needRW true (rangeCuts s.core.rg va 4096)
    let ia ← s.preciseTr va needRW true
    let t ← if sptV (s.spad.entry pg) then s.unmap sva pg false else .ok s
    return t.onSpad fun sp => sp.setEntry pg (freshEntry (w.f == 1) (ia / 4096))
def execSpmap (w : RForm) (s : State) : Out := finish (runSpmap w s)

/-- SPUNMAP. -/
def runSpunmap (w : RForm) (s : State) : Res :=
  sSlot w.p [] [] s fun s => do
    let word := sWord (.spunmap w)
    let sva := (s.core.rdA w.a.toNat).toNat
    let pg ← s.ownPage word sva
    s.validPage sva pg
    s.notUnderFront word pg
    s.unmap sva pg (w.f == 1)
def execSpunmap (w : RForm) (s : State) : Out := finish (runSpunmap w s)

/-- Explicit pins of the group. -/
def Spad.pinned (sp : Spad) : Nat := (sp.spt.filter fun e => sptPin e.2).length
/-- SPPIN: at most 448 explicit pins (R179). -/
def runSppin (w : RForm) (s : State) : Res :=
  sSlot w.p [] [w.d.toNat] s fun s => do
    let sva := (s.core.rdA w.a.toNat).toNat
    let pg ← s.ownPage (sWord (.sppin w)) sva
    s.validPage sva pg
    if !sptPin (s.spad.entry pg) && decide (448 ≤ s.spad.pinned) then
      return s.onCore fun c => c.wrS w.d.toNat 0
    else do
      s.pageNow sva none pg
      let t := s.onSpad fun sp => sp.setEntry pg (setBit64 (sp.entry pg) 61 true)
      return t.onCore fun c => c.wrS w.d.toNat 1
def execSppin (w : RForm) (s : State) : Out := finish (runSppin w s)

/-- SPUNPIN. -/
def runSpunpin (w : RForm) (s : State) : Res :=
  sSlot w.p [] [] s fun s => do
    let sva := (s.core.rdA w.a.toNat).toNat
    let pg ← s.ownPage (sWord (.spunpin w)) sva
    s.validPage sva pg
    return s.onSpad fun sp => sp.setEntry pg (setBit64 (sp.entry pg) 61 false)
def execSpunpin (w : RForm) (s : State) : Out := finish (runSpunpin w s)

/-- SPEVICT: 0 and no change when the page is pinned, not resident or in use. -/
def runSpevict (w : RForm) (s : State) : Res :=
  sSlot w.p [] [w.d.toNat] s fun s => do
    let sva := (s.core.rdA w.a.toNat).toNat
    let pg ← s.ownPage (sWord (.spevict w)) sva
    s.validPage sva pg
    let e := s.spad.entry pg
    if sptPin e || !sptRes e || s.pinnedPage none pg then
      return s.onCore fun c => c.wrS w.d.toNat 0
    else do
      let t ← s.spill sva none pg
      return (t.unload none pg).onCore fun c => c.wrS w.d.toNat 1
def execSpevict (w : RForm) (s : State) : Out := finish (runSpevict w s)

/-- The page of any own or window address: 0x09, 0x0A as a touch gives them (R172). -/
def State.anyPage (s : State) (sva : Nat) (write : Bool) : Except Halt (Owner × Nat × Bool) :=
  match s.locate sva with
  | .cause c w => .error (pageTrap c sva (stageOf w) write s)
  | .own o x w =>
    let e := (s.spadOf o).entry (x / 4096)
    if !sptV e || (o.isSome && !sptShared e) then .error (pageTrap 0x09 sva (stageOf w) write s)
    else if s.lostPeer o then .error (pageTrap 0x0A sva (stageOf w) write s)
    else .ok (o, x / 4096, w)

/-- SPFETCH: the hint never faults for want of a page. -/
def runSpfetch (w : RForm) (s : State) : Res :=
  sSlot w.p [] [] s fun s => do
    let sva := (s.core.rdA w.a.toNat).toNat
    let (o, pg, win) ← s.anyPage sva false
    if w.f = 0 then do
      s.pageNow sva o pg win
      return s
    else match s.pageIn o pg with
      | .done t => return t
      | .noVictim t => return t
      | .fault _ _ t => return t
def execSpfetch (w : RForm) (s : State) : Out := finish (runSpfetch w s)

/-- Stash pages of the group. -/
def Spad.stashPages (sp : Spad) : List Nat := (sp.spt.filter fun e => sptV e.2 && sptRes e.2 && sptStash e.2).map (·.1)
/-- Write back every listed page. -/
def State.spillAll (s : State) (o : Owner) : List Nat → Res
  | [] => .ok s
  | pg :: r => do
    let t ← s.spill (pg * 4096) o pg
    t.spillAll o r
/-- STFLUSH (R185). -/
def runStflush (w : RForm) (s : State) : Res :=
  sSlot w.p [] [] s fun s => do
    if w.f = 1 then s.spillAll none s.spad.stashPages
    else
      let sva := (s.core.rdA w.a.toNat).toNat
      let (o, pg, _) ← s.anyPage sva true
      let e := (s.spadOf o).entry pg
      if sptRes e && sptStash e then s.spill sva o pg else return s
def execStflush (w : RForm) (s : State) : Out := finish (runStflush w s)

/-! ### Blocks that the S slot reads (R149, R311, R313) -/

/-- Read `n` 64-byte lines from an aligned SVA, as LDS does: touches, chases, page by page. -/
def State.readLinesOf (s : State) (all : List Nat) (sva : Nat) : Nat → Except Halt (List (BitVec 8) × State)
  | 0 => .ok ([], s)
  | n + 1 => do
    let p ← s.coreTouch 0 sva false all
    s.coreChase sva 64
    let (bs, t) ← (s.stampPage p).readLinesOf all (sva + 64) n
    return ((s.placeRd p 64).1 ++ bs, t)
/-- All of them are needed by the one access (R174). -/
def State.readLines (s : State) (sva n : Nat) : Except Halt (List (BitVec 8) × State) :=
  s.readLinesOf ((List.range n).map fun k => sva + 64 * k) sva n

/-- A field of little-endian bytes. -/
def leAt (bs : List (BitVec 8)) (off n : Nat) : Nat := leNat ((bs.drop off).take n)

/-- A refusal of SPAN, CURVELD or BMAPLD: 0x21 with the word, the reason and a[SA] (R149). -/
def spanFail (w : BitVec 32) (k : Nat) (sva : Nat) (s : State) : Halt :=
  .trap 6 0x21 (BitVec.ofNat 64 (w.toNat * 2 ^ 32 + k * 2 ^ 28 + sva % 2 ^ 28)) noStage s

/-- The descriptor that a block's bytes spell, [3:0] of its control halfword cleared. -/
def parseSpan (bs : List (BitVec 8)) : Desc :=
  let w0 := leAt bs 0 8
  let w1 := leAt bs 8 2
  { peer := w0 / 2 ^ 56, base := w0 % 2 ^ 56, etype := BitVec.ofNat 4 (w1 / 2 ^ 12), rank := w1 / 2 ^ 9 % 8
    space := w1 / 2 ^ 7 % 4
    strides := (List.range 6).map fun n => intOf true 40 (leAt bs (10 + 5 * n) 5)
    extents := (List.range 6).map fun n => leAt bs (40 + 4 * n) 4 }

/-- Packing and alignment (R54, R149, R150). -/
def Desc.aligned (d : Desc) : Bool :=
  if d.packed then
    let g := groupBytes d.bits
    d.dims.headD 0 % groupElems d.bits == 0 && d.strs.headD 0 == 0 && d.strs.tail.all fun st => st % (g : Int) == 0
  else
    let w := d.bits / 8
    d.base % w == 0 && d.strs.all fun st => st % (w : Int) == 0

/-- The span's bytes lie inside one buffer of the plan, in own addresses. -/
def inBuffer (plan : List Buffer) (lo hi : Int) : Bool :=
  plan.any fun b => decide (((b.first * 4096 : Nat) : Int) ≤ lo) && decide (hi < (((b.first + b.pages) * 4096 : Nat) : Int))

/-- The bounds of R149: RP and WP, or none where they fail. -/
def Core.spanBounds (c : Core) (d : Desc) : Option (Bool × Bool) :=
  let lo := d.lo
  let hi := d.hi
  match d.space with
  | 0 => if decide (hi < 0x8000000) && inBuffer c.plan lo hi then some (true, true) else none
  | 1 =>
    let p := lo.toNat / 2 ^ 24
    let base : Int := ((p * 2 ^ 24 : Nat) : Int)
    if decide (0x8000000 ≤ lo) && decide (hi < 0x10000000) && decide (p % 8 < c.gsize)
        && decide (hi < base + 2 ^ 24) && inBuffer c.plan (lo - base) (hi - base) then some (true, true) else none
  | 2 =>
    if lo < 0 then none
    else match findRange c.rg lo.toNat 16 0 with
      | none => none
      | some n =>
        let r : Range := sget {} c.rg n
        let lower := c.rg.any fun e => decide (e.1 < n) && e.2.valid && decide ((e.2.base : Int) ≤ hi) && decide (lo ≤ e.2.limit)
        if decide (hi ≤ r.limit) && !lower then some (r.r, r.w) else none
  | _ => some (true, true)

/-- The reason that refuses a block, in the order of R149; none where it is a span. -/
def Core.spanReason (c : Core) (bs : List (BitVec 8)) (d : Desc) : Option Nat :=
  if leAt bs 8 2 / 16 % 8 != 0 || (d.space != 3 && d.peer != 0) || (d.space ≤ 1 && 2 ^ 28 ≤ d.base) then some 1
  else if d.rank = 0 || 6 < d.rank then some 3
  else if (d.extents.drop d.rank).any (fun e => e != 0) || (d.strides.drop d.rank).any (fun e => e != 0) then some 7
  else if d.dims.any (fun e => e == 0) then some 2
  else if !d.aligned then some 4
  else if (c.spanBounds d).isNone then some 6
  else none

/-- SPAN (R149, R150). -/
def runSpan (w : RForm) (s : State) : Res :=
  sSlot w.p [] [] s fun s => do
    let word := sWord (.span w)
    let sva := (s.core.rdA w.a.toNat).toNat
    if sva % 64 ≠ 0 then .error (spanFail word 5 sva s)
    else
      let (bs, t) ← s.readLines sva 1
      let d := parseSpan bs
      match s.core.spanReason bs d with
      | some k => .error (spanFail word k sva s)
      | none =>
        let p := (s.core.spanBounds d).getD (false, false)
        return t.onCore fun c => c.wrD w.d.toNat { d with valid := true, inj := d.injTest, rp := p.1, wp := p.2 }
def execSpan (w : RForm) (s : State) : Out := finish (runSpan w s)

/-- A queued or running MMAD names curve K in its captured branch map (R135). -/
def Eng.curveBusy (e : Eng) (k : Nat) : Bool :=
  e.mq.any fun c => c.bmap.any fun w => w.getLsbD 31 && (w.extractLsb' 20 4).toNat == k
/-- Finite. -/
def Val.finite (v : Val) : Bool := !v.isNaN && !v.isInf
/-- The reason that refuses a curve block (R311). -/
def curveReason (bs : List (BitVec 8)) : Option Nat :=
  let lo := fp32.val (leAt bs 0 4)
  let iw := fp32.val (leAt bs 4 4)
  if !Val.finite lo || !Val.finite iw || !((Val.zero false).lt iw) then some 8
  else if leAt bs 8 4 / 2 != 0 || leAt bs 12 52 != 0 then some 9
  else none
/-- The curve of a block (R311). -/
def parseCurve (bs : List (BitVec 8)) : Curve :=
  { lo := BitVec.ofNat 32 (leAt bs 0 4), invw := BitVec.ofNat 32 (leAt bs 4 4), clamp := leAt bs 8 4 % 2 == 1
    segs := (List.range 64).map fun i => (BitVec.ofNat 32 (leAt bs (64 + 8 * i) 4), BitVec.ofNat 32 (leAt bs (68 + 8 * i) 4)) }
/-- CURVELD (R311). -/
def runCurveld (w : RForm) (s : State) : Res :=
  sSlot w.p [] [] s fun s => do
    let word := sWord (.curveld w)
    let sva := (s.core.rdA w.a.toNat).toNat
    if s.eng.curveBusy w.d.toNat then .error (.stall 6 .other s)
    else if sva % 64 ≠ 0 then .error (spanFail word 5 sva s)
    else
      let (bs, t) ← s.readLines sva 9
      match curveReason bs with
      | some k => .error (spanFail word k sva s)
      | none => return t.onCore fun c => { c with curve := sset {} c.curve w.d.toNat (parseCurve bs) }
def execCurveld (w : RForm) (s : State) : Out := finish (runCurveld w s)

/-- Words of a branch map. -/
def parseMap (bs : List (BitVec 8)) : List (BitVec 32) := (List.range 16).map fun b => BitVec.ofNat 32 (leAt bs (4 * b) 4)
/-- LAST of a word. -/
def mapLast (w : BitVec 32) : Nat := (w.extractLsb' 0 17).toNat
/-- The words are well formed (R312, R313): V contiguous from word 0, LAST rising and at most 65,535, zero fields zero. -/
def mapOk : List (BitVec 32) → Option Nat → Bool
  | [], _ => true
  | w :: r, last =>
    if w.getLsbD 31 then
      w.extractLsb' 24 7 == 0 && w.extractLsb' 17 3 == 0 && decide (mapLast w ≤ 65535)
        && (match last with | none => true | some l => decide (l < mapLast w)) && mapOk r (some (mapLast w))
    else w.extractLsb' 24 7 == 0 && w.extractLsb' 17 3 == 0 && r.all fun x =>
      !x.getLsbD 31 && x.extractLsb' 24 7 == 0 && x.extractLsb' 17 3 == 0
/-- BMAPLD (R313). -/
def runBmapld (w : RForm) (s : State) : Res :=
  sSlot w.p [] [] s fun s => do
    let word := sWord (.bmapld w)
    let sva := (s.core.rdA w.a.toNat).toNat
    if sva % 64 ≠ 0 then .error (spanFail word 5 sva s)
    else
      let (bs, t) ← s.readLines sva 1
      let m := parseMap bs
      if (m.headD 0).getLsbD 31 && mapOk m none then
        return t.onCore fun c => { c with bmap := sset none c.bmap w.d.toNat (some m) }
      else .error (spanFail word 10 sva s)
def execBmapld (w : RForm) (s : State) : Out := finish (runBmapld w s)

end Sys2Proof.Machine
end

