-- ==== Sys2Proof/Machine/SFront.lean ====
section
/-! DEFINITION. The S slot's front and barrier instructions: FWAIT, FSTAT, FPUB, FRESET, BARINIT, BARADD, BARWAIT, AMAXRD
(R325, R331 to R338, R340). -/

namespace Sys2Proof.Machine

/-! ### Fronts by name -/

/-- The owner that a CHP field names (R248, R325): a position at or above GANG.SIZE raises 0x02, a dead peer in a
separate fault domain 0x0A. -/
def State.chpOwner (s : State) (w : BitVec 64) (chp n : Nat) : Except Halt Owner :=
  if chp < 8 then .ok none
  else
    let p := chp - 8
    if s.core.gsize ≤ p then .error (.trap 4 0x02 w noStage s)
    else if p = s.core.gpos then .ok none
    else
      if s.lostPeer (some p) then .error (.trap 7 0x0A (BitVec.ofNat 64 (p * 256 + n)) ⟨0, false, false, 5⟩ s) else .ok (some p)

/-- A peer position at or above GANG.SIZE, which decode finds (R325, R414 step 4). -/
def Core.badPeer (c : Core) (chp : Nat) : Bool := decide (8 ≤ chp) && decide (c.gsize ≤ chp - 8)
/-- A slot with a true guard that names such a peer raises 0x02 before its registers are waited for. -/
def State.peerChecked (s : State) (p : BitVec 4) (w : BitVec 32) (chp : Nat) (run : Res) : Res :=
  if s.core.rdP p.toNat && s.core.badPeer chp then .error (.trap 4 0x02 (w.zeroExtend 64) noStage s) else run

/-- The wait of the front form of FWAIT and AMAXRD for a count (R333): it follows the binding at which it began to wait, whose end the
core keeps. -/
def State.waitFront (s : State) (o : Owner) (n : Nat) (count : Nat) : Except Halt Unit :=
  let f := s.frontOf o n
  let mine := s.core.waitOn == some (o, n)
  if mine && s.core.waitBroken then .error (.trap 7 0x19 (s.frontTval o n) noStage s)
  else if mine && s.core.waitDone then .ok ()
  else match f.state with
  | .complete => .ok ()
  | .idle => .error (.trap 7 0x1A (s.frontTval o n) noStage s)
  | .broken => .error (.trap 7 0x19 (s.frontTval o n) noStage s)
  | _ => if count ≤ f.value then .ok () else .error (.stall 7 (.chase o n count) s)

/-- FWAIT, front form (R333). -/
def runFwait (w : RForm) (s : State) : Res :=
  s.peerChecked w.p (sWord (.fwait w)) w.a.toNat <| sSlot w.p [w.b.toNat] [] s fun s => do
    let o ← s.chpOwner ((sWord (.fwait w)).zeroExtend 64) w.a.toNat w.d.toNat
    s.waitFront o w.d.toNat (s.core.rdS w.b.toNat).toNat
    return s
def execFwait (w : RForm) (s : State) : Out := finish (runFwait w s)

/-- Reach the bytes of an IA for a waiting bundle; a fault of the walk is precise, or makes a record (R196). -/
def State.preciseReach (s : State) (rank va ia : Nat) (need : Perm) (write : Bool) : Except Halt (Nat × State) :=
  match s.reach s.core.s1root s.core.die ia need with
  | (.pa a, t) => .ok (a, t)
  | (.fault f, t) => .error (t.preciseWalk rank 0 va write ia f)
/-- A precise read of an aligned word of global memory by a waiting bundle (R333, R337). -/
def State.preciseRead (s : State) (rank va n : Nat) (need : Perm) (write : Bool) : Except Halt (List (BitVec 8) × Bool × State) :=
  match s.memRead va n need with
  | (.ok bs bad, t) => .ok (bs, bad, t)
  | (.core c, t) => .error (.trap 6 c (BitVec.ofNat 64 va) (sStage write 1) t)
  | (.mem ia f, t) => .error (t.preciseWalk rank 0 va write ia f)

/-- The mirror word satisfies the wait (R332, R333). -/
def mirrorDone (x : BitVec 64) (n : Nat) : Bool :=
  let st := x.toNat / 2 ^ 61
  st == 3 || st == 4 || decide (n ≤ x.toNat % 2 ^ 48)
/-- FWAIT, memory form (R333, R357). -/
def runFwaitMemory (w : XForm) (s : State) : Res :=
  sSlot w.p [w.a.toNat, w.b.toNat] [w.d.toNat] s fun s => do
    let va := (s.core.rdS w.a.toNat).toNat
    if va % 8 ≠ 0 then illegal (sWord (.fwaitMemory w)) s
    else
      let (bs, bad, t) ← s.preciseRead 6 va 8 needR false
      let x := BitVec.ofNat 64 (leNat bs)
      if bad then .error (.trap 6 0x30 (BitVec.ofNat 64 va) noStage s)
      else if mirrorDone x (s.core.rdS w.b.toNat).toNat then return t.onCore fun c => c.wrS w.d.toNat x
      else .error (.stall 6 .other s)
def execFwaitMemory (w : XForm) (s : State) : Out := finish (runFwaitMemory w s)

/-- FSTAT (R334). -/
def runFstat (w : RForm) (s : State) : Res :=
  s.peerChecked w.p (sWord (.fstat w)) w.a.toNat <| sSlot w.p [] [w.d.toNat] s fun s => do
    let o ← if w.a.toNat < 8 || s.core.gsize ≤ w.a.toNat - 8 then
        s.chpOwner ((sWord (.fstat w)).zeroExtend 64) w.a.toNat w.b.toNat
      else .ok (if w.a.toNat - 8 = s.core.gpos then none else some (w.a.toNat - 8))
    let f := s.frontOf o w.b.toNat
    let x : BitVec 64 := match w.f.toNat with
      | 0 => f.word0
      | 1 => BitVec.ofNat 64 (f.word1.toNat % 2 ^ 48)
      | _ => f.word1
    return s.onCore fun c => c.wrS w.d.toNat x
def execFstat (w : RForm) (s : State) : Out := finish (runFstat w s)

/-! ### Publication and reset -/

/-- Write the mirror of front n once the write before it is performed; a memory-side fault goes to the fault queue, and the front goes
on (R332). -/
def State.publish (s : State) (n : Nat) : State :=
  if (s.front n).mwait.isSome then s
  else match s.mirror n with
    | (none, t) => t
    | (some (ia, f), t) =>
      if f.stage = 1 then t
      else
        let r := t.postWalk f (t.front n).agent true ia (.mirror n)
        r.2.setFront n { r.2.front n with mwait := r.1 }
/-- The fault that a mirror write waited on is resolved: the front's state as it then stands is written, unless the front has been bound
again since (R318, R332). -/
def State.republish (s : State) (n id : Nat) : State :=
  if (s.front n).mwait == some id then (s.setFront n { s.front n with mwait := none }).publish n else s
/-- Write the mirror when the front is published. -/
def State.publishIf (s : State) (n : Nat) : State := if (s.front n).pub then s.publish n else s

/-- FPUB (R331). -/
def runFpub (w : XForm) (s : State) : Res :=
  sSlot w.p (if w.pubOff then [] else [w.a.toNat]) [] s fun s => do
    let n := w.d.toNat
    let f := s.front n
    if w.pubOff then
      if f.state == .idle then .error (.trap 6 0x1A (s.frontTval none n) noStage s) else return s.setFront n { f with pub := false }
    else
      let va := (s.core.rdS w.a.toNat).toNat
      if va % 8 ≠ 0 then illegal (sWord (.fpub w)) s
      else
        let _ ← s.preciseTr va needW true
        if f.state == .idle then .error (.trap 6 0x1A (s.frontTval none n) noStage s)
        else
          let ended := f.state == .complete || f.state == .broken
          return (s.setFront n
            { f with pub := !ended, pva := va, pscope := w.pubScope.toNat, pgran := w.pubGran.toNat }).publish n
def execFpub (w : XForm) (s : State) : Out := finish (runFpub w s)

/-- FRESET (R335). -/
def runFreset (w : RForm) (s : State) : Res :=
  sSlot w.p [] [] s fun s =>
    let n := w.d.toNat
    let f := s.front n
    if f.state == .running || f.state == .halted then .ok ((s.onEng fun e => e.cancelAll fun c => c.front == some n).breakFront n 10)
    else .ok ((s.untag n).setFront n { (s.untag n).front n with state := .idle, cause := 0, pub := false, span := none })
def execFreset (w : RForm) (s : State) : Out := finish (runFreset w s)

/-! ### Barriers (R336 to R338) -/

/-- Where a barrier lies: a place of the scratchpad, or a VA. -/
inductive BarAt where
  | spad (p : Place) (sva : Nat) | mem (va : Nat)

/-- The address that a barrier instruction names. -/
def State.barVa (s : State) (w : RForm) : Nat := if w.f = 0 then (s.core.rdA w.a.toNat).toNat else (s.core.rdS w.a.toNat).toNat
/-- The barrier that a barrier instruction names. -/
def State.barAt (s : State) (w : RForm) (word : BitVec 32) (write : Bool) : Except Halt BarAt := do
  let a := s.barVa w
  if a % 16 ≠ 0 then .error (.trap 6 0x02 (word.zeroExtend 64) noStage s)
  else if w.f = 0 then do
    let p ← s.coreTouch 0 a write
    return .spad p a
  else do
    let _ ← s.preciseTr a needRW true
    return .mem a

/-- EXPECT and ARRIVED. -/
def State.barRead (s : State) (b : BarAt) : Except Halt (Nat × Nat × State) :=
  match b with
  | .spad p _ => let bs := (s.placeRd p 16).1; .ok (leAt bs 0 8, leAt bs 8 8, s.stampPage p)
  | .mem va => do
    let (bs, _, t) ← s.preciseRead 10 va 16 needRW true
    return (leAt bs 0 8, leAt bs 8 8, t)
/-- Write both words. -/
def State.barWrite (s : State) (b : BarAt) (expect arrived : Nat) : Res :=
  let bs := leBytes 8 expect ++ leBytes 8 arrived
  match b with
  | .spad p _ => .ok ((s.placeWr p bs false).stampPage p)
  | .mem va => match s.core.translate va needRW with
    | .cause c => .error (.trap 6 c (BitVec.ofNat 64 va) (sStage true 1) s)
    | .ia ia => match s.reach s.core.s1root s.core.die ia needRW with
      | (.fault f, t) => .error (t.preciseWalk 10 0 va true ia f)
      | (.pa a, t) => .ok ((t.recallOwn (lineOf ia) true).onMem fun m => m.wrN a bs)
/-- Its scope, and its address as TVAL has it. -/
def BarAt.scope : BarAt → BitVec 3 | .spad _ _ => 1 | .mem _ => 3
def BarAt.addr : BarAt → Nat | .spad _ a => a | .mem a => a
/-- Registers that name a barrier. -/
def RForm.barRegs (w : RForm) : List Nat := if w.f = 1 then [w.a.toNat] else []

/-- BARINIT. -/
def runBarinit (w : RForm) (s : State) : Res :=
  sSlot w.p (RForm.barRegs w ++ [w.b.toNat]) [] s fun s => do
    let s ← s.ordered
    let b ← s.barAt w (sWord (.barinit w)) true
    let t ← s.barWrite b (s.core.rdS w.b.toNat).toNat 0
    return t.relScope b.scope
def execBarinit (w : RForm) (s : State) : Out := finish (runBarinit w s)

/-- BARADD: a sum that passes EXPECT, or wraps, is not performed and raises 0x22. -/
def runBaradd (w : RForm) (s : State) : Res :=
  sSlot w.p (RForm.barRegs w ++ [w.b.toNat]) [w.d.toNat] s fun s => do
    let s ← s.ordered
    let b ← s.barAt w (sWord (.baradd w)) true
    let (e, r, t) ← s.barRead b
    let n := r + (s.core.rdS w.b.toNat).toNat
    if e < n || 2 ^ 64 ≤ n then .error (.trap 10 0x22 (BitVec.ofNat 64 b.addr) noStage s)
    else do
      let t ← t.barWrite b e n
      return (t.relScope b.scope).onCore fun c => c.wrS w.d.toNat (BitVec.ofNat 64 n)
def execBaradd (w : RForm) (s : State) : Out := finish (runBaradd w s)

/-- BARWAIT: open at some moment since the bundle began to wait, it stays satisfied (R337, R338). -/
def runBarwait (w : RForm) (s : State) : Res :=
  sSlot w.p (RForm.barRegs w) [] s fun s => do
    let b ← s.barAt w (sWord (.barwait w)) false
    let (e, r, t) ← s.barRead b
    if e = r || s.core.barMet then return t
    else .error (.stall 7 .other (s.onCore fun c => { c with waitBar := some (w.f != 0, s.barVa w) }))
def execBarwait (w : RForm) (s : State) : Out := finish (runBarwait w s)

/-! ### AMAXRD (R340) -/

def Eng.rdAmax (e : Eng) (k : Nat) : BitVec 32 := sget 0 e.amax k
/-- AMAXRD: the register as it stands, which while a drain runs is the maximum over a prefix of its elements. -/
def runAmaxrd (w : RForm) (s : State) : Res :=
  sSlot w.p [] [w.d.toNat] s fun s =>
    .ok (s.onCore fun c => c.wrS w.d.toNat ((s.eng.rdAmax w.a.toNat).zeroExtend 64))
def execAmaxrd (w : RForm) (s : State) : Out := finish (runAmaxrd w s)
/-- AMAXRD after the wait for an own front. -/
def runAmaxrdFront (w : XForm) (s : State) : Res :=
  sSlot w.p [w.b.toNat] [w.d.toNat] s fun s => do
    s.waitFront none (w.ext.toNat % 64) (s.core.rdS w.b.toNat).toNat
    return s.onCore fun c => c.wrS w.d.toNat ((s.eng.rdAmax w.a.toNat).zeroExtend 64)
def execAmaxrdFront (w : XForm) (s : State) : Out := finish (runAmaxrdFront w s)

end Sys2Proof.Machine
end

