-- ==== Sys2Proof/Machine/SWork.lean ====
section
/-! DEFINITION. The S slot's work instructions: QPOST, QTAKE, SPAWN, SIGNAL, EVWAIT, MWAIT (R279, R283 to R292). -/

namespace Sys2Proof.Machine

/-! ### Task queues (R283, R284) -/

/-- Insert by key, after equals. -/
def insertTask (t : Task) : List Task → List Task
  | [] => [t]
  | q :: r => if t.key < q.key then t :: q :: r else q :: insertTask t r
/-- Post an entry: the largest key of a full queue goes to the overflow. -/
def postTask (res spill : List Task) (t : Task) : List Task × List Task :=
  let l := insertTask t res
  if l.length ≤ residentMax then (l, spill)
  else (l.take residentMax, (l.drop residentMax).foldl (fun o x => insertTask x o) spill)
/-- Remove entry k and refill from the overflow. -/
def takeTask (res spill : List Task) (k : Nat) : List Task × List Task :=
  let l := res.eraseIdx k
  match spill with
  | o :: r => if l.length < residentMax then (insertTask o l, r) else (l, spill)
  | [] => (l, [])
/-- The group's partition owns queue QN (R283). -/
def State.ownsQueue (s : State) (qn : Nat) : Bool := (s.part s.core.partNo).clusters.contains qn
/-- 0x13 of QPOST and QTAKE. -/
def queuePerm (x : BitVec 64) (s : State) : Halt := .trap 6 0x13 x noStage s

/-- Entries in the overflow region of a partition (R283). -/
def State.overflowOf (s : State) (part : Nat) : Nat := ((s.part part).clusters.map fun q => (sget [] s.sys.overflow q).length).sum
/-- QPOST (R285). -/
def runQpost (w : RForm) (s : State) : Res :=
  sSlot w.p [w.a.toNat, w.b.toNat] [] s fun s => do
    let x := s.core.rdS w.a.toNat
    let qn := (x.extractLsb' 56 7).toNat
    if !s.ownsQueue qn then .error (queuePerm x s)
    else do
      let s ← s.ordered
      let res := sget [] s.sys.queues qn
      let spill := sget [] s.sys.overflow qn
      if residentMax ≤ res.length && decide (Config.overflowCap ≤ s.overflowOf s.core.partNo) then .error (.stall 6 .other s)
      else
        let t : Task := ⟨s.core.rqtag, (x.extractLsb' 0 48).toNat, s.core.rdS w.b.toNat, s.core.node.toNat⟩
        let r := postTask res spill t
        return (s.relScope 3).onSys fun y =>
          { y with queues := sset [] y.queues qn r.1, overflow := sset [] y.overflow qn r.2 }
def execQpost (w : RForm) (s : State) : Out := finish (runQpost w s)

/-- QTAKE (R284, R286): one of the 16 smallest keys. -/
def runQtake (w : RForm) (s : State) : Res :=
  sSlot w.p [w.a.toNat] [w.d.toNat, w.b.toNat] s fun s =>
    let x := s.core.rdS w.a.toNat
    let qn := (x.extractLsb' 0 7).toNat
    if !s.ownsQueue qn then .error (queuePerm x s)
    else
      let res := sget [] s.sys.queues qn
      let spill := sget [] s.sys.overflow qn
      match res with
      | [] =>
        if w.f = 0 then .error (.stall 6 .other (s.setWaiting (some (true, qn))))
        else .ok (s.onCore fun c => (c.wrS w.d.toNat 0).wrS w.b.toNat (BitVec.allOnes 64))
      | [t] => .ok (take s qn (takeTask res spill 0) t)
      | t :: _ =>
        let k := Config.pick s.free % (if res.length < 16 then res.length else 16)
        .ok (take s.draw qn (takeTask res spill k) (res.getD k t))
where
  take (s : State) (qn : Nat) (r : List Task × List Task) (t : Task) : State :=
    (s.onSys fun y => { y with queues := sset [] y.queues qn r.1, overflow := sset [] y.overflow qn r.2 }).onCore fun c =>
      (c.wrS w.d.toNat t.payload).wrS w.b.toNat (BitVec.ofNat 64 (t.tag.toNat * 2 ^ 48 + t.key))
def execQtake (w : RForm) (s : State) : Out := finish (runQtake w s)

/-! ### Nodes and events -/

/-- Link the block with the VA `block`, which lies at machine address `pa`, at the head of a node's child list (R287): true when it is
linked. -/
def State.link (s : State) (part node block pa : Nat) : Bool × State :=
  if s.nodeState part node = stKilled || (s.mem.rd64 (pa + 8)).toNat % 2 ^ 56 ≠ node || block % 256 ≠ 0 then (false, s)
  else match s.ctlPa part (node + 0x10) needRW with
    | (none, s) => (false, s)
    | (some _, s) =>
      let first := s.nodeWord part node 0x10
      let s := s.onMem fun m => m.wr64 (pa + 0x18) first
      (true, (s.ctlWr part (node + 0x10) (BitVec.ofNat 64 block)).due part)
/-- SPAWN. -/
def runSpawn (w : RForm) (s : State) : Res :=
  sSlot w.p [w.a.toNat] [w.d.toNat] s fun s => do
    let s ← s.ordered
    let va := (s.core.rdS w.a.toNat).toNat
    let ia ← s.preciseTr va needRW true
    let (a, t) ← s.preciseReach 6 va ia needRW true
    let r := (t.relScope 3).link t.core.partNo t.core.node.toNat va a
    return r.2.onCore fun c => c.wrS w.d.toNat (if r.1 then 1 else 0)
def execSpawn (w : RForm) (s : State) : Out := finish (runSpawn w s)

/-- SIGNAL (R288). -/
def runSignal (w : RForm) (s : State) : Res :=
  sSlot w.p (if w.f = 1 then [w.a.toNat, w.b.toNat] else [w.a.toNat]) [] s fun s => do
    let s ← s.ordered
    let va := evAddr (s.core.rdS w.a.toNat).toNat
    let cls := if w.f = 1 then (s.core.rdS w.b.toNat).toNat % 16 else 0
    let _ ← s.preciseTr va needW true
    return (s.relScope 4).startParked { va := va, size := 64, data := 0, op := .signal cls, cause := 0, stage := sStage true 0 }
def execSignal (w : RForm) (s : State) : Out := finish (runSignal w s)

/-- EVWAIT (R289). -/
def runEvwait (w : RForm) (s : State) : Res :=
  sSlot w.p [w.a.toNat] [w.d.toNat] s fun s => do
    let va := evAddr (s.core.rdS w.a.toNat).toNat
    let ia ← s.preciseTr va needR false
    let (a, t) ← s.preciseReach 6 va ia needR false
    let t := t.namePa t.core.partNo ia a
    let x := t.mem.rd64 (a + 8)
    if x.extractLsb' 0 2 != 0 then return t.onCore fun c => c.wrS w.d.toNat x
    else .error (.stall 6 .other (s.setWaiting (some (false, ia % 2 ^ 47))))
def execEvwait (w : RForm) (s : State) : Out := finish (runEvwait w s)

/-- MWAIT (R291): every M command of earlier bundles has completed. -/
def runMwait (w : RForm) (s : State) : Res :=
  sSlot w.p [] [] s fun s => if s.core.drained s.eng.mq then .ok s else .error (.stall 6 .other s)
def execMwait (w : RForm) (s : State) : Out := finish (runMwait w s)

end Sys2Proof.Machine
end

