-- ==== Sys2Proof/Machine/SCtl.lean ====
section
/-! DEFINITION. The S slot's control instructions: RDCNT, RDCAUSE, RDCTL, WRCTL (R151 to R154, R163 to R165). -/

namespace Sys2Proof.Machine

/-- STATUS (R152). -/
def Core.status (c : Core) : BitVec 64 :=
  let t := c.tstate
  let owed := match t with | some x => x.owed | none => 0
  let loops := match t with | some x => x.loop.isSome | none => false
  let xfer := match t with | some x => x.xfer.isSome | none => false
  BitVec.ofNat 64 (owed % 128 * 2 ^ 10 + (if loops then 2 ^ 9 else 0) + (if xfer then 2 ^ 8 else 0)
    + (if c.parkedReal.isEmpty then 0 else 2 ^ 7) + (if c.clk then 2 else 0) + (if c.lvl then 1 else 0))

/-- The value of a control register, by number (R151); a read of RETIRED counts its own issue (R164). GB48 to GB63 are the
group bank. -/
def Core.ctl (c : Core) (n : Nat) : BitVec 64 :=
  match n with
  | 0x00 => c.status
  | 0x01 => c.cause
  | 0x02 => c.tval
  | 0x03 => c.tstage
  | 0x04 => c.tpc.zeroExtend 64
  | 0x05 => c.thb.zeroExtend 64
  | 0x06 => BitVec.ofNat 64 c.vwa
  | 0x07 => BitVec.ofNat 64 c.vwb
  | 0x08 => c.vrm
  | 0x09 => c.seed
  | 0x0A => c.qmode.zeroExtend 64
  | 0x0B => BitVec.ofNat 64 c.rbound
  | 0x0C => c.chaselim.zeroExtend 64
  | 0x0D => c.group
  | 0x0E => c.gang
  | 0x0F => c.node
  | 0x10 => c.args
  | 0x11 => c.rqtag.zeroExtend 64
  | 0x12 => c.part.zeroExtend 64
  | 0x13 => c.cycle
  | 0x14 => c.retired + 1
  | k => if 0x30 ≤ k then sget 0 c.s (48 + (k - 0x30)) else 0

/-- Numbers whose access is privileged at a level (R151). -/
def Core.ctlPriv (c : Core) (n : Nat) : Bool := n == 0x15 || (decide (0x30 ≤ n) && !c.lvl)

/-- RDCTL. -/
def runRdctl (w : RForm) (s : State) : Res :=
  if s.core.rdP w.p.toNat && s.core.ctlPriv w.a.toNat then privileged (sWord (.rdctl w)) s
  else sSlot w.p [] [w.d.toNat] s fun s => .ok (s.onCore fun c => c.wrS w.d.toNat (c.ctl w.a.toNat))
def execRdctl (w : RForm) (s : State) : Out := finish (runRdctl w s)

/-- A value that R153 and R96 forbid. -/
def Core.ctlBad (c : Core) (n : Nat) (v : BitVec 64) : Bool :=
  match n with
  | 0x04 => c.lvl && v.extractLsb' 0 2 != 0
  | 0x05 => v.getLsbD 1
  | 0x08 => !vrmOk v
  | 0x0B => v == 0 || decide (65536 < v.toNat)
  | 0x0C => decide (v.toNat % 2 ^ 32 < 1024)
  | _ => false

/-- The effect of WRCTL: read-only registers ignore it (R151, R154). -/
def Core.setCtl (c : Core) (n : Nat) (v : BitVec 64) : Core :=
  match n with
  | 0x04 => if c.lvl then { c with tpc := v.extractLsb' 0 32, tstate := c.tstate.map fun t => { t with owed := 0 } } else c
  | 0x05 => { c with thb := v.extractLsb' 0 32 }
  | 0x06 => c.setBase 0 v.toNat
  | 0x07 => c.setBase 1 v.toNat
  | 0x08 => { c with vrm := vrmClean v }
  | 0x09 => { c with seed := v, srcnt := 0 }
  | 0x0A => { c with qmode := v.extractLsb' 0 2 }
  | 0x0B => { c with rbound := v.toNat }
  | 0x0C => { c with chaselim := v.extractLsb' 0 32 }
  | k => if 0x30 ≤ k then c.wrIdx (48 + (k - 0x30)) v else c

/-- WRCTL. -/
def runWrctl (w : RForm) (s : State) : Res :=
  if s.core.rdP w.p.toNat && s.core.ctlPriv w.d.toNat then privileged (sWord (.wrctl w)) s
  else sSlot w.p [w.a.toNat] [] s fun s =>
    let v := s.core.rdS w.a.toNat
    if s.core.ctlBad w.d.toNat v then illegal (sWord (.wrctl w)) s
    else .ok (s.onCore fun c => c.setCtl w.d.toNat v)
def execWrctl (w : RForm) (s : State) : Out := finish (runWrctl w s)

/-- RDCAUSE (R163). -/
def runRdcause (w : RForm) (s : State) : Res :=
  if s.core.rdP w.p.toNat && !s.core.lvl then privileged (sWord (.rdcause w)) s
  else sSlot w.p [] [w.d.toNat] s fun s => .ok (s.onCore fun c => { c.wrS w.d.toNat c.cause with clk := false })
def execRdcause (w : RForm) (s : State) : Out := finish (runRdcause w s)

/-- RDCNT (R165, R339): counters 1 and 2 count its own issue. -/
def runRdcnt (w : RForm) (s : State) : Res :=
  sSlot w.p [] [w.d.toNat] s fun s =>
    let k := w.a.toNat
    .ok (s.onCore fun c => c.wrS w.d.toNat (c.rdCnt k + (if k = 1 ∨ k = 2 then 1 else 0)))
def execRdcnt (w : RForm) (s : State) : Out := finish (runRdcnt w s)

end Sys2Proof.Machine
end

