-- ==== Sys2Proof/Machine/VAlu.lean ====
section
/-! DEFINITION. The register-form instructions of the V slots (R100 to R114). `pre` is the state at the start of the issue:
names, masks, scalars and address registers are read there; curves, SEED and VRM.RM as the S slot leaves them. -/

namespace Sys2Proof.Machine

/-! ### Shapes -/

def lanes : List Nat := List.range 64
/-- The V word of an instruction. -/
def vWord (i : Instr) : BitVec 32 := sWord i
/-- Per lane: an encoding and its flags. -/
abbrev LaneR := Nat × Fl

/-- A result in flight to a vector register (R97). -/
def vecRec (v : BitVec 1) (cl : BitVec 1) (dest : Nat) (mask : BitVec 64) (rs : List LaneR) (lat : Nat) (word : BitVec 32) : VRec :=
  ⟨.vec, v, cl, dest, mask, rs.map fun r => BitVec.ofNat 32 r.1, 0, rs.map (·.2), lat, word, none, 0⟩

/-- A result joins those in flight. -/
def State.fly (s : State) (r : VRec) : State := s.onCore fun c => { c with vfly := c.vfly ++ [r] }

/-- Lane-wise: operands x, y and d are read where the mask enables a lane; the result lands after `lat` issue cycles. -/
def vLanes (i : Instr) (w : VForm) (pre s : State) (names : List (BitVec 6)) (lat : Nat)
    (op : Nat → Nat → Nat → Nat → LaneR) : Res := do
  let m := pre.core.vMask w.m
  pre.vRead w.v (fun l => m.getLsbD l) names
  let x := pre.core.vReg w.v w.a
  let y := pre.core.vReg w.v w.b
  let d := pre.core.vReg w.v w.d
  let rs := lanes.map fun l =>
    if m.getLsbD l then op l (lowBits w.t (x.getD l 0)) (lowBits w.t (y.getD l 0)) (lowBits w.t (d.getD l 0)) else (0, 0)
  return s.fly (vecRec w.v w.v (pre.core.vPhys w.v w.d) m rs lat (vWord i))

/-- Format of a V type (R32). -/
def vFmt (t : BitVec 3) : Fmt := fmtOf (vTypeCode t.toNat)
/-- Value of an encoding of a V type. -/
def vVal (t : BitVec 3) (x : Nat) : Val := (vFmt t).val x

/-- A floating-point lane operation (R102): its exact result with the flags it raises, then one Round, in VRM's mode. -/
def fLane (c : Core) (t : BitVec 3) (sat : Bool) (l : Nat) (vs : List Val) (r : Val × Fl) : LaneR :=
  let e := (vFmt t).deliver sat r.1 (c.laneMode c.rm l)
  (e.1, r.2 ||| e.2 ||| sigFlag vs)

/-- After an issue that rounds in VRM's mode. -/
def State.usedRm (s : State) : State := s.onCore fun c => c.useSr c.rm 1

/-- A rounding floating-point instruction. -/
def vFloat (i : Instr) (w : VForm) (pre s : State) (names : List (BitVec 6)) (lat : Nat) (sat : Bool)
    (op : Val → Val → Val → Val × Fl) (use : Nat) : Res := do
  let t ← vLanes i w pre s names lat fun l x y d =>
    let vs := [vVal w.t x, vVal w.t y, vVal w.t d]
    fLane s.core w.t sat l (vs.take use) (op (vVal w.t x) (vVal w.t y) (vVal w.t d))
  return t.usedRm

/-- An integer lane operation: both operands as signed or unsigned, the low w bits of the result. -/
def vInt (i : Instr) (w : VForm) (pre s : State) (names : List (BitVec 6)) (lat : Nat) (signed : Bool)
    (op : Int → Int → Int) : Res :=
  let n := vWidth w.t
  vLanes i w pre s names lat fun _ x y _ => (natOf n (op (intOf signed n x) (intOf signed n y)), 0)

/-- A sum that respects VRM's mode for its zero sign. -/
def vSum (c : Core) (vs : List Val) : Val × Fl := exactSum vs (c.rm == 2)

/-! ### Arithmetic (R102, R103) -/

def runVnop (_pre s : State) : Res := .ok s
def execVnop (_v : BitVec 1) (s : State) : Out := finish (runVnop s s)

def runVadd (w : VForm) (pre s : State) : Res :=
  if isFType w.t then vFloat (.vadd w) w pre s [w.a, w.b] 3 (w.u == 1) (fun x y _ => vSum s.core [x, y]) 2
  else vInt (.vadd w) w pre s [w.a, w.b] 2 true (· + ·)
def execVadd (w : VForm) (s : State) : Out := finish (runVadd w s s)

def runVsub (w : VForm) (pre s : State) : Res :=
  if isFType w.t then vFloat (.vsub w) w pre s [w.a, w.b] 3 (w.u == 1) (fun x y _ => vSum s.core [x, y.neg]) 2
  else vInt (.vsub w) w pre s [w.a, w.b] 2 true (· - ·)
def execVsub (w : VForm) (s : State) : Out := finish (runVsub w s s)

def runVmul (w : VForm) (pre s : State) : Res :=
  if isFType w.t then vFloat (.vmul w) w pre s [w.a, w.b] 5 (w.u == 1) (fun x y _ => x.mul y) 2
  else vInt (.vmul w) w pre s [w.a, w.b] 5 true (· * ·)
def execVmul (w : VForm) (s : State) : Out := finish (runVmul w s s)

/-- x × y joined with d, rounded once. -/
def fmaVal (c : Core) (p : Val × Fl) (d : Val) : Val × Fl := let r := vSum c [p.1, d]; (r.1, p.2 ||| r.2)
def runVfma (w : VForm) (pre s : State) : Res :=
  vFloat (.vfma w) w pre s [w.a, w.b, w.d] 5 (w.u == 1) (fun x y d => fmaVal s.core (x.mul y) d) 3
def execVfma (w : VForm) (s : State) : Out := finish (runVfma w s s)
def runVfms (w : VForm) (pre s : State) : Res :=
  vFloat (.vfms w) w pre s [w.a, w.b, w.d] 5 (w.u == 1) (fun x y d => fmaVal s.core (x.mul y) d.neg) 3
def execVfms (w : VForm) (s : State) : Out := finish (runVfms w s s)
def runVfnma (w : VForm) (pre s : State) : Res :=
  vFloat (.vfnma w) w pre s [w.a, w.b, w.d] 5 (w.u == 1)
    (fun x y d => fmaVal s.core ((x.mul y).1.neg, (x.mul y).2) d) 3
def execVfnma (w : VForm) (s : State) : Out := finish (runVfnma w s s)

/-- VABS: the sign bit, or |x| of an integer, saturated with .sat. -/
def runVabs (w : VForm) (pre s : State) : Res :=
  let n := vWidth w.t
  if isFType w.t then vLanes (.vabs w) w pre s [w.a] 2 fun _ x _ _ => (x % 2 ^ (n - 1), 0)
  else vInt (.vabs w) w pre s [w.a] 2 true fun x _ => if w.u = 1 then satInt true n x.natAbs else x.natAbs
def execVabs (w : VForm) (s : State) : Out := finish (runVabs w s s)

/-- VNEG. -/
def runVneg (w : VForm) (pre s : State) : Res :=
  let n := vWidth w.t
  if isFType w.t then vLanes (.vneg w) w pre s [w.a] 2 fun _ x _ _ => ((x + 2 ^ (n - 1)) % 2 ^ n, 0)
  else vInt (.vneg w) w pre s [w.a] 2 true fun x _ => if w.u = 1 then satInt true n (-x) else -x
def execVneg (w : VForm) (s : State) : Out := finish (runVneg w s s)

/-- IEEE minimum or maximum of two encodings (R102). -/
def minmaxEnc (t : BitVec 3) (mx : Bool) (x y : Nat) : LaneR :=
  let a := vVal t x
  let b := vVal t y
  (((vFmt t).round (Val.minmax mx a b) rne).1, sigFlag [a, b])
def intPick (mx : Bool) (x y : Int) : Int := if mx then (if x < y then y else x) else (if y < x then y else x)
def vMinMax (i : Instr) (w : VForm) (pre s : State) (mx : Bool) : Res :=
  if isFType w.t then vLanes i w pre s [w.a, w.b] 3 fun _ x y _ => minmaxEnc w.t mx x y
  else vInt i w pre s [w.a, w.b] 2 (w.u == 0) (intPick mx)
def runVmin (w : VForm) (pre s : State) : Res := vMinMax (.vmin w) w pre s false
def execVmin (w : VForm) (s : State) : Out := finish (runVmin w s s)
def runVmax (w : VForm) (pre s : State) : Res := vMinMax (.vmax w) w pre s true
def execVmax (w : VForm) (s : State) : Out := finish (runVmax w s s)

def runVdiv (w : VForm) (pre s : State) : Res :=
  vFloat (.vdiv w) w pre s [w.a, w.b] 14 (w.u == 1) (fun x y _ => x.div y) 2
def execVdiv (w : VForm) (s : State) : Out := finish (runVdiv w s s)
def runVsqrt (w : VForm) (pre s : State) : Res :=
  vFloat (.vsqrt w) w pre s [w.a] 14 false (fun x _ _ => x.sqrt) 1
def execVsqrt (w : VForm) (s : State) : Out := finish (runVsqrt w s s)

/-- VRCP's exact estimate and its flags (R104). -/
def rcpVal (x : Val) : Val × Fl :=
  match x with
  | .nan _ => (.nan false, 0)
  | .zero n => (.inf n, flDivZero)
  | .inf n => (.zero n, 0)
  | .fin n m e => (rcpEst n m e, 0)
/-- VRSQ's. -/
def rsqVal (x : Val) : Val × Fl :=
  match x with
  | .nan _ => (.nan false, 0)
  | .zero n => (.inf n, flDivZero)
  | .inf false => (.zero false, 0)
  | .inf true => (.nan false, flInvalid)
  | .fin true _ _ => (.nan false, flInvalid)
  | .fin false m e => (rsqEst m e, 0)
/-- An estimate instruction: it never sets inexact. -/
def vEstimate (i : Instr) (w : VForm) (pre s : State) (op : Val → Val × Fl) : Res := do
  let t ← vLanes i w pre s [w.a] 6 fun l x _ _ =>
    let r := fLane s.core w.t false l [vVal w.t x] (op (vVal w.t x))
    (r.1, r.2 &&& ~~~flInexact)
  return t.usedRm
def runVrcp (w : VForm) (pre s : State) : Res := vEstimate (.vrcp w) w pre s rcpVal
def execVrcp (w : VForm) (s : State) : Out := finish (runVrcp w s s)
def runVrsq (w : VForm) (pre s : State) : Res := vEstimate (.vrsq w) w pre s rsqVal
def execVrsq (w : VForm) (s : State) : Out := finish (runVrsq w s s)

/-- VCURVE (R105). -/
def runVcurve (w : VForm) (pre s : State) : Res :=
  let c := s.core.rdCurve (w.b.extractLsb' 0 4).toNat
  vLanes (.vcurve w) w pre s [w.a] 7 fun _ x _ _ => if w.u = 1 then c.slope (fp32.val x) else c.value (fp32.val x)
def execVcurve (w : VForm) (s : State) : Out := finish (runVcurve w s s)

/-! ### Integers (R103) -/

def runVadds (w : VForm) (pre s : State) : Res :=
  vInt (.vadds w) w pre s [w.a, w.b] 2 (w.u == 0) fun x y => satInt (w.u == 0) (vWidth w.t) (x + y)
def execVadds (w : VForm) (s : State) : Out := finish (runVadds w s s)
def runVsubs (w : VForm) (pre s : State) : Res :=
  vInt (.vsubs w) w pre s [w.a, w.b] 2 (w.u == 0) fun x y => satInt (w.u == 0) (vWidth w.t) (x - y)
def execVsubs (w : VForm) (s : State) : Out := finish (runVsubs w s s)
/-- Bits [2w−1:w] of the exact product. -/
def runVmulh (w : VForm) (pre s : State) : Res :=
  vInt (.vmulh w) w pre s [w.a, w.b] 5 (w.u == 0) fun x y => x * y / ((2 ^ vWidth w.t : Nat) : Int)
def execVmulh (w : VForm) (s : State) : Out := finish (runVmulh w s s)

def vBits (i : Instr) (w : VForm) (pre s : State) (names : List (BitVec 6)) (op : BitVec 32 → BitVec 32 → BitVec 32) : Res :=
  vLanes i w pre s names 2 fun _ x y _ => ((op (BitVec.ofNat 32 x) (BitVec.ofNat 32 y)).toNat % 2 ^ vWidth w.t, 0)
def runVand (w : VForm) (pre s : State) : Res := vBits (.vand w) w pre s [w.a, w.b] (· &&& ·)
def execVand (w : VForm) (s : State) : Out := finish (runVand w s s)
def runVor (w : VForm) (pre s : State) : Res := vBits (.vor w) w pre s [w.a, w.b] (· ||| ·)
def execVor (w : VForm) (s : State) : Out := finish (runVor w s s)
def runVxor (w : VForm) (pre s : State) : Res := vBits (.vxor w) w pre s [w.a, w.b] (· ^^^ ·)
def execVxor (w : VForm) (s : State) : Out := finish (runVxor w s s)
def runVnot (w : VForm) (pre s : State) : Res := vBits (.vnot w) w pre s [w.a] fun x _ => ~~~x
def execVnot (w : VForm) (s : State) : Out := finish (runVnot w s s)

/-- A shift: by the field k with modifier 1, else by the low bits of y. -/
def vShift (i : Instr) (w : VForm) (pre s : State) (op : Nat → Nat → Nat) : Res :=
  let names := if w.u = 1 then [w.a] else [w.a, w.b]
  vLanes i w pre s names 2 fun _ x y _ =>
    (op x (if w.u = 1 then w.b.toNat else y % vWidth w.t) % 2 ^ vWidth w.t, 0)
def runVshl (w : VForm) (pre s : State) : Res := vShift (.vshl w) w pre s fun x k => x * 2 ^ k
def execVshl (w : VForm) (s : State) : Out := finish (runVshl w s s)
def runVshr (w : VForm) (pre s : State) : Res := vShift (.vshr w) w pre s fun x k => x / 2 ^ k
def execVshr (w : VForm) (s : State) : Out := finish (runVshr w s s)
def runVsra (w : VForm) (pre s : State) : Res :=
  vShift (.vsra w) w pre s fun x k => natOf (vWidth w.t) (intOf true (vWidth w.t) x / ((2 ^ k : Nat) : Int))
def execVsra (w : VForm) (s : State) : Out := finish (runVsra w s s)

/-! ### Compares and selects (R106, R107) -/

/-- A floating-point condition and its flags. -/
def fCond (cond : Nat) (a b : Val) : Bool × Fl :=
  let nan := a.isNaN || b.isNaN
  let quiet := cond == 0 || cond == 1 || cond == 6
  let fl : Fl := if quiet then sigFlag [a, b] else if nan then flInvalid else 0
  let r := match cond with
    | 0 => a.eqv b
    | 1 => !a.eqv b
    | 2 => !nan && a.lt b
    | 3 => !nan && !b.lt a
    | 4 => !nan && b.lt a
    | 5 => !nan && !a.lt b
    | _ => nan
  (r, fl)
/-- An integer condition. -/
def iCond (cond : Nat) (a b : Int) : Bool :=
  match cond with
  | 0 => a == b | 1 => a != b | 2 => decide (a < b) | 3 => decide (a ≤ b) | 4 => decide (b < a) | _ => decide (b ≤ a)
/-- VCMP. -/
def runVcmp (w : VForm) (pre s : State) : Res := do
  let m := pre.core.vMask w.m
  pre.vRead w.v (fun l => m.getLsbD l) [w.a, w.b]
  let x := pre.core.vReg w.v w.a
  let y := pre.core.vReg w.v w.b
  let cond := (w.d.extractLsb' 0 3).toNat
  let n := vWidth w.t
  let rs := lanes.map fun l =>
    if m.getLsbD l then
      let a := lowBits w.t (x.getD l 0)
      let b := lowBits w.t (y.getD l 0)
      if isFType w.t then fCond cond (vVal w.t a) (vVal w.t b) else (iCond cond (intOf (w.u == 0) n a) (intOf (w.u == 0) n b), 0)
    else (false, 0)
  let bits := leNat2 (rs.map (·.1))
  return s.fly ⟨.qreg, w.v, w.v, (w.d.extractLsb' 3 3).toNat, m, [], BitVec.ofNat 64 bits, rs.map (·.2),
    if isFType w.t then 3 else 2, vWord (.vcmp w), none, 0⟩
where
  leNat2 : List Bool → Nat
    | [] => 0
    | b :: r => (if b then 1 else 0) + 2 * leNat2 r
def execVcmp (w : VForm) (s : State) : Out := finish (runVcmp w s s)

/-- A move of whole lanes: `src l` gives the register read and its lane, none where nothing is read. -/
def vMove (i : Instr) (w : VForm) (pre s : State) (m : BitVec 64) (lat : Nat) (src : Nat → Option (BitVec 6 × Nat)) : Res := do
  let need := lanes.filterMap fun l => if m.getLsbD l then src l else none
  pre.vReadBy w.v (fun n l => need.contains (n, l)) [w.a, w.b]
  let rs := lanes.map fun l => match (if m.getLsbD l then src l else none) with
    | some (r, k) => (((pre.core.vReg w.v r).getD k 0).toNat, (0 : Fl))
    | none => (0, 0)
  return s.fly (vecRec w.v w.v (pre.core.vPhys w.v w.d) m rs lat (vWord i))

/-- VSEL: the mask selects, every lane is written. -/
def runVsel (w : VForm) (pre s : State) : Res :=
  let q := pre.core.vMask w.m
  vMove (.vsel w) w pre s (BitVec.allOnes 64) 2 fun l => some (if q.getLsbD l ^^ w.u == 1 then w.a else w.b, l)
def execVsel (w : VForm) (s : State) : Out := finish (runVsel w s s)

/-! ### Conversion and packing (R108, R109) -/

/-- VCVT. -/
def runVcvt (w : VForm) (pre s : State) : Res := do
  let src := w.b.extractLsb' 3 3
  let mode := s.core.modeOf (w.b.extractLsb' 0 3).toNat
  let m := pre.core.vMask w.m
  pre.vRead w.v (fun l => m.getLsbD l) [w.a]
  let x := pre.core.vReg w.v w.a
  let rs := lanes.map fun l =>
    if m.getLsbD l then
      let e := lowBits src (x.getD l 0)
      let r := convert (vFmt src) (vFmt w.t) (w.u == 1) e (s.core.laneMode mode l)
      let fl : Fl := if isFType src || isF8Type src then sigFlag [vVal src e] else 0
      (r.1, r.2 ||| fl)
    else (0, 0)
  let t := s.fly (vecRec w.v w.v (pre.core.vPhys w.v w.d) m rs 4 (vWord (.vcvt w)))
  return t.onCore fun c => c.useSr mode 1
def execVcvt (w : VForm) (s : State) : Out := finish (runVcvt w s s)

/-- Element e of va's low parts followed by vb's. -/
def pairElem (x y : Vec) (n e : Nat) : Nat := (if e < 64 then x.getD e 0 else y.getD (e - 64) 0).toNat % 2 ^ n
/-- VPACK: the dense image of 128 elements; for 8-bit types one half of the register, the other as it stood. -/
def runVpack (w : VForm) (pre s : State) : Res := do
  let n := vWidth w.t
  let lo := if n = 8 && w.u == 1 then 32 else 0
  let kept := fun (l : Nat) => n == 8 && (if lo = 32 then decide (l < 32) else decide (32 ≤ l))
  pre.vReadBy w.v (fun k l => k == w.a || k == w.b || kept l) [w.a, w.b, w.d]
  let x := pre.core.vReg w.v w.a
  let y := pre.core.vReg w.v w.b
  let d := pre.core.vReg w.v w.d
  let rs := lanes.map fun l =>
    let v :=
      if n = 16 then pairElem x y 16 (2 * l) + pairElem x y 16 (2 * l + 1) * 2 ^ 16
      else if lo ≤ l && l < lo + 32 then
        let e := 4 * (l - lo)
        pairElem x y 8 e + pairElem x y 8 (e + 1) * 2 ^ 8 + pairElem x y 8 (e + 2) * 2 ^ 16 + pairElem x y 8 (e + 3) * 2 ^ 24
      else (d.getD l 0).toNat
    (v, (0 : Fl))
  return s.fly (vecRec w.v w.v (pre.core.vPhys w.v w.d) (BitVec.allOnes 64) rs 4 (vWord (.vpack w)))
def execVpack (w : VForm) (s : State) : Out := finish (runVpack w s s)

/-- VUNPK: elements 64k to 64k + 63 of the dense image. -/
def runVunpk (w : VForm) (pre s : State) : Res := do
  let n := vWidth w.t
  let per := 32 / n
  let k := w.b.toNat
  pre.vRead w.v (fun l => decide (64 * k / per ≤ l) && decide (l < 64 * (k + 1) / per)) [w.a]
  let x := pre.core.vReg w.v w.a
  let rs := lanes.map fun l =>
    let e := 64 * k + l
    ((x.getD (e / per) 0).toNat / 2 ^ (n * (e % per)) % 2 ^ n, (0 : Fl))
  return s.fly (vecRec w.v w.v (pre.core.vPhys w.v w.d) (BitVec.allOnes 64) rs 4 (vWord (.vunpk w)))
def execVunpk (w : VForm) (s : State) : Out := finish (runVunpk w s s)

/-! ### Reductions (R110) -/

/-- A reduction of the lanes that the mask enables: one result in every lane, its flags on the lowest participating one. -/
def vReduce (i : Instr) (w : VForm) (pre s : State) (op : List Nat → LaneR) : Res := do
  let m := pre.core.vMask w.m
  pre.vRead w.v (fun l => m.getLsbD l) [w.a]
  let x := pre.core.vReg w.v w.a
  let on := lanes.filter fun l => m.getLsbD l
  let r := op (on.map fun l => lowBits w.t (x.getD l 0))
  let rs := lanes.map fun l => (r.1, if on.head? = some l then r.2 else (0 : Fl))
  return s.fly (vecRec w.v w.v (pre.core.vPhys w.v w.d) (BitVec.allOnes 64) rs 8 (vWord i))

/-- VRSUM. -/
def runVrsum (w : VForm) (pre s : State) : Res :=
  let n := vWidth w.t
  if isFType w.t then do
    let t ← vReduce (.vrsum w) w pre s fun xs =>
      let vs := xs.map (vVal w.t)
      fLane s.core w.t false 0 vs (vSum s.core vs)
    return t.usedRm
  else vReduce (.vrsum w) w pre s fun xs =>
    let k := (xs.map fun x => intOf true n x).sum
    (natOf n (if w.u = 1 then satInt true n k else k), 0)
def execVrsum (w : VForm) (s : State) : Out := finish (runVrsum w s s)

/-- The largest or least lane; with none, the identity. -/
def reduceMinMax (w : VForm) (mx : Bool) (xs : List Nat) : LaneR :=
  let n := vWidth w.t
  if isFType w.t then
    match vFmt w.t, xs with
    | .fp f, [] => (f.signBit mx + f.infEnc, 0)
    | f, xs =>
      let vs := xs.map (vVal w.t)
      match vs with
      | [] => (0, 0)
      | v :: r => ((f.round (r.foldl (Val.minmax mx) (Val.minmax mx v v)) rne).1, sigFlag vs)
  else match xs with
    | [] => (natOf n (if mx then intMin (w.u == 0) n else intMax (w.u == 0) n), 0)
    | x :: r => (natOf n (r.foldl (fun a y => intPick mx a (intOf (w.u == 0) n y)) (intOf (w.u == 0) n x)), 0)
def runVrmax (w : VForm) (pre s : State) : Res := vReduce (.vrmax w) w pre s (reduceMinMax w true)
def execVrmax (w : VForm) (s : State) : Out := finish (runVrmax w s s)
def runVrmin (w : VForm) (pre s : State) : Res := vReduce (.vrmin w) w pre s (reduceMinMax w false)
def execVrmin (w : VForm) (s : State) : Out := finish (runVrmin w s s)
/-- VRAMAX. -/
def runVramax (w : VForm) (pre s : State) : Res :=
  vReduce (.vramax w) w pre s fun xs =>
    let vs := xs.map (vVal w.t)
    ((vFmt w.t |>.round (vs.foldl (fun a v => Val.minmax true a v.abs) (.zero false)) rne).1, sigFlag vs)
def execVramax (w : VForm) (s : State) : Out := finish (runVramax w s s)

/-! ### Permutes and moves (R111 to R114) -/

def runVbcast (w : VForm) (pre s : State) : Res :=
  vMove (.vbcast w) w pre s (pre.core.vMask w.m) 3 fun _ => some (w.a, w.b.toNat)
def execVbcast (w : VForm) (s : State) : Out := finish (runVbcast w s s)
/-- VSHUF: the index lanes are read too. -/
def runVshuf (w : VForm) (pre s : State) : Res := do
  let m := pre.core.vMask w.m
  pre.vRead w.v (fun l => m.getLsbD l) [w.b]
  let y := pre.core.vReg w.v w.b
  vMove (.vshuf w) w pre s m 3 fun l => some (w.a, (y.getD l 0).toNat % 64)
def execVshuf (w : VForm) (s : State) : Out := finish (runVshuf w s s)
def runVlrot (w : VForm) (pre s : State) : Res :=
  vMove (.vlrot w) w pre s (pre.core.vMask w.m) 3 fun l => some (w.a, (l + w.b.toNat) % 64)
def execVlrot (w : VForm) (s : State) : Out := finish (runVlrot w s s)

/-- VDUP: a scalar of the current level's bank, as it stood at the start of the issue. -/
def runVdup (w : VForm) (pre s : State) : Res := do
  pre.scoreboard [w.a.toNat]
  pre.deferredOf [w.a.toNat]
  let v := (pre.core.rdS w.a.toNat).toNat % 2 ^ vWidth w.t
  return s.fly (vecRec w.v w.v (pre.core.vPhys w.v w.d) (pre.core.vMask w.m) (lanes.map fun _ => (v, 0)) 3 (vWord (.vdup w)))
def execVdup (w : VForm) (s : State) : Out := finish (runVdup w s s)

/-- VIOTA, with .rank the number of enabled lanes below. -/
def runViota (w : VForm) (pre s : State) : Res :=
  let m := pre.core.vMask w.m
  let rs := lanes.map fun l =>
    (if w.u = 1 then ((List.range l).filter fun k => m.getLsbD k).length else l, (0 : Fl))
  .ok (s.fly (vecRec w.v w.v (pre.core.vPhys w.v w.d) m rs 3 (vWord (.viota w))))
def execViota (w : VForm) (s : State) : Out := finish (runViota w s s)

/-- VXMOV writes the other cluster, through its window base. -/
def runVxmov (w : VForm) (pre s : State) : Res := do
  let m := pre.core.vMask w.m
  pre.vRead w.v (fun l => m.getLsbD l) [w.a]
  let o : BitVec 1 := 1 - w.v
  let rs := (pre.core.vReg w.v w.a).map fun x => (x.toNat, (0 : Fl))
  return s.fly (vecRec w.v o (pre.core.vPhys o w.d) m rs 3 (vWord (.vxmov w)))
def execVxmov (w : VForm) (s : State) : Out := finish (runVxmov w s s)

/-- VEXT: a lane to a scalar register, which is pending until it lands. -/
def runVext (w : VForm) (pre s : State) : Res := do
  pre.scoreboard [w.d.toNat]
  let k := w.b.toNat
  pre.vRead w.v (fun l => l == k) [w.a]
  let n := vWidth w.t
  let x := lowBits w.t ((pre.core.vReg w.v w.a).getD k 0)
  let v := BitVec.ofInt 64 (intOf (isIType w.t && w.u == 0) n x)
  return s.fly ⟨.scalar, w.v, w.v, pre.core.destIdx w.d.toNat, BitVec.allOnes 64, [], v, [], 4, vWord (.vext w), none, 0⟩
def execVext (w : VForm) (s : State) : Out := finish (runVext w s s)

/-- VACC (R114, R357): a row of an accumulator; a poisoned row raises 0x30. -/
def runVacc (w : VForm) (pre s : State) : Res :=
  let a := (w.a.extractLsb' 4 2).toNat * 64 + w.b.toNat
  if sget false s.eng.accBad a then
    .error (.trap 7 0x30 (BitVec.ofNat 64 ((w.a.extractLsb' 4 2).toNat + w.b.toNat * 256)) noStage pre)
  else
    let rs := lanes.map fun l => ((sget 0 s.eng.acc (a * 64 + l)).toNat, (0 : Fl))
    let r := vecRec w.v w.v (pre.core.vPhys w.v w.d) (pre.core.vMask w.m) rs 4 (vWord (.vacc w))
    .ok (s.fly { r with acc := some a })
def execVacc (w : VForm) (s : State) : Out := finish (runVacc w s s)

end Sys2Proof.Machine
end

