-- ==== Sys2Proof/Machine/VMem.lean ====
section
/-! DEFINITION. The scratchpad instructions of the V slots (R115 to R119). `pre` is the state at the start of the issue:
addresses, masks, names and faults come from it; the bytes are read and written in slot order. -/

namespace Sys2Proof.Machine

/-- Bytes of an element. -/
def VMem.wd (w : VMem) : Nat := vWidth w.t / 8
/-- AGENT of a V slot (R152). -/
def vAgent (v : BitVec 1) : Nat := 1 + v.toNat

/-- SVA of lane l (R115). -/
def Core.laneAddr (c : Core) (w : VMem) (l : Nat) : Nat := c.vAddr w + l * VMem.wd w
/-- SVA of lane l of VGATH and VSCAT, from its index (R116). -/
def Core.idxAddr (c : Core) (w : VMem) (idx : Vec) (l : Nat) : Nat :=
  alignTo (BitVec.ofNat 32 (c.vAddr w) + idx.getD l 0 * BitVec.ofNat 32 (VMem.wd w)).toNat (VMem.wd w)

/-- The post-increment of AR (R115). -/
def Core.postInc (c : Core) (w : VMem) : Core :=
  if w.i = 1 then c.wrA w.r.toNat (c.rdA w.r.toNat + BitVec.ofNat 32 (64 * VMem.wd w)) else c

/-- The enabled lanes in order (R119, R172): the lane of each register that the access reads passes its parity check, and its element is
touched; `all` are the lanes of the access. Each lane comes with its place. -/
def State.touchLanes (s : State) (v : BitVec 1) (names : List (BitVec 6)) (write : Bool) (addr : Nat → Nat) (all : List Nat) :
    List Nat → Except Halt (List (Nat × Place))
  | [] => .ok []
  | l :: r => do
    s.vRead v (fun k => k == l) names
    let p ← s.coreTouch (vAgent v) (addr l) write (all.map addr)
    let ps ← s.touchLanes v names write addr all r
    return (l, p) :: ps
/-- Chase the elements of the enabled lanes (R118). -/
def State.chaseLanes (s : State) (n : Nat) (addr : Nat → Nat) : List Nat → Except Halt Unit
  | [] => .ok ()
  | l :: r => do
    s.coreChase (addr l) n
    s.chaseLanes n addr r

/-- Lanes that the mask enables. -/
def enabledLanes (m : BitVec 64) : List Nat := lanes.filter fun l => m.getLsbD l

/-- What lane l reads at its place: the encoding and its poison. -/
def laneGet (s : State) (n : Nat) (ps : List (Nat × Place)) (l : Nat) : Nat × Bool :=
  match ps.find? fun p => p.1 == l with
  | some p => let r := s.placeRd p.2 n; (leNat r.1, r.2)
  | none => (0, false)

/-- A load of the enabled lanes: the values are those at the issue cycle, in slot order (R117). Every touch comes before every chase,
an order the spec leaves open. DESIGN CHOICE -/
def vLoad (i : Instr) (w : VMem) (pre s : State) (lat : Nat) (chases : Bool) (names : List (BitVec 6)) (addr : Nat → Nat) : Res := do
  let m := pre.core.vMask w.m
  let on := enabledLanes m
  let n := VMem.wd w
  let ps ← pre.touchLanes w.v names false addr on on
  if chases then pre.chaseLanes n addr on
  let got := lanes.map fun l => laneGet s n ps l
  let s := ps.foldl (fun s p => if (got.getD p.1 (0, false)).2 then s.stampPage p.2 else (s.stampPage p.2).passedSpad (addr p.1) n) s
  let r := vecRec w.v w.v (pre.core.vPhys w.v w.d) m (got.map fun g => (g.1, (0 : Fl))) lat (vWord i)
  let bad := got.zipIdx.foldl (fun (b : BitVec 64) g => if g.1.2 then b ||| (1#64 <<< g.2) else b) 0
  return (s.fly { r with bad := bad }).onCore fun c => c.postInc w

/-- A store of the enabled lanes, in lane order. -/
def vStore (w : VMem) (pre s : State) (names : List (BitVec 6)) (addr : Nat → Nat) : Res := do
  let m := pre.core.vMask w.m
  let on := enabledLanes m
  let n := VMem.wd w
  let ps ← pre.touchLanes w.v names true addr on on
  let v := pre.core.vReg w.v w.d
  let s := ps.foldl
    (fun s p =>
      let bs := leBytes n ((v.getD p.1 0).toNat % 2 ^ (8 * n))
      (((s.placeWr p.2 bs false).stampPage p.2).sign 1 (addr p.1) bs).passedSpad (addr p.1) n) s
  return (s.cleanUnits (ps.map fun p => s.wroteAt p.2 n false)).onCore fun c => c.postInc w

/-- The index lanes of VGATH and VSCAT (R116). -/
def vIndex (w : VMem) (pre : State) : Vec := pre.core.vReg w.v (w.d + 1)

/-- VLD. -/
def runVld (w : VMem) (pre s : State) : Res := vLoad (.vld w) w pre s 6 true [] (pre.core.laneAddr w)
def execVld (w : VMem) (s : State) : Out := finish (runVld w s s)
/-- VLDR: never chases. -/
def runVldr (w : VMem) (pre s : State) : Res := vLoad (.vldr w) w pre s 6 false [] (pre.core.laneAddr w)
def execVldr (w : VMem) (s : State) : Out := finish (runVldr w s s)
/-- VST. -/
def runVst (w : VMem) (pre s : State) : Res := vStore w pre s [w.d] (pre.core.laneAddr w)
def execVst (w : VMem) (s : State) : Out := finish (runVst w s s)
/-- VGATH. -/
def runVgath (w : VMem) (pre s : State) : Res :=
  vLoad (.vgath w) w pre s 8 true [w.d + 1] (pre.core.idxAddr w (vIndex w pre))
def execVgath (w : VMem) (s : State) : Out := finish (runVgath w s s)
/-- VSCAT. -/
def runVscat (w : VMem) (pre s : State) : Res := vStore w pre s [w.d, w.d + 1] (pre.core.idxAddr w (vIndex w pre))
def execVscat (w : VMem) (s : State) : Out := finish (runVscat w s s)

end Sys2Proof.Machine
end

