-- ==== Sys2Proof/Machine/Engine.lean ====
section
/-! DEFINITION. What the matrix engine and the copy engines share: queue entries, the binding and the movement of fronts,
element accesses with chases and faults, and how a command stops and resumes (R125 to R133, R242 to R250, R317 to R325,
R380, R381). -/

namespace Sys2Proof.Machine

/-! ### Fields of the words -/

/-- The 64-bit word of an M or C instruction. -/
def lWord (i : Instr) : BitVec 64 := match encode i with | some (.long _ w) => w | _ => 0
/-- Engine of a C slot. -/
def cEngine (e : BitVec 1) : Engine := if e = 0 then .copy0 else .copy1
/-- Number of a signature (R366). -/
def engSig : Engine → Nat | .matrix => 2 | .copy0 => 3 | .copy1 => 4

/-- How a command's reads wait: not at all, on a named front (CHP, index), or by page tag (R133, R248). -/
inductive Chasing where
  | no | named (chp n : Nat) | auto
  deriving DecidableEq, Repr

/-- What starts a command (R258): nothing, a front's count (CHP, index, count; 0 its completion), or a barrier. -/
inductive Arming where
  | no | front (chp n v : Nat) | barrier (a : Nat)
  deriving DecidableEq, Repr

def MmaForm.chasing (w : MmaForm) : Chasing :=
  match w.chm.toNat with | 1 => .named w.chp.toNat w.chf.toNat | 2 => .auto | _ => .no
def CForm.chasing (w : CForm) : Chasing :=
  match w.wait.toNat with
  | 1 => .named (w.warg.extractLsb' 10 4).toNat (w.warg.extractLsb' 14 6).toNat
  | 2 => .auto
  | _ => .no
def CForm.arming (w : CForm) : Arming :=
  if w.wait != 3 then .no
  else if w.warg.getLsbD 19 then .barrier (w.warg.extractLsb' 14 5).toNat
  else .front (w.warg.extractLsb' 9 4).toNat (w.warg.extractLsb' 13 6).toNat
    ((w.warg.extractLsb' 0 6).toNat * 4 ^ (w.warg.extractLsb' 6 3).toNat)

/-- The words of the two queues. -/
def mmaOf : Instr → Option MmaForm | .mma w => some w | .mmar w => some w | .mmad w => some w | _ => none
def cOf : Instr → Option CForm
  | .cpy w => some w | .cgath w => some w | .cscat w => some w | .cred w => some w | .cfill w => some w
  | .mcast w => some w | .crem w => some w | _ => none
def Cmd.chasing (c : Cmd) : Chasing :=
  match mmaOf c.ins with
  | some w => MmaForm.chasing w
  | none => match cOf c.ins with | some w => CForm.chasing w | none => .no
def Cmd.arming (c : Cmd) : Arming := match cOf c.ins with | some w => CForm.arming w | none => .no

/-! ### Heads of queues -/

def Eng.head (e : Eng) (g : Engine) : Option Cmd := (e.queue g).head?
/-- Change the head command. -/
def State.onHead (s : State) (g : Engine) (f : Cmd → Cmd) : State :=
  s.onEng fun e => e.setQueue g (match e.queue g with | [] => [] | c :: r => f c :: r)
/-- Remove the head command. -/
def State.popHead (s : State) (g : Engine) : State := s.onEng fun e => e.setQueue g (e.queue g).tail
/-- A beat counts in counters 2 and 3 (R339). -/
def State.countBeat (s : State) : State := s.onCore fun c => (c.bump 2).bump 3

/-- Raise an asynchronous cause of an engine. -/
def State.raiseEng (s : State) (g : Engine) (cause : Nat) (tval : BitVec 64) (write : Bool) (stage : Nat) : State :=
  s.onCore fun c => c.raise ⟨cause, tval, ⟨engAgent g, false, write, stage⟩⟩

/-! ### Fronts that move (R318 to R320, R331, R381) -/

/-- Pages that hold a byte of a span, by SVA / 4,096. -/
def Desc.pagesOf (d : Desc) : List Nat :=
  nub (((List.range d.count).map fun k =>
    let x := coordsOf (List.range d.rank).reverse d.dims k
    let a := (d.place x).1
    [a / 4096, (a + d.placeBytes - 1) / 4096]).flatten)

/-- Tag one page with front n, unless it carries the tag of another live front (R319). -/
def tagPage (fc : Sparse Front) (n : Nat) (sp : Spad) (pg : Nat) : Spad :=
  let e := sp.entry pg
  let other := sget {} fc (sptFidx e)
  let keep := sptFt e && sptFidx e != n && (other.state == .running || other.state == .halted)
  if keep || !sptV e then sp else sp.setEntry pg (setField64 (setBit64 e 57 true) 51 6 n)

/-- Front n can be bound (R318). -/
def State.frontFree (s : State) (n : Nat) : Bool :=
  let st := (s.front n).state
  st == .idle || st == .complete || st == .broken

/-- Bind front n (R318, R319): the pages of a destination in the own space are tagged, those of one in the gang window hold an implicit
pin (R179). -/
def State.bindFront (s : State) (n : Nat) (d : Option Desc) (limit : Nat) (walk : List Nat) (kind : FKind) (g : Engine) : State :=
  let f := s.front n
  let s := s.frontEnded n f.gen (f.state == .broken)
  let own := match d with | some d => d.space == 0 | none => false
  let pages := match d with | some d => if d.space ≤ 1 then d.pagesOf else [] | none => []
  let sp := if !own then s.spad else pages.foldl (fun sp pg => tagPage s.eng.fc n sp pg) s.spad
  let live := limit != 0
  { (s.setFront n
      { gen := f.gen + 1, value := 0, state := if live then .running else .complete, cause := 0
        pscope := f.pscope, pgran := f.pgran, pub := false, tagged := live && own, limit := limit, prod := engProd g
        pva := f.pva, walk := walk, kind := kind, span := if live then d else none, pages := if live then pages else [] })
    with spad := if live then sp else s.spad }

/-- Front n completes: its tags end, its mirror is written once more, waiting entries record it (R319, R320, R331). -/
def State.completeFront (s : State) (n : Nat) : State :=
  let f := s.front n
  let s := (s.setFront n { f with state := .complete, cause := 0, span := none }).untag n
  let s := s.frontEnded n f.gen false
  if f.pub then (fun s : State => s.setFront n { s.front n with pub := false }) (s.publish n) else s

/-- VALUE of front n grows by k. -/
def State.advanceFront (s : State) (n k : Nat) : State :=
  let f := s.front n
  let v := f.value + k
  let s := s.setFront n { f with value := v }
  let g := 64 * 2 ^ f.pgran
  if v = f.limit then s.completeFront n
  else if f.pub && f.value / g != v / g then s.publish n
  else s

/-- VALUE of front n grows by k and the front halts, in one change (R381). -/
def State.haltFront (s : State) (n k cause : Nat) : State :=
  let f := s.front n
  if f.state == .running || f.state == .halted then
    (s.setFront n { f with value := f.value + k, state := .halted, cause := cause }).publishIf n
  else s
/-- A halted front runs again. -/
def State.resumeFront (s : State) (n : Nat) : State :=
  let f := s.front n
  if f.state == .halted then (s.setFront n { f with state := .running, cause := 0 }).publishIf n else s

/-! ### What an element access meets -/

/-- An engine stops at an element: suspended (R172, R194), waiting at a chase of a running front, at a halted one, or at one that is
broken, idle or of kind acknowledgement (R322, R323). -/
inductive EStop where
  | susp (x : Susp)
  | wait (o : Owner) (n need : Nat)
  | halted (o : Owner) (n : Nat)
  | broken (o : Owner) (n : Nat)
  | unbound (o : Owner) (n : Nat)
  /-- An older access of the core to the bytes has not been performed (R218): the engine tries again. -/
  | hold

/-- Where an engine's access stops, with the state then; an access that goes through gives its value and the state. -/
abbrev EFail := EStop × State

/-- An engine's touch of a scratchpad address (R172). -/
def State.engTouch (s : State) (g : Engine) (sva : Nat) (write : Bool) : Except EFail (Place × State) :=
  match s.touch sva write with
  | .at p => .ok (p, s)
  | .cause c st => .error (.susp (suspAt (if c = 0x0A then 5 else 3) sva (none) false write), s.raiseEng g c (BitVec.ofNat 64 sva) write st)
  | .page o pg w =>
    let s := if (s.part s.core.partNo).mode modePaging then s.raiseEng g 0x08 (BitVec.ofNat 64 sva) write (stageOf w) else s
    let pw : PageWait := { since := s.sys.order, pager := (s.coreOf o).num, page := pg }
    .error (.susp { suspAt 1 sva none false write with pw := some pw }, s.stamped)
  | .line _ => .error (.susp (suspAt 0 sva none false write), s)

/-- A leaf with MOVED on the way of an IA that is not at hand, which the landing engine can land (R380). -/
def State.landable (s : State) (ia : Nat) (need : Perm) : Bool :=
  let x := s.mem.line (lineOf ia)
  let at' := x.canRead (some s.core.die) && (!(Perm.within needW need) || (x.die s.core.die).wp)
  let hit := match s.mem.cached ia with | some t => need.within t.p1 && need.within t.p2 | none => false
  if at' || hit then false
  else
    let p := partOfIa ia
    match findLeaves s.mem s.core.s1root (s.part p).s2root ia with
    | .moved v =>
      let r := s.ringsOf p v.stage
      v.leaf.entry.wok && (match landLeaf s.mem (s.part p).s2root v r.1 r.2 with | .landed _ => true | _ => false)
    | _ => false

/-- An engine's access to a VA (R194): the machine address. The group's own pins stand (R222). -/
def State.engReach (s : State) (g : Engine) (va : Nat) (need : Perm) (write : Bool) : Except EFail (Nat × State) :=
  match s.core.translate va need with
  | .cause c => .error (.susp (suspAt (3) va (none) true false), s.raiseEng g c (BitVec.ofNat 64 va) write 1)
  | .ia ia =>
    if s.landable ia need then .error (.susp (suspAt 2 ia none false write), s)
    else match s.reach s.core.s1root s.core.die ia need with
      | (.pa a, s) => .ok (a, if a < hostBase then s.recallOwn (lineOf ia) write else s)
      | (.fault f, s) =>
        let w := s.postWalk f (engAgent g) write ia (.engine g)
        .error (.susp (suspAt (2) ia (w.1) false false), w.2)

/-- Bytes [a, a + n), cut where a 64-byte line ends. -/
def pieces (a n : Nat) : List (Nat × Nat) :=
  if (a + n - 1) / 64 = a / 64 then [(a, n)] else [(a, 64 - a % 64), ((a / 64 + 1) * 64, n - (64 - a % 64))]

/-- Where a piece lies once it can be accessed: a place of the scratchpad, or a VA and its machine address. -/
inductive EAt where
  | spad (p : Place) | mem (va a : Nat)

/-- Stores and atomics of the core that precede the enqueue of the running command and are not performed (R218). -/
def State.before (s : State) (g : Engine) : List Parked :=
  match s.eng.head g with | some c => s.core.parked.filter fun p => decide (p.order < c.stamp) | none => []
/-- One of them, an atomic whose bytes are not known yet, shares bytes with the engine's access: also one that Freeze has cancelled, or
that has met a fault (R218, R387). -/
def State.mustHold (s : State) (g : Engine) (va n : Nat) : Bool :=
  let stamp := match s.eng.head g with | some c => c.stamp | none => 0
  let hit := fun (r : DefRec) =>
    r.access.write && r.access.ordered && !r.once && decide (r.order < stamp) && s.core.sameBytes r.va r.access.size va n
  (s.before g).any (fun p => !p.isStore && p.op.write && s.core.overlaps p va n)
    || (s.core.pend.any fun p => (p.record.map hit).getD false) || s.core.defrec.any fun e => (e.2.map hit).getD false
/-- An engine writes n bytes from a VA on: a store that precedes the enqueue, and has not been performed, comes before it, so that its
replay leaves these bytes (R387). -/
def State.engPast (s : State) (g : Engine) (va n : Nat) : State :=
  let bits := fun (x y : Nat) (old : BitVec 8) =>
    (List.range 8).foldl (fun (b : BitVec 8) i => if decide (y ≤ x + i) && decide (x + i < y + n) then b ||| (1#8 <<< i) else b) old
  let mark := fun (c : Core) (p : Parked) => match c.iaAt p.va, c.iaAt va with
    | some x, some y => { p with gone := bits x y p.gone }
    | _, _ => p
  let old := s.before g
  if old.isEmpty then s
  else s.onCore fun c => { c with parked := c.parked.map fun p => if p.isStore && old.contains p then mark c p else p }

def State.engAt (s : State) (g : Engine) (space a : Nat) (need : Perm) (write : Bool) : Except EFail (EAt × State) :=
  if space ≤ 1 then do let (p, s) ← s.engTouch g a write; return (.spad p, s)
  else do let (m, s) ← s.engReach g a need write; return (.mem a m, s)
/-- Every piece can be accessed. -/
def State.engPieces (s : State) (g : Engine) (space : Nat) (need : Perm) (write : Bool) : List (Nat × Nat) → Except EFail ((List (EAt × Nat)) × State)
  | [] => .ok ([], s)
  | (a, n) :: r => do
    let (p, s) ← s.engAt g space a need write
    let (ps, s) ← s.engPieces g space need write r
    return ((p, n) :: ps, s)
/-- A suspension knows the addresses that its access needs (R174). -/
def EStop.needing (e : EStop) (xs : List Nat) : EStop := match e with | .susp x => .susp { x with need := xs } | e => e
/-- The same; a suspension at one piece knows the others. -/
def State.engAll (s : State) (g : Engine) (space : Nat) (need : Perm) (write : Bool) (ps : List (Nat × Nat)) : Except EFail ((List (EAt × Nat)) × State) :=
  match s.engPieces g space need write ps with
  | .ok r => .ok r
  | .error (e, s) => .error (if space ≤ 1 then e.needing (ps.map (·.1)) else e, s)

/-- Read a piece, with its poison. An element in global memory shows the earlier stores of the core that are still in its store buffer
(R218). -/
def State.engGet (s : State) (g : Engine) (x : EAt × Nat) : List (BitVec 8) × Bool :=
  match x.1 with
  | .spad p => s.placeRd p x.2
  | .mem va a => match s.core.iaAt va with
    | some ia => (s.core.overlay (s.before g) ia (s.mem.rdN a x.2), s.mem.bad a)
    | none => (s.mem.rdN a x.2, s.mem.bad a)
/-- A piece in a page has been accessed (R171). -/
def State.engStamp (s : State) (x : EAt × Nat) : State := match x.1 with | .spad p => s.stampPage p | .mem _ _ => s
/-- Write a piece. -/
def State.engPut (s : State) (x : EAt × Nat) (bs : List (BitVec 8)) (bad : Bool) : Wrote × State :=
  match x.1 with
  | .spad p => (s.wroteAt p x.2 bad, (s.placeWr p bs bad).stampPage p)
  | .mem _ a => (⟨true, none, a, x.2, bad⟩, s.onMem fun m => let m := m.wrN a bs; if bad then m.setBad a true else m)
/-- Write consecutive pieces. -/
def State.engPutAll (s : State) (bad : Bool) : List (EAt × Nat) → List (BitVec 8) → List Wrote × State
  | [], _ => ([], s)
  | x :: r, bs =>
    let (w, s) := s.engPut x (bs.take x.2) bad
    let (ws, s) := s.engPutAll bad r (bs.drop x.2)
    (w :: ws, s)

/-- Read `n` bytes at an address of a space. -/
def State.engRead (s : State) (g : Engine) (space a n : Nat) : Except EFail ((List (BitVec 8) × Bool) × State) := do
  let (ps, s) ← s.engAll g space needR false (pieces a n)
  if 1 < space && s.mustHold g a n then .error (.hold, s)
  else
    let rs := ps.map fun p => s.engGet g p
    return (((rs.map (·.1)).flatten, rs.any (·.2)), ps.foldl (fun s p => s.engStamp p) s)
/-- Write bytes at an address of a space; the audit signature takes them (R366). -/
def State.engWrite (s : State) (g : Engine) (space a : Nat) (bs : List (BitVec 8)) (bad : Bool) : Except EFail (List Wrote × State) := do
  let (ps, s) ← s.engAll g space needW true (pieces a bs.length)
  if 1 < space && s.mustHold g a bs.length then throw (EStop.hold, s)
  let s := if 1 < space then s.engPast g a bs.length else s
  let (ws, s) := s.engPutAll bad ps bs
  return (ws, s.sign (engSig g) a bs)

/-! ### Elements -/

/-- The first byte that holds a bit of an element, the bit offset there, and the number of bytes. -/
def Desc.elemPlace (d : Desc) (x : List Nat) : Nat × Nat × Nat :=
  let (a, off) := d.place x
  if d.packed then (a + off / 8, off % 8, (off % 8 + d.bits - 1) / 8 + 1) else (a, 0, d.bits / 8)

/-- Read the element at coordinates x: its encoding and its poison. -/
def State.elemRead (s : State) (g : Engine) (d : Desc) (x : List Nat) : Except EFail ((Nat × Bool) × State) := do
  let (a, off, n) := d.elemPlace x
  let ((bs, bad), s) ← s.engRead g d.space a n
  return ((elemGet d.bits off bs, bad), s)
/-- Write the element at coordinates x. -/
def State.elemWrite (s : State) (g : Engine) (d : Desc) (x : List Nat) (v : Nat) (bad : Bool) : Except EFail (List Wrote × State) := do
  let (a, off, n) := d.elemPlace x
  if d.packed then
    let (ps, s) ← s.engAll g d.space needW true (pieces a n)
    let old := (ps.map fun p => (s.engGet g p).1).flatten
    s.engWrite g d.space a (elemPut d.bits off v old) bad
  else s.engWrite g d.space a (leBytes n v) bad

/-! ### Chases of engine reads (R133, R322 to R325) -/

/-- The group that CHP names, at run time. -/
def State.ownerAt (s : State) (chp : Nat) : Owner := if chp < 8 || chp - 8 = s.core.gpos then none else some (chp - 8)

/-- A follower's byte in the space of the producer's span. -/
def State.inProducer (s : State) (o : Owner) (dspace space a : Nat) : Option Nat :=
  if dspace ≤ 1 then
    if space ≤ 1 then match s.locate a with
      | .own o' x _ =>
        if dspace = 1 then some (0x8000000 + s.posOf o' * 2 ^ 24 + x) else if o' = o then some x else none
      | .cause _ _ => none
    else none
  else if dspace = space then some a else none

/-- What a chase becomes for an engine. -/
def chaseStop : Chase → Option EStop
  | .pass => none
  | .wait o n need true => some (.wait o n need)
  | .wait o n _ false => some (.halted o n)
  | .broken o n => some (.broken o n)
  | .unbound o n => some (.unbound o n)

/-- The binding at which the command waits has broken (R322, R323). -/
def Cmd.metBreak (c : Cmd) : Option EStop :=
  match c.armBroken, c.waitOn with | true, some (o, k) => some (.broken o k) | _, _ => none
/-- A named chase of `n` bytes at an address (R322): the binding that the command captured. -/
def State.namedChase (s : State) (c : Cmd) (o : Owner) (k space a n : Nat) : Option EStop :=
  let f := s.frontOf o k
  if f.state == .idle || f.kind == .ack then some (.unbound o k)
  else if f.gen != c.gen || f.state == .complete then none
  else match f.state, f.span with
    | .broken, _ => some (.broken o k)
    | _, none => none
    | _, some d => match s.inProducer o d.space space a with
      | some b => chaseStop (chaseFront (s.fcOf o) o k b n)
      | none => none

/-- The chase of a command's read of `n` bytes at an address. -/
def State.engChase (s : State) (g : Engine) (c : Cmd) (space a n : Nat) : Except EFail (Unit × State) :=
  let go := fun (e : Option EStop) => match e with | some e => Except.error (e, s) | none => .ok ((), s)
  let lost := Except.error (.susp (suspAt 5 a none true false), s.raiseEng g 0x0A (BitVec.ofNat 64 a) false 5)
  match c.chasing, c.metBreak with
  | .no, _ => .ok ((), s)
  | _, some e => .error (e, s)
  | .auto, none =>
    if 1 < space then .ok ((), s) else if (s.chase a n).lost s then lost else go (chaseStop (s.chase a n))
  | .named chp k, none =>
    let o := s.ownerAt chp
    if s.lostPeer o then lost
    else go (s.namedChase c o k space a n)

/-- A chased read of an element. -/
def State.readElem (s : State) (g : Engine) (c : Cmd) (d : Desc) (x : List Nat) : Except EFail ((Nat × Bool) × State) := do
  let (a, _, n) := d.elemPlace x
  let ((), s) ← s.engChase g c d.space a n
  s.elemRead g d x

/-! ### How a command stops and resumes -/

/-- The head command is cancelled. -/
def State.cancelHead (s : State) (g : Engine) : State :=
  match s.eng.head g with | some c => s.onEng fun e => e.cancel g fun x => x.stamp == c.stamp | none => s
/-- The command stops with its front broken: at a broken chased front the group takes 0x19 (R323); at an idle one or one of
acknowledgements 0x1A in the same way (R322). -/
def State.stopBroken (s : State) (g : Engine) (o : Owner) (n : Nat) (cause : Nat := 0x19) : State :=
  let f := (s.eng.head g).bind fun c => c.front
  let s := (s.cancelHead g).raiseEng g cause (s.frontTval o n) false 0
  match f with
  | some k => s.breakFront k 11
  | none => s

/-- Apply a stop to the head command, `k` elements of whose beat are committed. -/
def State.applyStop (s : State) (g : Engine) (k : Nat) (e : EStop) : State :=
  let front := (s.eng.head g).bind fun c => c.front
  let haltOwn := fun (s : State) (cause : Nat) => match front with | some n => s.haltFront n k cause | none => s
  let count := fun (s : State) => match front with
    | some f => if k = 0 then s else s.advanceFront f k
    | none => s
  match e with
  | .susp x =>
    let s := s.onHead g fun c => { c with susp := some x, waitOn := none }
    if x.cause = 0 then count s else haltOwn s x.cause
  | .wait o n need => s.onHead g fun c =>
      if c.waitOn == some (o, n) then { c with waitNeed := need }
      else { c with waitOn := some (o, n), waitNeed := need, timer := 0, timerAt := (s.frontOf o n).value }
  | .halted o n => haltOwn (s.onHead g fun c => { c with susp := some (suspAt 7 0 none false false), waitOn := some (o, n) }) 7
  | .broken o n => (count s).stopBroken g o n
  | .unbound o n => (count s).stopBroken g o n 0x1A
  | .hold => count s

/-- What suspended a command no longer holds; the LANDING event itself resolves what waits for a landing (R380). -/
def State.resolved (s : State) (c : Cmd) (x : Susp) : Bool :=
  if x.stay then false
  else match x.waits with
    | some id => !s.waiting id
    | none => match x.cause with
      | 2 => false
      | 7 => match c.waitOn with
        | some (o, n) => (s.frontOf o n).state != .halted
        | none => true
      | _ => match s.touch x.addr x.write with | .at _ => true | _ => false

/-- A product of the matrix engine (R144, R145). -/
def Cmd.product (c : Cmd) : Bool := match c.ins with | .mma _ => true | .mmar _ => true | .mmad _ => true | _ => false
/-- The group is frozen for a move, or stopped by a nested trap: its engines stop as at pre-emption (R158, R262). -/
def Core.halting (c : Core) : Bool := c.run == .frozen || c.run == .stopped
/-- While the group is frozen for a move, an engine stops at its beat boundary; a running product goes on to its end (R145,
R262). -/
def State.stopped (s : State) (c : Cmd) : Bool := s.core.halting && !c.product

/-- The head command goes on, with its front (R381). -/
def State.resumeHead (s : State) (g : Engine) : State :=
  match s.eng.head g with
  | some c =>
    let s := s.onHead g fun c => { c with susp := none, waitOn := if c.armBroken then c.waitOn else none }
    match c.front with | some n => s.resumeFront n | none => s
  | none => s
/-- A head command whose suspension is over goes on. -/
def State.tryResume (s : State) (g : Engine) : State :=
  if s.core.halting then s
  else match s.eng.head g with
  | some c => match c.susp with
    | some x => if s.resolved c x then s.resumeHead g else s
    | none => s
  | none => s

/-- The head command that can move: started and not suspended. -/
def State.movable (s : State) (g : Engine) : Option Cmd :=
  match s.eng.head g with
  | some c => if c.started && c.susp.isNone && !s.stopped c then some c else none
  | none => none

/-! ### Enqueue (R125, R243, R318, R324) -/

/-- SRCNT after an engine command of n elements (R60). -/
def Core.useEng (c : Core) (mode n : Nat) : Core :=
  if mode = 4 then { c with srcnt := c.srcnt + BitVec.ofNat 32 ((n + 63) / 64) } else c
/-- The rounding mode of the element at walk index k of a command. -/
def Cmd.drawMode (c : Cmd) (grp k : Nat) : RMode :=
  ⟨c.mode.toNat, if c.mode = 4 then srDraw c.seed grp (k % 64) ((c.srBase.toNat + k / 64) % 2 ^ 32) else 0⟩

/-- Span invalid (0x21) with the word of the command. -/
def captureFail (w : BitVec 64) (s : State) : Halt := .trap 9 0x21 w noStage s
/-- A field value that depends on captured state raises 0x02. -/
def captureIllegal (w : BitVec 64) (s : State) : Halt := .trap 9 0x02 w noStage s

/-- The checks of the front that a command chases or is armed on (R323, R324, R325): its owner, number and generation.
`own` are the fronts bound by the command itself and by later slots. -/
def State.checkChase (s : State) (w : BitVec 64) (chp n : Nat) (armed : Bool) (own : List Nat) : Except Halt (Owner × BitVec 16) := do
  let o ← s.chpOwner w chp n
  if o.isNone && own.contains n then .error (.trap 9 0x1B w noStage s)
  else
    let f := s.frontOf o n
    if f.state == .idle || (o.isNone && !armed && f.kind == .ack) then .error (.trap 9 0x1A (s.frontTval o n) noStage s)
    else return (o, f.gen)

/-- The descriptor of a number, which must be valid. -/
def State.validDesc (s : State) (w : BitVec 64) (n : Nat) : Except Halt Desc :=
  let d := s.core.rdD n
  if d.valid then .ok d else .error (captureFail w s)

/-- Put a captured command in its queue. -/
def State.enqueue (s : State) (g : Engine) (c : Cmd) : State :=
  let c := { c with stamp := s.sys.order, tag := s.core.rqtag, seed := s.core.seed, rbound := s.core.rbound }
  { s with
    eng := s.eng.setQueue g (s.eng.queue g ++ [c])
    sys := { s.sys with order := s.sys.order + 1 } }

end Sys2Proof.Machine
end

