-- ==== Sys2Proof/Machine/Matrix.lean ====
section
/-! DEFINITION. The M slot: MMA, MMAR, MMAD, MCLR, MDRAIN, MSET (R121 to R143): their checks and their capture. -/

namespace Sys2Proof.Machine

/-! ### Shapes (R121, R129) -/

/-- Element codes that the array takes: floating point, or integer (R129). -/
def mmFloat (t : BitVec 4) : Bool := decide (1 ≤ t.toNat ∧ t.toNat ≤ 7)
def mmInt (t : BitVec 4) : Bool := t == 10 || t == 11 || t == 14
/-- Codes that take scales. -/
def mmScaled (t : BitVec 4) : Bool := decide (3 ≤ t.toNat ∧ t.toNat ≤ 7)
/-- Chunk depth of two operand formats (R121). -/
def chunkDepth (a b : BitVec 4) : Nat :=
  let n := Nat.max (fmtOf a.toNat).bits (fmtOf b.toNat).bits
  if 16 ≤ n then 64 else if 6 ≤ n then 128 else 256
/-- Block size of a code (R130). -/
def blkOf (c : BitVec 2) : Nat := 16 * 2 ^ c.toNat
/-- The own scratchpad or the gang window (R129). -/
def Desc.near (d : Desc) : Bool := decide (d.space ≤ 1)
/-- M and K of an A span. -/
def Desc.rows (d : Desc) : Nat := d.dims.getLastD 0
def Desc.depth (d : Desc) : Nat := natProd d.dims.dropLast
/-- A size from 1 to 64. -/
def tile (n : Nat) : Bool := decide (1 ≤ n ∧ n ≤ 64)
/-- N of a B span against A, or none where its extents do not match. -/
def widthOf (a b : Desc) (west : Bool) : Option Nat :=
  let k := a.dims.dropLast
  if a.rank != b.rank then none
  else if west then (if b.dims.dropLast == k then some (b.dims.getLastD 0) else none)
  else if b.dims.tail == k then some (b.dims.headD 0) else none
/-- A scale span of the right shape. -/
def scaleOk (d : Desc) (k blk n : Nat) : Bool :=
  d.valid && d.near && d.etype == 15 && d.rank == 2 && k % blk == 0 && d.dims == [k / blk, n]

/-- The shape record of a chunk (R123). -/
def Cmd.chunkRecord (c : Cmd) : Option Latch :=
  let a := c.descs.getD 0 {}
  let b := c.descs.getD 1 {}
  match c.ins with
  | .mma w => recordOf w a b
  | .mmad w => recordOf w a b
  | _ => none
where
  recordOf (w : MmaForm) (a b : Desc) : Option Latch :=
    let depth := chunkDepth a.etype b.etype
    let k := a.depth
    some ⟨b.etype, w.west == 1, (widthOf a b (w.west == 1)).getD 0, k - (k - 1) / depth * depth, w.mxb == 1, blkOf w.blkb, [], false, []⟩
/-- The latch that the commands already queued will leave (R132). -/
def Eng.latchLeft (e : Eng) : Option Latch :=
  match (e.mq.filterMap Cmd.chunkRecord).getLast? with
  | some r => some r
  | none => e.latch

/-- The A operand and its scales hold (R129). -/
def aOk (c : Core) (w : MmaForm) (a sa : Desc) : Bool :=
  a.valid && a.near && (mmFloat a.etype || mmInt a.etype) && decide (2 ≤ a.rank) && tile a.rows
    && decide (a.depth ≤ c.rbound) && (w.mxa == 0 || (mmScaled a.etype && scaleOk sa a.depth (blkOf w.blka) a.rows))
/-- The operands of MMA and MMAD hold: N. -/
def abOk (c : Core) (w : MmaForm) (a b sa sb : Desc) : Option Nat :=
  if aOk c w a sa && b.valid && b.near && (mmFloat b.etype || mmInt b.etype) && mmFloat a.etype == mmFloat b.etype then
    match widthOf a b (w.west == 1) with
    | some n =>
      if tile n && (w.mxb == 0 || (mmScaled b.etype && scaleOk sb a.depth (blkOf w.blkb) n)) then some n else none
    | none => none
  else none
/-- A matches the resident chunk of MMAR. -/
def latchOk (a : Desc) (r : Latch) : Bool := mmFloat a.etype == mmFloat r.etype && a.depth == r.kcount

/-- Bounds of the branches of a map: (first K, K after the last, curve) (R312). -/
def branchesFrom (lo : Nat) : List (BitVec 32) → List (Nat × Nat × Nat)
  | [] => []
  | w :: r =>
    if w.getLsbD 31 then (lo, mapLast w + 1, (w.extractLsb' 20 4).toNat) :: branchesFrom (mapLast w + 1) r else []
/-- The map covers 0 to K − 1, with boundaries at multiples of the granularity (R134). -/
def mapCovers (m : List (BitVec 32)) (k gran : Nat) : Bool :=
  let bs := branchesFrom 0 m
  (match bs.getLast? with | some b => b.2.1 == k | none => false) && bs.all fun b => b.1 % gran == 0

/-! ### MMA, MMAR, MMAD -/

/-- The four descriptors of a product word: A, B, and their scales. -/
def Core.mmDescs (c : Core) (w : MmaForm) : List Desc :=
  [c.rdD w.da.toNat, c.rdD w.db.toNat, if w.mxa = 1 then c.rdD w.dsa.toNat else {}, if w.mxb = 1 then c.rdD w.dsb.toNat else {}]

/-- The chase of a product: the front, its owner and its generation. -/
def State.captureMm (s : State) (word : BitVec 64) (w : MmaForm) (own : List Nat) : Except Halt (Option (Owner × Nat × BitVec 16)) :=
  match MmaForm.chasing w with
  | .named chp n => do let r ← s.checkChase word chp n false own; return some (r.1, n, r.2)
  | _ => .ok none
/-- The position that CHP names exists (R325), at decode. -/
def State.mmPeer (s : State) (word : BitVec 64) (w : MmaForm) : Except Halt Unit :=
  match MmaForm.chasing w with
  | .named chp n => do let _ ← s.chpOwner word chp n; return ()
  | _ => .ok ()
/-- A command with the front that it chases. -/
def Cmd.follow (c : Cmd) (f : Option (Owner × Nat × BitVec 16)) : Cmd :=
  match f with | some (o, n, g) => { c with gen := g, armOn := some (o, n) } | none => c

/-- A full M queue stalls the bundle (R127). -/
def State.mRoom (s : State) : Except Halt Unit := if 8 ≤ s.eng.mq.length then .error (.stall 8 .other s) else .ok ()

/-- MMA (R129 to R131). -/
def runMma (w : MmaForm) (pre : State) (later : List Nat) (s : State) : Res :=
  if !pre.core.rdP w.p.toNat then .ok s
  else do
    let word := lWord (.mma w)
    s.mmPeer word w
    s.mRoom
    let ds := s.core.mmDescs w
    if (abOk s.core w (ds.getD 0 {}) (ds.getD 1 {}) (ds.getD 2 {}) (ds.getD 3 {})).isNone then .error (captureFail word s)
    else
      let f ← s.captureMm word w later
      return s.enqueue .matrix (Cmd.follow { ins := .mma w, word := word, descs := ds } f)
def execMma (w : MmaForm) (s : State) : Out := finish (runMma w s [] s)

/-- MMAR (R132). -/
def runMmar (w : MmaForm) (pre : State) (later : List Nat) (s : State) : Res :=
  if !pre.core.rdP w.p.toNat then .ok s
  else do
    let word := lWord (.mmar w)
    s.mmPeer word w
    s.mRoom
    let ds := s.core.mmDescs w
    let a := ds.getD 0 {}
    match s.eng.latchLeft with
    | none => .error (captureFail word s)
    | some r =>
      if !(aOk s.core w a (ds.getD 2 {}) && latchOk a r) then .error (captureFail word s)
      else
        let f ← s.captureMm word w later
        return s.enqueue .matrix (Cmd.follow { ins := .mmar w, word := word, descs := ds } f)
def execMmar (w : MmaForm) (s : State) : Out := finish (runMmar w s [] s)

/-- The tap front of MMAD and its checks (R134, R136): the configuration, where TAP is not 00. -/
def State.tapCheck (s : State) (word : BitVec 64) (w : MmaForm) (n m b : Nat) : Except Halt (Option (Desc × Nat)) :=
  if w.tap = 0 then .ok none
  else match s.eng.tap with
    | none => .error (captureFail word s)
    | some (d, f) => if d.dims == [n, m, b] && s.frontFree f then .ok (some (d, f)) else .error (captureFail word s)

/-- The tap front is bound anew (R136). -/
def State.bindTap (s : State) (t : Option (Desc × Nat)) : State :=
  match t with | some (d, n) => s.bindFront n (some d) d.count [2, 1, 0] .tap .matrix | none => s

/-- MMAD (R134 to R136). -/
def runMmad (w : MmaForm) (pre : State) (later : List Nat) (s : State) : Res :=
  if !pre.core.rdP w.p.toNat then .ok s
  else do
    let word := lWord (.mmad w)
    s.mmPeer word w
    s.mRoom
    let ds := s.core.mmDescs w
    let a := ds.getD 0 {}
    let b := ds.getD 1 {}
    if mmInt a.etype || mmInt b.etype then .error (captureIllegal word s)
    else match abOk s.core w a b (ds.getD 2 {}) (ds.getD 3 {}), sget none s.core.bmap w.bm.toNat with
      | some n, some map =>
        if !mapCovers map a.depth (chunkDepth a.etype b.etype / 4) then .error (captureFail word s)
        else
          let tap ← s.tapCheck word w n a.rows (branchesFrom 0 map).length
          let f ← s.captureMm word w ((match tap with | some t => [t.2] | none => []) ++ later)
          let c : Cmd := { ins := .mmad w, word := word, descs := ds, bmap := map, tap := tap, front := tap.map (·.2) }
          return (s.bindTap tap).enqueue .matrix (Cmd.follow c f)
      | _, _ => .error (captureFail word s)
def execMmad (w : MmaForm) (s : State) : Out := finish (runMmad w s [] s)

/-! ### MCLR and MDRAIN -/

/-- MCLR (R137). -/
def runMclr (w : MclrForm) (pre : State) (_later : List Nat) (s : State) : Res :=
  if !pre.core.rdP w.p.toNat then .ok s
  else do
    s.mRoom
    return s.enqueue .matrix { ins := .mclr w, word := lWord (.mclr w) }
def execMclr (w : MclrForm) (s : State) : Out := finish (runMclr w s [] s)

/-- N and M of a drain's destination by layout (R139): none where its extents do not fit. -/
def drainShape (lay : Nat) (dims : List Nat) : Option (Nat × Nat) :=
  match lay, dims with
  | 2, [8, 8, a, b] => some (8 * a, 8 * b)
  | 2, _ => none
  | 3, [m, n] => some (n, m)
  | 3, _ => none
  | _, [n, m] => some (n, m)
  | _, _ => none
/-- Walk order of a drain. -/
def drainWalk (lay : Nat) : List Nat := match lay with | 1 => [0, 1] | 2 => [3, 2, 1, 0] | _ => [1, 0]
/-- Elements of a beat. -/
def drainBeatSize (lay n m : Nat) : Nat := match lay with | 1 => m | 2 => 64 | 3 => m | _ => n
/-- Row i and column j of a coordinate. -/
def drainIJ (lay : Nat) (x : List Nat) : Nat × Nat :=
  match lay with
  | 2 => (x.getD 1 0 + 8 * x.getD 3 0, x.getD 0 0 + 8 * x.getD 2 0)
  | 3 => (x.getD 0 0, x.getD 1 0)
  | _ => (x.getD 1 0, x.getD 0 0)

/-- The checks of R139 on a span destination: the drained region. -/
def State.drainCheck (s : State) (word : BitVec 64) (w : MdrainForm) : Except Halt (Nat × Nat) :=
  let d := s.core.rdD w.dd.toNat
  let ds := s.core.rdD w.ds.toNat
  match drainShape w.lay.toNat d.dims with
  | none => .error (captureFail word s)
  | some (n, m) =>
    let mx := w.lay != 4 || scaleOk ds n (blkOf w.blk) m
    let free := w.fen == 0 || (d.inj && s.frontFree w.fc.toNat)
    if d.valid && tile n && tile m && d.near && d.etype == w.ot && mx && free then .ok (n, m) else .error (captureFail word s)

/-- MDRAIN (R138 to R142). -/
def runMdrain (w : MdrainForm) (pre : State) (_later : List Nat) (s : State) : Res :=
  if !pre.core.rdP w.p.toNat then .ok s
  else do
    let word := lWord (.mdrain w)
    s.mRoom
    let mode := s.core.modeOf w.rm.toNat
    let span := w.dst == 0
    let (n, m) ← if span then s.drainCheck word w else .ok (64, 64)
    let d := s.core.rdD w.dd.toNat
    let front := if w.fen = 1 then some w.fc.toNat else none
    let ds := if span then [d, s.core.rdD w.ds.toNat] else []
    let c : Cmd :=
      { ins := .mdrain w, word := word, mode := BitVec.ofNat 3 mode, srBase := s.core.srcnt, descs := ds, front := front }
    let t := if w.fen = 1 then s.bindFront w.fc.toNat (some d) (n * m) (drainWalk w.lay.toNat) .span .matrix else s
    return (t.enqueue .matrix c).onCore fun c => c.useEng mode (n * m)
def execMdrain (w : MdrainForm) (s : State) : Out := finish (runMdrain w s [] s)

/-! ### MSET (R143) -/

/-- MSET rbound, n. -/
def runMsetRbound (w : MsetForm) (pre : State) (_later : List Nat) (s : State) : Res :=
  if pre.core.rdP w.p.toNat then .ok (s.onCore fun c => { c with rbound := w.n.toNat + 1 }) else .ok s
def execMsetRbound (w : MsetForm) (s : State) : Out := finish (runMsetRbound w s [] s)
/-- MSET tap. -/
def runMsetTap (w : MsetForm) (pre : State) (_later : List Nat) (s : State) : Res :=
  if pre.core.rdP w.p.toNat then
    let d := s.core.rdD w.dt.toNat
    if d.valid && d.etype == 0 && d.rank == 3 && d.near && d.inj then
      .ok (s.onEng fun e => { e with tap := some (d, w.fc.toNat) })
    else .error (captureFail (lWord (.msetTap w)) s)
  else .ok s
def execMsetTap (w : MsetForm) (s : State) : Out := finish (runMsetTap w s [] s)
/-- MSET notap. -/
def runMsetNotap (w : MsetForm) (pre : State) (_later : List Nat) (s : State) : Res :=
  if pre.core.rdP w.p.toNat then .ok (s.onEng fun e => { e with tap := none }) else .ok s
def execMsetNotap (w : MsetForm) (s : State) : Out := finish (runMsetNotap w s [] s)

end Sys2Proof.Machine
end

