-- ==== Sys2Proof/Machine/MatrixRun.lean ====
section
/-! DEFINITION. How the matrix engine runs its commands: chunks and rows of a product, branches and taps, drains
(R66, R67, R131 to R136, R140 to R145). -/

namespace Sys2Proof.Machine

/-! ### Accumulators -/

/-- Phase of a product that streams rows, of one that evaluates curves, and of a finished command. -/
def phaseRows : Nat := 0
def phaseTaps : Nat := 1
def phaseDone : Nat := 2

def accIdx (a i j : Nat) : Nat := a * 4096 + 64 * i + j
def Eng.accAt (e : Eng) (a i j : Nat) : BitVec 32 := sget 0 e.acc (accIdx a i j)
def Eng.setAcc (e : Eng) (a i j : Nat) (v : BitVec 32) : Eng := { e with acc := sset 0 e.acc (accIdx a i j) v }
def Eng.rowBad (e : Eng) (a i : Nat) : Bool := sget false e.accBad (a * 64 + i)
def Eng.setRowBad (e : Eng) (a i : Nat) (v : Bool) : Eng := { e with accBad := sset false e.accBad (a * 64 + i) v }
/-- The region of m rows and n columns starts from zero; a row written whole loses its poison (R356). -/
def Eng.zeroRegion (e : Eng) (a m n : Nat) : Eng :=
  (List.range m).foldl
    (fun e i =>
      let e := (List.range n).foldl (fun (e : Eng) j => e.setAcc a i j 0) e
      if n = 64 then e.setRowBad a i false else e) e
/-- MCLR of one accumulator. -/
def Eng.clearAcc (e : Eng) (a : Nat) : Eng :=
  { e with acc := sclear e.acc (a * 4096) 4096, accBad := sclear e.accBad (a * 64) 64 }

/-! ### Reading operands -/

/-- Coordinates of K index k in the K dimensions, dimension 0 fastest (R129). -/
def kCoords (dims : List Nat) (k : Nat) : List Nat := coordsOf (List.range dims.length).reverse dims k
def aCoords (a : Desc) (k i : Nat) : List Nat := kCoords a.dims.dropLast k ++ [i]
def bCoords (b : Desc) (west : Bool) (k j : Nat) : List Nat :=
  if west then kCoords b.dims.dropLast k ++ [j] else j :: kCoords b.dims.tail k

/-- Read listed elements of a span in order: the encodings by key, and whether one is poisoned. -/
def State.readKeys (s : State) (c : Cmd) (d : Desc) : List (Nat × List Nat) → Except EFail ((Sparse (BitVec 32) × Bool) × State)
  | [] => .ok (([], false), s)
  | (k, x) :: r => do
    let ((v, bad), s) ← s.readElem .matrix c d x
    let ((vs, bad'), s) ← s.readKeys c d r
    let e : Sparse (BitVec 32) := if v = 0 then vs else (k, BitVec.ofNat 32 v) :: vs
    return ((e, bad || bad'), s)

/-- A span of numbers. -/
def fromTo (lo hi : Nat) : List Nat := (List.range (hi - lo)).map fun k => lo + k

/-- Load chunk q of the stationary operand with its scales (R131, R133). -/
def State.loadChunk (s : State) (c : Cmd) (w : MmaForm) (q : Nat) : Except EFail (Latch × State) := do
  let a := c.descs.getD 0 {}
  let b := c.descs.getD 1 {}
  let depth := chunkDepth a.etype b.etype
  let west := w.west == 1
  let n := (widthOf a b west).getD 0
  let lo := q * depth
  let hi := Nat.min (lo + depth) a.depth
  let keys := ((fromTo lo hi).map fun k => (List.range n).map fun j => ((k - lo) * 64 + j, bCoords b west k j)).flatten
  let ((data, bad), s) ← s.readKeys c b keys
  let blk := blkOf w.blkb
  let skeys := if w.mxb = 1 then
      ((fromTo (lo / blk) ((hi + blk - 1) / blk)).map fun t => (List.range n).map fun j => ((t - lo / blk) * 64 + j, [t, j])).flatten
    else []
  let ((scales, bad'), s) ← s.readKeys c (c.descs.getD 3 {}) skeys
  return (⟨b.etype, west, n, hi - lo, w.mxb == 1, blk, data, bad || bad', scales⟩, s)

/-- Read the elements of row i of A for K indices [lo, hi), with their scales. -/
def State.readRow (s : State) (c : Cmd) (w : MmaForm) (i lo hi : Nat) :
    Except EFail ((Sparse (BitVec 32) × Sparse (BitVec 32) × Bool) × State) := do
  let a := c.descs.getD 0 {}
  let ((xs, bad), s) ← s.readKeys c a ((fromTo lo hi).map fun k => (k, aCoords a k i))
  let blk := blkOf w.blka
  let skeys := if w.mxa = 1 then (fromTo (lo / blk) ((hi + blk - 1) / blk)).map fun t => (t, [t, i]) else []
  let ((ss, bad'), s) ← s.readKeys c (c.descs.getD 2 {}) skeys
  return ((xs, ss, bad || bad'), s)

/-! ### Arithmetic of a row (R66, R131) -/

/-- An exact product of an element and its scale. -/
def scaled (v : Val) (scale : Option (BitVec 32)) : Val :=
  match scale with | some x => (v.mul (Fmt.e8m0.val x.toNat)).1 | none => v
/-- A[i,k] with its scale. -/
def aVal (w : MmaForm) (t : BitVec 4) (row scales : Sparse (BitVec 32)) (k : Nat) : Val :=
  scaled ((fmtOf t.toNat).val (sget 0 row k).toNat) (if w.mxa = 1 then some (sget 0 scales (k / blkOf w.blka)) else none)
/-- B[k,j] with its scale, from a chunk that begins at K index `base`. -/
def bVal (r : Latch) (base k j : Nat) : Val :=
  scaled ((fmtOf r.etype.toNat).val (sget 0 r.data ((k - base) * 64 + j)).toNat)
    (if r.mx then some (sget 0 r.scales ((k - base) / r.blk * 64 + j)) else none)

/-- An INT32 encoding as an integer, and the product of two integer encodings. -/
def intEnc (t : BitVec 4) (x : BitVec 32) : Int :=
  match fmtOf t.toNat with | .int sg n => intOf sg n x.toNat | _ => 0

/-- acc[i,j] after the chunk's K indices `ks`. -/
def mmElem (w : MmaForm) (ta : BitVec 4) (row scales : Sparse (BitVec 32)) (r : Latch) (base : Nat) (ks : List Nat) (j : Nat)
    (acc : BitVec 32) : BitVec 32 :=
  if mmFloat ta then
    let t := (exactSum (ks.map fun k => ((aVal w ta row scales k).mul (bVal r base k j)).1) false).1
    BitVec.ofNat 32 ((Fmt.fp fp32).round (exactSum [fp32.val acc.toNat, t] false).1 rne).1
  else
    let t := (ks.map fun k => intEnc ta (sget 0 row k) * intEnc r.etype (sget 0 r.data ((k - base) * 64 + j))).sum
    BitVec.ofInt 32 (satInt true 32 (acc.toInt + t))

/-- One A row against the chunk. -/
def Eng.mmRow (e : Eng) (w : MmaForm) (ta : BitVec 4) (row scales : Sparse (BitVec 32)) (bad : Bool) (r : Latch) (base : Nat)
    (ks : List Nat) (i : Nat) : Eng :=
  let a := w.acc.toNat
  let e := (List.range r.n).foldl (fun (e : Eng) j => e.setAcc a i j (mmElem w ta row scales r base ks j (e.accAt a i j))) e
  if bad || r.bad then e.setRowBad a i true else e

/-! ### Progress of a product -/

/-- The bounds of the branch at hand: the whole of K for MMA and MMAR. -/
def Cmd.branchBounds (c : Cmd) : Nat × Nat × Nat :=
  match c.ins with
  | .mmad _ => (branchesFrom 0 c.bmap).getD c.branch (0, 0, 0)
  | _ => (0, (c.descs.getD 0 {}).depth, 0)
/-- Chunk depth of a product; MMAR has one chunk. -/
def Cmd.chunkLen (c : Cmd) : Nat :=
  match c.ins with
  | .mmar _ => (c.descs.getD 0 {}).depth
  | _ => chunkDepth (c.descs.getD 0 {}).etype (c.descs.getD 1 {}).etype
/-- M of a product. -/
def Cmd.mmM (c : Cmd) : Nat := (c.descs.getD 0 {}).rows
/-- N of a product, by the chunk at hand. -/
def Cmd.mmN (c : Cmd) (e : Eng) : Nat :=
  match mmaOf c.ins with
  | some w => match c.ins with
    | .mmar _ => match e.latch with | some r => r.n | none => 0
    | _ => (widthOf (c.descs.getD 0 {}) (c.descs.getD 1 {}) (w.west == 1)).getD 0
  | none => 0

/-- The product is finished: its last chunk stays resident (R131, R132). -/
def State.finishMm (s : State) : State :=
  let e := s.eng
  let keep := match e.mq.head? with
    | some c => (match c.ins with | .mmar _ => e.latch | _ => e.staging.or e.latch)
    | none => e.latch
  (s.onEng fun e => { e with latch := keep, staging := none, shadow := none }).onHead .matrix fun c => { c with phase := phaseDone }

/-- After the last row of a chunk: the next chunk of the branch, the curves of a branch, or the end. -/
def State.nextChunk (s : State) (c : Cmd) : State :=
  let s := s.onEng fun e => { e with shadow := none }
  let (_, hi, _) := c.branchBounds
  if (c.chunk + 1) * c.chunkLen < hi then
    (s.onEng fun e => { e with staging := none }).onHead .matrix fun c => { c with chunk := c.chunk + 1, row := 0 }
  else match c.ins with
    | .mmad _ => s.onHead .matrix fun c => { c with phase := phaseTaps, row := 0, pos := 0 }
    | _ => s.finishMm

/-- MATRIX_BEAT (R131, R133): one A row against the chunk at hand, which is loaded before its first row. A row counts one beat against
a chunk, however many branches meet there (R144). -/
def State.matrixBeat (s : State) : State :=
  let s := s.tryResume .matrix
  match s.movable .matrix with
  | none => s
  | some c => match mmaOf c.ins with
    | none => s
    | some w =>
      if c.phase != phaseRows then s
      else
        let (lo, hi, _) := c.branchBounds
        let base := c.chunk * c.chunkLen
        let chunk : Except EFail (Option Latch × State) := match c.ins with
          | .mmar _ => .ok (s.eng.latch, s)
          | _ => match s.eng.staging with
            | some r => .ok (some r, s)
            | none => do let (r, s) ← s.loadChunk c w c.chunk; return (some r, s.onEng fun e => { e with staging := some r })
        match chunk with
        | .error (x, s) => s.applyStop .matrix 0 x
        | .ok (none, s) => s.finishMm
        | .ok (some r, s) =>
          let klo := Nat.max lo base
          let khi := Nat.min hi (base + c.chunkLen)
          match s.readRow c w c.row klo khi with
          | .error (x, s) => s.applyStop .matrix 0 x
          | .ok ((row, scales, bad), s) =>
            let s := s.onEng fun e => if c.row = 0 then { e with shadow := some (e.acc, e.accBad) } else e
            let s := s.onEng fun e => e.mmRow w (c.descs.getD 0 {}).etype row scales bad r base (fromTo klo khi) c.row
            let s := s.onHead .matrix fun c => { c with row := c.row + 1, waitOn := none }
            let s := if lo ≤ base then s.countBeat else s
            if c.row + 1 < c.mmM then s else s.nextChunk c
def execMatrixBeat (s : State) : Out := done s.matrixBeat

/-! ### Curves and taps (R135, R136) -/

/-- The tree element after a branch's curve. -/
def treeSum (tree f : BitVec 32) : BitVec 32 :=
  BitVec.ofNat 32 ((Fmt.fp fp32).round (exactSum [fp32.val tree.toNat, fp32.val f.toNat] false).1 rne).1

/-- The tap element: the sum itself, or the slope. -/
def tapValue (w : MmaForm) (v : BitVec 32) (slope : Nat) : Nat := if w.tap = 1 then v.toNat else slope

/-- Evaluate columns j of row i of a branch; what stopped it, and how many columns are done. -/
def State.tapCols (s : State) (c : Cmd) (w : MmaForm) (k : Nat) : List Nat → Nat → Option EStop × Nat × State
  | [], done => (none, done, s)
  | j :: r, done =>
    let a := w.acc.toNat
    let v := s.eng.accAt a c.row j
    let cv := s.core.rdCurve k
    let x := fp32.val v.toNat
    let f := (cv.value x).1
    let skip := c.treeDone && done = 0
    let s := if skip then s else s.onEng fun e =>
      let e := e.setAcc (a + 1) c.row j (treeSum (e.accAt (a + 1) c.row j) (BitVec.ofNat 32 f))
      if e.rowBad a c.row then e.setRowBad (a + 1) c.row true else e
    match c.tap with
    | none => s.tapCols c w k r (done + 1)
    | some (d, _) =>
      match s.elemWrite .matrix d [j, c.row, c.branch] (tapValue w v (cv.slope x).1) (s.eng.rowBad a c.row) with
      | .ok (_, s) => s.tapCols c w k r (done + 1)
      | .error (e, s) => (some e, done, s)

/-- The next branch, or the end. -/
def State.nextBranch (s : State) (c : Cmd) : State :=
  let bs := branchesFrom 0 c.bmap
  match bs[c.branch + 1]? with
  | none => s.finishMm
  | some (lo, _, _) =>
    let q := lo / c.chunkLen
    let n := c.mmN s.eng
    let s := s.onEng fun e => e.zeroRegion (match mmaOf c.ins with | some w => w.acc.toNat | none => 0) c.mmM n
    let s := if q = c.chunk then s else s.onEng fun e => { e with staging := none }
    s.onHead .matrix fun c => { c with branch := c.branch + 1, chunk := q, row := 0, pos := 0, phase := phaseRows, treeDone := false }

/-- TAP_BEAT: the curves of one row of a branch. -/
def State.tapBeat (s : State) : State :=
  let s := s.tryResume .matrix
  match s.movable .matrix with
  | none => s
  | some c => match c.ins with
    | .mmad w =>
      if c.phase != phaseTaps then s
      else
        let n := c.mmN s.eng
        let (_, _, curve) := c.branchBounds
        match s.tapCols c w curve (fromTo c.pos n) 0 with
        | (some e, k, s) =>
          (s.onHead .matrix fun c => { c with pos := c.pos + k, treeDone := true }).applyStop .matrix k e
        | (none, k, s) =>
          let s := match c.front with | some f => s.advanceFront f k | none => s
          let s := (s.onHead .matrix fun c => { c with row := c.row + 1, pos := 0, treeDone := false }).countBeat
          if c.row + 1 < c.mmM then s else s.nextBranch c
    | _ => s
def execTapBeat (s : State) : Out := done s.tapBeat

/-! ### Drains (R140 to R142) -/

/-- amax after one more value: NaN sticks (R140). -/
def amaxNext (old x : BitVec 32) : BitVec 32 :=
  let a := fp32.val old.toNat
  let v := (fp32.val x.toNat).abs
  if a.isNaN || v.isNaN then 0x7FC00000 else if a.lt v then BitVec.ofNat 32 (x.toNat % 2 ^ 31) else old

/-- Scale byte of a block of a row: columns [lo, hi) (R65, R140). -/
def Eng.blockScale (e : Eng) (w : MdrainForm) (i lo hi : Nat) : Nat :=
  let vs := (fromTo lo hi).map fun j => (fp32.val (e.accAt w.acc.toNat i j).toNat).abs
  match fmtOf w.ot.toNat with
  | .fp f => makeScale (vs.foldl (fun a v => Val.minmax true a v) (.zero false)) f.emax
  | _ => 0

/-- The converted element (i, j) of a drain. -/
def Eng.drainElem (e : Eng) (w : MdrainForm) (i j : Nat) (mode : RMode) : Nat :=
  let x := e.accAt w.acc.toNat i j
  match fmtOf w.ot.toNat with
  | .fp f =>
    if w.lay = 4 then
      let b := blkOf w.blk
      scaledElem f (e.blockScale w i (j / b * b) (j / b * b + b)) (fp32.val x.toNat) mode
    else ((Fmt.fp f).deliver (w.sat == 1) (fp32.val x.toNat) mode).1
  | .int sg n => natOf n (if w.sat = 1 then satInt sg n x.toInt else x.toInt)
  | .e8m0 => 0

/-- amax takes the accumulator's value. -/
def Eng.drainAmax (e : Eng) (w : MdrainForm) (i j : Nat) : Eng :=
  if w.aen = 1 then
    { e with amax := sset 0 e.amax w.amx.toNat (amaxNext (e.rdAmax w.amx.toNat) (e.accAt w.acc.toNat i j)) }
  else e

/-- Write the scales of listed blocks of row i, which come before its elements (R140). -/
def State.drainScales (s : State) (c : Cmd) (w : MdrainForm) (i : Nat) (bad : Bool) : List Nat → Except EFail (List Wrote × State)
  | [] => .ok ([], s)
  | q :: r => do
    let b := blkOf w.blk
    let (ws, s) ← s.elemWrite .matrix (c.descs.getD 1 {}) [q, i] (s.eng.blockScale w i (q * b) (q * b + b)) bad
    let (ws', s) ← s.drainScales c w i bad r
    return (ws ++ ws', s)
/-- Drain the elements at walk indices k into a span; what stopped it, how many are done, and the stores. -/
def State.drainSpan (s : State) (c : Cmd) (w : MdrainForm) : List Nat → Nat → List Wrote → Option EStop × Nat × List Wrote × State
  | [], done, ws => (none, done, ws, s)
  | k :: r, done, ws =>
    let d := c.descs.getD 0 {}
    let x := coordsOf (drainWalk w.lay.toNat) d.dims k
    let (i, j) := drainIJ w.lay.toNat x
    let b := blkOf w.blk
    let bad := s.eng.rowBad w.acc.toNat i
    let step : Except EFail (List Wrote × State) := do
      let n := ((drainShape w.lay.toNat d.dims).getD (0, 0)).1
      let (ws0, s) ← if w.lay = 4 && j = 0 then s.drainScales c w i bad (List.range ((n + b - 1) / b)) else .ok ([], s)
      let s := s.onEng fun e => e.drainAmax w i j
      let (ws1, s) ← s.elemWrite .matrix d x (s.eng.drainElem w i j (c.drawMode s.core.index k)) bad
      return (ws0 ++ ws1, s)
    match step with
    | .ok (ws', s) => s.drainSpan c w r (done + 1) (ws ++ ws')
    | .error (e, s) => (some e, done, ws, s)

/-- Drain row i into a vector register (R142). Its elements join the signature by the place of their lane in the vector file, for which
R366 gives no address. DESIGN CHOICE -/
def State.drainReg (s : State) (c : Cmd) (w : MdrainForm) (i : Nat) : State :=
  let phys := (w.vbase.toNat + i) % 768
  let v := lanes.map fun j => BitVec.ofNat 32 (s.eng.drainElem w i j (c.drawMode s.core.index (i * 64 + j)))
  let bad := s.eng.rowBad w.acc.toNat i
  let s := s.onEng fun e => lanes.foldl (fun (e : Eng) j => e.drainAmax w i j) e
  let s := (v.zipIdx).foldl (fun (s : State) x => s.sign 2 (((w.cl.toNat * 768 + phys) * 64 + x.2) * 4) (leBytes 4 x.1.toNat)) s
  s.onCore fun c =>
    { c.wrPhys w.cl.toNat phys v with
      bad := lanes.foldl (fun b l => sset false b (badIdx w.cl.toNat phys l) bad) c.bad }

/-- DRAIN_BEAT: the rest of one beat in the walk of the layout. -/
def State.drainBeat (s : State) : State :=
  let s := s.tryResume .matrix
  match s.movable .matrix with
  | none => s
  | some c => match c.ins with
    | .mdrain w =>
      if c.phase != phaseRows then s
      else
        let span := w.dst == 0
        let (n, m) := if span then (drainShape w.lay.toNat (c.descs.getD 0 {}).dims).getD (0, 0) else (64, 64)
        let size := if span then drainBeatSize w.lay.toNat n m else 64
        let stop := (c.pos / size + 1) * size
        let fin := fun (s : State) (k : Nat) =>
          let s := match c.front with | some f => s.advanceFront f k | none => s
          let s := (s.onHead .matrix fun c => { c with pos := stop, phase := if n * m ≤ stop then phaseDone else phaseRows })
          s.countBeat
        if span then
          match s.drainSpan c w (fromTo c.pos stop) 0 [] with
          | (some e, k, ws, s) => ((s.cleanUnits ws).onHead .matrix fun c => { c with pos := c.pos + k }).applyStop .matrix k e
          | (none, k, ws, s) => fin (s.cleanUnits ws) k
        else fin (s.drainReg c w (c.pos / 64)) 64
    | _ => s
def execDrainBeat (s : State) : Out := done s.drainBeat

/-! ### Start, end, stop -/

/-- What a matrix command does when it comes to the head of its queue. -/
def State.startMatrix (s : State) (c : Cmd) : State :=
  let s := s.onHead .matrix fun c => { c with started := true }
  match c.ins with
  | .mma w => if w.zero = 1 then s.onEng fun e => e.zeroRegion w.acc.toNat c.mmM (c.mmN e) else s
  | .mmar w => if w.zero = 1 then s.onEng fun e => e.zeroRegion w.acc.toNat c.mmM (c.mmN e) else s
  | .mmad w =>
    let s := if w.zero = 1 then s.onEng fun e => e.zeroRegion (w.acc.toNat + 1) c.mmM (c.mmN e) else s
    s.onEng fun e => e.zeroRegion w.acc.toNat c.mmM (c.mmN e)
  | .mclr w =>
    let s := s.onEng fun e => (List.range 4).foldl (fun (e : Eng) a => if w.amask.getLsbD a then e.clearAcc a else e) e
    s.onHead .matrix fun c => { c with phase := phaseDone }
  | .mdrain w => if w.aclr = 1 then s.onEng fun e => { e with amax := sset 0 e.amax w.amx.toNat 0 } else s
  | _ => s

/-- MATRIX_COMMAND_COMPLETE: a finished command frees its entry. -/
def State.matrixComplete (s : State) : State :=
  match s.eng.head .matrix with
  | some c => if c.phase = phaseDone then s.popHead .matrix else s
  | none => s
def execMatrixCommandComplete (s : State) : Out := done s.matrixComplete

/-- A dendritic product that streams no further chunk. -/
def Cmd.lastBranch (c : Cmd) : Bool := c.phase == phaseTaps && (branchesFrom 0 c.bmap)[c.branch + 1]?.isNone
/-- Accumulator retirement (R145): a product stopped within a chunk goes back to the chunk's start; the staging latch is
discarded, but that of the last chunk, which stays resident (R135). -/
def Eng.retire (e : Eng) : Eng :=
  let back := match e.mq.head?, e.shadow with
    | some c, some (acc, bad) =>
      if c.phase = phaseRows && c.row != 0 then
        { e with acc := acc, accBad := bad, mq := { c with row := 0 } :: e.mq.tail }
      else e
    | _, _ => e
  let last := match e.mq.head? with | some c => c.lastBranch | none => false
  { back with staging := none, shadow := none, latch := if last then e.staging.or e.latch else e.latch }

end Sys2Proof.Machine
end

