-- ==== Sys2Proof/Machine/Copy.lean ====
section
/-! DEFINITION. The C slots: CPY, CGATH, CSCAT, CRED, CFILL, MCAST, CREM, CSTOP (R242 to R259), their checks and capture,
and CWAIT (R260). -/

namespace Sys2Proof.Machine

/-! ### Walk codes (R247) -/

def fact : Nat → Nat | 0 => 1 | n + 1 => (n + 1) * fact n
/-- The walk of a code over the remaining dimensions, listed from the largest. -/
def walkOfRem : Nat → Nat → List Nat → List Nat
  | 0, _, _ => []
  | n + 1, code, rem =>
    let k := code / fact n
    rem.getD k 0 :: walkOfRem n (code % fact n) (rem.eraseIdx k)
/-- The walk that a code names at a rank. -/
def walkOf (rank code : Nat) : List Nat := walkOfRem rank code (List.range rank).reverse

/-! ### Fields of XO (R251) -/

/-- CPY's rounding code and SAT. -/
def CForm.rm (w : CForm) : Nat := (w.xo.extractLsb' 1 3).toNat
def CForm.sat (w : CForm) : Bool := w.xo.getLsbD 0
/-- OOB of CGATH and CSCAT. -/
def CForm.oob (w : CForm) : Bool := w.xo.getLsbD 3
/-- OP and MODE of CRED. -/
def CForm.credOp (w : CForm) : Nat := (w.xo.extractLsb' 2 2).toNat
def CForm.fast (w : CForm) : Bool := w.xo.getLsbD 1
/-- TGT of MCAST; BR and BEN in its WALK field. -/
def CForm.tgt (w : CForm) : Nat := (w.xo.extractLsb' 2 2).toNat
def CForm.br (w : CForm) : Nat := (w.walk.extractLsb' 5 5).toNat
def CForm.ben (w : CForm) : Bool := w.walk.getLsbD 4
/-- RED and OP of CREM. -/
def CForm.red (w : CForm) : Bool := w.xo.getLsbD 3
def CForm.remOp (w : CForm) : Nat := (w.xo.extractLsb' 1 2).toNat

/-! ### Checks -/

/-- Types of a reduction (R254): any space, and global memory. -/
def credType (op : Nat) (t : BitVec 4) : Bool :=
  match op with
  | 0 => t == 8 || t == 12 || t == 9 || t == 10
  | 1 => decide (t.toNat ≤ 2)
  | _ => t == 8 || t == 12 || t == 0
def credGlobal (op : Nat) (t : BitVec 4) : Bool :=
  match op with
  | 0 => t == 8
  | 1 => t == 0
  | _ => t == 0 || t == 8 || t == 12

/-- Same rank and extents. -/
def sameShape (a b : Desc) : Bool := a.rank == b.rank && a.dims == b.dims
/-- A source or destination of spaces 0 to 2. -/
def srcOk (d : Desc) : Bool := d.valid && d.rp && decide (d.space ≤ 2)
def dstOk (d : Desc) : Bool := d.valid && d.wp && decide (d.space ≤ 2)
/-- A table, its rows and their index list (R251). -/
def rowsOk (table rows idx : Desc) : Bool :=
  table.rank == 2 && rows.rank == 2 && idx.valid && idx.rp && decide (idx.space ≤ 2) && idx.rank == 1
    && (idx.etype == 8 || idx.etype == 12) && table.dims.headD 0 == rows.dims.headD 1 && idx.dims == [rows.dims.getD 1 0]
    && table.etype == rows.etype

/-- The checks of R251 to R257 on the captured descriptors: DD, DS and the index span. -/
def copyOk (i : Instr) (w : CForm) (dd ds ix : Desc) (ports : Bool) : Bool :=
  match i with
  | .cpy _ => dstOk dd && srcOk ds && sameShape dd ds && ((dd.etype == 15) == (ds.etype == 15))
  | .cgath _ => dstOk dd && srcOk ds && rowsOk ds dd ix
  | .cscat _ => dstOk dd && srcOk ds && rowsOk dd ds ix
  | .cred _ =>
    dstOk dd && dd.rp && srcOk ds && sameShape dd ds && dd.etype == ds.etype && credType (CForm.credOp w) dd.etype
      && (if dd.space = 2 then credGlobal (CForm.credOp w) dd.etype else !CForm.fast w)
  | .cfill _ => dstOk dd
  | .mcast _ =>
    dd.valid && dd.wp && dd.space == 0 && ds.valid && ds.rp && (ds.space == 0 || ds.space == 2) && sameShape dd ds
      && dd.etype == ds.etype
  | .crem _ =>
    dd.valid && dd.wp && dd.space == 3 && ds.valid && ds.rp && (ds.space == 0 || ds.space == 2) && sameShape dd ds
      && dd.etype == ds.etype && ports && (!CForm.red w || credGlobal (CForm.remOp w) dd.etype)
  | _ => false

/-- The receivers of an MCAST, by group index within the node (R256): the rest of the gang, or the groups that then hold other cores of
the cluster or the die. -/
def State.receivers (s : State) (tgt : Nat) : List Nat :=
  let c := s.core
  let near := fun (hit : Nat → Bool) => (s.others.filter fun (o : Other) =>
    o.ctx.part == c.part && o.ctx.node == c.node && o.ctx.live && hit o.core).map (·.index)
  match tgt with
  | 0 => ((List.range c.gsize).map fun k => c.index / c.gsize * c.gsize + k).filter fun i => i != c.index
  | 1 => near fun k => clusterOf k == c.cluster
  | _ => near fun k => dieOf k == c.die

/-- A queue of 16 commands that is full (R244): 0x20 when strict, a stall when lenient. -/
def State.cRoom (s : State) (e : BitVec 1) (word : BitVec 64) : Except Halt Unit :=
  if (s.eng.queue (cEngine e)).length < 16 then .ok ()
  else if s.core.qmode.getLsbD e.toNat then .error (.stall 8 (.queue e.toNat) s)
  else .error (.trap 8 0x20 word ⟨engAgent (cEngine e), false, false, 0⟩ s)

/-- The value of a scalar register after the S slot of the issue (R243): one that the S slot made pending is taken when it
lands, which the capture waits for. -/
def Core.capScalar (c : Core) (n : Nat) : BitVec 64 :=
  if n = 0 then 0
  else
    let k := c.sIdx n
    let p := (c.pend.filter fun x => x.dest == k).map (·.value)
    let m := (c.muldiv.filter fun x => x.dest == k).map (·.value)
    (p ++ m).getLastD (c.rdS n)

/-- The position that CHP names exists (R248), at decode. -/
def State.cPeer (s : State) (word : BitVec 64) (w : CForm) : Except Halt Unit :=
  match CForm.chasing w, CForm.arming w with
  | .named chp n, _ => do let _ ← s.chpOwner word chp n; return ()
  | _, .front chp n _ => do let _ ← s.chpOwner word chp n; return ()
  | _, _ => .ok ()

/-- The front that a C command chases or is armed on. -/
def State.captureC (s : State) (word : BitVec 64) (w : CForm) (own : List Nat) : Except Halt (Option (Owner × Nat × BitVec 16)) :=
  match CForm.chasing w, CForm.arming w with
  | .named chp n, _ => do let r ← s.checkChase word chp n false own; return some (r.1, n, r.2)
  | _, .front chp n _ => do let r ← s.checkChase word chp n true own; return some (r.1, n, r.2)
  | _, _ => .ok none
/-- The barrier that arms a command: 16-byte aligned, in own or window space (R258). -/
def State.armBarrier (s : State) (word : BitVec 64) (w : CForm) : Except Halt Nat :=
  match CForm.arming w with
  | .barrier a =>
    let x := (s.core.rdA a).toNat
    let out := match s.locate x with | .cause 0x09 _ => true | _ => false
    if x % 16 ≠ 0 || out then .error (captureFail word s) else .ok x
  | _ => .ok 0

/-- The descriptor that a C instruction walks (R247): DS for CSCAT, else DD. -/
def walkedBy (i : Instr) (dd ds : Desc) : Desc := match i with | .cscat _ => ds | _ => dd
/-- A walk code of r! or more is illegal (R247), at decode. MCAST has none. -/
def State.cWalk (s : State) (i : Instr) (word : BitVec 64) (w : CForm) : Except Halt Unit :=
  let d := walkedBy i (s.core.rdD w.dd.toNat) (s.core.rdD w.ds.toNat)
  let none' := match i with | .mcast _ => true | _ => false
  if !none' && d.valid && fact d.rank ≤ w.walk.toNat then .error (.trap 4 0x02 word noStage s) else .ok ()

/-- A C command (R243 to R251): its checks, its capture, its front. -/
def runC (i : Instr) (w : CForm) (pre : State) (later : List Nat) (s : State) : Res :=
  if !pre.core.rdP w.p.toNat then .ok s
  else do
    let word := lWord i
    let g := cEngine w.e
    s.cPeer word w
    s.cWalk i word w
    let fill := match i with | .cfill _ => [w.ds.toNat] | _ => []
    pre.scoreboard fill
    pre.deferredOf fill
    s.cRoom w.e word
    let dd := s.core.rdD w.dd.toNat
    let ds := match i with | .cfill _ => ({} : Desc) | _ => s.core.rdD w.ds.toNat
    let ixn := match i with | .cgath _ => (w.ds + 1).toNat | _ => (w.dd + 1).toNat
    let ix := match i with | .cgath _ => s.core.rdD ixn | .cscat _ => s.core.rdD ixn | _ => ({} : Desc)
    let ack := match i with | .mcast _ => true | _ => false
    let walked := walkedBy i dd ds
    let bar := if ack && CForm.ben w then (s.core.rdA (CForm.br w)).toNat else 0
    let ports := (s.part s.core.partNo).ports != 0
    let fr := w.fen == 1
    if !copyOk i w dd ds ix ports || bar % 16 ≠ 0 then .error (captureFail word s)
    else if fr && !ack && 2 ^ 48 ≤ dd.count then .error (captureFail word s)
    else if fr && (!s.frontFree w.fc.toNat || (!ack && !dd.inj)) then .error (captureFail word s)
    else
      let arm ← s.armBarrier word w
      let f ← s.captureC word w ((if fr then [w.fc.toNat] else []) ++ later)
      let walk := walkOf walked.rank (if ack then 0 else w.walk.toNat)
      let mode := match i with | .cpy _ => s.core.modeOf (CForm.rm w) | _ => 0
      let recv := if ack then s.receivers (CForm.tgt w) else []
      let c : Cmd := { ins := i, word := word, descs := [dd, ds, ix], mode := BitVec.ofNat 3 mode, srBase := s.core.srcnt,
                       vals := [s.core.capScalar w.ds.toNat, BitVec.ofNat 64 arm, BitVec.ofNat 64 bar], recv := recv
                       front := if fr then some w.fc.toNat else none }
      let limit := if ack then recv.length else dd.count
      let kind : FKind := if ack then .ack else .span
      let t := if fr then s.bindFront w.fc.toNat (if ack then none else some dd) limit walk kind g else s
      return (t.enqueue g (Cmd.follow c f)).onCore fun c => c.useEng mode dd.count

/-! ### The instructions -/

def runCpy (w : CForm) (pre : State) (later : List Nat) (s : State) : Res := runC (.cpy w) w pre later s
def execCpy (w : CForm) (s : State) : Out := finish (runCpy w s [] s)
def runCgath (w : CForm) (pre : State) (later : List Nat) (s : State) : Res := runC (.cgath w) w pre later s
def execCgath (w : CForm) (s : State) : Out := finish (runCgath w s [] s)
def runCscat (w : CForm) (pre : State) (later : List Nat) (s : State) : Res := runC (.cscat w) w pre later s
def execCscat (w : CForm) (s : State) : Out := finish (runCscat w s [] s)
def runCred (w : CForm) (pre : State) (later : List Nat) (s : State) : Res := runC (.cred w) w pre later s
def execCred (w : CForm) (s : State) : Out := finish (runCred w s [] s)
def runCfill (w : CForm) (pre : State) (later : List Nat) (s : State) : Res := runC (.cfill w) w pre later s
def execCfill (w : CForm) (s : State) : Out := finish (runCfill w s [] s)
def runMcast (w : CForm) (pre : State) (later : List Nat) (s : State) : Res := runC (.mcast w) w pre later s
def execMcast (w : CForm) (s : State) : Out := finish (runMcast w s [] s)
def runCrem (w : CForm) (pre : State) (later : List Nat) (s : State) : Res := runC (.crem w) w pre later s
def execCrem (w : CForm) (s : State) : Out := finish (runCrem w s [] s)

/-- CSTOP (R259): named commands of the slot's own queue are cancelled. -/
def runCstop (w : CstopForm) (pre : State) (_later : List Nat) (s : State) : Res :=
  if !pre.core.rdP w.p.toNat then .ok s
  else
    let g := cEngine w.e
    let hit := fun (c : Cmd) => w.kind == 0 || c.front == some w.fc.toNat
    let q := s.eng.queue g
    let fs := ((q.filter hit).filterMap fun c => c.front).filter fun f => s.eng.liveFronts.contains f
    .ok ((s.onEng fun e => e.cancel g hit).breakAll 9 fs)
def execCstop (w : CstopForm) (s : State) : Out := finish (runCstop w s [] s)

/-- CWAIT (R260). -/
def runCwait (w : RForm) (s : State) : Res :=
  sSlot w.p [] [] s fun s =>
    let e0 := s.core.drained s.eng.c0q
    let e1 := s.core.drained s.eng.c1q
    if (match w.f.toNat with | 0 => e0 | 1 => e1 | _ => e0 && e1) then .ok s else .error (.stall 6 .other s)
def execCwait (w : RForm) (s : State) : Out := finish (runCwait w s)

end Sys2Proof.Machine
end

