-- ==== Sys2Proof/Machine/CopyRun.lean ====
section
/-! DEFINITION. How the copy engines run their commands: arming, beats, multicast deliveries and acknowledgements, Kretan
elements (R245 to R258, R376); and how commands of all three engines start (R258). -/

namespace Sys2Proof.Machine

/-! ### Beats (R249) -/

/-- The innermost dimension runs over adjacent elements. -/
def adjacent (d : Desc) (m : Nat) : Bool :=
  if d.packed then m == 0 else d.strs.getD m 0 == ((d.bits / 8 : Nat) : Int)
/-- The 64-byte blocks of the first and the last byte of an element. -/
def blockSpan (d : Desc) (x : List Nat) : Nat × Nat :=
  let (a, _, n) := d.elemPlace x
  (a / 64, (a + n - 1) / 64)
/-- Elements of a run after the first that stay in block `b`, at most `fuel`. -/
def runMore (d : Desc) (m b : Nat) (x : List Nat) : Nat → Nat
  | 0 => 0
  | n + 1 =>
    let x' := x.set m (x.getD m 0 + 1)
    if x'.getD m 0 < d.dims.getD m 0 && blockSpan d x' == (b, b) then 1 + runMore d m b x' n else 0
/-- Elements of the beat of a command's destination span that begins at walk index k. -/
def beatLen (d : Desc) (walk : List Nat) (k : Nat) : Nat :=
  let m := walk.getLastD 0
  let x := coordsOf walk d.dims k
  if adjacent d m then 1 + runMore d m (blockSpan d x).1 x 127 else 1

/-! ### Elements of each command -/

/-- The descriptor that a command walks, and its walk. -/
def Cmd.walked (c : Cmd) : Desc := match c.ins with | .cscat _ => c.descs.getD 1 {} | _ => c.descs.getD 0 {}
def Cmd.walkList (c : Cmd) : List Nat :=
  let r := c.walked.rank
  match c.ins with
  | .mcast _ => walkOf r 0
  | i => match cOf i with | some w => walkOf r w.walk.toNat | none => walkOf r 0

/-- Index row r of CGATH and CSCAT: the value, whether it names a row of the table (R253), and its poison. -/
def State.readIndex (s : State) (g : Engine) (c : Cmd) (r rows : Nat) : Except EFail ((Int × Bool × Bool) × State) := do
  let ix := c.descs.getD 2 {}
  let ((v, bad), s) ← s.readElem g c ix [r]
  let i := intOf (ix.etype == 8) 32 v
  return ((i, decide (0 ≤ i) && decide (i < (rows : Int)), bad), s)
/-- An index out of range with OOB 0 halts the command for good (R253). -/
def State.badIndex {α : Type} (s : State) (g : Engine) (i : Int) : Except EFail (α × State) :=
  .error (.susp (suspAt 4 0 none true false), s.raiseEng g 0x21 (BitVec.ofInt 64 i) false 0)

/-- The 64-byte blocks that row element x of CSCAT goes to; none where nothing is written or the index cannot be read. -/
def State.scatterSpan (s : State) (g : Engine) (c : Cmd) (x : List Nat) : Option (Nat × Nat) :=
  let dd := c.descs.getD 0 {}
  match s.readIndex g c (x.getD 1 0) (dd.dims.getD 1 0) with
  | .ok ((i, true, _), _) => some (blockSpan dd [x.getD 0 0, i.toNat])
  | _ => none
/-- Elements of a beat of CSCAT that follow the one at x, at most `fuel` (R249): they lie in one block of the table. -/
def State.scatterMore (s : State) (g : Engine) (c : Cmd) (m b : Nat) (x : List Nat) : Nat → Nat
  | 0 => 0
  | n + 1 =>
    let x' := x.set m (x.getD m 0 + 1)
    let same := match s.scatterSpan g c x' with | some p => p == (b, b) | none => true
    if x'.getD m 0 < c.walked.dims.getD m 0 && same then 1 + s.scatterMore g c m b x' n else 0
/-- Elements of the beat that begins at walk index k of a command (R249): by the strides and blocks of DD. -/
def State.beatOf (s : State) (g : Engine) (c : Cmd) : Nat :=
  match c.ins with
  | .cscat _ =>
    let dd := c.descs.getD 0 {}
    let m := c.walkList.getLastD 0
    let x := coordsOf c.walkList c.walked.dims c.pos
    match s.scatterSpan g c x with
    | some (b, _) => if adjacent dd m then 1 + s.scatterMore g c m b x (512 / dd.bits - 1) else 1
    | none => 1
  | _ => beatLen c.walked c.walkList c.pos

/-- CRED's key (R234, R254). -/
def credKey (w : CForm) (t : BitVec 4) : RedKey := ⟨CForm.credOp w, t, CForm.fast w⟩

/-- The line is in reduce state of a key for die d: a token at hand, and the attribute with the owner token (R234). -/
def Line.enterReduce (l : Line) (d : Nat) (k : RedKey) : Line := l.setDie d { l.die d with reduce := some k }

/-- An element of a CRED into global memory (R234, R254): one contribution to the die's partial of its line; in host memory the control die
performs it (R226). -/
def State.credGlobal (s : State) (g : Engine) (va : Nat) (k : RedKey) (v : Nat) (bad : Bool) : Except EFail (List Wrote × State) := do
  let ia ← match s.core.translate va needRW with
    | .cause c => .error (EStop.susp (suspAt 3 va none true false), s.raiseEng g c (BitVec.ofNat 64 va) true 1)
    | .ia ia => .ok ia
  let l := lineOf ia
  let d := s.core.die
  if s.mustHold g va k.width then throw (EStop.hold, s)
  let s := (s.onMem fun m => m.settle l).engPast g va k.width
  if (s.mem.line l).reduceKey == some k then
    if s.mem.noPartial d l then throw (EStop.hold, s)
    match s.reduceToken s.core.s1root ia with
    | (some f, s) =>
      let w := s.postWalk f (engAgent g) true ia (.engine g)
      throw (EStop.susp (suspAt 2 ia w.1 false true), w.2)
    | (none, s) => return ([], part s l ia)
  else
    let (a, s) ← s.engReach g va needRW true
    if hostBase ≤ a then
      let new := leBytes k.width (k.join (leNat (s.mem.rdN a k.width)) (k.fmt.val v))
      let bad := bad || s.mem.bad a
      let s := s.onMem fun m => let m := m.wrN a new; if bad then m.setBad a true else m
      return ([⟨true, none, a, k.width, bad⟩], s.sign (engSig g) va new)
    else if s.mem.noPartial d l then throw (EStop.hold, s)
    else return ([], part (s.onMem fun m => m.setLine l ((m.line l).enterReduce d k)) l ia)
where
  part (s : State) (l ia : Nat) : State :=
    let pa := (s.mem.line l).pa + ia % 256
    let s := (s.contribute l k (ia % 256 / k.width) (k.fmt.val v)).2
    (if bad then s.onMem fun m => m.setBad pa true else s).sign (engSig g) va (leBytes k.width v)

/-- The element at walk index k of CPY, CGATH, CSCAT, CRED and CFILL: its stores. -/
def State.copyElem (s : State) (g : Engine) (c : Cmd) (k : Nat) : Except EFail (List Wrote × State) := do
  let dd := c.descs.getD 0 {}
  let ds := c.descs.getD 1 {}
  let x := coordsOf c.walkList c.walked.dims k
  match c.ins with
  | .cpy w =>
    let ((v, bad), s) ← s.readElem g c ds x
    let y := if ds.etype = dd.etype then v
      else (convert (fmtOf ds.etype.toNat) (fmtOf dd.etype.toNat) (CForm.sat w) v (c.drawMode s.core.index k)).1
    s.elemWrite g dd x y bad
  | .cgath w =>
    let ((i, ok, poison), s) ← s.readIndex g c (x.getD 1 0) (ds.dims.getD 1 0)
    if ok then
      let ((v, bad), s) ← s.readElem g c ds [x.getD 0 0, i.toNat]
      s.elemWrite g dd x v (bad || poison)
    else if CForm.oob w then s.elemWrite g dd x 0 poison
    else s.badIndex g i
  | .cscat w =>
    let ((i, ok, poison), s) ← s.readIndex g c (x.getD 1 0) (dd.dims.getD 1 0)
    if ok then
      let ((v, bad), s) ← s.readElem g c ds x
      s.elemWrite g dd [x.getD 0 0, i.toNat] v (bad || poison)
    else if CForm.oob w then .ok ([], s)
    else s.badIndex g i
  | .cred w =>
    let ((v, bad), s) ← s.readElem g c ds x
    let key := credKey w dd.etype
    if dd.space = 2 then s.credGlobal g (dd.elemPlace x).1 key v bad
    else
      let ((old, bad'), s) ← s.elemRead g dd x
      s.elemWrite g dd x (key.join old (key.fmt.val v)) (bad || bad')
  | .cfill _ => s.elemWrite g dd x ((c.vals.getD 0 0).toNat % 2 ^ dd.bits) false
  | _ => .ok ([], s)

/-- Elements in walk order; what stopped them, how many are done, and their stores. -/
def State.copyElems (s : State) (g : Engine) (c : Cmd) : List Nat → Nat → List Wrote → Option EStop × Nat × List Wrote × State
  | [], n, ws => (none, n, ws, s)
  | k :: r, n, ws =>
    match s.copyElem g c k with
    | .ok (w, s) => s.copyElems g c r (n + 1) (ws ++ w)
    | .error (e, s) => (some e, n, ws, s)

/-! ### MCAST (R256) -/

/-- An element of a source as it goes out: its place in DD in bits, its encoding, its poison. -/
abbrev SrcElem := Nat × Nat × Bool
/-- Read the elements of a beat of MCAST or CREM; what stopped them, and those read before it. -/
def State.sourceElems (s : State) (g : Engine) (c : Cmd) : List Nat → List SrcElem → Option EStop × List SrcElem × State
  | [], es => (none, es, s)
  | k :: r, es =>
    let dd := c.descs.getD 0 {}
    let x := coordsOf c.walkList dd.dims k
    match s.readElem g c (c.descs.getD 1 {}) x with
    | .error (e, s) => (some e, es, s)
    | .ok ((v, bad), s) =>
      let (a, off, _) := dd.elemPlace x
      s.sourceElems g c r (es ++ [(a * 8 + off, v, bad)])

/-- Bytes that an element's bits lie in, from a first byte on, as bits of a number. -/
def elemBytes (bits lo : Nat) (e : SrcElem) : Nat :=
  let a := e.1 / 8 - lo
  (2 ^ ((e.1 + bits - 1) / 8 - lo + 1 - a) - 1) * 2 ^ a
/-- The bytes of a beat from its elements: first address, bytes, the bits delivered of each, and the poisoned ones. -/
def packBeat (bits : Nat) (es : List SrcElem) : Nat × List (BitVec 8) × List (BitVec 8) × Nat :=
  let lo := (es.headD (0, 0, false)).1 / 8
  let hi := ((es.getLastD (0, 0, false)).1 + bits - 1) / 8
  let at' := fun (e : SrcElem) => e.1 - lo * 8
  let v := es.foldl (fun a e => a + e.2.1 * 2 ^ at' e) 0
  let m := es.foldl (fun a e => a + (2 ^ bits - 1) * 2 ^ at' e) 0
  (lo, leBytes (hi - lo + 1) v, leBytes (hi - lo + 1) m, es.foldl (fun b e => if e.2.2 then Nat.lor b (elemBytes bits lo e) else b) 0)

/-- A multicast command completes at its last acknowledgement (R245, R256): a receiver has all its bytes then, or has retired. -/
def State.mcastDone (s : State) (g : Engine) : State :=
  match s.eng.head g with
  | some c => match c.ins with
    | .mcast _ => if c.started && c.recv.all (fun r => c.acked.contains r) then s.popHead g else s
    | _ => s
  | none => s

/-- Bytes of a delivery that count: each byte once, with its highest bit. -/
def bytesCounted (d : Delivery) : Nat := (d.mask.filter fun m => m.getLsbD 7).length

/-- Write a delivery at a place. -/
def State.landDelivery (s : State) (p : Place) (d : Delivery) : State :=
  let old := (s.placeRd p d.bytes.length).1
  let bs := d.bytes.mapIdx fun i b => let m := d.mask.getD i 0xFF; (b &&& m) ||| (old.getD i 0 &&& ~~~m)
  let at' := fun (i : Nat) => ({ p with off := p.off + i, ia := p.ia + i } : Place)
  let poisoned := (List.range bs.length).filter fun i => d.bad.testBit i
  let t := poisoned.foldl (fun (s : State) i => s.placeWr (at' i) [bs.getD i 0] true) (s.placeWr p bs false)
  (t.stampPage p).cleanUnits (s.wroteAt p bs.length false :: poisoned.map fun i => s.wroteAt (at' i) 1 true)

/-- Add bytes to a barrier of a group (R219, R336): false where the sum would pass EXPECT. The barrier's page must be there. -/
def State.barrierAdd (s : State) (p : Place) (n : Nat) : Bool × State :=
  let bs := (s.placeRd p 16).1
  let e := leAt bs 0 8
  let r := leAt bs 8 8 + n
  if e < r then (false, s.stampPage p) else (true, (s.placeWr p (leBytes 8 e ++ leBytes 8 r) false).stampPage p)

/-- Touch an address of the core's own space as a delivery does (R172, R256). -/
def State.ownTouch (s : State) (sva : Nat) : Touch := if 0x8000000 ≤ sva then .cause 0x09 4 else s.touch sva true
/-- AGENT 6, a write (R256). -/
def rxStage (stage : Nat) : Stage := ⟨6, false, true, stage⟩
def State.raiseRx (s : State) (cause sva stage : Nat) : State :=
  s.onCore fun c => c.raise ⟨cause, BitVec.ofNat 64 sva, rxStage stage⟩
/-- A fault that the receiver's pager meets (R175): filed once; a forwarded record comes back as 0x11. -/
def State.rxFault (s : State) (sva ia : Nat) (f : WFault) : State :=
  if s.forwarded ia then (s.dropForwarded ia).raiseRx 0x11 sva 2
  else if s.waitsFor ia then s
  else (s.postWalk f 6 true ia .other).2

/-- What became of a delivery: landed, or it waits with a halt cause (1 page, 3 address). -/
inductive Rx where
  | landed (s : State) | waits (cause : Nat) (s : State)

/-- Where a delivery to an address goes, or why it waits: a page that is not resident is brought in by the receiver's pager under
hardware paging, once the wait has been seen, in its turn. `told` is when a wait began of which the group has been told. -/
def State.rxPlace (s : State) (sva : Nat) (seen : Bool) (told : Option Nat) : Except Rx Place :=
  let once := fun (s : State) (cause st : Nat) => if told.isSome then s else s.raiseRx cause sva st
  let wait := fun (r : Option (Nat × WFault) × State) => match r with
    | (some (ia, f), t) => Except.error (Rx.waits 1 (t.rxFault sva ia f))
    | (none, t) => .error (.waits 1 t)
  match s.ownTouch sva with
  | .at p => .ok p
  | .cause _ st => .error (.waits 3 (once s 0x09 st))
  | .page _ pg _ =>
    if (s.part s.core.partNo).mode modePaging then .error (.waits 1 (once s 0x08 4))
    else if !seen || !s.pageTurn { since := told.getD s.sys.order, pager := s.core.num, page := pg } then .error (.waits 1 s)
    else match s.pageIn none pg with
      | .done t => .error (.waits 1 t)
      | .noVictim t => .error (.waits 1 (t.raiseRx 0x08 sva 4))
      | .fault ia f t => wait (some (ia, f), t)
  | .line p => if seen then wait (s.fillLine p true) else .error (.waits 1 s)

/-- The group takes a delivery (R256). The bytes land at once with what the barrier counts of them. -/
def State.receive (s : State) (d : Delivery) (seen : Bool) (told : Option Nat := none) : Rx :=
  match s.rxPlace d.sva seen told with
  | .error r => r
  | .ok p => match d.bar with
    | none => .landed (s.landDelivery p d)
    | some b => match s.rxPlace b seen told with
      | .error r => r
      | .ok q =>
        let r := (s.landDelivery p d).barrierAdd q (bytesCounted d)
        .landed (if r.1 then r.2 else r.2.raiseRx 0x22 b 0)

/-- Where a receiver of the core's MCASTs is: a group by its place among the others, retired, or saved for a move (R256). -/
inductive RecvAt where
  | here (k : Nat) | gone | away
  deriving DecidableEq, Repr
def State.recvAt (s : State) (idx : Nat) : RecvAt :=
  let c := s.core
  match s.others.findIdx? fun o => o.ctx.run != .idle && o.ctx.part == c.part && o.ctx.node == c.node && o.index == idx with
  | some k => if ((s.others[k]?).map (·.retired)).getD false then .gone else .here k
  | none => if (s.node? c.partNo c.node.toNat).retired.contains idx then .gone else .away
/-- The receiver died in a fault domain other than the sender's (R256, R368). -/
def State.recvLost (s : State) (k : Nat) : Bool :=
  match s.others[k]? with
  | some o => o.dead && (o.sepDomain || !s.core.mate o.ctx)
  | none => false
/-- Engine with a PROD code. -/
def engineAt (p : Nat) : Engine := (engineOf p).getD .copy0

/-- A delivery at place i has landed or lapsed: an engine suspended for it goes on, where no other delivery there waits. -/
def State.flightOver (s : State) (i pr sva : Nat) : State :=
  let s := s.onEng fun e =>
    let d := (e.flight[i]?).map (·.2)
    { e with flight := e.flight.eraseIdx i, told := e.told.filter fun t => some t.delivery != d }
  if s.eng.flight.any fun x => x.1 == pr && x.2.sva == sva then s
  else match engineOf pr with
    | none => s
    | some g => match (s.eng.head g).bind fun c => c.susp with
      | some x =>
        if x.addr = sva && x.cause != 5 && x.stay then
          let s := s.onHead g fun c => { c with susp := none }
          match (s.eng.head g).bind fun c => c.front with | some n => s.resumeFront n | none => s
        else s
      | none => s
/-- A receiver is lost: the acknowledgement front halts, and the sender takes 0x0A (R256). -/
def State.recvDied (s : State) (g : Engine) (sva : Nat) : State :=
  match s.eng.head g with
  | some c =>
    if c.susp.isSome then s
    else (s.raiseEng g 0x0A (BitVec.ofNat 64 sva) true 5).applyStop g 0 (.susp (suspAt 5 sva none true false))
  | none => s

/-- MCAST_DELIVERY (R256): a delivery of the own MCAST at place i of the flight list, or one from a sender outside the model. -/
def State.mcastDelivery (s : State) (d : DeliverySrc) : State :=
  match d with
  | .incoming d => match s.receive d true with | .landed t => t | .waits _ t => t
  | .own i => match s.eng.flight[i]? with
    | none => s
    | some (pr, d) =>
      match s.recvAt d.group with
      | .gone => s.flightOver i pr d.sva
      | .away => s
      | .here k =>
        if s.recvLost k then
          let s := s.onEng fun e => { e with flight := e.flight.eraseIdx i }
          match engineOf pr with | some g => s.recvDied g d.sva | none => s
        else
          let seen := match engineOf pr with
            | some g => ((s.eng.head g).map fun c => c.susp.isSome).getD true
            | none => true
          let told := (s.eng.told.find? fun t => t.delivery == d).map (·.since)
          match (s.focus k).receive d seen told with
          | .landed t => (t.focus k).flightOver i pr d.sva
          | .waits c t =>
            let t := t.focus k
            let t := if told.isSome then t
              else t.stamped.onEng fun e => { e with told := e.told ++ [⟨d, t.sys.order, ((s.others[k]?).map (·.core)).getD 0⟩] }
            if seen then t else t.applyStop (engineAt pr) 0 (.susp (suspAt c d.sva none true false))
def execMcastDelivery (d : DeliverySrc) (s : State) : Out := done (s.mcastDelivery d)

/-- MCAST_ACK (R256): a receiver, by group index, that has all its bytes or has retired acknowledges once; one that died owing its
acknowledgement is lost. -/
def State.mcastAck (s : State) (e : BitVec 1) (idx : Nat) : State :=
  let g := cEngine e
  match s.eng.head g with
  | none => s
  | some c => match c.ins with
    | .mcast _ =>
      let all := c.pos = c.walked.count && !s.eng.flight.any fun x => x.1 == engProd g && x.2.group == idx
      let count := fun (s : State) =>
        let s := s.onHead g fun c => { c with acked := idx :: c.acked }
        let s := match c.front with | some n => s.advanceFront n 1 | none => s
        s.mcastDone g
      if !c.recv.contains idx || c.acked.contains idx then s
      else match s.recvAt idx with
        | .gone => count s
        | .away => if all then count s else s
        | .here k => if s.recvLost k then s.recvDied g (c.descs.getD 0 {}).base else if all then count s else s
    | _ => s
def execMcastAck (e : BitVec 1) (idx : Nat) (s : State) : Out := done (s.mcastAck e idx)

/-! ### CREM (R257, R376) -/

/-- The oldest element that an engine has sent is acknowledged. -/
def Eng.ackSent (e : Eng) (pr : Nat) : Eng :=
  { e with sent := match e.sent.findIdx? fun x => x.1 == pr with | some i => e.sent.eraseIdx i | none => e.sent }
/-- CREM_ACK: the peer has performed one element more; the front counts it, unless the command was cancelled. -/
def State.cremAck (s : State) (e : BitVec 1) : State :=
  let g := cEngine e
  match s.eng.head g with
  | none => s.onEng fun x => x.ackSent 3
  | some c => match c.ins with
    | .crem _ =>
      let k := sget 0 s.eng.crem (engProd g)
      if k = 0 then s.onEng fun x => x.ackSent 3
      else
        let s := s.onEng fun x => { x.ackSent (engProd g) with crem := sset 0 x.crem (engProd g) (k - 1) }
        let s := s.onHead g fun c => { c with cacked := c.cacked + 1 }
        let s := match c.front with | some n => s.advanceFront n 1 | none => s
        if c.cacked + 1 = c.walked.count then s.popHead g else s
    | _ => s.onEng fun x => x.ackSent 3
def execCremAck (e : BitVec 1) (s : State) : Out := done (s.cremAck e)

/-- Fields of a peer-table entry (R376). -/
def peerOk (e : BitVec 64 × BitVec 64) (m : KretanElem) : Bool :=
  e.1.getLsbD 63 && (e.2.extractLsb' 56 8).toNat == m.peer && decide ((e.1.extractLsb' 0 56).toNat ≤ m.va)
    && decide (m.va ≤ (e.2.extractLsb' 0 56).toNat) && (if m.red.isSome then e.1.getLsbD 61 else e.1.getLsbD 62)
/-- The partition whose table admits an element: the port is assigned to it and some entry matches. -/
def State.peerPart (s : State) (m : KretanElem) : Option Nat :=
  let hit := fun (t : Nat × Part) => t.2.live && t.2.peers.any fun e =>
    peerOk e.2 m && (s.part (e.2.1.extractLsb' 56 5).toNat).ports.getLsbD m.port
  (s.sys.parts.find? hit).bind fun t => (t.2.peers.find? fun e =>
    peerOk e.2 m && (s.part (e.2.1.extractLsb' 56 5).toNat).ports.getLsbD m.port).map fun e => (e.2.1.extractLsb' 56 5).toNat

/-- CREM_INCOMING: an admitted element is written or reduced at its home; another is dropped with a deferred record. -/
def State.cremIncoming (s : State) (m : KretanElem) : State :=
  let drop := fun (s : State) => s.record ctlDie { rank := rankDeferred, utype := 11, uindex := m.port, addr := m.va, aspace := 1 }
  match s.peerPart m with
  | none => drop s
  | some p =>
    match s.ctlPa p m.va (if m.red.isSome then needRW else needW) with
    | (none, s) => drop s
    | (some a, s) =>
      let l := lineOf (iaOf p m.va)
      let s := s.ctlOwn l
      let f := fmtOf m.etype.toNat
      let b := m.bit % 8
      let n := (b + f.bits + 7) / 8
      let word := leNat (s.mem.rdN a n)
      let old := word / 2 ^ b % 2 ^ f.bits
      let v := match m.red with
        | none => m.data.toNat % 2 ^ f.bits
        | some op => RedKey.join ⟨op.toNat, m.etype, true⟩ old (f.val m.data.toNat)
      s.onMem fun x =>
        let x := (x.wrN a (leBytes n (word - old * 2 ^ b + v * 2 ^ b))).writeBack a n
        if m.poison then x.setBad a true else x
def execCremIncoming (m : KretanElem) (s : State) : Out := done (s.cremIncoming m)

/-! ### COPY_BEAT -/

/-- Beats of MCASTs that a group has on their way at most: so many an image has room for. DESIGN CHOICE -/
def beatsMax : Nat := 3
/-- A beat of MCAST: its bytes go to every receiver that has not retired. A wait leaves the beat to be tried again; a fault commits the
elements before it (R249). -/
def State.mcastBeat (s : State) (g : Engine) (c : Cmd) (n : Nat) : State :=
  let send := fun (es : List SrcElem) (s : State) =>
    let bits := (c.descs.getD 0 {}).bits
    let (a, bs, msk, bad) := packBeat bits es
    let ben := match c.ins with | .mcast w => CForm.ben w | _ => false
    let bar := if ben then some (c.vals.getD 2 0).toNat else none
    let live := c.recv.filter fun r => s.recvAt r != .gone
    let ds := live.map fun r => (engProd g, (⟨r, a, bs, msk, bad, bar⟩ : Delivery))
    let s := s.onEng fun e => { e with flight := e.flight ++ ds }
    let s := (s.onHead g fun c => { c with pos := c.pos + es.length, waitOn := none }).countBeat
    es.foldl (fun (s : State) e => s.sign (engSig g) (e.1 / 8) (leBytes ((e.1 % 8 + bits - 1) / 8 + 1) (e.2.1 * 2 ^ (e.1 % 8)))) s
  if beatsMax ≤ (nub (s.eng.flight.map fun x => x.1 * 2 ^ 32 + x.2.sva)).length then s
  else match s.sourceElems g c (fromTo c.pos (c.pos + n)) [] with
  | (none, es, s) => (send es s).mcastDone g
  | (some (.wait o k need), _, _) => s.applyStop g 0 (.wait o k need)
  | (some .hold, _, _) => s
  | (some e, es, s) => (if es.isEmpty then s else send es s).applyStop g 0 e

/-- What goes out of an element of CREM on a Kretan port (R257). -/
def Cmd.kretan (c : Cmd) (port : Nat) (e : SrcElem) : KretanElem :=
  let dd := c.descs.getD 0 {}
  let red := match c.ins with | .crem w => if CForm.red w then some (BitVec.ofNat 2 (CForm.remOp w)) else none | _ => none
  ⟨port, dd.peer, e.1 / 8, e.1 % 8, dd.etype, BitVec.ofNat 32 e.2.1, e.2.2, red⟩
/-- The ports that are assigned to a partition. -/
def Part.portList (p : Part) : List Nat := (List.range 18).filter fun k => p.ports.getLsbD k
/-- A beat of CREM: its elements are on their way to the peer, on one of the partition's ports, which one is left open. A fault of its
source waits until all before it are acknowledged, so that the front halts at the element (R381). -/
def State.cremBeat (s : State) (g : Engine) (c : Cmd) (n : Nat) : State :=
  let send := fun (es : List SrcElem) (s : State) =>
    let ps := (s.part s.core.partNo).portList
    let port := ps.getD (Config.pick s.free % ps.length) 0
    let s := s.draw.onEng fun x => { x with
      crem := sset 0 x.crem (engProd g) (sget 0 x.crem (engProd g) + es.length)
      sent := x.sent ++ es.map fun e => (engProd g, c.kretan port e) }
    (s.onHead g fun c => { c with pos := c.pos + es.length, waitOn := none }).countBeat
  match s.sourceElems g c (fromTo c.pos (c.pos + n)) [] with
  | (none, es, s) => send es s
  | (some (.wait o k need), _, _) => s.applyStop g 0 (.wait o k need)
  | (some .hold, _, _) => s
  | (some e, es, t) =>
    if es.isEmpty then (if sget 0 s.eng.crem (engProd g) = 0 then t.applyStop g 0 e else s)
    else
      let r := s.sourceElems g c (fromTo c.pos (c.pos + es.length)) []
      send es r.2.2

/-- A beat of the other commands. A wait at a chase leaves the beat to be tried again; a fault commits the elements before
it (R249). -/
def State.moveBeat (s : State) (g : Engine) (c : Cmd) (n : Nat) : State :=
  match s.copyElems g c (fromTo c.pos (c.pos + n)) 0 [] with
  | (some (.wait o k need), _, _, _) => s.applyStop g 0 (.wait o k need)
  | (some .hold, _, _, _) => s
  | (some e, k, ws, s) => ((s.cleanUnits ws).onHead g fun c => { c with pos := c.pos + k }).applyStop g k e
  | (none, _, ws, s) =>
    let s := s.cleanUnits ws
    let s := match c.front with | some f => s.advanceFront f n | none => s
    let s := (s.onHead g fun c => { c with pos := c.pos + n, waitOn := none }).countBeat
    if c.pos + n = c.walked.count then s.popHead g else s

/-- COPY_BEAT (R249, R253 to R257). -/
def State.copyBeat (s : State) (e : BitVec 1) : State :=
  let g := cEngine e
  let s := s.tryResume g
  match s.movable g with
  | none => s
  | some c =>
    if c.walked.count ≤ c.pos then s
    else
      let n := s.beatOf g c
      match c.ins with
      | .mcast _ => if c.recv.all fun r => c.acked.contains r then s.mcastDone g else s.mcastBeat g c n
      | .crem _ => s.cremBeat g c n
      | _ => s.moveBeat g c n
def execCopyBeat (e : BitVec 1) (s : State) : Out := done (s.copyBeat e)

/-! ### COMMAND_START (R245, R258) -/

/-- What an armed command meets. -/
inductive Trigger where
  | holds (s : State) | waits (s : State) | broken (o : Owner) (n : Nat) | stops (e : EStop) (s : State)

def State.trigger (s : State) (g : Engine) (c : Cmd) : Trigger :=
  match c.arming with
  | .no => .holds s
  | .front chp n v =>
    let o := s.ownerAt chp
    let f := s.frontOf o n
    if c.armDone then .holds s
    else if c.armBroken then .broken o n
    else if f.gen != c.gen then .holds s
    else match f.state with
      | .complete => .holds s
      | .broken => .broken o n
      | .running => if v != 0 && v ≤ f.value then .holds s else .waits s
      | _ => .waits s
  | .barrier _ =>
    let a := (c.vals.getD 1 0).toNat
    if c.armDone then .holds s
    else match s.engRead g 1 a 16 with
    | .error (e, s) => .stops e s
    | .ok ((bs, _), s) => if leAt bs 0 8 = leAt bs 8 8 then .holds s else .waits s

/-- COMMAND_START: the head command of an engine's queue starts once its trigger holds. -/
def State.commandStart (s : State) (g : Engine) : State :=
  let s := s.tryResume g
  match s.eng.head g with
  | none => s
  | some c =>
    if c.started || c.susp.isSome || s.core.halting then s
    else match g with
      | .matrix => s.startMatrix c
      | _ => match s.trigger g c with
        | .holds s => (s.onHead g fun c => { c with started := true }).mcastDone g
        | .waits s => s
        | .broken o n => s.stopBroken g o n
        | .stops e s => s.applyStop g 0 e
def execCommandStart (g : Engine) (s : State) : Out := done (s.commandStart g)

end Sys2Proof.Machine
end

