-- ==== Sys2Proof/Machine/FrontRun.lean ====
section
/-! DEFINITION. Events of fronts and of the pager: FRONT_RESUME, CHASE_TIMER_EXPIRY, PAGE_IN, STASH_LINE_FILL,
PIN_RETRY_TIMEOUT, KRETAN_ACKNOWLEDGEMENT_TIMEOUT (R173 to R177, R222, R278, R327, R328, R381). -/

namespace Sys2Proof.Machine

/-- FRONT_RESUME (R381): the halted front whose command can go on runs again. -/
def State.frontResume (s : State) (f : BitVec 6) : State :=
  let go := fun (s : State) (g : Engine) => match s.eng.head g with
    | some c => if c.front == some f.toNat then s.tryResume g else s
    | none => s
  go (go (go s .matrix) .copy0) .copy1
def execFrontResume (f : BitVec 6) (s : State) : Out := done (s.frontResume f)

/-- CHASE_TIMER_EXPIRY (R327, R328): at CHASELIM the chain of producers is looked at, and the timer restarts. -/
def State.timerExpiry (s : State) (w : Waiter) : State :=
  match w with
  | .core => s.coreExpiry
  | .engine g => match s.eng.head g with
    | none => s
    | some c => match c.waitOn with
      | some (o, n) =>
        if c.susp.isNone && (s.frontOf o n).state == .running && decide ((s.frontOf o n).value < c.waitNeed) && s.core.chaselim.toNat ≤ c.timer then
          (s.checkCycle (.engine g) o n).onHead g fun c => { c with timer := 0 }
        else s
      | none => s
def execChaseTimerExpiry (w : Waiter) (s : State) : Out := done (s.timerExpiry w)

/-! ### The SPT in global memory (R170) -/

/-- Own pages whose entry in the SPT at a VA is not zero. -/
def State.sptListed (s : State) (part va : Nat) : List Nat :=
  nub ((List.range 4).map fun k => match (s.ctlPa part (va + k * 65536) needR).1 with
    | some pa => (s.mem.bytes.filter fun e => decide (pa ≤ e.1) && decide (e.1 < pa + 65536)).map fun e => k * 8192 + (e.1 - pa) / 8
    | none => []).flatten
/-- An entry that software has written is used from some access on, which one is left open. -/
def State.takeSpt (s : State) : State :=
  let p := s.core.partNo
  let word := fun (pg : Nat) => s.ctlRd p (s.core.sptva + 8 * pg)
  let new := (nub (s.sptListed p s.core.sptva ++ s.spad.back.map (·.1))).filterMap fun pg => match word pg with
    | some w => if w = sget 0 s.spad.back pg then none else some (pg, w)
    | none => none
  if new.isEmpty then s
  else (new.foldl (fun s x => s.ctlHold p (s.core.sptva + 8 * x.1)) s).draw.onSpad fun sp => (new.filter fun x => Config.freeBit s.free x.1).foldl
    (fun sp x => { sp with spt := sset 0 sp.spt x.1 x.2, back := sset 0 sp.back x.1 x.2 }) sp
/-- The core's SPT entries and the SPT are one: what software wrote is met, and what the core changed is written. -/
def State.syncSpt (s : State) : State :=
  if s.core.sptva = 0 then s
  else
    let s := s.takeSpt
    let out := if s.spad.spt = s.spad.back then []
      else (nub ((s.spad.spt ++ s.spad.back).map (·.1))).filter fun pg => s.spad.entry pg != sget 0 s.spad.back pg
    (out.foldl (fun (s : State) pg => s.ctlWr s.core.partNo (s.core.sptva + 8 * pg) (s.spad.entry pg)) s).onSpad fun sp =>
      { sp with back := sp.spt }
/-- The same for every core. -/
def State.syncSpts (s : State) : State :=
  (s.others.zipIdx.filter fun x => x.1.ctx.sptva != 0 && x.1.spad.spt != x.1.spad.back).foldl
    (fun s x => ((s.focus x.2).syncSpt).focus x.2) s.syncSpt

/-- One clock cycle of the chase timers of the waiting engines (R327). -/
def State.tickEngine (s : State) (g : Engine) : State :=
  match s.eng.head g with
  | none => s
  | some c => match c.waitOn with
    | some (o, n) =>
      let f := s.frontOf o n
      if c.susp.isNone && f.state == .running && decide (f.value < c.waitNeed) then
        s.onHead g fun c => { c with timer := if f.value = c.timerAt then c.timer + 1 else 0, timerAt := f.value }
      else s
    | none => s
/-- A barrier, of global memory or of the scratchpad, stands open (R336). -/
def State.barOpen (s : State) (global : Bool) (a : Nat) : Bool :=
  if global then match s.core.translate a needR with
    | .ia ia => match (s.reach s.core.s1root s.core.die ia needR).1 with
      | .pa p => s.mem.rd64 p == s.mem.rd64 (p + 8)
      | .fault _ => false
    | .cause _ => false
  else match s.touch a false with
    | .at p => let bs := (s.placeRd p 16).1; leAt bs 0 8 == leAt bs 8 8
    | _ => false
/-- A command at the head of a copy queue that is armed on a barrier meets it open: its trigger holds from then on (R258). -/
def State.lookBarrier (s : State) (g : Engine) : State :=
  match s.eng.head g with
  | none => s
  | some c => match c.arming with
    | .barrier _ =>
      if !c.started && !c.armDone && s.barOpen false (c.vals.getD 1 0).toNat then s.onHead g fun c => { c with armDone := true } else s
    | _ => s
/-- A BARWAIT that waits meets its barrier open (R337). -/
def State.lookWait (s : State) : State :=
  match s.core.waitBar with
  | some (g, a) => if !s.core.barMet && s.barOpen g a then s.onCore fun c => { c with barMet := true } else s
  | none => s
/-- A group with a BARWAIT that waits, or a command at a queue's head that is armed on a barrier. -/
def barWaits (c : Core) (e : Eng) : Bool :=
  (c.waitBar.isSome && !c.barMet) || [Engine.copy0, .copy1].any fun g => match e.head g with
    | some c => !c.started && !c.armDone && (match c.arming with | .barrier _ => true | _ => false)
    | none => false
/-- After every step the barriers that somebody waits at are looked at: one that is open at any moment is met (R258, R337). -/
def State.observe (s : State) : State :=
  if barWaits s.core s.eng || s.others.any fun (o : Other) => barWaits o.ctx o.eng then
    s.everyCore fun s => ((s.lookBarrier .copy0).lookBarrier .copy1).lookWait
  else s
/-- What goes on beside every step of the core or of an event: the SPT, VACCs in flight, chase timers. -/
def State.tickEngines (s : State) : State :=
  ((s.syncSpts.sampleAcc.tickEngine .matrix).tickEngine .copy0).tickEngine .copy1

/-- Drop the held 0x08 of pages that are resident now (R173). -/
def State.dropHeld (s : State) : State :=
  s.onCore fun c => { c with held := c.held.filter fun h =>
    h.cause != 0x08 || (match s.touch h.tval.toNat false with | .at _ => false | .line _ => false | _ => true) }

/-- The engine that is suspended for a page or line that holds an address, and whether it writes there. -/
def State.pageWaiter (s : State) (unit sva : Nat) : Option Engine :=
  [Engine.matrix, .copy0, .copy1].find? fun g => match (s.eng.head g).bind fun c => c.susp with
    | some x => x.cause ≤ 1 && !x.stay && x.addr / unit == sva / unit
    | none => false
/-- The stage code of an agent that waits for a page. -/
def waiterAgent (g : Option Engine) : Nat := match g with | some g => engAgent g | none => 6

/-- A fault of the global page or line behind an address takes the path of the engine that waits there (R175). -/
def State.pagerFault (s : State) (g : Option Engine) (write : Bool) (ia : Nat) (f : WFault) : State :=
  match g with
  | some g =>
    let r := s.postWalk f (engAgent g) write ia (.engine g)
    r.2.applyStop g 0 (.susp (suspAt 2 ia r.1 false write))
  | none => s
/-- Whether an engine is suspended at a write. -/
def State.waitsToWrite (s : State) (g : Option Engine) : Bool :=
  match g.bind fun g => (s.eng.head g).bind fun c => c.susp with | some x => x.write | none => false

/-- What suspends the engine that waits for a page. -/
def State.pageSusp (s : State) (g : Option Engine) : Option Susp := g.bind fun g => (s.eng.head g).bind fun c => c.susp
/-- PAGE_IN (R174): the pager serves the page of an SVA that an engine or the core waits for, in its turn (R176). Without a victim 0x08 is
delivered for the engine that waits (R173), which holds up no other touch then; a fault of the backing page takes the engine's path
(R175). -/
def State.pagerRun (s : State) (sva : Nat) : State :=
  let g := s.pageWaiter 4096 sva
  let wr := s.waitsToWrite g
  if (s.part s.core.partNo).mode modePaging then s
  else match s.touch sva false with
  | .page o pg w =>
    let x := s.pageSusp g
    if (x.bind fun x => x.pw).any fun w => !s.pageTurn w then s
    else match s.pageIn o pg (s.neededPages o ((x.map (·.need)).getD [])) with
    | .done t => t.dropHeld
    | .noVictim t =>
      let t := match g with
        | some g => t.onHead g fun c => { c with susp := c.susp.map fun (x : Susp) => { x with pw := none } }
        | none => t
      t.onCore fun c => c.raise ⟨0x08, BitVec.ofNat 64 sva, ⟨waiterAgent g, false, wr, stageOf w⟩⟩
    | .fault ia f t => t.pagerFault g wr ia f
  | _ => s
def execPageIn (sva : Nat) (s : State) : Out := done (s.pagerRun sva)

/-- STASH_LINE_FILL (R177). -/
def State.stashRun (s : State) (sva : Nat) (write : Bool) : State :=
  match s.touch sva write with
  | .line p => match s.fillLine p write with
    | (none, t) => t
    | (some (ia, f), t) => t.pagerFault (t.pageWaiter 64 sva) write ia f
  | _ => s
def execStashLineFill (sva : Nat) (write : Bool) (s : State) : Out := done (s.stashRun sva write)

/-- PIN_RETRY_TIMEOUT (R222): some party has stood in a retry on a line for 16,384 cycles, and its pin ends. -/
def State.endPin (s : State) (l : Nat) : State :=
  let rest := fun (c : Core) => { c with pins := c.pins.filter fun x => x != l }
  { s with
    core := rest s.core, others := s.others.map fun (o : Other) => { o with ctx := rest o.ctx }
    mem := { s.mem with retry := s.mem.retry.filter fun x => x != l } }
def execPinRetryTimeout (line : Nat) (s : State) : Out := done (if s.mem.retry.contains line then s.endPin line else s)

/-- Where the element of a command's destination at a walk index lies. -/
def Cmd.placeAt (c : Cmd) (k : Nat) : Nat := ((c.descs.getD 0 {}).elemPlace (coordsOf c.walkList c.walked.dims k)).1
/-- KRETAN_ACKNOWLEDGEMENT_TIMEOUT (R257, R278): a CREM that still waits for the peer halts its front at the element, as for a path that is
down, with an entry in the partition's fault queue; what was not acknowledged is sent again when it goes on. -/
def State.kretanTimeout (s : State) (e : BitVec 1) : State :=
  let g := cEngine e
  match s.eng.head g with
  | some c => match c.ins with
    | .crem _ =>
      if sget 0 s.eng.crem (engProd g) = 0 || c.susp.isSome then s
      else
        let va := c.placeAt c.cacked
        let code := if Config.pick s.free % 2 = 0 then 0x11 else 0x13
        let s := (s.draw.onEng fun x => { x with
          crem := sset 0 x.crem (engProd g) 0, sent := x.sent.filter fun y => y.1 != engProd g }).onHead g fun c => { c with pos := c.cacked }
        let r := s.postFault false code ⟨engAgent g, false, true, 2⟩ va 0 false false (.engine g)
        r.2.applyStop g 0 (.susp (suspAt 6 va r.1 false false))
    | _ => s
  | none => s
def execKretanAcknowledgementTimeout (e : BitVec 1) (s : State) : Out := done (s.kretanTimeout e)

end Sys2Proof.Machine
end

