-- ==== Sys2Proof/Machine/Ferry.lean ====
section
/-! DEFINITION. The bytes of a ferry image (R155, R344 to R348, R352): the header and the sections. Where the rules leave a section's
inner layout open, its items stand in an order of the model's, under a mask that is free (log 83). -/

namespace Sys2Proof.Machine

/-! ### Bytes and words -/

/-- Words of 64 bits, given as numbers, as bytes. -/
def numBytes (ws : List Nat) : List (BitVec 8) := (ws.map fun w => leBytes 8 w).flatten
/-- Words as bytes. -/
def wordBytes (ws : List (BitVec 64)) : List (BitVec 8) := (ws.map fun w => leBytes 8 w.toNat).flatten
/-- Exactly n bytes: the rest is zero. -/
def padTo (n : Nat) (bs : List (BitVec 8)) : List (BitVec 8) := bs.take n ++ List.replicate (n - bs.length) 0
/-- Word k of bytes. -/
def word64At (bs : List (BitVec 8)) (k : Nat) : BitVec 64 := BitVec.ofNat 64 (leAt bs (8 * k) 8)
/-- Piece k of bytes, in pieces of n. -/
def pieceAt (bs : List (BitVec 8)) (n k : Nat) : List (BitVec 8) := (bs.drop (n * k)).take n
def bitAt (b : Bool) (k : Nat) : Nat := if b then 2 ^ k else 0
/-- A field of a word. -/
def fieldOf (w : BitVec 64) (lo n : Nat) : Nat := w.toNat / 2 ^ lo % 2 ^ n

/-! ### Section 2: control registers (R151) -/

def Core.saved (c : Core) (n : Nat) : BitVec 64 := if n = 0x14 then c.retired else c.ctl n
def Core.section2 (c : Core) : List (BitVec 8) := padTo 0x200 (numBytes ((List.range 0x15).map fun n => (c.saved n).toNat))
/-- The registers of a section 2, without their reserved bits (R5); the issues owed and the loop that STATUS shows are those of section
3. -/
def Core.readSection2 (c : Core) (bs : List (BitVec 8)) : Core :=
  let w := word64At bs
  let low := fun (k n : Nat) => BitVec.ofNat 64 (fieldOf (w k) 0 n)
  { c with
    lvl := (w 0).getLsbD 0, clk := (w 0).getLsbD 1, cause := low 1 17, tval := w 2, tstage := low 3 8, tpc := (w 4).setWidth 32
    thb := (w 5).setWidth 32 &&& ~~~2#32, vwa := (w 6).toNat % 768, vwb := (w 7).toNat % 768, vrm := low 8 13, seed := w 9
    qmode := (w 10).setWidth 2, rbound := fieldOf (w 11) 0 17, chaselim := (w 12).setWidth 32, group := low 13 48, gang := low 14 7
    args := w 16, cycle := w 19, retired := w 20 }

/-! ### Section 1: the items of R68 -/

/-- s0 to s47, both banks of s48 to s63. -/
def scalarKeys : List Nat := List.range 64 ++ (List.range 16).map fun k => 112 + k
/-- What the records of R155 do not hold of a result in flight: its V word and the flags of each lane. -/
abbrev Tail := BitVec 32 × List (BitVec 5)
def cTail : Codec Tail :=
  (cBits 32).pair ((cNat 40).map (fun x => (List.range 64).map fun l => BitVec.ofNat 5 (x / 2 ^ (5 * l)))
    fun l => l.zipIdx.foldl (fun a e => a + e.1.toNat * 2 ^ (5 * e.2)) 0)
/-- The scalars stand first, then predicates, text offsets with their loaded flags, address registers, steps, counts, and the tails of the
results in flight. -/
def cItems := ((cBits 64).table 0 scalarKeys).pair ((cBits 16).pair (((cBits 32).opt.table none (List.range 8)).pair
  (((cBits 32).table 0 (List.range 32)).pair (((cBits 32).table 0 (List.range 192)).pair (((cBits 32).table 0 (List.range 6)).pair
    (cTail.many 1))))))
/-- The records of the group's level and of the handler's (R166). -/
def Core.recordSets (c : Core) : List VRec × List VRec := match c.tstate with | some t => (t.records, c.vfly) | none => (c.vfly, [])
def Core.setRecords (c : Core) (a b : List VRec) : Core :=
  match c.tstate with
  | some t => { c with tstate := some { t with records := a }, vfly := b }
  | none => { c with vfly := a }
def Core.section1 (c : Core) : List (BitVec 8) :=
  cItems.put (c.s, c.pr, c.br, c.a, c.step, c.lc, (c.recordSets.1 ++ c.recordSets.2).map fun r => (r.word, r.lfl))
/-- The items read back, over a core that has the records. -/
def Core.readSection1 (c : Core) (bs : List (BitVec 8)) : Core :=
  let (s, pr, br, a, step, lc, ts) := (cItems.get bs).1
  let tail := fun (k : Nat) (r : VRec) => match ts[k]? with | some t => { r with word := t.1, lfl := t.2 } | none => r
  let n := c.recordSets.1.length
  { c.setRecords (c.recordSets.1.mapIdx tail) (c.recordSets.2.mapIdx fun k => tail (n + k)) with
    s := s, pr := pr, br := br, a := a, step := step, lc := lc }

/-! ### Section 3: sequencing state and trap state (R24, R41, R61) -/

def Run.code : Run → Nat | .idle => 0 | .running => 1 | .ended => 2 | .stopped => 3 | .killed => 4 | .retired => 5 | .frozen => 6
def runOf : Nat → Run | 1 => .running | 2 => .ended | 3 => .stopped | 4 => .killed | 5 => .retired | 6 => .frozen | _ => .idle
def cRun : Codec Run := (cNat 1).map runOf Run.code
def cStage : Codec Stage :=
  ((cNat 1).pair (cNat 1)).map (fun x => ⟨x.1 % 16, x.1 / 16 % 2 == 1, x.1 / 32 % 2 == 1, x.2⟩)
    fun t => (t.agent % 16 + bitAt t.walk 4 + bitAt t.write 5, t.stage)
def cAsync : Codec Async :=
  ((cNat 1).pair ((cBits 64).pair cStage)).map (fun x => ⟨x.1, x.2.1, x.2.2⟩) fun a => (a.cause, a.tval, a.stage)
def cXfer : Codec Xfer := (cBool.pair ((cBits 32).pair (cNat 1))).map (fun x => ⟨x.1, x.2.1, x.2.2⟩) fun x => (x.taken, x.target, x.left)
/-- The bundles that the loop buffer holds are fetched again (R85). -/
def cLoop : Codec LoopSt :=
  ((cBits 32).pair ((cNat 4).pair ((cNat 1).pair ((cBits 32).pair (((cNat 4).many 1).pair (cNat 4)))))).map
    (fun x => ⟨x.1, x.2.1, x.2.2.1, x.2.2.2.1, x.2.2.2.2.1, x.2.2.2.2.2, [], true⟩)
    fun l => (l.body, l.len, l.depth, l.amask, l.idx, l.pos)
/-- Issues owed, transfer, loop, latches, windows, SRCNT, and when the bundle at hand was begun. -/
def cSeq : Codec TrapSt :=
  ((cNat 2).pair (cXfer.opt.pair (cLoop.opt.pair ((cBits 32).pair ((cBits 32).pair ((cNat 2).pair ((cNat 2).pair
    ((cBits 32).pair (cNat 6))))))))).map
    (fun x => ⟨x.1, x.2.1, x.2.2.1, x.2.2.2.1, x.2.2.2.2.1, x.2.2.2.2.2.1, x.2.2.2.2.2.2.1, x.2.2.2.2.2.2.2.1, [], x.2.2.2.2.2.2.2.2⟩)
    fun t => (t.owed, t.xfer, t.loop, t.latch0, t.latch1, t.vwa, t.vwb, t.srcnt, t.since)
def cSeqs := cRun.pair ((cBits 32).pair (cSeq.pair (cSeq.opt.pair (cAsync.many 1))))
def Core.section3 (c : Core) : List (BitVec 8) := cSeqs.put (c.run, c.pc, c.saveTrap, c.tstate, c.held)
def Core.readSection3 (c : Core) (bs : List (BitVec 8)) : Core :=
  let (run, pc, t, ts, held) := (cSeqs.get bs).1
  { c with
    run := run, pc := pc, owed := t.owed, xfer := t.xfer, loop := t.loop, latch0 := t.latch0, latch1 := t.latch1, vwa := t.vwa
    vwb := t.vwb, srcnt := t.srcnt, since := t.since, tstate := ts, held := held }

/-! ### Section 4: results in flight (R155) -/

def VKind.code : VKind → Nat | .vec => 0 | .qreg => 1 | .scalar => 2
def recBytes : Nat := 272
/-- A record of R155. The lanes of a q register are its bits. -/
def VRec.bytes (r : VRec) : List (BitVec 8) :=
  let lane := fun (l : Nat) => match r.kind with | .vec => (r.data.getD l 0).toNat | _ => r.value.toNat / 2 ^ l % 2
  let data := match r.kind with
    | .scalar => padTo 256 (leBytes 8 r.value.toNat)
    | _ => ((List.range 64).map fun l => leBytes 4 (lane l)).flatten
  data ++ numBytes [r.mask.toNat,
    r.flags.toNat * 2 ^ 21 + r.rem % 16 * 2 ^ 17 + VKind.code r.kind * 2 ^ 15 + r.slot.toNat * 2 ^ 14 + r.cl.toNat * 2 ^ 13 + r.dest % 2 ^ 13]
/-- A record read back; its flags are those of its lowest lane. -/
def parseRec (bs : List (BitVec 8)) : VRec :=
  let w := leAt bs 264 8
  let lanes := (List.range 64).map fun l => BitVec.ofNat 32 (leAt bs (4 * l) 4)
  let mask := BitVec.ofNat 64 (leAt bs 256 8)
  let low := ((List.range 64).find? fun l => mask.getLsbD l).getD 0
  let kind : VKind := match w / 2 ^ 15 % 4 with | 0 => .vec | 1 => .qreg | _ => .scalar
  { kind := kind, slot := BitVec.ofNat 1 (w / 2 ^ 14), cl := BitVec.ofNat 1 (w / 2 ^ 13), dest := w % 2 ^ 13, mask := mask, data := lanes
    value := if kind = .scalar then BitVec.ofNat 64 (leAt bs 0 8)
      else BitVec.ofNat 64 ((List.range 64).foldl (fun a l => a + leAt bs (4 * l) 4 % 2 * 2 ^ l) 0)
    lfl := (List.range 64).map fun l => if l = low then BitVec.ofNat 5 (w / 2 ^ 21) else 0
    rem := w / 2 ^ 17 % 16, word := 0, acc := none, bad := 0 }
/-- A count word per level, then room for 28 records per level. -/
def Core.section4 (c : Core) : List (BitVec 8) :=
  let set := fun (l : List VRec) => padTo (28 * recBytes) ((l.map VRec.bytes).flatten)
  padTo 0x3C00 (numBytes [c.recordSets.1.length, c.recordSets.2.length] ++ set c.recordSets.1 ++ set c.recordSets.2)
def Core.readSection4 (c : Core) (bs : List (BitVec 8)) : Core :=
  let set := fun (off n : Nat) => (List.range (Nat.min n 28)).map fun k => parseRec (pieceAt (bs.drop off) recBytes k)
  c.setRecords (set 16 (leAt bs 0 8)) (set (16 + 28 * recBytes) (leAt bs 8 8))

/-! ### Sections 5 and 6: descriptors (R148) and range registers (R188) -/

def Desc.block (d : Desc) : List (BitVec 8) :=
  leBytes 8 (d.peer % 256 * 2 ^ 56 + d.base % 2 ^ 56)
    ++ leBytes 2 (d.etype.toNat * 2 ^ 12 + d.rank % 8 * 2 ^ 9 + d.space % 4 * 2 ^ 7 + bitAt d.wp 3 + bitAt d.rp 2 + bitAt d.inj 1
      + bitAt d.valid 0)
    ++ ((List.range 6).map fun n => leBytes 5 (natOf 40 (d.strides.getD n 0))).flatten
    ++ ((List.range 6).map fun n => leBytes 4 (d.extents.getD n 0)).flatten
/-- A block with the bits that SPAN wrote. -/
def parseDesc (bs : List (BitVec 8)) : Desc :=
  let w := leAt bs 8 2
  { parseSpan bs with valid := w % 2 == 1, inj := w / 2 % 2 == 1, rp := w / 4 % 2 == 1, wp := w / 8 % 2 == 1 }
def Core.section5 (c : Core) : List (BitVec 8) := ((List.range 32).map fun n => (c.rdD n).block).flatten
def Core.readSection5 (c : Core) (bs : List (BitVec 8)) : Core :=
  { c with d := (List.range 32).foldl (fun m n => let b := pieceAt bs 64 n; if b = ({} : Desc).block then m else sset {} m n (parseDesc b)) [] }

def Range.bytes (r : Range) : List (BitVec 8) :=
  numBytes [r.base % 2 ^ 56, r.limit % 2 ^ 56, bitAt r.valid 63 + bitAt r.r 62 + bitAt r.w 61 + bitAt r.c 60 + r.offset % 2 ^ 47, 0]
/-- A range register from its four words. -/
def parseRange (ws : List (BitVec 64)) : Range :=
  let w := fun k => ws.getD k 0
  { valid := (w 2).getLsbD 63, base := fieldOf (w 0) 0 56, limit := fieldOf (w 1) 0 56, r := (w 2).getLsbD 62
    w := (w 2).getLsbD 61, c := (w 2).getLsbD 60, offset := fieldOf (w 2) 0 47 }
def Core.section6 (c : Core) : List (BitVec 8) := ((List.range 16).map fun n => (sget {} c.rg n).bytes).flatten

def Core.readSection6 (c : Core) (bs : List (BitVec 8)) : Core :=
  { c with rg := (List.range 16).foldl (fun m n => sset {} m n (parseRange ((List.range 4).map fun k => word64At bs (4 * n + k)))) [] }

/-! ### Section 7: parked stores and deferred-access records (R196, R208) -/

def ParkOp.code : ParkOp → Nat × Nat × Nat × BitVec 64
  | .store => (0, 0, 0, 0) | .amo op sc c => (1, op, sc, c) | .flush fn => (2, fn, 0, 0) | .signal cls => (3, cls, 0, 0)
def parkOpOf : Nat × Nat × Nat × BitVec 64 → ParkOp
  | (1, op, sc, c) => .amo op sc c | (2, fn, _, _) => .flush fn | (3, cls, _, _) => .signal cls | _ => .store
def cParkOp : Codec ParkOp := ((cNat 1).pair ((cNat 1).pair ((cNat 1).pair (cBits 64)))).map parkOpOf ParkOp.code
def cParked : Codec Parked :=
  ((cNat 7).pair ((cNat 1).pair ((cBits 64).pair (cParkOp.pair ((cNat 1).pair (cStage.pair ((cNat 6).pair (cBool.pair (cBits 8))))))))).map
    (fun x => { va := x.1, size := x.2.1, data := x.2.2.1, op := x.2.2.2.1, cause := x.2.2.2.2.1, stage := x.2.2.2.2.2.1,
                order := x.2.2.2.2.2.2.1, acq := x.2.2.2.2.2.2.2.1, gone := x.2.2.2.2.2.2.2.2 })
    fun p => (p.va, p.size, p.data, p.op, p.cause, p.stage, p.order, p.acq, p.gone)
/-- An access as its kind, address, size, sign and, for an atomic, operation, scope and operands. -/
def DefAccess.code : DefAccess → Nat × Nat × Nat × Bool × Nat × Nat × BitVec 64 × BitVec 64
  | .load a n z => (0, a, n, z, 0, 0, 0, 0)
  | .const a n z => (1, a, n, z, 0, 0, 0, 0)
  | .atomic a n op sc x c => (2, a, n, false, op, sc, x, c)
  | .spad a n z => (3, a, n, z, 0, 0, 0, 0)
  | .spadAtomic a n op x c => (4, a, n, false, op, 0, x, c)
def accessOf : Nat × Nat × Nat × Bool × Nat × Nat × BitVec 64 × BitVec 64 → DefAccess
  | (1, a, n, z, _) => .const a n z
  | (2, a, n, _, op, sc, x, c) => .atomic a n op sc x c
  | (3, a, n, z, _) => .spad a n z
  | (4, a, n, _, op, _, x, c) => .spadAtomic a n op x c
  | (_, a, n, z, _) => .load a n z
def cAccess : Codec DefAccess :=
  ((cNat 1).pair ((cNat 7).pair ((cNat 1).pair (cBool.pair ((cNat 1).pair ((cNat 1).pair ((cBits 64).pair (cBits 64)))))))).map
    accessOf DefAccess.code
/-- A record; its cause under the code 255 is none. -/
def cDefRec : Codec DefRec :=
  (cAccess.pair ((cNat 1).pair (cStage.pair ((cNat 6).pair (cBool.pair cBool))))).map
    (fun x => { access := x.1, va := x.1.va, cause := if x.2.1 = 255 then none else some x.2.1, stage := x.2.2.1, order := x.2.2.2.1,
                acq := x.2.2.2.2.1, once := x.2.2.2.2.2 })
    fun r => (r.access, r.cause.getD 255, r.stage, r.order, r.acq, r.once)
def cWaiting := (cParked.many 1).pair (cDefRec.opt.table none scalarKeys)
def Core.section7 (c : Core) : List (BitVec 8) := cWaiting.put (c.parked, c.defrec)
def Core.readSection7 (c : Core) (bs : List (BitVec 8)) : Core :=
  let (ps, rs) := (cWaiting.get bs).1
  { c with parked := ps, defrec := rs }

/-! ### Section 8: fronts (R316), generations, counters, and the signatures of R366 -/

def Front.bytes (f : Front) : List (BitVec 8) := wordBytes [f.word0, f.word1, f.word2, f.word3]
def frontBytes : Nat := 0x800
/-- A front from its words. -/
def readFront (bs : List (BitVec 8)) : Front :=
  let w := word64At bs
  { gen := BitVec.ofNat 16 (fieldOf (w 0) 48 16), value := fieldOf (w 0) 0 48
    state := match fieldOf (w 1) 61 3 with | 1 => .running | 2 => .halted | 3 => .complete | 4 => .broken | _ => .idle
    cause := fieldOf (w 1) 57 4, pscope := fieldOf (w 1) 54 3, pgran := fieldOf (w 1) 50 4, pub := (w 1).getLsbD 49
    tagged := (w 1).getLsbD 48, limit := fieldOf (w 1) 0 48, prod := fieldOf (w 2) 62 2, pva := fieldOf (w 2) 0 56
    walk := (List.range 6).map fun k => fieldOf (w 3) (61 - 3 * k) 3
    kind := match fieldOf (w 3) 44 2 with | 1 => .ack | 2 => .tap | _ => .span }
def cSig : Codec SigRec :=
  ((cNat 6).pair ((cNat 7).pair ((cBits 8).many 1).opt)).map (fun x => ⟨x.1, x.2.1, x.2.2⟩) fun r => (r.order, r.addr, r.bytes)
/-- Records that wait for the S slot's signature: as many as the section has room for. -/
def sigRoom : Nat := 14
/-- Fronts whose mirror is to be written again, generations of the queued commands, counters 2 to 5 and 8, signatures. -/
def cCounts := (cMask (List.range 64)).pair (((cBits 16).many 1).pair (((cBits 64).table 0 [2, 3, 4, 5, 8]).pair
  (((cBits 64).table 0 (List.range 5)).pair (cSig.many 1))))
def Front.owesMirror (f : Front) : Bool := f.mwait.isSome || f.mlate
def Eng.section8 (e : Eng) : List (BitVec 8) := ((List.range 64).map fun n => (e.front n).bytes).flatten
def rest8 (c : Core) (e : Eng) : List (BitVec 8) :=
  cCounts.put ((List.range 64).filter fun n => (e.front n).owesMirror, e.commands.map fun c => c.gen, c.cnt, c.sig, c.sigq.take sigRoom)
/-- The span of a live front, from the queue entry of its producer (R316): its destination, or the captured tap configuration. -/
def Eng.spanOf (e : Eng) (n : Nat) : Option Desc :=
  match e.commands.find? fun c => c.front == some n with
  | none => none
  | some c => match c.ins with
    | .mcast _ => none
    | .mmad _ => c.tap.map (·.1)
    | _ => c.descs[0]?
/-- The fronts with their words read back, over the queues: the span of a live one, and its pages where they lie in scratchpad. -/
def Eng.readSection8 (e : Eng) (bs : List (BitVec 8)) (owed : List Nat) : Eng :=
  let one := fun (n : Nat) =>
    let f := readFront (pieceAt bs 32 n)
    let live := f.state == .running || f.state == .halted
    let d := if live then e.spanOf n else none
    { f with
      span := d, walk := (match d with | some d => f.walk.take d.rank | none => (f.walk.reverse.dropWhile fun k => k == 0).reverse), mlate := owed.contains n
      pages := match d with | some d => if d.space ≤ 1 then d.pagesOf else [] | none => [] }
  { e with fc := (List.range 64).foldl (fun m n => sset {} m n (one n)) [] }

/-! ### Sections 9 and 10: the engines (R123, R146, R242, R262) -/

/-- Six values; the rest, beyond the rank, is 0 (R148). None stand where a descriptor has no rank. -/
def fill {α : Type} [OfNat α 0] (l : List α) : List α := if l.isEmpty then [] else l ++ List.replicate (6 - l.length) 0
/-- A descriptor by its rank (R148). -/
def cDesc : Codec Desc :=
  (cNat 2).after (fun d => d.etype.toNat + d.rank % 8 * 16 + d.space % 4 * 128 + bitAt d.valid 9 + bitAt d.inj 10 + bitAt d.rp 11 + bitAt d.wp 12)
    fun w => ((cNat 7).pair ((cNat 1).pair (((cInt 5).vec (w / 16 % 8)).pair ((cNat 4).vec (w / 16 % 8))))).map
      (fun x => { valid := w / 512 % 2 == 1, inj := w / 1024 % 2 == 1, rp := w / 2048 % 2 == 1, wp := w / 4096 % 2 == 1, base := x.1, peer := x.2.1
                  etype := BitVec.ofNat 4 w, rank := w / 16 % 8, space := w / 128 % 4, strides := fill x.2.2.1, extents := fill x.2.2.2 })
      fun d => (d.base, d.peer, d.strides.take d.rank, d.extents.take d.rank)
/-- A front by its owner's gang position, or of the own group. -/
def cFrontRef : Codec (Option (Option Nat × Nat)) :=
  (cNat 2).map (fun x => if x = 0 then none else some (if x / 64 = 1 then none else some (x / 64 - 2), x % 64))
    fun o => match o with | none => 0 | some (p, n) => (match p with | none => 1 | some p => p + 2) * 64 + n
/-- An identity that no fault record has: the access behind a suspension is made again at the resume (R303). -/
def noRecord : Nat := 2 ^ 64
def cSusp : Codec Susp :=
  ((cNat 1).pair ((cNat 7).pair ((cNat 1).pair ((cNat 4).many 1)))).map
    (fun x => { cause := x.1, addr := x.2.1, waits := if x.2.2.1 % 2 = 1 then some noRecord else none, stay := x.2.2.1 / 2 % 2 == 1,
                write := x.2.2.1 / 4 % 2 == 1, need := x.2.2.2 })
    fun u => (u.cause, u.addr, bitAt u.waits.isSome 0 + bitAt u.stay 1 + bitAt u.write 2, u.need)
/-- Where a command stands: acknowledgements, chunk, row, branch, phase, suspension, and the front that it waits at (R249). -/
def cProgress (rs : List Nat) := (cMask rs).pair ((cNat 6).pair ((cNat 4).pair ((cNat 1).pair ((cNat 1).pair ((cNat 1).pair
  (cSusp.opt.pair (cFrontRef.pair (cNat 6))))))))
def Cmd.progress (c : Cmd) := (c.acked, c.cacked, c.chunk, c.row, c.branch, c.phase, c.susp, c.waitOn, c.waitNeed)
/-- Captured fields: descriptors, values, map, tap, RBOUND, mode, SRCNT base, SEED, generation, front, arming, age, tag, position,
receivers. The instruction is that of the word. -/
def cFields (rs : List Nat) := (cBits 64).pair ((cDesc.many 1).pair (((cBits 64).many 1).pair (((cBits 32).many 1).pair
  ((cDesc.pair (cNat 1)).opt.pair ((cNat 3).pair ((cBits 3).pair ((cBits 32).pair ((cBits 64).pair ((cBits 16).pair (cFrontRef.pair
    ((cNat 1).pair ((cNat 6).pair ((cBits 16).pair ((cNat 1).opt.pair ((cNat 6).pair ((cMask rs).pair (cProgress rs).opt))))))))))))))))
/-- A command; none where its word is no instruction of the slot. -/
def cCmd (slot : Slot) (rs : List Nat) : Codec (Option Cmd) :=
  (cFields rs).map
    (fun (word, descs, vals, bmap, tap, rbound, mode, srBase, seed, gen, armOn, fl, stamp, tag, front, pos, recv, pr) =>
      match decodeWords (.long slot word) with
      | .error _ => none
      | .ok i =>
        let c : Cmd :=
          { ins := i, word := word, descs := descs, vals := vals, bmap := bmap, tap := tap, rbound := rbound, mode := mode, srBase := srBase
            seed := seed, gen := gen, armOn := armOn, armDone := fl % 2 == 1, armBroken := fl / 2 % 2 == 1, started := fl / 4 % 2 == 1
            treeDone := fl / 8 % 2 == 1, stamp := stamp, tag := tag, front := front, pos := pos, recv := recv }
        some (match pr with
          | none => c
          | some (acked, cacked, chunk, row, branch, phase, susp, waitOn, need) =>
            { c with acked := acked, cacked := cacked, chunk := chunk, row := row, branch := branch, phase := phase, susp := susp, waitOn := waitOn
                     waitNeed := need }))
    fun o =>
      let c := o.getD { ins := .mclr ⟨0, 0⟩, word := 0 }
      (c.word, c.descs, c.vals, c.bmap, c.tap, c.rbound, c.mode, c.srBase, c.seed, c.gen, c.armOn,
        bitAt c.armDone 0 + bitAt c.armBroken 1 + bitAt c.started 2 + bitAt c.treeDone 3, c.stamp, c.tag, c.front, c.pos, c.recv,
        if c.started || c.susp.isSome || c.waitOn.isSome then some c.progress else none)
/-- A queue. -/
def cQueue (slot : Slot) (rs : List Nat) : Codec (List Cmd) :=
  ((cCmd slot rs).many 1).map (fun l => l.filterMap id) fun l => l.map some
/-- Both copy queues, over the receivers that their commands name; QMODE; counters 6 and 7. -/
def cCopies : Codec (List Cmd × List Cmd × BitVec 2 × Sparse (BitVec 64)) :=
  ((cNat 3).many 2).after (fun x => nub ((x.1 ++ x.2.1).flatMap fun c => c.recv)) fun rs =>
    (cQueue .c0 rs).pair ((cQueue .c1 rs).pair ((cBits 2).pair ((cBits 64).table 0 [6, 7])))
def section9 (c : Core) (e : Eng) : List (BitVec 8) := cCopies.put (e.c0q, e.c1q, c.qmode, c.cnt)

/-- The rows of a chunk: elements k × 64 to k × 64 + 63 of a width in bits. -/
def cRows (bits rows : Nat) : Codec (Sparse (BitVec 32)) :=
  ((cNat (8 * bits)).vec rows).map
    (fun l => (l.zipIdx.map fun e => (List.range 64).map fun j => (e.2 * 64 + j, BitVec.ofNat 32 (e.1 / 2 ^ (bits * j) % 2 ^ bits))).flatten.filter
      fun e => e.2 != 0)
    fun m => (List.range rows).map fun k => (List.range 64).foldl (fun a j => a + (sget 0 m (k * 64 + j)).toNat % 2 ^ bits * 2 ^ (bits * j)) 0
/-- The resident latch (R123): its shape record, the weights, the scales. -/
def cLatch : Codec Latch :=
  ((cBits 4).pair ((cNat 1).pair ((cNat 1).pair ((cNat 2).pair (cNat 2))))).after
    (fun r => (r.etype, bitAt r.west 0 + bitAt r.mx 1 + bitAt r.bad 2, r.n, r.kcount, r.blk))
    fun (et, fl, n, k, blk) => ((cRows (fmtOf et.toNat).bits k).pair (cRows 8 (if fl / 2 % 2 = 1 then (k + blk - 1) / blk else 0))).map
      (fun x => { etype := et, west := fl % 2 == 1, n := n, kcount := k, mx := fl / 2 % 2 == 1, blk := blk, data := x.1, bad := fl / 4 % 2 == 1
                  scales := x.2 })
      fun r => (r.data, r.scales)
def accKeys : List Nat := List.range 16384
/-- The accumulators stand first; then their poison bits, the amax registers, RBOUND, the tap configuration, the latch, the queue. -/
def cMatrix := ((cBits 32).table 0 accKeys).pair ((cMask (List.range 256)).pair (((cBits 32).table 0 (List.range 8)).pair ((cNat 3).pair
  ((cDesc.pair (cNat 1)).opt.pair (cLatch.opt.pair (cQueue .m []))))))
def section10 (c : Core) (e : Eng) : List (BitVec 8) :=
  cMatrix.put (e.acc, (List.range 256).filter fun k => sget false e.accBad k, e.amax, c.rbound, e.tap, e.latch, e.mq)

/-! ### Section 11: curves and maps (R311, R312) -/

def Curve.block (c : Curve) : List (BitVec 8) :=
  padTo 64 (leBytes 4 c.lo.toNat ++ leBytes 4 c.invw.toNat ++ leBytes 4 (if c.clamp then 1 else 0))
    ++ ((List.range 64).map fun s => let e := c.segs.getD s (0, 0); leBytes 4 e.1.toNat ++ leBytes 4 e.2.toNat).flatten
def mapBlock (m : Option (List (BitVec 32))) : List (BitVec 8) :=
  ((List.range 16).map fun k => leBytes 4 ((m.getD []).getD k 0).toNat).flatten
def curveBytes : Nat := 576
/-- 16 curves and 4 maps of 64 bytes. -/
def section11Bytes : Nat := 0x2500
def Core.section11 (c : Core) : List (BitVec 8) :=
  ((List.range 16).map fun k => (c.rdCurve k).block).flatten ++ ((List.range 4).map fun k => mapBlock (sget none c.bmap k)).flatten
def cLoaded := cMask (List.range 4)
/-- Curves and maps read back, with the maps that are loaded. -/
def Core.readSection11 (c : Core) (bs : List (BitVec 8)) (loaded : List Nat) : Core :=
  { c with
    curve := (List.range 16).foldl (fun m k => let b := pieceAt bs curveBytes k; if b = ({} : Curve).block then m else sset {} m k (parseCurve b)) []
    bmap := loaded.foldl (fun m k => sset none m k (some (parseMap (pieceAt (bs.drop (16 * curveBytes)) 64 k)))) [] }

/-! ### Section 12: the vector clusters -/

def vecBytes (v : Vec) : List (BitVec 8) := ((List.range 64).map fun l => leBytes 4 (v.getD l 0).toNat).flatten
def parseVec (bs : List (BitVec 8)) : Vec := (List.range 64).map fun l => BitVec.ofNat 32 (leAt bs (4 * l) 4)
def clusterBytes : Nat := 768 * 256
/-- Cluster A and cluster B by physical register, then q1 to q7, VRM, VWA, VWB. -/
def Core.section12 (c : Core) : List (BitVec 8) :=
  padTo 0x60100 (((List.range 1536).map fun k => vecBytes (c.rdPhys (k / 768) (k % 768))).flatten
    ++ numBytes ((List.range 7).map (fun k => (c.rdQ (k + 1)).toNat) ++ [c.vrm.toNat, c.vwa, c.vwb]))
def Core.readSection12 (c : Core) (bs : List (BitVec 8)) : Core :=
  let w := word64At (bs.drop (2 * clusterBytes))
  let regs := fun (b : Nat) => (List.range 768).foldl (fun m k => sset zeroVec m k (parseVec (pieceAt (bs.drop (b * clusterBytes)) 256 k))) []
  { c with
    va := regs 0, vb := regs 1, q := (List.range 7).foldl (fun m k => sset 0 m (k + 1) (w k)) [], vrm := BitVec.ofNat 64 (fieldOf (w 7) 0 13)
    vwa := (w 8).toNat % 768, vwb := (w 9).toNat % 768 }

/-! ### Section 13: the scratchpad; section 14: the poison list -/

/-- Multicast deliveries that wait at their receivers, by what they deliver. -/
abbrev Beat := Nat × Nat × List (BitVec 8) × List (BitVec 8) × Nat × Option Nat
def cBeat : Codec (Beat × List Nat) :=
  ((cNat 1).pair ((cNat 4).pair (((cBits 8).many 2).pair (((cBits 8).many 2).pair ((cNat 16).pair (cNat 4).opt))))).pair ((cNat 3).many 2)
def beatOf (x : Nat × Delivery) : Beat := (x.1, x.2.sva, x.2.bytes, x.2.mask, x.2.bad, x.2.bar)
def Eng.beats (e : Eng) : List (Beat × List Nat) :=
  (e.flight.map beatOf).eraseDups.map fun b => (b, (e.flight.filter fun x => beatOf x == b).map fun x => x.2.group)
def flightOf (l : List (Beat × List Nat)) : List (Nat × Delivery) :=
  l.flatMap fun (b, rs) => rs.map fun r => (b.1, ⟨r, b.2.1, b.2.2.1, b.2.2.2.1, b.2.2.2.2.1, b.2.2.2.2.2⟩)
/-- SPT VA, the resident pages with PIN and whether a front binds them, and the deliveries. -/
def cSpad := (cNat 7).pair ((((cNat 2).pair (cNat 1)).many 2).pair (cBeat.many 1))
/-- Units by image offset and pages by own page index. -/
def cList := (cNat 8).after (fun x : List Nat × List Nat => x.1.length + x.2.length * 65536) fun n =>
  ((cNat 8).vec (n % 65536)).pair ((cNat 8).vec (n / 65536))
/-- Entries of the poison list (R348). -/
def listMax : Nat := 510

/-! ### The image (R345, R346) -/

/-- Offsets and lengths of the sections of version 1 (R346). -/
def imageSections : List (Nat × Nat × Nat) :=
  [(1, 0x100, 0x1000), (2, 0x1100, 0x200), (3, 0x1300, 0x400), (4, 0x1700, 0x3C00), (5, 0x5300, 0x800), (6, 0x5B00, 0x200),
   (7, 0x5D00, 0x1000), (8, 0x6D00, 0xA00), (9, 0x7700, 0x2100), (10, 0x9800, 0x13000), (11, 0x1C800, 0x2600),
   (12, 0x1EE00, 0x60100), (13, 0x7EF00, 0x1000), (14, 0x7FF00, 0x1000)]
/-- Header and sections, in bytes. -/
def headerBytes : Nat := 0x100
def imageBytes : Nat := 0x80F00

/-- A saved context, before it is written and after it is read (R345 to R348): the header's flags and what the sections hold. -/
structure Image where
  fresh : Bool := true
  complete : Bool := false
  preempt : Bool := false
  hlvl : Bool := false
  wdpend : Bool := false
  gen : Nat := 1
  version : Nat := 1
  groupw : BitVec 64 := 0
  gangw : BitVec 64 := 0
  imgid : BitVec 64 := 0
  crc : BitVec 64 := 0
  /-- Own index, PIN, and whether a front binds it, of each resident page (R180, R346 section 13). -/
  resident : List (Nat × Nat) := []
  /-- Scratchpad pages whose write-back carried poison, and poisoned 64-byte units by image offset (R348). -/
  badPages : List Nat := []
  units : List Nat := []
  core : Core := {}
  eng : Eng := {}
  deriving DecidableEq, Repr, Inhabited

/-- Lanes with bad parity, as 64-byte units of section 12, and lanes of results in flight, as units of section 4 (R348). -/
def Core.badUnits (c : Core) : List Nat :=
  let lanes := fun (off : Nat) (l : List VRec) => l.zipIdx.flatMap fun e => ((List.range 64).filter fun k => e.1.bad.getLsbD k).map fun k =>
    (off + e.2 * recBytes + 4 * k) / 64 * 64
  nub ((c.bad.map fun e => 0x1EE00 + e.1 / 16 * 64) ++ lanes 0x1710 c.recordSets.1 ++ lanes (0x1710 + 28 * recBytes) c.recordSets.2)
/-- Some units of a section are poisoned. -/
def Image.spoils (i : Image) (x : Nat × Nat × Nat) : Bool := i.units.any fun u => decide (x.2.1 ≤ u) && decide (u < x.2.1 + x.2.2)
def Image.poisoned (i : Image) : Bool := !i.units.isEmpty || !i.badPages.isEmpty
/-- The header of an image as 32 words (R345). -/
def Image.header (i : Image) : List (BitVec 64) :=
  [BitVec.ofNat 64 (i.gen % 65536 * 2 ^ 48 + i.version % 65536 * 2 ^ 32 + 0x46595246),
   BitVec.ofNat 64 (bitAt i.fresh 5 + bitAt i.wdpend 4 + bitAt i.hlvl 3 + bitAt i.preempt 2 + bitAt i.poisoned 1
     + bitAt i.complete 0),
   i.groupw, i.gangw, i.imgid, i.crc, 14, 0]
    ++ imageSections.map (fun x =>
      BitVec.ofNat 64 (x.1 * 2 ^ 56 + bitAt (i.spoils x) 48 + x.2.1 * 2 ^ 24 + x.2.2))
    ++ List.replicate 10 0

/-- The sections with open layout, wholly or from some byte on, are masked there. -/
def openFrom : Nat → Option Nat
  | 1 => some 0 | 3 => some 0 | 7 => some 0 | 8 => some frontBytes | 9 => some 0 | 10 => some 0 | 11 => some section11Bytes | 13 => some 0
  | 14 => some 0 | _ => none
/-- Put the mask on the bytes of section x, or take it off. -/
def mask (x : Nat × Nat × Nat) (bs : List (BitVec 8)) : List (BitVec 8) :=
  match openFrom x.1 with
  | some n => bs.take n ++ (bs.drop n).mapIdx fun k b => b ^^^ Config.imageMask (x.2.1 + n + k)
  | none => bs
/-- What a section holds. -/
def Image.content (i : Image) (id : Nat) : List (BitVec 8) :=
  let c := i.core
  match id with
  | 1 => c.section1
  | 2 => c.section2
  | 3 => c.section3
  | 4 => c.section4
  | 5 => c.section5
  | 6 => c.section6
  | 7 => c.section7
  | 8 => i.eng.section8 ++ rest8 c i.eng
  | 9 => section9 c i.eng
  | 10 => section10 c i.eng
  | 11 => c.section11 ++ cLoaded.put ((List.range 4).filter fun k => (sget none c.bmap k).isSome)
  | 12 => c.section12
  | 13 => cSpad.put (c.sptva, i.resident, i.eng.beats)
  | _ => cList.put (i.units, i.badPages)
/-- A section's bytes. -/
def Image.section (i : Image) (x : Nat × Nat × Nat) : List (BitVec 8) := mask x (padTo x.2.2 (i.content x.1))
/-- Bytes 0x100 to the end of the last section. -/
def Image.body (i : Image) : List (BitVec 8) := (imageSections.map i.section).flatten
/-- A section of a body, unmasked. -/
def sectionOfBody (body : List (BitVec 8)) (id : Nat) : List (BitVec 8) :=
  match imageSections[id - 1]? with
  | some x => mask x ((body.drop (x.2.1 - headerBytes)).take x.2.2)
  | none => []
/-- The poison list of a body: units and pages. -/
def bodyList (body : List (BitVec 8)) : List Nat × List Nat := (cList.get (sectionOfBody body 14)).1

/-- A scalar whose bits are lost: its first read raises 0x30, and there is no access to perform again (R352). -/
def lostScalar : DefRec := { access := .spad 0 8 true, va := 0, cause := some 0x30, stage := noStage, order := 0, once := true }
/-- What a poisoned unit leaves: a scalar register gets a record of 0x30, lanes get bad parity, an accumulator row its poison bit (R352). -/
def Image.harm (i : Image) (u : Nat) : Image :=
  let c := i.core
  if u < 0x380 then
    let ks := (scalarKeys.drop ((u - 0x100) / 8)).take 8
    { i with core := { c with defrec := ks.foldl (fun m k => if k = 0 then m else sset none m k (some lostScalar)) c.defrec } }
  else if 0x1700 ≤ u && u < 0x5300 then
    let hit := fun (off k : Nat) (r : VRec) =>
      { r with bad := r.bad ||| BitVec.ofNat 64 ((List.range 64).foldl (fun a l => if (off + k * recBytes + 4 * l) / 64 * 64 = u then a + 2 ^ l else a) 0) }
    { i with core := c.setRecords (c.recordSets.1.mapIdx (hit 0x1710)) (c.recordSets.2.mapIdx (hit (0x1710 + 28 * recBytes))) }
  else if 0x9800 ≤ u && u < 0x19800 then { i with eng := { i.eng with accBad := sset false i.eng.accBad ((u - 0x9800) / 256) true } }
  else if 0x1EE00 ≤ u && u < 0x7EE00 then
    let lo := (u - 0x1EE00) / 4
    { i with core := { c with bad := (List.range 16).foldl (fun b l => sset false b (lo + l) true) c.bad } }
  else i
/-- Poisoned units that leave a context which can be restored (R352). -/
def unitHealable (u : Nat) : Bool :=
  decide (u < 0x380) || (decide (0x9800 ≤ u) && decide (u < 0x19800)) || (decide (0x1EE00 ≤ u) && decide (u < 0x7EE00)) || decide (0x7FF00 ≤ u)
/-- An image from its body and its poisoned units: the group frozen as it was saved. -/
def readBody (body : List (BitVec 8)) (units : List Nat) : Image :=
  let x := sectionOfBody body
  let c := ((({} : Core).readSection2 (x 2)).readSection3 (x 3)).readSection4 (x 4)
  let c := (((c.readSection1 (x 1)).readSection5 (x 5)).readSection6 (x 6)).readSection7 (x 7)
  let (owed, _, cnt, sig, sigq) := (cCounts.get ((x 8).drop frontBytes)).1
  let (c0, c1, qmode, cnt67) := (cCopies.get (x 9)).1
  let (acc, accBad, amax, rbound, tap, latch, mq) := (cMatrix.get (x 10)).1
  let loaded := (cLoaded.get ((x 11).drop section11Bytes)).1
  let c := (c.readSection11 (x 11) loaded).readSection12 (x 12)
  let (sptva, resident, beats) := (cSpad.get (x 13)).1
  let e : Eng := { acc := acc, accBad := accBad.foldl (fun m k => sset false m k true) [], latch := latch, amax := amax, tap := tap, mq := mq
                   c0q := c0, c1q := c1, flight := flightOf beats }
  let i : Image :=
    { fresh := false, resident := resident, badPages := (bodyList body).2, units := units, eng := e.readSection8 (x 8) owed
      core := { c with
        fresh := false, qmode := qmode, rbound := rbound, cnt := cnt67.foldl (fun m e => sset 0 m e.1 e.2) cnt, sig := sig, sigq := sigq
        sptva := sptva } }
  units.foldl Image.harm i

end Sys2Proof.Machine
end

