-- ==== Sys2Proof/Machine/Launch.lean ====
section
/-! DEFINITION. Loading a group on a core and writing it out: the Plozia image as the device reads it (R406 to R412), a
group's start (R153, R188, R274, R293), and the ferry image of R344 to R347. -/

namespace Sys2Proof.Machine

/-! ### Words of memory by VA, as the control die reads them -/

/-- n words from a VA on; none when one lies outside the tables. -/
def State.ctlWords (s : State) (part va : Nat) : Nat → Option (List (BitVec 64))
  | 0 => some []
  | n + 1 => match s.ctlRd part va, s.ctlWords part (va + 8) n with
    | some w, some r => some (w :: r)
    | _, _ => none
/-- A 56-bit VA field of a node block. -/
def State.nodeVa (s : State) (part va off : Nat) : Nat := fieldOf (s.nodeWord part va off) 0 56

/-! ### The Plozia header (R406, R407, R412) -/

/-- A section entry of R407. -/
structure Section where
  id : Nat
  align : Nat
  size : Nat
  va : Nat
  deriving DecidableEq, Repr

def headerWords : Nat := 64
/-- Entry n of the section table. -/
def sectionOf (h : List (BitVec 64)) (n : Nat) : Section :=
  let w := fun k => h.getD (8 + 4 * n + k) 0
  ⟨fieldOf (w 0) 56 8, fieldOf (w 0) 48 8, (w 2).toNat, fieldOf (w 3) 0 56⟩
def imageNsec (h : List (BitVec 64)) : Nat := fieldOf (h.getD 6 0) 0 4
def sectionsOf (h : List (BitVec 64)) : List Section := (List.range (imageNsec h)).map fun n => sectionOf h n
def findSection (h : List (BitVec 64)) (id : Nat) : Option Section := (sectionsOf h).find? fun x => x.id == id
/-- Every FILEOFF is a multiple of 8 (R407). What R406 and R407 say is zero is not looked at (R5). -/
def fileOffsOk (h : List (BitVec 64)) : Bool := (List.range (imageNsec h)).all fun n => fieldOf (h.getD (9 + 4 * n) 0) 0 3 == 0
/-- IDs stand in increasing order, from 1 to 10, with the alignments of R407. -/
def sectionsRise : List Section → Nat → Bool
  | [], _ => true
  | x :: r, lo =>
    decide (lo < x.id) && decide (x.id ≤ 10) && decide (2 ≤ x.align) && decide (x.align ≤ 20)
      && (if x.id = 1 || x.id = 5 || x.id = 6 || x.id = 7 then x.align == 12 else true) && decide (0 < x.size)
      && sectionsRise r x.id
/-- The header verifies (R412): MAGIC, VERSION, CRC, the section table, ENTRY. -/
def headerOk (h : List (BitVec 64)) : Bool :=
  let crc := crc64 (wordBytes ((h.take 5) ++ [0] ++ h.drop 6))
  fieldOf (h.getD 0 0) 0 32 == 0x315A4C50 && fieldOf (h.getD 0 0) 32 16 == 1 && h.getD 1 0 != 0 && h.getD 5 0 == crc
    && decide (1 ≤ imageNsec h) && decide (imageNsec h ≤ 14) && sectionsRise (sectionsOf h) 0 && fileOffsOk h
    && (match findSection h 1 with
      | some x => decide (fieldOf (h.getD 2 0) 0 32 % 4 = 0) && decide (fieldOf (h.getD 2 0) 0 32 < x.size)
      | none => false)
/-- The image at a VA: its header when it verifies. -/
def State.imageAt (s : State) (part va : Nat) : Option (List (BitVec 64)) :=
  match s.ctlWords part va headerWords with
  | some h => if headerOk h then some h else none
  | none => none

/-! ### Records of the image (R408, R409) -/

/-- A plan entry from its four words; the loader has converted the live range to text offsets (R412). -/
def parseBuffer (ws : List (BitVec 64)) : Buffer :=
  let w := fun k => ws.getD k 0
  { first := fieldOf (w 0) 0 15, pages := fieldOf (w 0) 32 16
    live := if (w 1).getLsbD 32 then some (fieldOf (w 2) 0 32, fieldOf (w 2) 32 32) else none
    banks := fieldOf (w 1) 0 32 }
/-- Read n records of k words each. -/
def State.records (s : State) (part va k : Nat) : Nat → List (List (BitVec 64))
  | 0 => []
  | n + 1 => ((s.ctlWords part va k).getD []) :: s.records part (va + 8 * k) k n
def State.planOf (s : State) (part : Nat) (h : List (BitVec 64)) : List Buffer :=
  match findSection h 5 with
  | some x => (s.records part x.va 4 (x.size / 32)).map parseBuffer
  | none => []
/-- c0 to c15 from the curve section. -/
def State.curvesOf (s : State) (part : Nat) (h : List (BitVec 64)) : Sparse Curve :=
  match findSection h 6 with
  | some x => (s.records part x.va 73 (x.size / 584)).foldl
      (fun m r => sset {} m (fieldOf (r.headD 0) 0 4) (parseCurve (wordBytes r.tail))) []
  | none => []
/-- bm0 to bm3 from the bmap section. -/
def State.mapsOf (s : State) (part : Nat) (h : List (BitVec 64)) : Sparse (Option (List (BitVec 32))) :=
  match findSection h 7 with
  | some x => (s.records part x.va 9 (x.size / 72)).foldl
      (fun m r => sset none m (fieldOf (r.headD 0) 0 2) (some (parseMap (wordBytes r.tail)))) []
  | none => []

/-- Every 64 KiB page from one on lies inside the partition's tables. -/
def State.mappedFrom (s : State) (part : Nat) : Nat → Nat → Bool
  | 0, _ => true
  | n + 1, page => (s.ctlPa part (page * 65536) needR).1.isSome && s.mappedFrom part n (page + 1)
/-- Every loaded section of an image lies inside the partition's tables (R266). -/
def State.sectionsIn (s : State) (part : Nat) (h : List (BitVec 64)) : Bool :=
  (sectionsOf h).all fun x => decide (8 ≤ x.id) || (decide (x.va + x.size ≤ 2 ^ 47)
    && s.mappedFrom part ((x.va + x.size + 65535) / 65536 - x.va / 65536) (x.va / 65536))
/-- The control die holds the lines of an image that it reads: the header, the plan, the curves, the maps. -/
def State.holdImage (s : State) (part va : Nat) : State :=
  let s := s.ctlHoldN part va (8 * headerWords)
  match s.imageAt part va with
  | some h => (sectionsOf h).foldl (fun s x => if x.id = 5 || x.id = 6 || x.id = 7 then s.ctlHoldN part x.va x.size else s) s
  | none => s

/-- A valid entry with LIMIT below BASE or a nonzero reserved bit fails the launch. -/
def rangeOk (ws : List (BitVec 64)) : Bool :=
  let w := fun k => ws.getD k 0
  !(w 2).getLsbD 63 || (fieldOf (w 0) 56 8 == 0 && fieldOf (w 1) 56 8 == 0 && fieldOf (w 2) 47 13 == 0 && w 3 == 0
    && decide (fieldOf (w 0) 0 56 ≤ fieldOf (w 1) 0 56))
/-- The range-register image of a node: none when it lies outside the tables or R188 fails it. -/
def State.rangesOf (s : State) (part node : Nat) : Option (Sparse Range) :=
  let va := s.nodeVa part node 0x90
  match s.ctlWords part va 64 with
  | none => none
  | some ws =>
    let rs := (List.range 16).map fun n => (ws.drop (4 * n)).take 4
    if rs.all rangeOk then
      some ((List.range 16).foldl (fun m n => sset {} m n (parseRange (rs.getD n []))) [])
    else none

/-! ### The SPT of a group at launch (R412) -/

/-- SPT entry of a planned page: V, SHARED, and its backing page. -/
def plannedEntry (iapn : Nat) : BitVec 64 := BitVec.ofNat 64 (2 ^ 63 + 2 ^ 58 + iapn % 2 ^ 40)
/-- Own pages that a plan names. -/
def plannedPages (plan : List Buffer) : List Nat := (plan.map fun b => (List.range b.pages).map fun k => b.first + k).flatten
/-- The words of a table at a machine address that are not zero, with their indices. -/
def Mem.tableWords (m : Mem) (pa n : Nat) : List (Nat × BitVec 64) :=
  (nub ((m.bytes.filter fun e => decide (pa ≤ e.1) && decide (e.1 < pa + 8 * n)).map fun e => (e.1 - pa) / 8)).map fun k => (k, m.rd64 (pa + 8 * k))
/-- Regions of IA offsets that stage 2 of a partition maps with R and W: first offset and size. -/
def State.regions (s : State) (part : Nat) : List (Nat × Nat) :=
  let root := (s.part part).s2root
  let words := s.mem.tableWords
  let good := fun (e : BitVec 64) (big : Bool) => leafOk e big && !isMoved e && Perm.within needRW (leafPerm e)
  if !root.getLsbD 0 then []
  else (words ((root.extractLsb' 13 39).toNat * 8192) 1024).flatMap fun (i, t) =>
    if !ptrOk t then []
    else (words (entryAddr t) 8192).flatMap fun (j, w) =>
      let lo := i * 2 ^ 42 + j * 2 ^ 29
      if good w true then [(lo, 2 ^ 29)]
      else if !ptrOk w then []
      else ((words (entryAddr w) 8192).filter fun e => good e.2 false).map fun e => (lo + e.1 * 65536, 65536)
/-- Nothing stands in n bytes from an IA offset on: stage 2 maps them, memory there is zero, and the scheduler has not given them away; with
`strict`, no range register of the node reaches them. -/
def State.unused (s : State) (part node off n : Nat) (strict : Bool) : Bool :=
  let apart := fun (lo size : Nat) => decide (off + n ≤ lo) || decide (lo + size ≤ off)
  let ranges := (((s.rangesOf part node).getD []).map (·.2)).filter fun r => r.valid
  off != 0 && decide (off + n ≤ 2 ^ 47)
    && (s.sys.nodes.all fun e => keyPart e.1 != part || e.2.given.all fun g => apart g.2.1 g.2.2)
    && (!strict || ranges.all fun r => apart (r.base + r.offset) (r.limit + 1 - r.base))
    && (List.range ((n + 65535) / 65536)).all fun k => match (s.ctlPa part (off + 65536 * k) needRW).1 with
      | some a => let size := Nat.min n 65536; s.mem.bytes.all fun e => decide (e.1 < a) || decide (a + size ≤ e.1)
      | none => false
/-- The scheduler allocates n bytes of the partition for a group, zeroed (R170, R412): which of the unused places is left open. -/
def State.allocate (s : State) (part node idx n : Nat) : Nat × State :=
  let step := Nat.min n 65536
  let starts := (s.regions part).flatMap fun r => (List.range (r.2 / step)).map fun k => r.1 + k * step
  let k := Config.pick s.free % starts.length
  let turn := starts.drop k ++ starts.take k
  let off := match turn.find? fun o => s.unused part node o n true with
    | some o => o
    | none => (turn.find? fun o => s.unused part node o n false).getD (((Config.freeWord s.free).toNat % (2 ^ 31 - 8) + 1) * 65536)
  let s := s.draw.onNode part node fun x => { x with given := x.given ++ [(idx, off, n)] }
  (off, (List.range ((n + 65535) / 65536)).foldl
    (fun s k => match s.ctlPa part (off + k * 65536) needRW with
      | (some pa, s) => s.onMem fun m => (m.zeroRange pa step).writeBack pa step
      | (none, s) => s) s)
/-- Bytes of an SPT (R170). -/
def sptBytes : Nat := 262144
/-- Build the SPT: a backing page for each planned page. -/
def State.buildSpt (s : State) (part node idx : Nat) (pages : List Nat) : Spad × State :=
  pages.foldl
    (fun a pg =>
      let r := a.2.allocate part node idx 4096
      (a.1.setEntry pg (plannedEntry (iaOf part r.1 / 4096)), r.2)) ({}, s)

/-! ### Images in the save area (R344 to R347) -/

/-- Offset of image slot g. -/
def slotBytes : Nat := 0x100000
/-- VA of image slot g of a node. -/
def State.slotVa (s : State) (part node g : Nat) : Nat := s.nodeVa part node 0x80 + slotBytes * g
/-- Machine address of a VA of the save area: the leaves of both stages must grant the need, and neither may be MOVED (R344). -/
def State.savePa (s : State) (part node va : Nat) (need : Perm) : Option Nat × State :=
  let root := s.nodeWord part node 0x98
  let ia := iaOf part va
  if 2 ^ 47 ≤ va then (none, s)
  else match findLeaves s.mem root (s.part part).s2root ia with
    | .moved _ => (none, s)
    | _ => match s.walk root ia need false with
      | (.pa a, s) => (some a, s)
      | (.fault _, s) => (none, s)

/-- Write words from a VA on; false when one is not granted. -/
def State.ctlPut (s : State) (part va : Nat) : List (BitVec 64) → Bool × State
  | [] => (true, s)
  | w :: r => match s.ctlPa part va needRW with
    | (none, s) => (false, s)
    | (some a, s) => State.ctlPut { s with mem := s.mem.wr64 a w } part (va + 8) r
/-- The first n bytes of a 64 KiB page's rest, as the control die writes them: the lines are its own for the moment (R227). -/
def State.ctlPutAt (s : State) (part va a : Nat) (bs : List (BitVec 8)) : State :=
  let ls := lineOf (iaOf part va)
  let s := (List.range ((bs.length + 511) / 256)).foldl (fun s k => s.ctlOwn (ls + k)) s
  s.onMem fun m => (m.wrN a bs).writeBack a bs.length
/-- Write bytes of the save area from a VA on, by 64 KiB pages; false when one is not granted. -/
def State.saveBytes (part node : Nat) : Nat → Nat → List (BitVec 8) → State → Bool × State
  | 0, _, _, s => (true, s)
  | n + 1, va, bs, s =>
    let room := 65536 - va % 65536
    match s.savePa part node va needRW with
    | (none, s) => (false, s)
    | (some a, s) =>
      let s := s.ctlPutAt part va a (bs.take room)
      if bs.length ≤ room then (true, s) else State.saveBytes part node n (va + room) (bs.drop room) s
/-- Read bytes of the save area from a VA on, by 64 KiB pages, with the VAs of the poisoned 64-byte units; none where one is not granted. -/
def State.saveRead (s : State) (part node : Nat) : Nat → Nat → Nat → Option (List (BitVec 8) × List Nat)
  | 0, _, _ => some ([], [])
  | f + 1, va, n =>
    let k := Nat.min n (65536 - va % 65536)
    match (s.savePa part node va needR).1 with
    | none => none
    | some a =>
      let us := ((List.range ((k + 63) / 64)).filter fun j => s.mem.bad (a + 64 * j)).map fun j => va + 64 * j
      if n ≤ k then some (s.mem.rdN a k, us)
      else (s.saveRead part node f (va + k) (n - k)).map fun r => (s.mem.rdN a k ++ r.1, us ++ r.2)
/-- What stands in slot g: the header's words, the body, and the poisoned units by image offset, those that its list names among them. -/
def State.readSlot (s : State) (part node g : Nat) : Option (List (BitVec 64) × List (BitVec 8) × List Nat) :=
  let va := s.slotVa part node g
  (s.saveRead part node 16 va imageBytes).map fun r =>
    let body := r.1.drop headerBytes
    ((List.range 32).map (word64At r.1), body,
      nub ((r.2.map fun u => u - va) ++ if (word64At r.1 1).getLsbD 1 then (bodyList body).1 else []))
/-- Write an image to slot g (R347): every section, then the CRC in the header, which is written last. A FRESH image is a header alone.
Units that hold bad data are written with poison (R348). -/
def State.writeImage (s : State) (part node g : Nat) (i : Image) (body : List (BitVec 8)) : Bool × State :=
  let i := { i with crc := if i.fresh then 0 else crc64 body }
  let va := s.slotVa part node g
  let r := if i.fresh then (true, s) else State.saveBytes part node 16 (va + headerBytes) body s
  let s := i.units.foldl (fun (s : State) u => match (s.savePa part node (va + u) needRW).1 with
    | some a => s.onMem fun m => m.setBad a true
    | none => s) r.2
  if r.1 then State.saveBytes part node 2 va (wordBytes i.header) s else (false, s)

/-- A page fault of the pager while a group is frozen waits on its record (R175). -/
def State.pagerWait (r : Option (Nat × WFault) × State) : State :=
  match r with
  | (some (ia, f), t) => if t.waitsFor ia then t else (t.postWalk f 6 true ia .other).2
  | (none, t) => t
/-- Pages with data that their global page does not have. -/
def dirtyPages (sp : Spad) : List Nat :=
  (sp.spt.filter fun e => sptRes e.2 && (if sptStash e.2 then !(dirtyLines sp e.2).isEmpty else sptDirty e.2)).map (·.1)
/-- Pages of the core's own group are written to their global pages; one whose write faults stays as it is (R175, R180). -/
def State.writePages (s : State) (pages : List Nat) : State := pages.foldl (fun s pg => State.pagerWait (s.writePage none pg)) s
/-- Pages that have been written leave. -/
def State.unloadPages (s : State) (pages : List Nat) : State := pages.foldl (fun s pg => s.unload none pg) s
def residentPages (sp : Spad) : List Nat := (sp.spt.filter fun e => sptRes e.2).map (·.1)
/-- Words of a physical page that hold poison. -/
def Spad.badOf (sp : Spad) (phys : Nat) : Bool := sp.poison.any fun e => decide (phys * 512 ≤ e.1) && decide (e.1 < phys * 512 + 512)
/-- Pages that hold poison. -/
def badPages (sp : Spad) : List Nat := (sp.spt.filter fun e => sptRes e.2 && sp.badOf (sptPpage e.2)).map (·.1)

/-- The frozen core as an image carries it: the bundle at PC is to be fetched again, with the issues it still owes. -/
def Core.packed (c : Core) : Core :=
  { c with
    cur := none, made := 0, owed := c.owedNow, jump := none, timer := 0, waitOn := none, waitBroken := false, qstall := 0, paged := none, pw := none
    loop := c.loop.map fun l => { l with buf := [], reload := true } }
/-- The engines as an image or a move carries them: at accumulator retirement, chase timers at 0 (R145, R330); the pagers of the cores that
are left serve no touch of theirs. -/
def Eng.packed (e : Eng) : Eng :=
  let rest := fun (c : Cmd) => { c with timer := 0, susp := c.susp.map fun (x : Susp) => { x with pw := none } }
  let e := e.retire
  { e with mq := e.mq.map rest, c0q := e.c0q.map rest, c1q := e.c1q.map rest }

/-- Image of the core's own group. -/
def State.ownImage (s : State) (preempt : Bool) : Image :=
  let c := s.core
  let page := fun (pg : Nat) => (pg, bitAt (sptPin (s.spad.entry pg)) 0 + bitAt (s.pinnedPage none pg) 1)
  { fresh := c.fresh, preempt := preempt, hlvl := c.lvl, badPages := badPages s.spad, units := c.badUnits
    groupw := c.group, gangw := c.gang, imgid := c.imgid, resident := (residentPages s.spad).map page
    core := c.packed, eng := s.eng.packed }

/-! ### Loading a group -/

/-- The core of a group at its start (R153, R188, R274, R293, R412). -/
def State.startCore (s : State) (part node core idx : Nat) (n : NodeRt) (h : List (BitVec 64)) : Core :=
  { num := core, run := .running, fresh := true
    pc := BitVec.ofNat 32 (fieldOf (h.getD 2 0) 0 32)
    textva := match findSection h 1 with | some x => x.va | none => 0
    imgid := h.getD 1 0, plan := s.planOf part h, curve := s.curvesOf part h, bmap := s.mapsOf part h
    group := BitVec.ofNat 64 (n.count % 2 ^ 24 * 2 ^ 24 + idx)
    gang := BitVec.ofNat 64 ((if n.gangsz = 0 then 0 else idx % n.gangsz) * 16 + n.gangsz)
    node := BitVec.ofNat 64 node, args := BitVec.ofNat 64 (s.nodeVa part node 0x78), rqtag := n.eff.tag
    part := BitVec.ofNat 5 part, rg := (s.rangesOf part node).getD [], s1root := s.nodeWord part node 0x98 }

/-- The number of no core. -/
def noPager : Nat := 2 ^ 20
/-- The pages that an image lists become resident again (R180, R352). -/
def State.fetchResident (s : State) (o : Owner) (pages : List Nat) : State :=
  pages.foldl (fun s pg => match s.pageIn o pg with | .done t => t | _ => s) s

/-- A restored group's listed pages are poisoned in every element (R352). -/
def Spad.markPage (sp : Spad) (pg : Nat) : Spad :=
  if sptRes (sp.entry pg) then
    { sp with poison := (List.range 512).foldl (fun p k => sset false p (sptPpage (sp.entry pg) * 512 + k) true) sp.poison }
  else sp
def State.markPages (s : State) (o : Owner) (pages : List Nat) : State :=
  s.setSpad o (pages.foldl (fun sp pg => sp.markPage pg) (s.spadOf o))

/-- The caches of a core are empty of data; its instruction cache stays (R282). -/
def Mem.dropData (m : Mem) (core : Nat) : Mem := { m.clearCore core with ic := m.ic }

/-- The entries of the SPT at a VA: RESTORE finds it through the saved VA (R352). -/
def State.readSpt (s : State) (part va : Nat) : Sparse (BitVec 64) :=
  (s.sptListed part va).foldl (fun m pg => sset 0 m pg ((s.ctlRd part (va + 8 * pg)).getD 0)) []
/-- The words of a node's Plozia header. -/
def State.headerOf (s : State) (part image : Nat) : List (BitVec 64) := (s.ctlWords part image headerWords).getD []
/-- A saved group goes on, on the acting core, with what its node gives (R151, R166). After a RESTORE its range registers are the node's,
and the listed pages are poisoned whole (R208, R352); the deliveries that it had sent wait on as before. -/
def State.resumeCore (s : State) (part node idx : Nat) (n : NodeRt) (i : Image) : State :=
  let h := s.headerOf part n.image
  let back := n.restored.contains idx
  let run := i.core.run
  let c := { i.core with
    num := s.core.num, run := if run == .retired then .ended else if run == .ended || run == .stopped then run else .running
    rg := if back then (s.rangesOf part node).getD [] else i.core.rg
    textva := (match findSection h 1 with | some x => x.va | none => 0), imgid := h.getD 1 0, plan := s.planOf part h
    node := BitVec.ofNat 64 node, rqtag := n.eff.tag, part := BitVec.ofNat 5 part, s1root := s.nodeWord part node 0x98 }
  let spt := s.readSpt part c.sptva
  let told := i.eng.flight.map fun x => (⟨x.2, 0, noPager⟩ : Told)
  let s := s.onNode part node fun n => { n with restored := n.restored.filter fun k => k != idx }
  let s := { s with core := c, spad := { spt := spt, back := spt }, eng := { i.eng with told := told }, mem := s.mem.dropData s.core.num }
  ((s.fetchResident none (i.resident.map (·.1))).markPages none (if back then i.badPages else [])).replay false

/-- The image that group `idx` of a node resumes from: none where its slot cannot be read, or lost data leave no state to resume. -/
def State.savedImage (s : State) (part node idx : Nat) : Option Image :=
  match s.readSlot part node idx with
  | some (_, body, us) => if us.all fun u => unitHealable u || (decide (0x1700 ≤ u) && decide (u < 0x5300)) then some (readBody body us) else none
  | none => none
/-- Load group `idx` of a node on the acting core, which is free: from its image when one was saved, else from its start. Which of the
lines of its instruction cache still stand is left open. -/
def State.loadHere (s : State) (part node idx : Nat) : State :=
  let n := s.node? part node
  let s := (s.holdImage part n.image).ctlHoldN part (s.nodeVa part node 0x90) 512
  if n.saved.contains idx then match s.savedImage part node idx with
    | some i => s.resumeCore part node idx n i
    | none => s
  else match s.imageAt part n.image with
    | some h =>
      let c := s.startCore part node s.core.num idx n h
      let a := s.allocate part node idx sptBytes
      let r := a.2.buildSpt part node idx (plannedPages c.plan)
      let stands := fun (e : Nat × (BitVec 64 × List (BitVec 8))) => keyCore e.1 != c.num || Config.freeBit r.2.free e.1
      { r.2.draw with
        core := { c with sptva := a.1 }, spad := r.1, eng := {}
        mem := { r.2.mem.dropData c.num with ic := r.2.mem.ic.filter stands } }
    | none => s
/-- Load a group on a core with a number. -/
def State.loadGroup (s : State) (part node idx core : Nat) : State := s.onFree core fun s => s.loadHere part node idx

end Sys2Proof.Machine
end

