-- ==== Sys2Proof/Machine/Sched.lean ====
section
/-! DEFINITION. The region scheduler: admission (R265, R266, R272), placement (R273 to R275), pre-emption and parking (R277 to
R279), and YIELD (R290). -/

namespace Sys2Proof.Machine

/-! ### Events that name a node by its key -/

/-! ### Cores and clusters -/

/-- The core that a unit of a die belongs to (R364): units of a core are numbered by core within the die. -/
def unitCore (u : UnitId) : Option Nat :=
  match u.utype with
  | 1 => some u.uindex
  | 2 => some (u.die * 128 + u.uindex / 32)
  | 3 => some (u.die * 128 + u.uindex / 2)
  | 4 => some (u.die * 128 + u.uindex)
  | 12 => some (u.die * 128 + u.uindex)
  | 13 => some (u.die * 128 + u.uindex / 2)
  | _ => none
/-- A withdrawn unit takes this core out: the core's own, or its cluster's slice or directory (R364). -/
def unitHits (u : UnitId) (core : Nat) : Bool :=
  unitCore u == some core || ((u.utype == 5 || u.utype == 6) && u.die * 16 + u.uindex == clusterOf core)
def State.coreOk (s : State) (core : Nat) : Bool := !(s.sys.withdrawn.any fun u => unitHits u core) && !s.mem.lost.contains (dieOf core)
/-- The cores of a cluster, in increasing position. -/
def coresOf (cl : Nat) : List Nat := (List.range 8).map fun k => cl * 8 + k
def State.goodCores (s : State) (cl : Nat) : List Nat := (coresOf cl).filter s.coreOk
/-- Cores of a cluster that a new group may take. -/
def State.freeCores (s : State) (cl : Nat) : List Nat :=
  (s.goodCores cl).filter fun c => !(s.sys.placed.any fun p => p.core == c) && !(s.sys.replays.any fun r => r.core == c)
    && !s.liveCores.contains c

/-! ### Admission -/

/-- The node never runs (R266, R272): STATE 4 with a class, SIGNALEV signalled with it. -/
def State.failNode (s : State) (part va cls : Nat) (parent : Nat) : State :=
  let s := (s.nodeClass part va cls).setNodeState part va stKilled
  let s := s.onNode part va fun n => { n with part := part, parent := parent, done := true }
  let ev := s.nodeSignalEv part va
  let s := if ev = 0 then s else s.signalEvent part ev cls
  let s := if parent = 0 then s else s.nodeClass part parent cls
  s.complete part treeBound parent

/-- Effective values (R265): a partition root takes its own fields. -/
def State.effOf (s : State) (part va : Nat) (up : Option Eff) : Eff :=
  let w20 := s.nodeWord part va 0x20
  let w28 := s.nodeWord part va 0x28
  let own : Eff :=
    { cores := fieldOf w28 0 16, pages := fieldOf w28 16 24, bw := fieldOf w28 40 8, prio := fieldOf w20 0 8
      domain := fieldOf (s.nodeWord part va 0x30) 0 32, tag := (s.nodeWord part va 0x38).extractLsb' 0 16 }
  match up with
  | none => own
  | some e =>
    let b := w20.getLsbD 8
    { cores := if b then Nat.min own.cores e.cores else e.cores
      pages := if b then Nat.min own.pages e.pages else e.pages
      bw := if b then Nat.min own.bw e.bw else e.bw
      prio := if w20.getLsbD 9 then Nat.min own.prio e.prio else e.prio
      domain := if w20.getLsbD 10 then own.domain else e.domain
      tag := if w20.getLsbD 11 then own.tag else e.tag }

/-- Words 0x00 to 0x98 of a block. -/
def State.block (s : State) (part va : Nat) : Option (List (BitVec 64)) := s.ctlWords part va 20
/-- Must-be-zero bits of R264. -/
def blockZeros (b : List (BitVec 64)) : Bool :=
  let w := fun k => b.getD k 0
  fieldOf (w 0) 28 36 == 0 && fieldOf (w 0) 9 7 == 0 && fieldOf (w 4) 12 52 == 0 && fieldOf (w 5) 48 16 == 0
    && (if fieldOf (w 0) 0 8 = 1 then (List.range 7).all (fun k => w (13 + k) == 0) else !(w 0).getLsbD 8)
/-- The valid waits of a block, as event VAs. -/
def waitsOf (b : List (BitVec 64)) : List Nat :=
  (((b.drop 8).take 4).filter fun w => w.getLsbD 63).map fun w => fieldOf w 6 50 * 64
/-- Every event of a block lies inside the tables. -/
def State.eventsIn (s : State) (part : Nat) (b : List (BitVec 64)) : Bool :=
  let ev := fieldOf (b.getD 12 0) 0 56
  ((waitsOf b) ++ (if ev = 0 then [] else [ev])).all fun a => (s.ctlWords part (evAddr a) 8).isSome

/-- A launch node passes R266; its header words. -/
def State.launchOk (s : State) (part va : Nat) (b : List (BitVec 64)) : Option (List (BitVec 64)) :=
  let count := fieldOf (b.getD 14 0) 0 24
  let gsz := fieldOf (b.getD 14 0) 24 4
  if count = 0 || gsz = 0 || 8 < gsz || count % gsz ≠ 0 then none
  else if !(s.part part).clusters.any fun cl => decide (gsz ≤ (s.goodCores cl).length) then none
  else if (s.rangesOf part va).isNone then none
  else
    let img := fieldOf (b.getD 13 0) 0 56
    if Config.signedImages part && !Config.signatureOk part img then none else (s.imageAt part img).filter fun h => s.sectionsIn part h

/-- Admit a node whose waits are satisfied, or fail it (R265, R266). -/
def State.admitNode (s : State) (part va : Nat) (up : Nat) (b : List (BitVec 64)) : State :=
  let parent := s.node? part up
  let e := s.effOf part va (some parent.eff)
  let kind := fieldOf (b.getD 0 0) 0 8
  let s := if kind = 2 then (s.holdImage part (fieldOf (b.getD 13 0) 0 56)).ctlHoldN part (s.nodeVa part va 0x90) 512 else s
  let hdr := if kind = 2 then s.launchOk part va b else none
  if (kind ≠ 1 && kind ≠ 2) || !blockZeros b || e.tag = 0xFFFF || (kind = 2 && hdr.isNone) || !s.eventsIn part b then
    s.failNode part va 3 up
  else
    let h := hdr.getD []
    let us := fun (x d : Nat) => if x = 0 then d else x
    let w88 := b.getD 17 0
    let count := fieldOf (b.getD 14 0) 0 24
    let gsz := fieldOf (b.getD 14 0) 24 4
    let n : NodeRt :=
      { part := part, parent := up, launch := kind == 2, eff := e, ownBudget := (b.getD 4 0).getLsbD 8
        split := (b.getD 6 0).getLsbD 32, gangsz := if kind = 2 then gsz else 1, count := if kind = 2 then count else 0
        pagesPer := ((s.planOf part h).map fun x => x.pages).sum, image := fieldOf (b.getD 13 0) 0 56
        svc := (b.getD 14 0).getLsbD 32, todo := if kind = 2 then List.range (count / gsz) else []
        strikeLim := fieldOf w88 48 8, lim1 := us (fieldOf w88 0 32) 100000, lim2 := us (fieldOf w88 32 16) 10000
        auditable := (h.getD 4 0).getLsbD 0 }
    let s := ((s.setNode part va { n with admitted := s.sys.order }).onSys fun y => { y with order := y.order + 1 }).setNodeState
      part va stAdmitted
    s.complete part treeBound va

/-- A new or waiting node (R272): its waits are named; it is admitted, killed by a wait with error, or stays. -/
def State.look (s : State) (part up va : Nat) : State :=
  let s := s.ctlHold part va
  match s.block part va with
  | none =>
    let s := (s.onNode part va fun n => { n with part := part, parent := up, done := true }).nodeClass part up 3
    s.complete part treeBound up
  | some b =>
    let ws := waitsOf b
    let new := s.nodeState part va == stNew
    let s := if new then
        let ev := fieldOf (b.getD 12 0) 0 56
        let s := s.setNodeState part va stWaiting
        (ws ++ (if ev = 0 then [] else [ev])).foldl (fun s a => s.nameEvent part a) s
      else s
    let s := (waitsOf b).foldl (fun s a => s.ctlHold part (evAddr a)) s
    if !s.eventsIn part b then s.failNode part va 3 up
    else match ws.find? fun a => decide (2 ≤ s.eventState part a) with
    | some a => s.failNode part va (s.eventClass part a) up
    | none => if ws.all fun a => s.eventState part a != 0 then s.admitNode part va up b else s

/-- The watch table takes one non-owner token of a FIRSTCHILD line that it does not hold (R226, R267). -/
def Line.watch (l : Line) : Line :=
  if l.watched then l
  else if (if l.homeOwner then 2 else 1) ≤ l.homeTok then { l with homeTok := l.homeTok - 1, watched := true }
  else match l.dies.find? fun e => decide ((if e.2.owner then 2 else 1) ≤ e.2.tokens) with
    | some (d, x) => { (l.setDie d { x with tokens := x.tokens - 1, writer := none }) with watched := true }
    | none => l
def watchMax : Nat := 16384
/-- When the node that a watched line belongs to was admitted. -/
def State.watchedSince (s : State) (l : Nat) : Nat :=
  match s.sys.nodes.find? fun e => childLine (keyPart e.1) (keyVa e.1) == l with
  | some e => e.2.admitted
  | none => 0
/-- A full table drops the node admitted first, when it was admitted before `since` (R267). -/
def State.dropOldest (s : State) (since : Nat) : State :=
  let used := (s.mem.lines.filter fun e => e.2.watched).map (·.1)
  if used.length < watchMax then s
  else match used.foldl (fun (o : Option Nat) l => match o with
      | none => some l
      | some k => if s.watchedSince l < s.watchedSince k then some l else some k) none with
    | some l => if s.watchedSince l < since then s.onMem fun m => m.setLine l (m.line l).unwatch else s
    | none => s
/-- Watch a node's FIRSTCHILD line, in hardware mode (R267, R375). -/
def State.watchNode (s : State) (part va : Nat) : State :=
  let l := childLine part va
  let s := if (s.part part).mode modeTree || (s.mem.line l).watched then s else s.dropOldest (s.node? part va).admitted
  let used := (s.mem.lines.filter fun e => e.2.watched).length
  if (s.part part).mode modeTree || watchMax ≤ used then s
  else
    let a := (s.ctlPa part (va + 0x10) needR).1
    s.onMem fun m =>
      let m := m.settle l
      let x := m.line l
      let x := if x.resident then x else { x with pa := (a.getD 0) / 256 * 256 }
      m.setLine l x.watch
/-- No child-list line of a partition is watched any more (R375). -/
def State.unwatchAll (s : State) (part : Nat) : State :=
  s.onMem fun m => { m with lines := m.lines.map fun e => if partOfIa (e.1 * 256) = part then (e.1, e.2.unwatch) else e }

/-- Visit a subtree: new and waiting children are looked at and watched, admitted ones visited; one whose SEAL was set since completes
(R267 to R269, R272). -/
def State.visit (part : Nat) : Nat → State → Nat → State
  | 0, s, _ => s
  | f + 1, s, va =>
    let s := s.ctlHold part va
    let s := if (s.node? part va).done then s else s.watchNode part va
    (s.children part va).foldl
      (fun s c =>
        let s := if (s.node? part c).done && s.nodeState part c == stNew then s.setNode part c {} else s
        let s := if stAdmitted ≤ s.nodeState part c then s else s.look part va c
        if stAdmitted ≤ s.nodeState part c then (State.visit part f s c).complete part treeBound c
        else if (s.node? part c).done then s
        else s.watchNode part c) s

/-! ### Demand and budgets -/

/-- Nodes of a subtree, itself first. -/
def State.subtree (s : State) (part : Nat) : Nat → Nat → List Nat
  | 0, va => [va]
  | f + 1, va => va :: ((s.children part va).map fun c => s.subtree part f c).flatten
def treeDepth : Nat := treeBound
/-- The ancestors of a node, itself first. -/
def State.ancestors (s : State) (part : Nat) : Nat → Nat → List Nat
  | 0, _ => []
  | f + 1, va => if va = 0 then [] else va :: s.ancestors part f (s.node? part va).parent
/-- A launch node with unplaced groups that may be placed. -/
def NodeRt.wants (n : NodeRt) : Bool := n.launch && !n.halted && !n.done && !n.todo.isEmpty
/-- The launch nodes of a subtree that have unplaced groups at a priority. -/
def State.wanting (s : State) (part va p : Nat) : List Nat :=
  (s.subtree part treeDepth va).filter fun v =>
    let n := s.node? part v
    n.wants && n.eff.prio == p && s.nodeState part v == stAdmitted
/-- Groups placed under a node. -/
def State.placedUnder (s : State) (part va : Nat) : List Placed :=
  s.sys.placed.filter fun p => s.placedAt part p.node p && (s.ancestors part treeDepth p.node).contains va
/-- Placing one more gang of a node, with `gone` groups off their cores, exceeds no budget of it or an ancestor (R273). -/
def State.fits (s : State) (part va : Nat) (gone : List Nat) : Bool :=
  let n := s.node? part va
  (s.ancestors part treeDepth va).all fun a =>
    let e := (s.node? part a).eff
    let ps := (s.placedUnder part a).filter fun p => !gone.contains p.core
    let pages := (ps.map fun p => (s.node? part p.node).pagesPer).sum
    decide (ps.length + n.gangsz ≤ e.cores) && decide (pages + n.gangsz * n.pagesPer ≤ e.pages)

/-! ### Placement (R274) -/

/-- Free cores of a cluster whose instruction cache holds lines of an image (R274). -/
def State.warm (s : State) (imgid : BitVec 64) (cl : Nat) : Nat :=
  ((s.freeCores cl).filter fun c => s.mem.ic.any fun e => keyCore e.1 == c && e.2.1 == imgid).length
/-- The reserved cluster of a partition is closed to other gangs (R275). -/
def State.openTo (s : State) (part node gang cl : Nat) : Bool :=
  match (s.part part).reserve with
  | some (v, g, c) => c != cl || (v == node && g == gang)
  | none => true
/-- The cluster of R274 for a gang, among some. -/
def State.chooseAmong (s : State) (part node : Nat) (cls : List Nat) : Option Nat :=
  let n := s.node? part node
  let imgid := (s.ctlRd part (n.image + 8)).getD 0
  let better := fun (a b : Nat) =>
    let fa := (s.freeCores a).length
    let fb := (s.freeCores b).length
    fa < fb || (fa == fb && (decide (s.warm imgid b < s.warm imgid a) || (s.warm imgid a == s.warm imgid b && decide (a < b))))
  (cls.filter fun cl => decide (n.gangsz ≤ (s.freeCores cl).length)).foldl
    (fun o c => match o with | none => some c | some b => if better c b then some c else o) none
def State.chooseCluster (s : State) (part node gang : Nat) : Option Nat :=
  s.chooseAmong part node ((s.part part).clusters.filter (s.openTo part node gang))

/-- Place a gang on a cluster: its groups take the free cores in increasing position. -/
def State.placeGang (s : State) (part node gang cl : Nat) : State :=
  let n := s.node? part node
  let cores := (s.freeCores cl).take n.gangsz
  let s := (List.range cores.length).foldl
    (fun s k =>
      let core := cores.getD k 0
      let idx := gang * n.gangsz + k
      if n.retired.contains idx then s
      else
        let s := s.loadGroup part node idx core
        s.onSys fun y => { y with
          order := y.order + 1, placed := y.placed ++ [⟨core, node, idx, gang, y.order, none, 0⟩] }) s
  let s := s.onNode part node fun n => { n with todo := n.todo.erase gang, unplaced := sset 0 n.unplaced gang 0 }
  match (s.part part).reserve with
  | some (v, g, _) => if v = node && g = gang then s.setPart part { s.part part with reserve := none } else s
  | none => s

/-- The saved members of a gang can be resumed from their slots. -/
def State.slotsOk (s : State) (part node gang : Nat) : Bool :=
  let n := s.node? part node
  (List.range n.gangsz).all fun k =>
    let idx := gang * n.gangsz + k
    n.retired.contains idx || !n.saved.contains idx || (s.savedImage part node idx).isSome
/-- Place a node's unplaced gangs while they can be placed: the cores taken. One whose image cannot be read kills its context, as R349 does for
the write. DESIGN CHOICE -/
def State.placeNode (part node : Nat) : Nat → State → Option Nat → Nat × State
  | 0, s, _ => (0, s)
  | f + 1, s, allow =>
    let n := s.node? part node
    match n.todo with
    | [] => (0, s)
    | g :: _ =>
      let short := match allow with | some a => decide (a < n.gangsz) | none => false
      if short || !s.fits part node [] then (0, s)
      else match s.chooseCluster part node g with
        | none => (0, s)
        | some cl =>
          if !s.slotsOk part node g then (0, s.killNode part node 4)
          else
            let r := State.placeNode part node f (s.placeGang part node g cl) (allow.map fun a => a - n.gangsz)
            (n.gangsz + r.1, r.2)

/-- A child's demand is blocked by budgets alone (R273). -/
def State.budgetBlocked (s : State) (part va p : Nat) : Bool :=
  let ws := s.wanting part va p
  !ws.isEmpty && ws.all fun v => !s.fits part v []

/-- The children of a node in turn order, starting after the first child of the turn before. -/
def afterChild (kids : List Nat) (pos : Nat) : List Nat :=
  match kids.dropWhile fun c => c != pos with
  | [] => kids
  | _ :: r => r ++ kids.takeWhile (fun c => c != pos) ++ [pos]

/-- Serve(n, p) with at most `allow` cores (R273): the cores placed. -/
def State.serve (part p : Nat) : Nat → State → Nat → Option Nat → Nat × State
  | 0, s, _, _ => (0, s)
  | f + 1, s, va, allow =>
    let n := s.node? part va
    if n.launch then
      let r := if n.eff.prio = p && n.wants then State.placeNode part va n.todo.length s allow else (0, s)
      (s.children part va).foldl
        (fun a c =>
          let r := State.serve part p f a.2 c (allow.map fun x => x - a.1)
          (a.1 + r.1, r.2)) r
    else
      let kids := afterChild (s.children part va) n.rrpos
      let r := kids.foldl
        (fun a c =>
          if (a.2.wanting part c p).isEmpty then (a.1, a.2.onNode part c fun k => { k with deficit := 0 })
          else
            let k := a.2.node? part c
            let d := Nat.min (k.deficit + k.eff.cores) (2 * k.eff.cores)
            let cap := match allow with | some x => Nat.min (x - a.1) d | none => d
            let r := State.serve part p f a.2 c (some cap)
            let left := if r.2.budgetBlocked part c p then 0 else d - r.1
            (a.1 + r.1, r.2.onNode part c fun k => { k with deficit := left })) (0, s)
      match kids with
      | [] => r
      | c :: _ => (r.1, r.2.onNode part va fun k => { k with rrpos := c })

/-! ### Pre-emption for priority, parking (R277, R279) -/

/-- Members of a placed gang. -/
def State.gangOf (s : State) (part node gang : Nat) : List Placed := (s.placedOf part node).filter fun p => p.gang == gang
/-- What a member waits on has come (R279): the queue holds a task, or the event, found as the node's groups find it, is signalled. -/
def State.ready (s : State) (part node : Nat) (w : Bool × Nat) : Bool :=
  if w.1 then !(sget [] s.sys.queues w.2).isEmpty
  else match (s.walk (s.nodeWord part node 0x98) (iaOf part w.2) needR).1 with
    | .pa a => (s.mem.rd64 (a + 8)).toNat % 4 != 0
    | .fault _ => false
/-- Every member of a placed gang waits, and nothing that one waits on has come. -/
def State.allWaiting (s : State) (part node gang : Nat) : Bool :=
  let ps := s.gangOf part node gang
  !ps.isEmpty && ps.all fun p => match p.wait with | some w => !s.ready part node w | none => false
/-- Running gangs of a partition, by the lowest of their members that holds a core. -/
def State.runningGangs (s : State) (part : Nat) : List Placed :=
  s.sys.placed.filter fun p => s.placedAt part p.node p
    && !(s.sys.placed.any fun q => q.node == p.node && q.gang == p.gang && decide (q.index < p.index) && s.placedAt part q.node q)
    && !s.stoppedAt p && !((s.node? part p.node).leaving.any fun x => x.1 == p.gang)
/-- Cores that gangs being pre-empted will free. -/
def State.leavingCores (s : State) (part : Nat) : List Nat :=
  (s.sys.placed.filter fun p => s.placedAt part p.node p && (s.node? part p.node).leaving.any fun x => x.1 == p.gang).map
    fun p => p.core
/-- Some cluster will have `k` free cores. -/
def State.willFit (s : State) (part k : Nat) (gone : List Nat) : Bool :=
  (s.part part).clusters.any fun cl =>
    decide (k ≤ (s.freeCores cl).length + ((coresOf cl).filter fun c => gone.contains c).length)

/-- The victim: a gang of lower priority, or one that waits whole; lowest priority first, latest placed among equals. -/
def State.nextVictim (s : State) (part p : Nat) : Option Placed :=
  let prio := fun (x : Placed) => (s.node? part x.node).eff.prio
  let worse := fun (a b : Placed) => decide (prio a < prio b) || (prio a == prio b && decide (b.order < a.order))
  ((s.runningGangs part).filter fun x => decide (prio x < p) || s.allWaiting part x.node x.gang).foldl
    (fun o x => match o with | none => some x | some y => if worse x y then some x else o) none
/-- The replay of a partition that was placed latest; it runs at priority 0 (R367). -/
def State.lastReplay (s : State) (part : Nat) : Option Replay :=
  (s.sys.replays.filter fun r => keyPart r.node == part).foldl
    (fun o r => match o with | none => some r | some x => if x.order < r.order then some r else o) none
/-- A replayed gang leaves its cores and is to be started again. -/
def State.stopReplay (s : State) (r : Replay) : State :=
  s.onSys fun y => { y with replays := y.replays.filter fun x => x.node != r.node || x.gang != r.gang }
/-- The replay goes before the victim: it has the lowest priority, and the latest placed goes first among equals. -/
def State.replayFirst (s : State) (part p : Nat) (v : Option Placed) (r : Replay) : Bool :=
  p != 0 && (match v with
    | some x => (s.node? part x.node).eff.prio != 0 || decide (x.order < r.order)
    | none => true)
/-- Pre-empt until enough cores of one cluster will be free. -/
def State.preemptFor (part p k : Nat) : Nat → State → State
  | 0, s => s
  | f + 1, s =>
    if s.willFit part k (s.leavingCores part) then s
    else
      let v := s.nextVictim part p
      match (s.lastReplay part).filter (s.replayFirst part p v), v with
      | some r, _ => State.preemptFor part p k f (s.stopReplay r)
      | none, some v => State.preemptFor part p k f (s.startPreempt part v.node v.gang (s.allWaiting part v.node v.gang))
      | none, none => s
/-- PreemptIfNeeded (R277): for the highest priority with a gang that only lacks cores. -/
def State.preemptIfNeeded (s : State) (part root : Nat) : State :=
  let nodes := (s.subtree part treeDepth root).filter fun v =>
    let n := s.node? part v
    n.wants && s.nodeState part v == stAdmitted && s.fits part v [] && (s.chooseCluster part v (n.todo.headD 0)).isNone
  match nodes.foldl (fun o v => match o with
      | none => some v
      | some w => if (s.node? part w).eff.prio < (s.node? part v).eff.prio then some v else o) none with
  | none => s
  | some v => State.preemptFor part (s.node? part v).eff.prio (s.node? part v).gangsz (s.sys.placed.length + s.sys.replays.length) s

/-- Put a gang into the order of placing: increasing index (R273). -/
def insertGang (g : Nat) : List Nat → List Nat
  | [] => [g]
  | x :: r => if g ≤ x then g :: x :: r else x :: insertGang g r
/-- Parked gangs whose every member can go on become unplaced again. -/
def State.unpark (s : State) (part va : Nat) : State :=
  let n := s.node? part va
  let ok := fun (x : Nat × List (Bool × Nat)) => x.2.all fun w => s.ready part va w
  if n.parked.isEmpty then s
  else s.setNode part va { n with
    todo := ((n.parked.filter ok).map (·.1)).foldl (fun l g => insertGang g l) n.todo, parked := n.parked.filter fun x => !ok x }

/-! ### Replays for audit (R367) -/

/-- Clusters for the replay of a gang that first ran on `core`: a different one, on another die where the partition has one. -/
def State.replayClusters (s : State) (part core : Nat) : List Nat :=
  let cls := (s.part part).clusters
  let far := cls.filter fun cl => cl / 16 != dieOf core
  if far.isEmpty then cls.filter fun cl => cl != clusterOf core else far
/-- Place the replay of a selected gang, outside every budget. -/
def State.placeReplay (s : State) (part va gang : Nat) : State :=
  let key := nodeKey part va
  let n := s.node? part va
  match s.sys.audits.find? fun a => a.node == key && a.gang == gang with
  | none => s
  | some a =>
    if s.sys.replays.any fun r => r.node == key && r.gang == gang then s
    else match s.chooseAmong part va ((s.replayClusters part a.core).filter (s.openTo part va gang)) with
      | none => s
      | some cl => s.onSys fun y => { y with
          order := y.order + 1
          replays := y.replays ++ (((s.freeCores cl).take n.gangsz).zipIdx.map fun x => ⟨x.1, key, gang, gang * n.gangsz + x.2, y.order⟩) }
/-- Selected gangs are replayed at priority 0 (R367). -/
def State.placeReplays (s : State) (part : Nat) : State :=
  let s := s.onSys fun y => { y with replays := y.replays.filter fun r => s.coreOk r.core }
  (s.sys.nodes.filter fun e => keyPart e.1 == part).foldl
    (fun s e => e.2.auditing.foldl (fun s g => s.placeReplay part (keyVa e.1) g) s) s

/-! ### The round (R273) -/

/-- Rounds that a gang stays unplaced while its node has the highest wanting priority are counted (R275). -/
def State.countRounds (s : State) (part root : Nat) : State :=
  let all := (s.subtree part treeDepth root).filter fun v => (s.node? part v).wants && s.nodeState part v == stAdmitted
  let top := (all.map fun v => (s.node? part v).eff.prio).foldl Nat.max 0
  all.foldl (fun s v => s.onNode part v fun n => { n with
    unplaced := if n.eff.prio = top then n.todo.foldl (fun m g => sset 0 m g (sget 0 m g + 1)) n.unplaced else [] }) s
/-- A gang that has stayed unplaced for 64 rounds reserves the cluster with the most free cores, the lowest among ties (R275). -/
def State.reserveGang (s : State) (part node : Nat) : State :=
  let n := s.node? part node
  let pt := s.part part
  match n.todo.find? fun g => decide (64 ≤ sget 0 n.unplaced g) with
  | none => s
  | some g =>
    if pt.reserve.isSome || !n.wants then s
    else
      let more := fun (a b : Nat) =>
        let fa := (s.freeCores a).length
        let fb := (s.freeCores b).length
        decide (fb < fa) || (fa == fb && decide (a < b))
      match pt.clusters.foldl (fun o c => match o with | none => some c | some b => if more c b then some c else o) none with
      | none => s
      | some cl => s.setPart part { pt with reserve := some (node, g, cl) }
/-- GANG_RESERVATION (R275), which a round also makes. -/
def execGangReservation (part node : Nat) (s : State) : Out := done (s.reserveGang part node)
def State.reserveAny (s : State) (part root : Nat) : State :=
  (s.subtree part treeDepth root).foldl (fun s v => s.reserveGang part v) s

/-- SCHEDULING_ROUND (R273): look at new and waiting nodes, wake parked gangs, serve every priority, place replays, pre-empt. -/
def State.round (s : State) (part : Nat) : State :=
  let pt := s.part part
  if !pt.live || !pt.rootUp then s
  else
    let s := s.setPart part { pt with roundDue := false }
    let s := State.visit part treeDepth s pt.rootva
    let s := (s.subtree part treeDepth pt.rootva).foldl (fun s v => s.unpark part v) s
    let s := (List.range 256).reverse.foldl (fun s p => (State.serve part p treeDepth s pt.rootva none).2) s
    (((s.placeReplays part).countRounds part pt.rootva).reserveAny part pt.rootva).preemptIfNeeded part pt.rootva
def execSchedulingRound (part : Nat) (s : State) : Out := done (s.round part)

/-! ### Pre-emption completes (R278) -/

/-- The acting group's engines stand at a boundary: no product runs, every MCAST beat has been accepted or waits at its receiver, every CREM
beat is answered (R145, R262). A product that waits at a running front stands where the front's producer does, in a group that is frozen;
`fuel` bounds the followers of one another. -/
def State.quiet (s : State) : Nat → Bool
  | 0 => true
  | fuel + 1 =>
    s.eng.flight.all (fun x => s.eng.told.any fun t => t.delivery == x.2) && s.eng.crem.isEmpty
      && match s.eng.mq.head? with
        | some c => !(c.started && c.susp.isNone && c.product) || (match c.waitOn with
          | some (o, n) =>
            let f := s.frontOf o n
            let g := s.groupOf o
            f.state == .running && decide (f.value < c.waitNeed) && g.ctx.halting
              && (f.prod != 0 || (g.eng.mq.head?.map fun x => !x.product).getD true || (s.atWith g.core true fun t => (t.quiet fuel, t)).1)
          | none => false)
        | none => true
/-- Groups of a gang, and so followers of one another, at most. -/
def gangMax : Nat := 16

/-- The acting core's group is written to its slot, and the core is free: false when the save area is not granted. -/
def State.saveHere (s : State) (part node idx : Nat) : Bool × State :=
  let i := s.ownImage true
  let s := (s.unloadPages (residentPages s.spad)).syncSpt
  let r := s.writeImage part node idx i i.body
  (r.1, { (r.2.onSys fun y => y.orphan fun x => x.core == s.core.num) with
    core := { num := s.core.num }, eng := {}, spad := {}, mem := r.2.mem.dropData s.core.num })
/-- Cores of a gang's members. -/
def memberCores (ps : List Placed) : List Nat := ps.map fun p => p.core
/-- Every member satisfies a test. -/
def State.allMembers (s : State) (ps : List Placed) (test : State → Bool) : Bool :=
  (memberCores ps).all fun k => (s.atWith k true fun t => (test t, t)).1

/-- PREEMPTION_COMPLETE: once the engines of every member stand at a boundary and its pages are written, every member is written to its
slot, the cores are free and the gang is unplaced again, or parked. A page whose write faults holds it up until the record is
resolved. A save area that is not granted kills the context (R349). -/
def State.preempted (s : State) (key gang : Nat) : State :=
  let part := keyPart key
  let node := keyVa key
  let n := s.node? part node
  let ps := s.gangOf part node gang
  match n.leaving.find? fun x => x.1 == gang with
  | none => s
  | some (_, park) =>
    if !s.allMembers ps fun s => s.quiet gangMax then s
    else
      let s := (memberCores ps).foldl (fun s k => s.at k fun s => s.writePages (dirtyPages s.spad)) s
      if !s.allMembers ps fun s => (dirtyPages s.spad).isEmpty then s
      else
        let r := ps.foldl
          (fun (a : Bool × State) p => let r := a.2.atWith p.core true fun s => s.saveHere part node p.index; (a.1 && r.1, r.2)) (true, s)
        let s := r.2.onSys fun y => { y with placed := y.placed.filter fun p => !(ps.any fun q => q.core == p.core) }
        let s := s.onNode part node fun n => { n with
          leaving := n.leaving.filter fun x => x.1 != gang
          forced := n.forced && n.leaving.any fun x => x.1 != gang
          saved := n.saved ++ ((ps.map fun p => p.index).filter fun i => !n.saved.contains i)
          todo := if park || ps.isEmpty then n.todo else insertGang gang n.todo
          parked := if park && !ps.isEmpty then n.parked ++ [(gang, ps.filterMap fun p => p.wait)] else n.parked }
        let s := s.due part
        if r.1 then s else s.killNode part node 4
def execPreemptionComplete (node gang : Nat) (s : State) : Out := done (s.preempted node gang)

/-- PARK_TIMEOUT (R279): a gang that waits whole is pre-empted to be parked. -/
def State.parkGang (s : State) (key gang : Nat) : State :=
  if s.allWaiting (keyPart key) (keyVa key) gang then s.startPreempt (keyPart key) (keyVa key) gang true else s
def execParkTimeout (node gang : Nat) (s : State) : Out := done (s.parkGang node gang)

/-! ### YIELD (R290) -/

/-- Another gang of the same or a higher effective priority waits for cores that this gang's cluster would provide. -/
def State.yieldsTo (s : State) : Bool :=
  let part := s.core.partNo
  let me := s.core.node.toNat
  let prio := (s.node? part me).eff.prio
  let cl := clusterOf s.core.num
  let mine := (s.gangOf part me (s.core.index / s.core.gsize)).map fun p => p.core
  (s.subtree part treeDepth (s.part part).rootva).any fun v =>
    let n := s.node? part v
    n.wants && s.nodeState part v == stAdmitted && decide (prio ≤ n.eff.prio) && s.fits part v mine
      && decide (n.gangsz ≤ (s.freeCores cl).length + mine.length)
/-- YIELD ends the pins; a gang that yields writes 1, freezes at its next bundle boundary and leaves its cores. -/
def runYield (w : RForm) (s : State) : Res :=
  sSlot w.p [] [w.d.toNat] s fun s =>
    let s := s.onCore fun c => { c with pins := [] }
    if s.yieldsTo then .ok (s.onCore fun c => { c.wrS w.d.toNat 1 with after := some .yield })
    else .ok (s.onCore fun c => c.wrS w.d.toNat 0)
def execYield (w : RForm) (s : State) : Out := finishAfter (runYield w s)

end Sys2Proof.Machine
end

