-- ==== Sys2Proof/Machine/CohRun.lean ====
section
/-! DEFINITION. The events of coherence and of the links (R225 to R241, R390, R391): how the holders of a line answer, how
tokens travel, hawser requests, write-backs, errors, the loss of a die. -/

namespace Sys2Proof.Machine

/-! ### Holders that answer (R229 to R231) -/

/-- A requester by number: dies 0 to 7, and 8 the control die. -/
def requester (n : Nat) : Holder := if n < 8 then .die n else .ctl
/-- A message leaves when it carries tokens; its sender numbers it (R238). -/
def Mem.send (m : Mem) (src : Nat) (x : TokMsg) : Mem :=
  if x.tokens = 0 then m else { m with msgs := m.msgs ++ [{ x with src := src, seq := m.nextSeq }], nextSeq := m.nextSeq + 1 }
def Mem.onDie (m : Mem) (l d : Nat) (f : DieLine → DieLine) : Mem := m.setLine l ((m.line l).setDie d (f ((m.line l).die d)))
/-- The base die that is the home of a line, as R369 numbers dies. -/
def homeDie (l : Nat) : Nat := 9 + homeOf l

/-- Die d gives to a requester what R230 says: all its tokens for a write, one for a read of the owner. In WB the owner token
stays (R231). -/
def Mem.dieAnswer (m : Mem) (l d : Nat) (write : Bool) (dst : Nat) : Mem :=
  let x := (m.line l).die d
  let msg := fun (n : Nat) (o data : Bool) => ({ line := l, dst := requester dst, tokens := n, owner := o, data := data
                                                 dirty := if o then x.dirty else 0, reduce := if o then x.reduce else none } : TokMsg)
  let wb := x.trans == .wb && x.owner
  if x.tokens = 0 then m
  else if write || (x.owner && x.tokens = 1) then
    if wb then (m.onDie l d fun x => { x with tokens := 1 }).send d (msg (x.tokens - 1) false true)
    else (m.onDie l d DieLine.gone).send d (msg x.tokens x.owner x.owner)
  else if x.owner then (m.onDie l d fun x => { x with tokens := x.tokens - 1, writer := none }).send d (msg 1 false true)
  else m
/-- The home gives as the row of its tokens says. -/
def Mem.homeAnswer (m : Mem) (l : Nat) (write : Bool) (dst : Nat) : Mem :=
  let x := m.line l
  let h := homeDie l
  if x.homeTok = 0 then m
  else if write || (x.homeOwner && x.homeTok = 1) then
    (m.setLine l { x with homeTok := 0, homeOwner := false, homeReduce := none }).send h
      { line := l, dst := requester dst, tokens := x.homeTok, owner := x.homeOwner, data := x.homeOwner, dirty := 0
        reduce := if x.homeOwner then x.homeReduce else none }
  else if x.homeOwner then (m.setLine l { x with homeTok := x.homeTok - 1 }).send h
    { line := l, dst := requester dst, tokens := 1, owner := false, data := true, dirty := 0, reduce := none }
  else m
/-- The control die's host agent gives as a die does. -/
def Mem.ctlAnswer (m : Mem) (l : Nat) (write : Bool) (dst : Nat) : Mem :=
  let x := m.line l
  if x.ctlTok = 0 then m
  else if write || (x.ctlOwner && x.ctlTok = 1) then
    (m.setLine l { x with ctlTok := 0, ctlOwner := false, ctlData := false, ctlDirty := 0, ctlReduce := none }).send ctlDie
      { line := l, dst := requester dst, tokens := x.ctlTok, owner := x.ctlOwner, data := x.ctlOwner
        dirty := if x.ctlOwner then x.ctlDirty else 0, reduce := if x.ctlOwner then x.ctlReduce else none }
  else if x.ctlOwner then (m.setLine l { x with ctlTok := x.ctlTok - 1 }).send ctlDie
    { line := l, dst := requester dst, tokens := 1, owner := false, data := true, dirty := 0, reduce := none }
  else m
/-- The watch table gives its one token to a write. -/
def Mem.watchAnswer (m : Mem) (l : Nat) (write : Bool) (dst : Nat) : Mem :=
  let x := m.line l
  if x.watched && write then (m.setLine l { x with watched := false }).send ctlDie
    { line := l, dst := requester dst, tokens := 1, owner := false, data := false, dirty := 0, reduce := none }
  else m

/-- Clusters to be asked before a die gives the line away: every sharer and the writer for a write, the writer for a read; all
16 when the vector fails its parity (R229). -/
def DieLine.recalls (x : DieLine) (write : Bool) : List Nat :=
  let w := match x.writer with | some c => [c] | none => []
  if write then (if x.parityBad then List.range 16 else nub (((List.range 16).filter fun c => x.sharers.getLsbD c) ++ w))
  else if x.owner then w else []
/-- A holder of a line in reduce state with at least two tokens gives one non-owner token without data (R234). -/
def Mem.reduceAnswer (m : Mem) (h : Holder) (l dst : Nat) : Mem :=
  let msg : TokMsg := { line := l, dst := requester dst, tokens := 1, owner := false, data := false, dirty := 0, reduce := none }
  let x := m.line l
  if (m.reduceKey l).isNone then m
  else match h with
    | .home => if 2 ≤ x.homeTok then (m.setLine l { x with homeTok := x.homeTok - 1 }).send (homeDie l) msg else m
    | .ctl => if dst ≠ 8 && 2 ≤ x.ctlTok then (m.setLine l { x with ctlTok := x.ctlTok - 1 }).send ctlDie msg else m
    | .watch => m
    | .die d =>
      if d ≠ dst && 2 ≤ (x.die d).tokens then (m.onDie l d fun x => { x with tokens := x.tokens - 1 }).send d msg else m

/-- What a request takes from a holder: any access but a matching operation takes every token of a line in reduce state (R235). -/
def Mem.asked (m : Mem) (l : Nat) (a : Ask) : Ask := if a == .read && (m.reduceKey l).isSome then .write else a
/-- What a die that meets no obstacle answers. -/
def Mem.answer (m : Mem) (l d : Nat) (a : Ask) (dst : Nat) : Mem :=
  match a with
  | .read => m.dieAnswer l d false dst
  | .write => m.dieAnswer l d true dst
  | .reduce => m.reduceAnswer (.die d) l dst
/-- A holder meets a foreign request (R230, R231, R234): it answers, or first recalls its copies (RC), or holds the request while the
recall runs or a pin stands (R222), or ignores it while its own hawser request is active. -/
def State.holderMeets (s : State) (h : Holder) (l dst : Nat) (a : Ask) : State :=
  let a := s.mem.asked l a
  match h with
  | .die d =>
    let x := (s.mem.line l).die d
    let keep := fun (s : State) => s.onMem fun m => m.onDie l d fun x =>
      { x with heldReq := if x.heldReq.contains (a, dst) then x.heldReq else x.heldReq ++ [(a, dst)] }
    if d = dst || ((x.trans == .hs || x.trans == .hm) && (s.mem.line l).haw == some d) then s
    else if x.trans == .rc then keep s
    else
      let cs := if x.tokens = 0 || a == .reduce then [] else x.recalls (a == .write)
      if cs.isEmpty && !s.pinned d l then s.onMem fun m => m.answer l d a dst
      else (keep s).onMem fun m => m.onDie l d fun x => { x with trans := .rc, prev := x.trans, awaits := cs }
  | .home => s.onMem fun m => if a == .reduce then m.reduceAnswer h l dst else m.homeAnswer l (a == .write) dst
  | .ctl =>
    if dst = 8 then s else s.onMem fun m => if a == .reduce then m.reduceAnswer h l dst else m.ctlAnswer l (a == .write) dst
  | .watch => s.onMem fun m => m.watchAnswer l (a == .write) dst

/-- A die that lacks what it asks for waits in IS, IM or SM (R231). -/
def State.waitsAt (s : State) (l d : Nat) (write : Bool) : State :=
  if 8 ≤ d then s
  else s.onMem fun m => m.onDie l d fun x =>
    if x.trans != .none then x
    else if write then (if x.tokens = 16 then x else { x with trans := if x.tokens = 0 then .im else .sm })
    else if x.tokens = 0 then { x with trans := .is } else x

/-- The core whose access a die's request for a line serves, with the S1ROOT of its group's launch node (R298): one of the partition's
cores on that die, which one of them the events leave open. -/
def State.asker (s : State) (d ia : Nat) : Option Core × State :=
  let cs := (s.core :: s.others.map fun (o : Other) => o.ctx).filter fun c => c.live && c.die == d && c.partNo == partOfIa ia
  (cs[Config.pick s.free % cs.length]?, if cs.length ≤ 1 then s else s.draw)
/-- Agents of the acting core that an access to memory may be made by: the core, or an engine with a command. -/
def State.agents (s : State) : List (Option Engine) :=
  none :: ([Engine.matrix, .copy0, .copy1].filter fun g => (s.eng.head g).isSome).map some
/-- The home's walk faults for the core that asks (R301): which of its agents made the access is left open here. A fault of stage 1 that a
core's own slot meets is the core's, taken where the slot makes its access. -/
def State.homeFault (s : State) (core ia : Nat) (write : Bool) (f : WFault) : State :=
  s.at core fun s =>
    let a := (s.agents[Config.pick s.free % s.agents.length]?).getD none
    let s := s.draw
    match a with
    | none => if f.code == 0x12 || f.moved then (s.postWalk f 0 write ia .other).2 else s
    | some g => (s.postWalk f (engAgent g) write ia .other).2
/-- The home walks for a die that fills or upgrades the line (R299): true when both stages grant what is needed. The fill for a write
carries WP (R193). The control die asks by machine address. -/
def State.homeWalk (s : State) (l d : Nat) (write : Bool) : Bool × State :=
  let x := (s.mem.line l).die d
  if 8 ≤ d || (if write then x.wp else x.tokens != 0) then (true, s)
  else match s.asker d (l * 256) with
  | (none, s) => (false, s)
  | (some c, s) => match s.walk c.s1root (l * 256) (if write then needW else needR) with
    | (.fault f, s) => (false, s.homeFault c.num (l * 256) write f)
    | (.pa a, s) => (true, s.onMem fun m =>
        let m := if (m.line l).resident then m else m.setLine l { m.line l with pa := a }
        if write then m.onDie l d fun x => { x with wp := true } else m)
/-- A holder meets the request of a die; the home walks first, and gives nothing where the walk faults. A request for a line that waits for its
tokens to be rebuilt waits too (R240). -/
def State.requested (s : State) (h : Holder) (l d : Nat) (write : Bool) : State :=
  if s.mem.waitsRebuild l then s
  else
  let s := s.waitsAt l d write
  if h = .home then
    match s.homeWalk l d write with
    | (true, s) => s.holderMeets h l d (if write then .write else .read)
    | (false, s) => s
  else s.holderMeets h l d (if write then .write else .read)

/-- TRANSIENT_READ_REQUEST (R230). -/
def execTransientReadRequest (h : Holder) (line die : Nat) (s : State) : Out := done (s.requested h line die false)
/-- TRANSIENT_WRITE_REQUEST. -/
def execTransientWriteRequest (h : Holder) (line die : Nat) (s : State) : Out := done (s.requested h line die true)

/-- A holder meets a transient reduce request (R234); one that waits for its tokens to be rebuilt gives none (R240). -/
def State.reduceAsk (s : State) (h : Holder) (l dst : Nat) : State :=
  if (s.mem.reduceKey l).isNone || s.mem.waitsRebuild l then s else s.holderMeets h l dst .reduce
/-- TRANSIENT_REDUCE_REQUEST. -/
def execTransientReduceRequest (h : Holder) (line die : Nat) (s : State) : Out := done (s.reduceAsk h line die)

/-! ### Arrival (R231, R232, R233) -/

/-- A holder with every token of a line in reduce state merges its partials (R235). -/
def Mem.mergeIfAll (m : Mem) (l : Nat) (who : Option Nat) : Mem :=
  if (match who with | some d => ((m.line l).die d).tokens | none => (m.line l).ctlTok) = 16 then m.mergeLine l else m
/-- A message arrives: a die's slice makes room for a line that is new to it (R2), and the holder keeps the tokens, or meets the activation
for another that is in force as it meets a request (R230 to R232, R391). -/
def State.arrive (s : State) (x : TokMsg) : State :=
  let l := x.line
  let s := (match x.dst with | .die d => s.l2Room d l | _ => s).onMem fun m => m.deliver x
  let haw := (s.mem.line l).haw
  match x.dst with
  | .die d => match ((s.mem.line l).die d).activeFor with
    | some (_, r) => if r = d then s.onMem fun m => m.mergeIfAll l (some d) else s.holderMeets x.dst l r .write
    | none => s.onMem fun m => m.mergeIfAll l (some d)
  | .ctl => match haw with
    | some r => if r = 8 then s.onMem fun m => m.mergeIfAll l none else s.holderMeets x.dst l r .write
    | none => s.onMem fun m => m.mergeIfAll l none
  | _ => match haw with
    | some r => s.holderMeets x.dst l r .write
    | none => s
/-- TOKEN_RESPONSE: the i-th message on its way, or a copy of one, arrives. The receiver keeps the sequence numbers of what it has
received, and discards a copy of it; of two copies under way the first one counts (R238). -/
def State.tokenResponse (s : State) (i : Nat) : State :=
  let ms := s.mem.msgs
  match ms[i]? with
  | some x => (s.onMem fun m => { m with msgs := m.msgs.eraseIdx i }).arrive x
  | none => match s.mem.resent[i - ms.length]? with
    | none => s
    | some c => match ms.findIdx? fun x => x.seq == c.seq && x.src == c.src with
      | some j => match ms[j]? with
        | some x =>
          (s.onMem fun m => { m with msgs := m.msgs.eraseIdx j, resent := m.resent.eraseIdx (i - ms.length) }).arrive x
        | none => s
      | none => s.onMem fun m => { m with resent := m.resent.eraseIdx (i - ms.length) }
def execTokenResponse (i : Nat) (s : State) : Out := done (s.tokenResponse i)

/-- UPGRADE_REQUEST (R193): the home walks again with W; WP is set, or the upgrade is refused and nothing changes. -/
def State.upgrade (s : State) (d l : Nat) : State :=
  let x := (s.mem.line l).die d
  if x.tokens = 0 || x.wp then s
  else match s.asker d (l * 256) with
  | (none, s) => s
  | (some c, s) => match s.walk c.s1root (l * 256) needW with
    | (.pa _, s) => s.onMem fun m => m.onDie l d fun x => { x with wp := true }
    | (.fault f, s) => s.homeFault c.num (l * 256) true f
def execUpgradeRequest (die line : Nat) (s : State) : Out := done (s.upgrade die line)

/-! ### Inside a die (R229) -/

/-- CLUSTER_INVALIDATION: the cores of a cluster drop or clean their copies. -/
def State.recallCluster (s : State) (d c l : Nat) (drop : Bool) : State :=
  s.recallWhere (fun k => clusterOf k == d * 16 + c) l drop
def execClusterInvalidation (die cluster line : Nat) (drop : Bool) (s : State) : Out := done (s.recallCluster die cluster line drop)

/-- The recall is over: the held requests are met in arrival order, and one of them may begin another recall. -/
def State.endRecall (s : State) (d l : Nat) : State :=
  let x := (s.mem.line l).die d
  let write := match x.heldReq with | r :: _ => r.1 == .write | [] => false
  let s := s.onMem fun m => m.onDie l d fun x =>
    { x with trans := x.prev, prev := .none, parityBad := x.parityBad && !write, heldReq := [] }
  x.heldReq.foldl (fun s r => s.holderMeets (.die d) l r.2 r.1) s
/-- The directory forgets a cluster that has dropped its copies; one that has cleaned them stays a sharer (R228, R229). -/
def DieLine.acked (x : DieLine) (c : Nat) (drop : Bool) : DieLine :=
  { x with
    awaits := x.awaits.filter fun k => k != c
    writer := if x.writer == some c then none else x.writer
    sharers := if drop then x.sharers &&& ~~~(1#16 <<< c) else if x.writer == some c then x.sharers ||| (1#16 <<< c) else x.sharers }
/-- CLUSTER_ACK: the cores of a cluster have dropped their copies, or cleaned them for a read, as the first held request asks; RC ends when
every cluster has acknowledged and no pin stands on the line (R222, R229, R230). -/
def State.clusterAck (s : State) (d c l : Nat) : State :=
  let x := (s.mem.line l).die d
  let drop := match x.heldReq with | r :: _ => r.1 != .read | [] => true
  if x.trans != .rc then s
  else
    let s := if x.awaits.contains c then (s.recallCluster d c l drop).onMem fun m => m.onDie l d fun x => x.acked c drop else s
    if ((s.mem.line l).die d).awaits.isEmpty && !s.pinned d l then s.endRecall d l else s
def execClusterAck (die cluster line : Nat) (s : State) : Out := done (s.clusterAck die cluster line)

/-! ### Hawser requests (R231, R232) -/

/-- The home activates a request. -/
def Line.activate (x : Line) (r : Nat) : Line := { x with haw := some r, hawSeq := x.hawSeq + 1 }
/-- HAWSER_REQUEST: queued at the home, one active per line in arrival order; the queue holds 2,304. -/
def Line.hawser (x : Line) (r : Nat) : Line :=
  if x.haw == some r || x.hawQ.contains r then x
  else match x.haw with
    | none => x.activate r
    | some _ => if x.hawQ.length < 2304 then { x with hawQ := x.hawQ ++ [r] } else x
def execHawserRequest (die line : Nat) (s : State) : Out := done (s.onMem fun m => m.setLine line ((m.line line).hawser die))
/-- TTO_EXPIRY: a request not completed becomes a hawser request to the home. -/
def State.ttoExpiry (s : State) (d l : Nat) : State :=
  let x := (s.mem.line l).die d
  let go := fun (t : TState) => s.onMem fun m =>
    let m := m.onDie l d fun x => { x with trans := t }
    m.setLine l ((m.line l).hawser d)
  match x.trans with
  | .is => go .hs
  | .im => go .hm
  | .sm => go .hm
  | _ => s
def execTtoExpiry (die line : Nat) (s : State) : Out := done (s.ttoExpiry die line)

/-- HAWSER_ACTIVATION reaches a holder (R232, R391): every token it holds goes to the requester, the owner token of a line in WB
only at the home's acknowledgement. -/
def State.activation (s : State) (h : Holder) (l : Nat) : State :=
  let x := s.mem.line l
  match x.haw with
  | none => s
  | some r => match h with
    | .die d =>
      if x.hawSeq ≤ (x.die d).deact || d = r then s
      else (s.onMem fun m => m.onDie l d fun y => { y with activeFor := some (x.hawSeq, r) }).holderMeets h l r .write
    | _ => s.holderMeets h l r .write
def execHawserActivation (h : Holder) (line : Nat) (s : State) : Out := done (s.activation h line)

/-- The requester r of a hawser request has not made its access yet: a die waits in HS or HM, also under a recall, and the control die has
not all tokens. -/
def Line.hawWaits (x : Line) (r : Nat) : Bool :=
  let y := x.die r
  if r < 8 then [y.trans, if y.trans == .rc then y.prev else .none].any fun t => t == .hs || t == .hm else !x.canWrite none
/-- HAWSER_DEACTIVATION: the requester has performed its access; the home broadcasts it and activates the next request. -/
def Line.deactivate (x : Line) : Line :=
  match x.haw with
  | none => x
  | some r =>
    if x.hawWaits r then x
    else
      let seq := x.hawSeq
      let x := { x with haw := none, hawDeact := seq, dies := smap {} (fun _ (d : DieLine) => { d with activeFor := none, deact := seq }) x.dies }
      match x.hawQ with
      | [] => x
      | n :: q => ({ x with hawQ := q }).activate n
def execHawserDeactivation (line : Nat) (s : State) : Out := done (s.onMem fun m => m.setLine line (m.line line).deactivate)

/-! ### Evictions and write-backs (R192, R233, R236, R390) -/

/-- EVICTION: the line is recalled from the die's L1s and stash pages; its tokens and dirty sectors go home, its partial to the
home's spill store, where it finds room. A line in a transient state stays. -/
def State.evict (s : State) (d l : Nat) : State :=
  let y := s.mem.line l
  let x := y.die d
  if x.tokens = 0 || x.trans != .none || s.pinned d l || ((y.partialOf d).isSome && s.mem.spillFull d l) then s
  else
    (s.recallWhere (fun c => dieOf c == d) l true).onMem fun m =>
      ((m.setLine l ((m.line l).spill (m.reduceKey l) d)).onDie l d DieLine.gone).send d
        { line := l, dst := .home, tokens := x.tokens, owner := x.owner, data := x.owner || x.dirty != 0, dirty := x.dirty
          reduce := if x.owner then x.reduce else none }
def execEviction (die line : Nat) (s : State) : Out := done (s.evict die line)

/-- CLEANING_WRITE_BACK (R390): the writer's copy is recalled, the dirty sectors go to the home, the line enters WB. -/
def State.cleaning (s : State) (d l : Nat) : State :=
  let x := (s.mem.line l).die d
  if !(x.owner && x.dirty != 0) || x.trans != .none || x.reduce.isSome || s.pinned d l then s
  else
    let s := match x.writer with | some c => s.recallCluster d c l false | none => s
    s.onMem fun m =>
      let m := m.onDie l d fun x => { x with trans := .wb, writer := none }
      m.setLine l { m.line l with wbs := sset 0 (m.line l).wbs d x.dirty }
def execCleaningWriteBack (die line : Nat) (s : State) : Out := done (s.cleaning die line)

/-- WRITE_BACK_ACK: the sectors stand in the stack; the holder leaves WB with a clean owner token, which goes to an active hawser
request now (R233, R390, R391). -/
def State.wbAck (s : State) (d l : Nat) : State :=
  let x := (s.mem.line l).die d
  let s := s.onMem fun m => m.wbDone l d
  if x.trans != .wb then s
  else match x.activeFor with
    | some (_, r) => if (sget 0 (s.mem.line l).wbs d : BitVec 4) = 0 then s.onMem fun m => m.dieAnswer l d true r else s
    | none => s
def execWriteBackAck (die line : Nat) (s : State) : Out := done (s.wbAck die line)

/-! ### Landing (R306, R380) -/

/-- The engine that waits for a landing of an IA's page, or none of the core's engines. -/
def State.landWaiter (s : State) (ia : Nat) (g : Engine) : Option Susp :=
  ((s.eng.head g).bind fun c => c.susp).bind fun x =>
    if x.cause == 2 && x.waits.isNone && !x.stay && x.addr / 65536 == ia / 65536 then some x else none
/-- The landing that an engine waits for is made, its walk finishes, and the front runs again; where the landing cannot be made, or the walk
then meets a fault, the record is written and the front stays halted (R306, R380). -/
def State.landEng (s : State) (ia : Nat) (g : Engine) : State :=
  match s.landWaiter ia g with
  | none => s
  | some x => match s.walk s.core.s1root x.addr (if x.write then needW else needR) with
    | (.pa _, s) => s.resumeHead g
    | (.fault f, s) =>
      let w := s.postWalk f (engAgent g) x.write x.addr (.engine g)
      w.2.onHead g fun c => { c with susp := some { x with waits := w.1 } }
/-- LANDING on a core: the page of an IA is landed where its leaf is MOVED in the tables of the group. -/
def State.landHere (s : State) (ia : Nat) : State :=
  let gs := [Engine.matrix, .copy0, .copy1]
  if gs.any fun g => (s.landWaiter ia g).isSome then
    if s.core.halting then s else gs.foldl (fun s g => s.landEng ia g) s
  else (s.landWalk s.core.s1root ia 7).2
/-- LANDING: on every core of the partition. -/
def State.land (s : State) (ia : Nat) : State :=
  s.liveCores.foldl (fun s c => s.at c fun s => if s.core.partNo = partOfIa ia then s.landHere ia else s) s
def execLanding (ia : Nat) (s : State) : Out := done (s.land ia)

/-! ### Links and flits (R237 to R239) -/

def State.wire (s : State) (k : Nat) : Link := sget {} s.mem.links k
def State.setWire (s : State) (k : Nat) (v : Link) : State := s.onMem fun m => { m with links := sset {} m.links k v }
/-- Where die d's link i ends: the die there and that die's number for the link (R8, R9). A compute die's links 0 and 1 go to the next and
the previous column of its row, 2 and 3 to the other row, 4 and 5 to its base dies; link 6 of dies 0 and 4 goes to the control die. -/
def linkEnd (d i : Nat) : Option (Nat × Nat) :=
  if d < 8 then
    let row := d / 4 * 4
    match i with
    | 0 => some (row + (d + 1) % 4, 1)
    | 1 => some (row + (d + 3) % 4, 0)
    | 2 => some ((d + 4) % 8, 2)
    | 3 => some ((d + 4) % 8, 3)
    | 4 => some (9 + 2 * d, 0)
    | 5 => some (9 + 2 * d + 1, 0)
    | 6 => if d % 4 = 0 then some (ctlDie, d / 4) else none
    | _ => none
  else if d = ctlDie then
    match i with
    | 0 => some (0, 6)
    | 1 => some (4, 6)
    | _ => none
  else if d < 25 && i = 0 then some ((d - 9) / 2, 4 + (d - 9) % 2)
  else none
/-- The die of a link's end k, the other end's die, and the other end; none where there is no such link. -/
def linkDie (k : Nat) : Nat := k / 64
def linkFar (k : Nat) : Option (Nat × Nat) := (linkEnd (linkDie k) (k % 64)).map fun e => (e.1, e.1 * 64 + e.2)
/-- Both ends of a link take a power state. -/
def State.setPower (s : State) (k : Nat) (p : Power) (trains : Nat) : State :=
  let put := fun (s : State) (k : Nat) => s.setWire k { s.wire k with power := p, trains := trains }
  match linkFar k with
  | some e => put (put s k) e.2
  | none => s
/-- A unit is lasting: the health record takes it, and it is withdrawn (R363, R364). -/
def State.withdraw (s : State) (u : UnitId) : State :=
  s.onSys fun y => { y with
    health := if y.health.contains u then y.health else y.health ++ [u]
    withdrawn := if y.withdrawn.contains u then y.withdrawn else y.withdrawn ++ [u] }

/-- LINK_DOZE: no traffic for 2 µs. -/
def execLinkDoze (link : Nat) (s : State) : Out :=
  done (if (s.wire link).power == .active then s.setPower link .dozing (s.wire link).trains else s)
/-- LINK_SLEEP: no traffic for 200 µs. -/
def execLinkSleep (link : Nat) (s : State) : Out :=
  let p := (s.wire link).power
  done (if p == .active || p == .dozing then s.setPower link .sleeping (s.wire link).trains else s)
/-- LINK_WAKE. -/
def execLinkWake (link : Nat) (s : State) : Out :=
  done (if (s.wire link).power == .failed then s else s.setPower link .active 0)

/-! ### The loss of a die (R240) -/

/-- Poison a line's four sectors. -/
def Mem.poisonLine (m : Mem) (pa : Nat) : Mem := (List.range 4).foldl (fun (m : Mem) k => m.setBad (pa + 64 * k) true) m
/-- A request of a die that is not done starts again as a transient one (R240). -/
def DieLine.restart (x : DieLine) : DieLine :=
  { x with
    activeFor := none
    trans := again x.trans
    prev := again x.prev }
where
  again : TState → TState
    | .hs => .is
    | .hm => if x.tokens = 0 then .im else .sm
    | t => t
/-- The home rebuilds a line: the lost die's tokens are credited to it; a lost owner token is created again and the line
poisoned; a lost partial poisons the line, and with a lost owner token the attribute and every partial of the line are gone (log 126). Messages to the lost die are lost; active and waiting hawser requests start again as
transient ones. -/
def Mem.rebuild (m : Mem) (d l : Nat) : Mem :=
  let x := m.line l
  let y := x.die d
  let gone := m.msgs.filter fun t => t.line == l && t.dst == Holder.die d
  let m := { m with msgs := m.msgs.filter fun t => !(t.line == l && t.dst == Holder.die d) }
  let lostOwner := y.owner || gone.any fun t => t.owner
  let lostPart := x.partials.any fun p => p.die == d && !p.spilled
  let back := y.tokens + (gone.map fun t => t.tokens).sum
  let m := m.setLine l { x with
    dies := sset {} (smap {} (fun _ (z : DieLine) => { z.restart with heldReq := z.heldReq.filter fun r => r.2 != d }) x.dies) d {}
    homeTok := x.homeTok + back, homeOwner := x.homeOwner || lostOwner, haw := none, hawQ := [], hawDeact := x.hawSeq
    partials := if lostOwner then [] else x.partials.filter fun p => !(p.die == d && !p.spilled) }
  if lostOwner || lostPart then m.poisonLine x.pa else m
/-- Rebuild the listed lines that satisfy a test. -/
def Mem.rebuildAll (m : Mem) (d : Nat) (p : Nat → Bool) : Mem :=
  ((m.lines.map (·.1)).filter p).foldl (fun m l => m.rebuild d l) m

/-- Nodes with groups on a die. -/
def State.nodesOn (s : State) (d : Nat) : List (Nat × Nat) :=
  (s.sys.parts.map fun e =>
    (nub ((s.sys.placed.filter fun p => dieOf p.core == d && e.2.clusters.contains (clusterOf p.core)).map fun p => p.node)).map
      fun v => (e.1, v)).flatten
/-- At the loss of a die the active hawser request of a line is deactivated (R240). -/
def Line.unhaw (x : Line) : Line :=
  { x with haw := none, hawQ := [], hawDeact := x.hawSeq, dies := smap {} (fun _ (z : DieLine) => z.restart) x.dies }
/-- The partition waits for TOKREBUILD of a die, as its mode stands at the loss (R240, R375). -/
def State.awaitRebuild (s : State) (d p : Nat) : State := s.setPart p { s.part p with tokWait := (s.part p).tokWait ++ [d] }
/-- DIE_LOST: traffic to the die stops, homes rebuild their lines unless the partition waits for TOKREBUILD, and the contexts on
the die are killed with class 10. -/
def State.loseDie (s : State) (d : Nat) : State :=
  if s.mem.lost.contains d then s
  else
    let s := s.onMem fun m => { m with lost := m.lost ++ [d] }
    let s := s.record ctlDie { rank := rankUncorrected, cls := 10, utype := 8, uindex := d }
    let ps := (s.sys.parts.filter fun e => e.2.live && e.2.mode modeToken).map (·.1)
    let s := ps.foldl (fun s p => s.awaitRebuild d p) s
    let s := s.onMem fun m => { m with lines := smap {} (fun _ (x : Line) => x.unhaw) m.lines }
    let s := s.onMem fun m => m.rebuildAll d fun l => !ps.contains (partOfIa (l * 256))
    let s := (s.liveCores.filter fun c => dieOf c == d).foldl (fun s c => s.at c fun s => s.breakAll 12 s.eng.liveFronts) s
    let s := (s.nodesOn d).foldl (fun s n => s.killNode n.1 n.2 10) s
    s.onMem fun m => { m with blocked := false }
def execDieLost (die : Nat) (s : State) : Out := done (s.loseDie die)

/-- A link fails for good (R237): the die-lost procedure tries to reach the die at its other end over that die's other links; if one of them
works, only the link is withdrawn, as a lasting fault. -/
def State.linkFails (s : State) (k : Nat) : State :=
  match linkFar k with
  | none => s
  | some e =>
    let s := s.setPower k .failed (s.wire k).trains
    let other := (List.range 7).any fun i =>
      (linkEnd e.1 i).isSome && decide (e.1 * 64 + i ≠ e.2) && (s.wire (e.1 * 64 + i)).power != .failed
    if other && !s.mem.lost.contains e.1 then s.withdraw ⟨linkDie k, 9, k % 64⟩ else s.loseDie e.1
/-- LINK_WAKE_TIMEOUT: it retrains, up to 3 times; after a third failure it has failed. -/
def execLinkWakeTimeout (link : Nat) (s : State) : Out :=
  let x := s.wire link
  done (match x.power with
    | .active => s
    | .failed => s
    | _ => if 3 ≤ x.trains then s.linkFails link else s.setPower link .retraining (x.trains + 1))

end Sys2Proof.Machine
end

