-- ==== Sys2Proof/Machine/Watch.lean ====
section
/-! DEFINITION. Regrouping (R14, R16, R180), the watchdog (R280, R350), retirement (R281), the auditor (R365 to R367) and the heat
sweeper (R305). -/

namespace Sys2Proof.Machine

/-! ### Regrouping -/

/-- Pages of the acting core's group that move eagerly with it (R180). -/
def State.eager (s : State) (pg : Nat) : Bool :=
  sptPin (s.spad.entry pg) || s.pinnedPage none pg || inLive s.core.plan s.core.pc.toNat pg
/-- The resident pages that do not. -/
def State.leftPages (s : State) : List Nat :=
  (s.spad.spt.filter fun e => sptRes e.2 && (sptStash e.2 || !s.eager e.1)).map (·.1)
/-- The dirty ones of them. -/
def State.leftDirty (s : State) : List Nat := (dirtyPages s.spad).filter fun pg => s.leftPages.contains pg

/-- Where each core's group goes: members take the free cores of the cluster in increasing position. -/
def moveCore (old new : List Nat) (core : Nat) : Nat := if old.contains core then new.getD (old.findIdx fun c => c == core) core else core
/-- Every core of a list takes its new number; the free ones that they move to are no others any more. -/
def State.renumber (s : State) (old new : List Nat) : State :=
  let at' := moveCore old new
  let stays := s.others.filter fun (o : Other) => old.contains o.core || !new.contains o.core
  { s with
    core := { s.core with num := at' s.core.num }
    others := stays.map fun (o : Other) => { o with ctx := { o.ctx with num := at' o.ctx.num } }
    sys := { s.sys with
      placed := s.sys.placed.map fun p => { p with core := at' p.core }
      recs := s.sys.recs.map fun r => { r with core := at' r.core } } }
/-- Do something on each core of a list. -/
def State.each (s : State) (cores : List Nat) (f : State → State) : State := cores.foldl (fun s k => s.at k f) s

/-- REGROUPING: the gang of the core's group moves whole to a cluster of its partition, once the engines of every member stand at a
boundary and the pages that do not move are written; one whose write faults holds the move up. The move acts as a release and an
acquire at .dev (R16), which in-order accesses meet. -/
def State.regroup (s : State) (d cl : Nat) : State :=
  let c := s.core
  let part := c.partNo
  let node := c.node.toNat
  let target := d * 16 + cl
  let gang := c.index / c.gsize
  let ps := s.gangOf part node gang
  let old := memberCores ps
  let new := (s.freeCores target).take old.length
  if !s.allMembers ps (fun s => (s.core.run == .running || s.core.run == .ended) && s.quiet gangMax)
      || !(s.part part).clusters.contains target || !old.contains c.num || new.length < old.length || clusterOf c.num == target
      || (s.node? part node).leaving.any (fun x => x.1 == gang) then s
  else
    let s := s.each old fun s => s.writePages s.leftDirty
    if !s.allMembers ps fun s => s.leftDirty.isEmpty then s
    else
      let s := s.each old fun s =>
        let s := (s.onCore Core.freeze).unloadPages s.leftPages
        { s with core := s.core.packed, eng := s.eng.packed, mem := s.mem.dropData s.core.num }
      (s.renumber old new).each new fun s => { s with mem := s.mem.dropData s.core.num }.replay false
def execRegrouping (die cluster : Nat) (s : State) : Out := done (s.regroup die cluster)

/-! ### Watchdog (R280) -/

/-- The progress counter (RDCNT 2) of a placed group: what its core counts. -/
def State.progressOf (s : State) (p : Placed) : BitVec 64 :=
  match s.groupOn p.core with | some o => o.ctx.rdCnt 2 | none => p.progress
/-- The sum of the progress counters of placed groups. -/
def State.progressSum (s : State) (ps : List Placed) : BitVec 64 := ps.foldl (fun a p => a + s.progressOf p) 0
/-- The control die keeps the counters that it has read. -/
def State.sampled (s : State) (part node : Nat) : State :=
  s.onSys fun y => { y with placed := y.placed.map fun p => if s.placedAt part node p then { p with progress := s.progressOf p } else p }

/-- WATCHDOG_SAMPLE, each millisecond: a changed sum restarts the count and ends a row of strikes. Samples at which every placed
group of an SVC node waits in QTAKE do not count; a halted node is not sampled, except during a SAVE (R343, R350). -/
def State.watchSample (s : State) (key : Nat) : State :=
  let part := keyPart key
  let node := keyVa key
  let n := s.node? part node
  let ps := s.placedOf part node
  let sum := s.progressSum ps
  if !n.launch || n.done || s.nodeState part node ≠ stAdmitted || (!n.saving && (n.halted || ps.isEmpty)) then s
  else
    let s := s.sampled part node
    if sum ≠ n.sample then s.setNode part node { n with sample := sum, stuckMs := 0, strikes := 0 }
    else if n.svc && ps.all (fun p => match p.wait with | some (true, _) => true | _ => false) then s
    else s.setNode part node { n with stuckMs := n.stuckMs + 1 }
def execWatchdogSample (node : Nat) (s : State) : Out := done (s.watchSample node)

/-- The record of a watchdog expiry (R361). -/
def State.watchRecord (s : State) (part : Nat) (tag : BitVec 16) : State :=
  s.record ctlDie { rank := rankDeferred, code := 0x38, utype := 14, rqtag := tag, part := part }
/-- The gangs of a node that hold cores. -/
def State.gangsOf (s : State) (part node : Nat) : List Nat := nub ((s.placedOf part node).map fun p => p.gang)

/-- WATCHDOG_LIM1: no progress for LIM1 µs. It is recorded; every placed group is pre-empted; STRIKES forced pre-emptions with no
progress between them kill the context with class 8. During a SAVE it only sets WDPEND. -/
def State.watchLim1 (s : State) (key : Nat) : State :=
  let part := keyPart key
  let node := keyVa key
  let n := s.node? part node
  if !n.launch || n.done || n.stuckMs = 0 || n.stuckMs * 1000 < n.lim1 then s
  else
    let s := s.watchRecord part n.eff.tag
    if n.saving then s.setNode part node { n with stuckMs := 0, wdpend := true }
    else
      let strikes := n.strikes + 1
      let s := s.setNode part node { n with stuckMs := 0, strikes := strikes, forced := true }
      if n.strikeLim ≠ 0 && decide (n.strikeLim ≤ strikes) then s.killNode part node 8
      else (s.gangsOf part node).foldl (fun s g => s.startPreempt part node g false) s
def execWatchdogLim1 (node : Nat) (s : State) : Out := done (s.watchLim1 node)

/-- WATCHDOG_LIM2: the forced pre-emption, or one that a SAVE has latched, has not completed LIM2 µs later: the context is killed with class
8, after the SAVE where one is under way (R350). -/
def State.watchLim2 (s : State) (key : Nat) : State :=
  let part := keyPart key
  let node := keyVa key
  let n := s.node? part node
  if !(n.forced || (n.saving && n.wdpend)) || n.done then s
  else if n.saving then s.setNode part node { n with forced := false, lim2pend := true }
  else if n.leaving.isEmpty then s.setNode part node { n with forced := false }
  else s.killNode part node 8
def execWatchdogLim2 (node : Nat) (s : State) : Out := done (s.watchLim2 node)

/-! ### Retirement (R281) and the selection for audit (R365) -/

/-- The group's end: END has issued and all that it started is done (R281). -/
def State.canRetire (s : State) : Bool :=
  s.core.run == .ended && s.core.pend.isEmpty && s.core.muldiv.isEmpty && s.core.vfly.isEmpty && s.core.parked.isEmpty
    && s.eng.mq.isEmpty && s.eng.c0q.isEmpty && s.eng.c1q.isEmpty
/-- Stash pages of the group with dirty lines. -/
def State.stashDirty (s : State) : List Nat := (dirtyPages s.spad).filter fun pg => sptStash (s.spad.entry pg)
/-- The gang's last member has retired: the control die selects it for audit, or forgets its signatures. -/
def State.gangRetired (s : State) (part node gang : Nat) : State :=
  let n := s.node? part node
  let key := nodeKey part node
  let held := s.sys.audits.any fun a => a.node == key && a.gang == gang
  if !(s.gangOf part node gang).isEmpty then s
  else match (s.part part).audit with
    | some k =>
      if n.auditable && held && (k == 0 || Config.auditSelect k s.free) then
        s.draw.setNode part node { n with auditing := n.auditing ++ [gang] }
      else s.draw.onSys fun y => { y with audits := y.audits.filter fun a => !(a.node == key && a.gang == gang) }
    | none => s.onSys fun y => { y with audits := y.audits.filter fun a => !(a.node == key && a.gang == gang) }
/-- A retired group's core is free at the next round, and its node may be complete. -/
def State.leaveNode (s : State) (part node gang core idx : Nat) : State :=
  let s := s.onSys fun y => { y with placed := y.placed.filter fun p => p.core != core }
  let s := s.onNode part node fun n => { n with retired := n.retired ++ [idx], given := n.given.filter fun g => g.1 != idx }
  let s := s.gangRetired part node gang
  (s.due part).complete part treeBound node
/-- The signatures of the core's group are kept for the auditor when its node is auditable (R366). -/
def State.keepSigs (s : State) (part node gang : Nat) : State :=
  if (s.node? part node).auditable then
    s.onSys fun y => { y with audits := y.audits ++
      [⟨nodeKey part node, gang, s.core.num, s.core.index, (List.range 5).map (s.core.flushSig s.core.sigq).rdSig⟩] }
  else s

/-- GROUP_RETIREMENT on the acting core: stash pages write back their dirty lines, and one whose write faults holds the retirement up; the
other resident pages are discarded, the SPT is freed, pins end, the core is free. The group's fronts stay while its gang has groups
left, which may still chase them (R322); the last one's retirement forgets them. -/
def State.retireOwn (s : State) : State :=
  let part := s.core.partNo
  let node := s.core.node.toNat
  let gang := s.core.index / s.core.gsize
  let s := s.writePages s.stashDirty
  if !s.stashDirty.isEmpty then s
  else
    let s := s.keepSigs part node gang
    let s := { s with core := { s.core with run := .retired, pins := [] }, spad := {}, eng := { fc := s.eng.fc } }
    let c := s.core
    let s := s.leaveNode part node gang s.core.num s.core.index
    if s.gangLeft c then s else { s.forget fun x => c.mate x with eng := {} }
def execGroupRetirement (core : Nat) (s : State) : Out := done (s.at core fun s => if s.canRetire then s.retireOwn else s)

/-! ### The auditor (R367) -/

/-- The audit of a gang has ended. -/
def State.endAudit (s : State) (key gang : Nat) : State :=
  let part := keyPart key
  let node := keyVa key
  let s := s.onSys fun y => { y with
    audits := y.audits.filter fun a => !(a.node == key && a.gang == gang)
    replays := y.replays.filter fun r => r.node != key || r.gang != gang }
  let s := (s.onNode part node fun n => { n with auditing := n.auditing.erase gang }).due part
  s.complete part treeBound node
/-- The replays of a gang, by the group of the first run that each repeats. -/
def State.replayCore (s : State) (key index : Nat) : Option Nat :=
  (s.sys.replays.find? fun r => r.node == key && r.index == index).map fun r => r.core
/-- A group whose signatures differ is recorded for each of its two cores and sets class 6 (R367). -/
def State.mismatch (s : State) (part node : Nat) (tag : BitVec 16) (cores : List Nat) : State :=
  (cores.foldl (fun (s : State) c => s.record (dieOf c)
    { rank := rankUncorrected, cls := 6, utype := 1, uindex := c, rqtag := tag, part := part }) s).nodeClass part node 6
/-- AUDIT_COMPARE: the replay, one of whose cores is `core`, has finished with these signatures, five per group of the first run as held
here; one that met a trap or a fault has none, and the audit has no result. -/
def State.auditCompare (s : State) (key gang core : Nat) (sigs : List (BitVec 64)) : State :=
  let part := keyPart key
  let node := keyVa key
  let n := s.node? part node
  if !n.auditing.contains gang || !(s.sys.replays.any fun r => r.node == key && r.gang == gang && r.core == core) then s
  else
    let runs := s.sys.audits.filter fun a => a.node == key && a.gang == gang
    let s := if sigs.length ≠ 5 * runs.length then s
      else runs.zipIdx.foldl
        (fun s x => if x.1.sigs == (sigs.drop (5 * x.2)).take 5 then s
          else s.mismatch part node n.eff.tag (x.1.core :: (s.replayCore key x.1.index).toList)) s
    s.endAudit key gang
def execAuditCompare (node gang core : Nat) (sigs : List (BitVec 64)) (s : State) : Out := done (s.auditCompare node gang core sigs)
/-- AUDIT_TIMEOUT: an audit not started within 1 s is skipped. -/
def State.auditSkip (s : State) (key gang : Nat) : State :=
  if (s.node? (keyPart key) (keyVa key)).auditing.contains gang && !(s.sys.replays.any fun r => r.node == key && r.gang == gang) then
    s.endAudit key gang
  else s
def execAuditTimeout (node gang : Nat) (s : State) : Out := done (s.auditSkip node gang)

/-! ### The heat sweeper (R305) -/

/-- A leaf word with both heat fields lowered by 1. -/
def coolWord (e : BitVec 64) : BitVec 64 :=
  let e := if (e >>> 9) &&& 3 == 0 then e else e - (1#64 <<< 9)
  if (e >>> 11) &&& 3 == 0 then e else e - (1#64 <<< 11)
/-- Lower the heat of a valid leaf; the sweeper's write of a stage-1 word needs W in its stage-2 leaf (R299). -/
def State.cool (s : State) (x : Entry) : State := if coolWord x.word = x.word || !x.wok then s else s.onMem fun m => m.wr64 x.pa (coolWord x.word)
/-- A record of the sweeper's own for the host: no group stands behind it (R306). DESIGN CHOICE -/
def State.sweepRecord (s : State) (part g : Nat) : State :=
  if (s.vf 0).qsize = 0 || s.sys.recs.any (fun r => r.part == part && r.moved && r.waiter == .gone && r.gpa / 65536 == g / 65536) then s
  else
    let (r, s) := s.sendRec
      { id := s.sys.order, queue := 0, seq := 0, sent := false, rqtag := 0xFFFF, code := 0x12, part := part, stage := ⟨6, true, true, 3⟩
        poison := false, moved := true, ia := 0, gpa := g, core := 0, group := 0, waiter := .gone }
    s.onSys fun y => { y with order := y.order + 1, recs := y.recs ++ [r] }
/-- The page of a stage-1 table is landed where its stage-2 leaf is MOVED, or a record is made (R306). -/
def State.landTable (s : State) (part g : Nat) : State :=
  match tree2 s.mem (s.part part).s2root g true with
  | .ok l => if isMoved l.entry.word then (s.landTwo part ⟨3, l, true, g⟩).getD (s.sweepRecord part g) else s
  | .error _ => s
/-- Visit n entries of a stage-1 table from GPA `g` on. -/
def State.visitTable (part : Nat) (f : State → Entry → State) (g n : Nat) (s : State) : State :=
  (List.range n).foldl (fun s i => match readGpa s.mem (s.part part).s2root (g + 8 * i) with | .ok e => f s e | .error _ => s) (s.landTable part g)
/-- Visit a stage-1 tree. -/
def State.coolTree (part : Nat) (root1 : BitVec 64) (s : State) : State :=
  let leaf := fun (s : State) (e : Entry) => if leafOk e.word false then s.cool e else s
  let mid := fun (s : State) (e : Entry) =>
    if leafOk e.word true then s.cool e else if ptrOk e.word then State.visitTable part leaf (entryAddr e.word) 8192 s else s
  let top := fun (s : State) (e : Entry) => if ptrOk e.word then State.visitTable part mid (entryAddr e.word) 8192 s else s
  if root1.getLsbD 0 && root1.extractLsb' 52 4 == 0 && root1.extractLsb' 1 12 == 0 then
    State.visitTable part top ((root1.extractLsb' 13 39).toNat * 8192) 1024 s
  else s
/-- HEAT_SWEEP: the trees of every admitted node's S1ROOT, once each, in hardware mode. -/
def State.heatSweep (s : State) (part : Nat) : State :=
  let pt := s.part part
  if pt.mode modeSweep then s
  else
    let vas := (s.sys.nodes.filter fun e => keyPart e.1 == part && e.2.launch && !e.2.done).map fun e => keyVa e.1
    let roots := (vas.filter fun v => s.nodeState part v == stAdmitted).map fun v => (s.nodeWord part v 0x98).toNat
    (nub roots).foldl (fun s r => State.coolTree part (BitVec.ofNat 64 r) s) s
def execHeatSweep (part : Nat) (s : State) : Out := done (s.heatSweep part)

end Sys2Proof.Machine
end

