-- ==== Sys2Proof/Machine/HostMem.lean ====
section
/-! DEFINITION. The host's accesses through the memory aperture (R223, R267, R369). -/

namespace Sys2Proof.Machine

/-! ### The control die's host agent (R223, R225, R227) -/

/-- The host's access to a line. A write takes a watched token, which starts a round of the line's partition (R267). -/
def State.hostLine (s : State) (write : Bool) (l : Nat) : State :=
  let watched := (s.mem.line l).watched
  let s := s.ctlLine write l (s.mem.line l).pa
  if write && watched then s.due (partOfIa (l * 256)) else s
/-- The first bytes of the lines of a range of machine memory. -/
def chunks (pa n : Nat) : List Nat := (List.range ((pa + n + 255) / 256 - pa / 256)).map fun k => pa / 256 * 256 + 256 * k
/-- The lines of a range of machine memory. -/
def State.hostLines (s : State) (write : Bool) (pa n : Nat) : State :=
  (chunks pa n).foldl (fun s a => (s.mem.linesAt a).foldl (fun s l => s.hostLine write l) s) s
/-- Store host data: what no holder has a copy of goes to the stack. -/
def Mem.hostPut (m : Mem) (pa : Nat) (bs : List (BitVec 8)) : Mem :=
  ((chunks pa bs.length).filter fun a => (m.linesAt a).isEmpty).foldl (fun (m : Mem) a => m.writeBack a 256) (m.wrN pa bs)
/-- The aperture covers machine addresses 0 to 2^40 − 1 once the module is up. -/
def State.aperture (s : State) (pa n : Nat) : Bool := s.sys.boot == .up && n != 0 && decide (pa + n ≤ hostBase)

/-- The pages of a range are shown as they stand in memory: the aperture uses no key (R297). -/
def State.plain (s : State) (pa n : Nat) : State := s.onMem fun m => (chunks pa n).foldl (fun (m : Mem) a => m.view a 0) m

/-- HOST_MEMORY_WRITE. -/
def State.hostWrite (s : State) (pa : Nat) (bs : List (BitVec 8)) : State :=
  if s.aperture pa bs.length then ((s.hostLines true pa bs.length).plain pa bs.length).onMem fun m => m.hostPut pa bs else s
def execHostMemoryWrite (pa : Nat) (bytes : List (BitVec 8)) (s : State) : Out := done (s.hostWrite pa bytes)

/-- Some sector of a range is poisoned. -/
def Mem.anyBad (m : Mem) (pa n : Nat) : Bool := (List.range n).any fun k => m.bad (pa + k)
def State.answerHost (s : State) (ep : Bool) (bs : List (BitVec 8)) : State :=
  s.onSys fun y => { y with hostReads := y.hostReads ++ [(ep, bs)] }
/-- HOST_MEMORY_READ: poisoned data come with EP set (R356). -/
def State.hostRead (s : State) (pa n : Nat) : State :=
  if s.aperture pa n then
    let s := s.hostLines false pa n
    s.answerHost (s.mem.anyBad pa n) ((s.plain pa n).mem.rdN pa n)
  else s
/-- HOST_ATOMIC (R267, R369): FetchAdd, Swap or CAS of 32 or 64 bits, at an aligned address; `y` is CAS's new value. -/
def State.hostAtomic (s : State) (pa : Nat) (op : HostOp) (wide : Bool) (x y : BitVec 64) : State :=
  let n := if wide then 8 else 4
  if s.aperture pa n && decide (pa % n = 0) then
    let s := (s.hostLines true pa n).plain pa n
    let old := leNat (s.mem.rdN pa n)
    let new := match op with
      | .fetchAdd => (old + x.toNat) % 2 ^ (8 * n)
      | .swap => x.toNat % 2 ^ (8 * n)
      | .cas => if old = x.toNat % 2 ^ (8 * n) then y.toNat % 2 ^ (8 * n) else old
    (s.answerHost (s.mem.bad pa) (leBytes n old)).onMem fun m => m.hostPut pa (leBytes n new)
  else s
def execHostAtomic (pa : Nat) (op : HostOp) (wide : Bool) (x y : BitVec 64) (s : State) : Out := done (s.hostAtomic pa op wide x y)

end Sys2Proof.Machine
end

