-- ==== Sys2Proof/Machine/Host.lean ====
section
/-! DEFINITION. The functions' windows (R369, R370), stage-1 invalidation (R241), how fault records are resolved and forwarded
(R303), function-level reset (R377, R378, R395, R396), boot and SPDM (R379), and lasting units (R354, R363, R364). -/

namespace Sys2Proof.Machine

/-! ### Invalidation (R241, R300) -/

/-- Every line of the IA pages that satisfy a test is recalled, written back and sent home; translation-cache entries go, stash lines
are dropped, pins end. -/
def State.invalidate (s : State) (p : Nat → Bool) : State :=
  let ls := (s.mem.lines.map (·.1)).filter fun l => p (l / 256)
  let s := ls.foldl (fun s l => (s.recallAll l true).onMem fun m => m.flushLine l) s
  let rest := fun (c : Core) => { c with pins := c.pins.filter fun l => !p (l / 256) }
  { s with
    core := rest s.core, others := s.others.map fun (o : Other) => { o with ctx := rest o.ctx }
    mem := { s.mem with tcache := s.mem.tcache.filter fun t => !p t.iapage } }

/-! ### VF windows (R370) -/

/-- The window of a function answers. -/
def State.winUp (s : State) (v : Nat) : Bool := s.sys.boot == .up && (v == 0 || ((s.vf v).part.isSome && !(s.vf v).down))
/-- DOORBELL: any write starts a scheduling round of the partition. -/
def State.ring (s : State) (v : Nat) : State :=
  match (s.vf v).part with
  | some p => if s.winUp v then s.due p else s
  | none => s
def execDoorbell (vf : Nat) (s : State) : Out := done (s.ring vf)

/-- INVCTL: writing 1 invalidates the IA pages IABASE to IABASE + IAPAGES − 1 of the partition and reads 0 when done; a range past
2^47 reads 2, and nothing is invalidated. -/
def State.invctlWrite (s : State) (v : Nat) (x : BitVec 64) : State :=
  let w := s.vf v
  match w.part with
  | none => s
  | some p =>
    if !s.winUp v || x.toNat % 4 ≠ 1 then s
    else if 2 ^ 47 < w.iabase + w.iapages * 65536 then s.setVf v { w with invctl := 2 }
    else
      let lo := iaOf p w.iabase / 65536
      (s.setVf v { w with invctl := 0 }).invalidate fun pg => decide (lo ≤ pg) && decide (pg < lo + w.iapages)
def execInvctl (vf : Nat) (value : BitVec 64) (s : State) : Out := done (s.invctlWrite vf value)

/-! ### RESOLVE and FWDFAULT (R196, R303) -/

/-- The outstanding record of a queue with a SEQ. -/
def State.findRec (s : State) (q seq : Nat) : Option FRec := s.sys.recs.find? fun r => r.queue == q && r.sent && !r.fwd && r.seq == seq
/-- A record leaves its ring, and one that waited for room goes out. -/
def State.dropRec (s : State) (id : Nat) : State :=
  (s.onSys fun y => { y with recs := y.recs.filter fun r => r.id != id }).pump
/-- RESOLVE: the access walks again; a SEQ that names no outstanding record is ignored. -/
def State.resolve (s : State) (q : Nat) (seq : BitVec 24) : State :=
  match s.findRec q seq.toNat with
  | none => s
  | some r => (s.dropRec r.id).at r.core fun s => match r.waiter with
    | .scalar _ | .store => s.retry r.id
    | .engine g => s.tryResume g
    | .mirror f => s.republish f r.id
    | .fetch | .other | .gone => s
def execResolve (queue : Nat) (seq : BitVec 24) (s : State) : Out := done (if s.winUp queue then s.resolve queue seq else s)

/-- FWDFAULT: CODE 0x11, STAGE 2 and WALK 0 go to the party that stage 1 would have reached: the core, or for an engine and the pager
that serves one the queue of R301, in the mode that the fault was raised in (R375). -/
def State.forward (s : State) (r : FRec) : State :=
  let t : Stage := ⟨r.stage.agent, false, r.stage.write, 2⟩
  let pf := r.s1flt
  let gone := s.dropRec r.id
  let post := fun (s : State) (w : FWaiter) => s.postFault pf 0x11 t r.ia 0 false false w
  let kept := (s.onSys fun y => { y with recs := y.recs.map fun x => if x.id = r.id then { x with fwd := true } else x }).pump
  if r.code = 0x3F then gone
  else match r.waiter with
    | .scalar _ | .store => gone.at r.core fun s => s.forwardAccess r.id t
    | .engine g => gone.at r.core fun s =>
      let w := post s (.engine g)
      w.2.onHead g fun c => { c with susp := c.susp.map fun x => if x.waits == some r.id then { x with waits := w.1 } else x }
    | .mirror f => gone.at r.core fun s => let w := post s (.mirror f); w.2.setFront f { w.2.front f with mwait := w.1 }
    | .gone => gone
    | .fetch => kept
    | .other => if r.stage.agent = 6 then gone.at r.core fun s => (post s .other).2 else kept

/-! ### Function-level reset (R377, R378, R395, R396) -/

/-- Dirty lines of the acting core's stash pages are dropped without write-back. -/
def State.dropStash (s : State) : State :=
  let ias := ((s.spad.spt.filter fun e => sptRes e.2 && sptStash e.2).map fun e => dirtyLines s.spad e.2).flatten
  s.onMem fun m => ias.foldl (fun (m : Mem) ia => m.dropUnder ((m.line (lineOf ia)).pa + ia % 256) 64) m
/-- A core's dirty L1 lines are dropped without write-back; L2's line, tokens, sectors and sharers stay (R396). -/
def Mem.dropDirtyL1 (m : Mem) (core : Nat) : Mem :=
  let ks := (m.l1.filter fun e => keyCore e.1 == core && e.2.dirty).map fun e => keyLine e.1
  let m := ks.foldl (fun (m : Mem) k => m.dropUnder ((m.line (k / 4)).pa + k % 4 * 64) 64) m
  { m with l1 := dropCore m.l1 core }
/-- Steps 2 to 5 on the acting core: its group's fronts break with cause 8, its dirty data are dropped, the core and its caches are
scrubbed (R263). -/
def State.scrubCore (s : State) : State :=
  (((s.stopGroup .killed 8).dropStash).onMem fun m => m.dropDirtyL1 s.core.num).blank
/-- A function's queue is gone: what nobody waits for any more is forgotten, and other groups' records go elsewhere (R371, R377). -/
def State.dropQueue (s : State) (v : Nat) : State :=
  (s.onSys fun y => { y with
    recs := (y.recs.filter fun r => r.queue != v || r.waiter != .gone).map fun r =>
      if r.queue == v then { r with sent := false } else r }).divert v

/-- Steps 2 to 6 for some nodes of a partition, given children last. A node that is complete goes to STATE 4 too, and its event, which it has
signalled, is not signalled again. -/
def State.resetNodes (s : State) (part : Nat) (nodes : List Nat) : State :=
  let live := nodes.filter fun v => !s.finished part v
  let s := nodes.foldl (fun s v => (s.nodeClass part v 4).setNodeState part v stKilled) s
  let s := live.foldl
    (fun s v =>
      let up := s.nodeParent part v
      (s.discardNode part v).onNode part v fun n => { n with part := part, parent := if n.parent = 0 then up else n.parent, wiped := true }) s
  let mine := fun (c : Core) => c.partNo == part && live.contains c.node.toNat
  let s := s.liveCores.foldl (fun s k => s.at k fun s => if mine s.core then s.scrubCore else s) s
  let s := (s.forget mine).onSys fun y => { y.dropTasks (fun q t => (s.part part).clusters.contains q && nodes.contains t.node) with
    placed := y.placed.filter fun p => !(live.contains p.node && (y.parts.any fun e => e.1 == part && e.2.clusters.contains (clusterOf p.core))) }
  live.reverse.foldl (fun s v => s.complete part treeBound v) s

/-- Step 1 of the reset of a VF: its window and its MSI-X stop. -/
def State.flrDown (s : State) (v : Nat) : State := s.setVf v { s.vf v with down := true }
/-- Steps 2 to 7: the nodes below its root are killed with class 4, their cores scrubbed, their tasks removed, and the window comes back with
its reset values. -/
def State.flrRest (s : State) (v : Nat) : State :=
  match (s.vf v).part with
  | none => s
  | some p =>
    let old := s.vf v
    let root := (s.part p).rootva + 0x100 * v
    let s := s.resetNodes p ((s.subtree p treeDepth root).drop 1)
    let pt := s.part p
    let s := if pt.free1 = old.landFree.toNat && pt.ret1 = old.landRet.toNat then s.setPart p { pt with free1 := 0, ret1 := 0 } else s
    ((s.setVf v { part := some p }).dropQueue v).due p
/-- Both at once, as a part of a larger reset. -/
def State.flr (s : State) (v : Nat) : State := (s.flrDown v).flrRest v
/-- FUNCTION_LEVEL_RESET of a VF begins with step 1, and goes on as the next event. -/
def State.flrStep (s : State) (v : Nat) : State :=
  if (s.vf v).part.isNone then s
  else if (s.vf v).down then s.flrRest v
  else { s.flrDown v with agenda := .functionLevelReset v :: s.agenda }
def execFunctionLevelReset (vf : Nat) (s : State) : Out := done (s.flrStep vf)

/-! ### Lasting units (R363, R364) -/

/-- Pages that a stage-2 tree uses: tables, and with `leaves` the pages it maps, as bases and sizes. -/
def treePages (m : Mem) (root : BitVec 64) (leaves : Bool) : List (Nat × Nat) :=
  let base := (root.extractLsb' 13 39).toNat * 8192
  let leaf := fun (e : BitVec 64) (size : Nat) => if leaves then [(entryAddr e, size)] else []
  let low := fun (t : Nat) => ((List.range 8192).map fun k =>
    let e := m.rd64 (t + 8 * k)
    if leafOk e false then leaf e 65536 else []).flatten
  let mid := fun (t : Nat) => ((List.range 8192).map fun k =>
    let e := m.rd64 (t + 8 * k)
    if leafOk e true then leaf e (2 ^ 29) else if ptrOk e then (entryAddr e, 65536) :: low (entryAddr e) else []).flatten
  if root.getLsbD 0 then
    (base, 8192) :: ((List.range 1024).map fun k =>
      let e := m.rd64 (base + 8 * k)
      if ptrOk e then (entryAddr e, 65536) :: mid (entryAddr e) else []).flatten
  else []
/-- Two ranges of machine memory meet. -/
def meets (a b : Nat × Nat) : Bool := decide (a.1 < b.1 + b.2) && decide (b.1 < a.1 + a.2)
/-- Live partitions with a page in a range. -/
def State.usersOf (s : State) (r : Nat × Nat) : List Nat :=
  (s.sys.parts.filter fun e => e.2.live && (treePages s.mem e.2.s2root true).any fun x => meets x r).map (·.1)

/-- Every node of a partition below its root. -/
def State.resetPart (s : State) (p : Nat) : State :=
  let s := (s.part p).vfs.foldl (fun s v => s.flr v) s
  s.resetNodes p ((s.subtree p treeDepth (s.part p).rootva).drop 1)

/-- The partition that owns a core's cluster. -/
def State.partOfCore (s : State) (core : Nat) : Option Nat :=
  (s.sys.parts.find? fun e => e.2.live && e.2.clusters.contains (clusterOf core)).map (·.1)
/-- Gangs on withdrawn cores are pre-empted and placed elsewhere; a node no cluster can hold any more is killed with class 3. -/
def State.leaveCores (s : State) : State :=
  let hit := s.sys.placed.filter fun p => !s.coreOk p.core
  let s := hit.foldl (fun s p => match s.partOfCore p.core with
    | some q => s.startPreempt q p.node p.gang false
    | none => s) s
  s.sys.nodes.foldl
    (fun s e =>
      let part := keyPart e.1
      let v := keyVa e.1
      let n := s.node? part v
      let gone := !(s.part part).clusters.any fun cl => decide (n.gangsz ≤ (s.goodCores cl).length)
      let unplaced := !n.todo.isEmpty || !n.leaving.isEmpty || !n.parked.isEmpty
      if n.launch && !n.done && unplaced && gone && s.nodeState part v == stAdmitted then s.killNode part v 3 else s) s

/-- The withdrawal of R364. -/
def State.withdrawUnit (s : State) (u : UnitId) : State :=
  let s := s.withdraw u
  match u.utype with
  | 7 => (s.usersOf ((u.die - 9) * 2 ^ 36, 2 ^ 36)).foldl (fun s p => s.resetPart p) s
  | 9 => s.setPower (u.die * 64 + u.uindex) .failed (s.wire (u.die * 64 + u.uindex)).trains
  | 11 => s.onSys fun y => { y with parts := smap {} (fun _ (p : Part) => { p with ports := p.ports &&& ~~~(1#18 <<< u.uindex) }) y.parts }
  | _ => s.leaveCores

/-- Counts kept per unit: corrected errors, uncorrected errors, rows remapped. -/
def unitKey (u : UnitId) (k : Nat) : Nat := ((u.die * 16 + u.utype) * 2 ^ 32 + u.uindex) * 4 + k
def State.countOf (s : State) (u : UnitId) (k : Nat) : Nat := sget 0 s.sys.errs (unitKey u k)
def State.count (s : State) (u : UnitId) (k : Nat) : State :=
  s.onSys fun y => { y with errs := sset 0 y.errs (unitKey u k) (sget 0 y.errs (unitKey u k) + 1) }
/-- A lasting fault (R363, R364): the HBM row of a machine address goes to a spare one, and beyond the spare rows the stack is withdrawn; any
other unit is withdrawn at once. -/
def State.lasting (s : State) (u : UnitId) (pa : Nat) : State :=
  if u.utype ≠ 7 then s.withdrawUnit u
  else
    let s := s.count u 2
    if Config.spareRows < s.countOf u 2 then s.withdrawUnit u
    else s.onSys fun y => { y with rows := if y.rows.contains pa then y.rows else y.rows ++ [pa] }

/-- A corrected error of a unit is recorded and counted; the threshold makes the unit lasting (R361, R363). Host-assisted triage of a
partition that uses it only records. -/
def State.corrected (s : State) (u : UnitId) (r : Bank) (ps : List Nat) : State :=
  let s := (s.record u.die { r with rank := rankCorrected }).count u 0
  let near := Config.inWindow s.free
  let s := s.draw
  if (ps.all fun p => !(s.part p).mode modeTriage) && decide (s.sys.conf.threshold ≤ s.countOf u 0) && near then s.lasting u r.addr else s
/-- An uncorrected error of a unit is counted and tests the unit (R363). -/
def State.tested (s : State) (u : UnitId) (pa : Nat) (ps : List Nat) : State :=
  let s := s.count u 1
  let fails := Config.testFails s.free || (decide (2 ≤ s.countOf u 1) && Config.inWindow s.free)
  let s := s.draw
  if (ps.all fun p => !(s.part p).mode modeTriage) && fails then s.lasting u pa else s

/-! ### Checks of the memories (R354) -/

/-- The unit of a place, its record, and the partitions that use it. -/
def State.scrubbed (s : State) : ScrubAt → UnitId × Bank × List Nat
  | .hbm pa => (⟨9 + stackOf pa, 7, 0⟩, { utype := 7, addr := pa, aspace := 2 }, s.usersOf (pa, 1))
  | .l2 d k ia => (⟨d, 5, k⟩, { utype := 5, uindex := k, addr := ia, aspace := 1, part := partOfIa ia }, [partOfIa ia])
  | .spad c w =>
    let k := c % 128 * 32 + (w * 8 % 2048 / 64 + w / 512) % 32
    (⟨dieOf c, 2, k⟩, { utype := 2, uindex := k }, users c)
  | .l1 c ia => (⟨dieOf c, 4, c % 128⟩, { utype := 4, uindex := c % 128, addr := ia, aspace := 1, part := partOfIa ia }, [partOfIa ia])
  | .cc c ia => (⟨dieOf c, 1, c⟩, { utype := 1, uindex := c, addr := ia, aspace := 1, part := partOfIa ia }, [partOfIa ia])
  | .ic c ia => (⟨dieOf c, 1, c⟩, { utype := 1, uindex := c, addr := ia, aspace := 1, part := partOfIa ia }, [partOfIa ia])
  | .vreg c r _ => (⟨dieOf c, 3, c % 128 * 2 + r / 768⟩, { utype := 3, uindex := c % 128 * 2 + r / 768 }, users c)
  | .acc c _ _ => (⟨dieOf c, 12, c % 128⟩, { utype := 12, uindex := c % 128 }, users c)
where
  users (c : Nat) : List Nat := ((s.groupOn c).map fun o => o.ctx.partNo).toList
/-- The unit of data is there: a sector of a slice whose die holds the line, a line of a cache, a word, register or row of a core with a
group. -/
def State.scrubs (s : State) : ScrubAt → Bool
  | .hbm _ => true
  | .l2 d k ia => decide (d < 8) && k == sliceOf (lineOf ia) && decide (((s.mem.line (lineOf ia)).die d).tokens ≠ 0)
  | .spad c w => s.liveCores.contains c && decide (w < 262144)
  | .l1 c ia => (sget {} s.mem.l1 (coreKey c ia) : L1Line).valid
  | .cc c ia => sget [] s.mem.cc (coreKey c ia) != []
  | .ic c ia => (sget (0, []) s.mem.ic (coreKey c ia)).2 != []
  | .vreg c r l => s.liveCores.contains c && decide (r < 1536) && decide (l < 64)
  | .acc c a r => s.liveCores.contains c && decide (a < 4) && decide (r < 64)
/-- Parity corrects nothing. -/
def parityOnly : ScrubAt → Bool
  | .vreg _ _ _ => true
  | .acc _ _ _ => true
  | _ => false
/-- What an error that is not corrected leaves: the poisoned unit, or, where a clean line is fetched again, nothing of the line; and whether
poison was created. -/
def State.struck (s : State) : ScrubAt → Bool × State
  | .hbm pa => (true, s.onMem fun m => m.setBad pa true)
  | .l2 _ _ ia => (true, s.onMem fun m => m.setBad ((m.line (lineOf ia)).pa + ia % 256) true)
  | .spad c w => (true, s.at c fun s => s.onSpad fun sp => { sp with poison := sset false sp.poison w true })
  | .l1 c ia =>
    let k := coreKey c ia
    let x : L1Line := sget {} s.mem.l1 k
    let y : L1Line := if x.dirty then { x with bad := x.bad ||| (1 <<< (ia % 64 / 8)) } else {}
    (x.dirty, s.onMem fun m => { m with l1 := sset {} m.l1 k y })
  | .cc c ia => (false, s.onMem fun m => { m with cc := sset [] m.cc (coreKey c ia) [], ccBad := sset false m.ccBad (coreKey c ia) false })
  | .ic c ia => (false, s.onMem fun m => { m with ic := sset (0, []) m.ic (coreKey c ia) (0, []) })
  | .vreg c r l => (true, s.at c fun s => s.onCore fun x => { x with bad := sset false x.bad (badIdx (r / 768) (r % 768) l) true })
  | .acc c a r => (true, s.at c fun s => s.onEng fun e => e.setRowBad a r true)
/-- SCRUB_PASS, and a check in an access of its own (R354, R361, R363): corrected errors are counted, an uncorrected one tests the unit and
poisons data. -/
def State.scrub (s : State) (at' : ScrubAt) (f : ScrubFind) : State :=
  let (u, r, ps) := s.scrubbed at'
  if !s.scrubs at' then s
  else match f with
  | .clean => s
  | .corrected y => if parityOnly at' then s else s.corrected u { r with syndrome := y } ps
  | .uncorrected y =>
    let t := s.struck at'
    let s := if t.1 then t.2.record u.die { r with rank := rankDeferred, syndrome := y } else t.2
    s.tested u r.addr ps
def execScrubPass (place : ScrubAt) (find : ScrubFind) (s : State) : Out := done (s.scrub place find)

/-! ### Flits (R238, R239) -/

/-- The flit with number `seq` on the link of end `link`, as one number. -/
def flitAt (link seq : Nat) : Nat := 2048 * seq + link
/-- FLIT_CRC_FAILURE: a flit is replayed from the sender's buffer, at most 8 times: a corrected error of the link (R354, R363). -/
def State.flitFails (s : State) (flit : Nat) : State :=
  let link := flit % 2048
  let x := s.wire link
  let n := sget 0 x.replays (flit / 2048)
  if (linkFar link).isSome && decide (n < 8) then
    (s.setWire link { x with replays := sset 0 x.replays (flit / 2048) (n + 1) }).corrected ⟨linkDie link, 9, link % 64⟩
      { utype := 9, uindex := link % 64 } []
  else s
def execFlitCrcFailure (flit : Nat) (s : State) : Out := done (s.flitFails flit)
/-- REPLAY_LIMIT: a flit has been replayed 8 times; the sender sends every unacknowledged flit by another path, and a message that has not
arrived is under way twice. -/
def execReplayLimit (link : Nat) (s : State) : Out :=
  let x := s.wire link
  done (if x.replays.any fun e => decide (8 ≤ e.2) then
      (s.setWire link { x with replays := [], rerouted := true }).onMem fun m =>
        { m with resent := m.resent ++ m.msgs.filter fun t => t.src == linkDie link }
    else s)

/-- Where data of a line land on a die. -/
inductive Land where
  | sector (k : Nat) | l1 (key word : Nat) | cc (key : Nat) | stash (core word : Nat)
  deriving DecidableEq, Repr
/-- Stash words of a line in a scratchpad, by physical address / 8. -/
def Spad.stashWords (sp : Spad) (l : Nat) : List Nat :=
  (sp.line.filter fun x => x.2.getLsbD 0 && sp.spt.any fun e => sptRes e.2 && sptStash e.2 && sptPpage e.2 == x.1 / 64
    && lineOf (sptIapn e.2 * 4096 + x.1 % 64 * 64) == l).flatMap fun x => (List.range 8).map fun k => x.1 * 8 + k
/-- A sector of the slice, a word of a copy in one of the die's L1s or stash pages, a line of a constant cache. -/
def State.landPlaces (s : State) (d l : Nat) : List Land :=
  let hit := fun (k : Nat) => keyLine k / 4 == l && dieOf (keyCore k) == d
  let stash := fun (c : Nat) (sp : Spad) => if dieOf c = d then (sp.stashWords l).map fun w => Land.stash c w else []
  ((List.range 4).map Land.sector)
    ++ ((s.mem.l1.filter fun e => hit e.1 && e.2.valid).flatMap fun e => (List.range 8).map fun k => Land.l1 e.1 k)
    ++ ((s.mem.cc.filter fun e => hit e.1).map fun e => Land.cc e.1)
    ++ stash s.core.num s.spad ++ s.others.flatMap fun (o : Other) => stash o.core o.spad
/-- Data are poisoned where they land (R239, R354). -/
def State.poisonLand (s : State) (l : Nat) : Land → State
  | .sector k => s.onMem fun m => m.setBad ((m.line l).pa + 64 * k) true
  | .l1 k w => s.onMem fun m =>
    let x : L1Line := sget {} m.l1 k
    { m with l1 := sset {} m.l1 k { x with bad := x.bad ||| (1 <<< w) } }
  | .cc k => s.onMem fun m => { m with ccBad := sset false m.ccBad k true }
  | .stash c w => s.at c fun s => s.onSpad fun sp => { sp with poison := sset false sp.poison w true }
/-- Data of a group's write that are poisoned on their way to the slice set class 2 on its node (R362): which of the partition's groups
on the die wrote is left open. -/
def State.poisonWrite (s : State) (d l : Nat) : State :=
  match s.asker d (l * 256) with
  | (some c, s) => s.nodeClass c.partNo c.node.toNat 2
  | (none, s) => s
/-- ONDIE_FLIT_ERROR (R239): without data the line is re-invalidated in its sharers, or in all clusters; data are poisoned where they
land, which place being left open, and a suspect vector then fails its parity (R229). Both write a deferred record of the slice's
directory, and test it (R363). -/
def State.flitError (s : State) (d l : Nat) (data suspect : Bool) : State :=
  let u : UnitId := ⟨d, 6, sliceOf l⟩
  let s := s.record d { rank := rankDeferred, utype := 6, uindex := sliceOf l, addr := l * 256, aspace := 1, part := partOfIa (l * 256) }
  let s :=
    if data then
      let ps := s.landPlaces d l
      let p := (ps[Config.pick s.free % ps.length]?).getD (.sector 0)
      let s := s.draw.onMem fun m => if suspect then m.onDie l d fun x => { x with parityBad := true } else m
      let s := s.poisonLand l p
      match p with
      | .sector _ => s.poisonWrite d l
      | _ => s
    else
      let cs := if suspect then List.range 16 else ((s.mem.line l).die d).recalls true
      let s := cs.foldl (fun s c => s.recallCluster d c l true) s
      s.onMem fun m => m.onDie l d fun x => { x with writer := none, sharers := 0, parityBad := false }
  s.tested u (l * 256) [partOfIa (l * 256)]
def execOndieFlitError (die line : Nat) (data suspect : Bool) (s : State) : Out := done (s.flitError die line data suspect)

/-! ### Boot and SPDM (R379) -/

/-- What is withdrawn with a die: of a compute die each of its 16 clusters, of a base die its stack. -/
def dieUnits (d : Nat) : List UnitId := if d < 8 then (List.range 16).map fun k => ⟨d, 5, k⟩ else [⟨d, 7, 0⟩]
/-- The highest revision that two dies share. -/
def sharedRev (b : BootFind) (d e : Nat) : Option Nat :=
  let x := b.revisions.getD d []
  let y := (b.revisions.getD e []).filter fun r => x.contains r
  y.foldl (fun m r => match m with | none => some r | some k => some (max k r)) none
/-- Every pair of linked dies negotiates its revision. -/
def State.negotiate (s : State) (b : BootFind) : State :=
  ((List.range 25).flatMap fun d => (List.range 7).map fun i => (d, i)).foldl
    (fun s x => match linkEnd x.1 x.2 with
      | some e => s.setWire (x.1 * 64 + x.2) { s.wire (x.1 * 64 + x.2) with rev := sharedRev b x.1 e.1 }
      | none => s) s
/-- BOOT: each firmware piece and record from the first flash slot or the second; with both bad the module stays in recovery. A die that
shares no revision with the control die is withdrawn, and every mark of the health record is applied (R364). -/
def State.bootUp (s : State) (b : BootFind) : State :=
  match s.sys.boot with
  | .off =>
    let pieces := (b.slot1.zip b.slot2).all fun p => p.1 || p.2
    let s := s.onSys fun y => { y with identity := some Config.pufKey }
    if !pieces || !(b.config1 || b.config2) then s.onSys fun y => { y with boot := .recovery }
    else
      let lone := ((List.range 25).filter fun d => d != ctlDie && (sharedRev b d ctlDie).isNone).flatMap dieUnits
      let marks := (b.health.map fun x => (⟨x.1, x.2.1, x.2.2⟩ : UnitId)).filter fun u => !s.sys.health.contains u
      let s := s.negotiate b
      let s := s.onSys fun y => { y with conf := b.conf, health := y.health ++ marks, rows := y.rows ++ b.rows }
      let s := s.sys.health.foldl (fun s u => s.withdrawUnit u) s
      s.onSys fun y => { y with
        boot := .up, measures := b.measures, withdrawn := y.withdrawn ++ lone.filter fun u => !y.withdrawn.contains u }
  | _ => s
def execBoot (b : BootFind) (s : State) : Out := done (s.bootUp b)

/-- SPDM_REQUEST: GET_MEASUREMENTS and CHALLENGE of version 1.2 or 1.3 are answered with the stored measurements and the signature by the
PUF-derived key; one of another version is answered by no rule. -/
def State.spdmAnswer (s : State) (q : SpdmReq) : State :=
  if s.sys.boot = .up && (q.version == 0x12 || q.version == 0x13) then
    s.onSys fun y => { y with spdm := y.spdm ++ [(q, y.measures, Config.spdmSign q.version q.challenge y.measures)] }
  else s
def execSpdmRequest (r : SpdmReq) (s : State) : Out := done (s.spdmAnswer r)

end Sys2Proof.Machine
end

