-- ==== Sys2Proof/Machine/SAlu.lean ====
section
/-! DEFINITION. Arithmetic, logic, immediates, compares, predicates and address registers of the S slot (R75 to R83). -/

namespace Sys2Proof.Machine

/-! ### Values -/

/-- ADD, SUB, MUL by FN (R76): wrapped, Sat as .i64, Sat as .n64. -/
def fnInt (f : BitVec 2) (op : Int → Int → Int) (x y : BitVec 64) : BitVec 64 :=
  match f.toNat with
  | 1 => BitVec.ofInt 64 (satInt true 64 (op x.toInt y.toInt))
  | 2 => BitVec.ofInt 64 (satInt false 64 (op x.toNat y.toNat))
  | _ => BitVec.ofInt 64 (op x.toInt y.toInt)
/-- DIV (R77). -/
def divS (x y : BitVec 64) : BitVec 64 := if y = 0 then BitVec.allOnes 64 else BitVec.ofInt 64 (x.toInt.tdiv y.toInt)
/-- DIVN. -/
def divN (x y : BitVec 64) : BitVec 64 := if y = 0 then BitVec.allOnes 64 else BitVec.ofNat 64 (x.toNat / y.toNat)
/-- REM. -/
def remS (x y : BitVec 64) : BitVec 64 := if y = 0 then x else BitVec.ofInt 64 (x.toInt.tmod y.toInt)
/-- REMN. -/
def remN (x y : BitVec 64) : BitVec 64 := if y = 0 then x else BitVec.ofNat 64 (x.toNat % y.toNat)
/-- Trailing zeros, by bits from k up. -/
def ctzFrom (x : BitVec 64) : Nat → Nat → Nat
  | 0, k => k
  | n + 1, k => if x.getLsbD k then k else ctzFrom x n (k + 1)
/-- One bits. -/
def popCount (x : BitVec 64) : Nat → Nat
  | 0 => 0
  | n + 1 => (if x.getLsbD n then 1 else 0) + popCount x n
/-- The field of SEXT and ZEXT by FN: 8, 16 or 32 bits. -/
def extBits (f : BitVec 2) : Nat := 8 * 2 ^ f.toNat
/-- CMP's conditions (R79). -/
def cmpCond (c : BitVec 4) (x y : BitVec 64) : Bool :=
  match c.toNat with
  | 0 => x == y
  | 1 => x != y
  | 2 => x.slt y
  | 3 => !x.slt y
  | 4 => x.ult y
  | 5 => !x.ult y
  | 6 => !y.slt x
  | 7 => y.slt x
  | 8 => !y.ult x
  | 9 => y.ult x
  | 10 => x &&& y != 0
  | _ => x &&& y == 0

/-! ### Shapes -/

/-- SD ← f(S[SA], S[SB]) (R75). -/
def runR (w : RForm) (f : BitVec 64 → BitVec 64 → BitVec 64) (s : State) : Res :=
  sSlot w.p [w.a.toNat, w.b.toNat] [w.d.toNat] s fun s =>
    .ok (s.onCore fun c => c.wrS w.d.toNat (f (c.rdS w.a.toNat) (c.rdS w.b.toNat)))
/-- SD ← f(S[SA]). -/
def runR1 (w : RForm) (f : BitVec 64 → BitVec 64) (s : State) : Res :=
  sSlot w.p [w.a.toNat] [w.d.toNat] s fun s => .ok (s.onCore fun c => c.wrS w.d.toNat (f (c.rdS w.a.toNat)))
/-- SD ← f(S[SA], imm) (R78). -/
def runI (w : IForm) (f : BitVec 64 → BitVec 64 → BitVec 64) (s : State) : Res :=
  sSlot w.p [w.a.toNat] [w.d.toNat] s fun s => .ok (s.onCore fun c => c.wrS w.d.toNat (f (c.rdS w.a.toNat) w.imm64))
/-- A product or quotient goes through the multiply-divide unit (R72): SD is pending until it lands. A divide waits while
another is in progress. -/
def runMd (w : RForm) (divide : Bool) (f : BitVec 64 → BitVec 64 → BitVec 64) (s : State) : Res :=
  sSlot w.p [w.a.toNat, w.b.toNat] [w.d.toNat] s fun s =>
    if divide && s.core.muldiv.any (·.divide) then .error (.stall 6 .scoreboard s)
    else .ok (s.onCore fun c =>
      { c with muldiv := c.muldiv ++ [⟨if w.d = 0 then 0 else c.sIdx w.d.toNat, divide, f (c.rdS w.a.toNat) (c.rdS w.b.toNat)⟩] })
/-- P[PD] ← f(P[PA] XOR NA, P[PB] XOR NB) (R80). -/
def runL (w : PLogForm) (f : Bool → Bool → Bool) (s : State) : Res :=
  sSlot w.p [] [] s fun s =>
    .ok (s.onCore fun c => c.wrP w.d.toNat (f (c.rdP w.a.toNat ^^ w.na == 1) (c.rdP w.b.toNat ^^ w.nb == 1)))

/-! ### The instructions -/

/-- NOP (R27) changes nothing. -/
def runNop (s : State) : Res := .ok s
def runAdd (w : RForm) (s : State) : Res := runR w (fnInt w.f (· + ·)) s
def runSub (w : RForm) (s : State) : Res := runR w (fnInt w.f (· - ·)) s
def runMul (w : RForm) (s : State) : Res := runMd w false (fnInt w.f (· * ·)) s
/-- Bits [127:64] of the signed product. -/
def runMulh (w : RForm) (s : State) : Res := runMd w false (fun x y => BitVec.ofInt 64 (x.toInt * y.toInt / 2 ^ 64)) s
/-- Bits [127:64] of the unsigned product. -/
def runMulhn (w : RForm) (s : State) : Res := runMd w false (fun x y => BitVec.ofNat 64 (x.toNat * y.toNat / 2 ^ 64)) s
def runDiv (w : RForm) (s : State) : Res := runMd w true divS s
def runDivn (w : RForm) (s : State) : Res := runMd w true divN s
def runRem (w : RForm) (s : State) : Res := runMd w true remS s
def runRemn (w : RForm) (s : State) : Res := runMd w true remN s
def runAnd (w : RForm) (s : State) : Res := runR w (· &&& ·) s
def runOr (w : RForm) (s : State) : Res := runR w (· ||| ·) s
def runXor (w : RForm) (s : State) : Res := runR w (· ^^^ ·) s
def runShl (w : RForm) (s : State) : Res := runR w (fun x y => x <<< (y.toNat % 64)) s
def runShr (w : RForm) (s : State) : Res := runR w (fun x y => x >>> (y.toNat % 64)) s
def runSra (w : RForm) (s : State) : Res := runR w (fun x y => x.sshiftRight (y.toNat % 64)) s
def runMin (w : RForm) (s : State) : Res := runR w (fun x y => if y.slt x then y else x) s
def runMax (w : RForm) (s : State) : Res := runR w (fun x y => if x.slt y then y else x) s
def runMinn (w : RForm) (s : State) : Res := runR w (fun x y => if y.ult x then y else x) s
def runMaxn (w : RForm) (s : State) : Res := runR w (fun x y => if x.ult y then y else x) s
def runClz (w : RForm) (s : State) : Res := runR1 w (fun x => BitVec.ofNat 64 (64 - bitLen x.toNat)) s
def runCtz (w : RForm) (s : State) : Res := runR1 w (fun x => BitVec.ofNat 64 (ctzFrom x 64 0)) s
def runPopc (w : RForm) (s : State) : Res := runR1 w (fun x => BitVec.ofNat 64 (popCount x 64)) s
def runSext (w : RForm) (s : State) : Res := runR1 w (fun x => BitVec.ofInt 64 (intOf true (extBits w.f) x.toNat)) s
def runZext (w : RForm) (s : State) : Res := runR1 w (fun x => BitVec.ofNat 64 (x.toNat % 2 ^ extBits w.f)) s
/-- SEL (R77): x when P[PS] XOR NEG is 1, else y. -/
def runSel (w : XForm) (s : State) : Res :=
  sSlot w.p [w.a.toNat, w.b.toNat] [w.d.toNat] s fun s =>
    .ok (s.onCore fun c => c.wrS w.d.toNat (if c.rdP w.selP.toNat ^^ w.selNeg then c.rdS w.a.toNat else c.rdS w.b.toNat))

def runAddi (w : IForm) (s : State) : Res := runI w (· + ·) s
def runAndi (w : IForm) (s : State) : Res := runI w (· &&& ·) s
def runOri (w : IForm) (s : State) : Res := runI w (· ||| ·) s
def runXori (w : IForm) (s : State) : Res := runI w (· ^^^ ·) s
def runShli (w : IForm) (s : State) : Res := runI w (fun x i => x <<< i.toNat) s
def runShri (w : IForm) (s : State) : Res := runI w (fun x i => x >>> i.toNat) s
def runSrai (w : IForm) (s : State) : Res := runI w (fun x i => x.sshiftRight i.toNat) s
/-- LI reads no register but PG. -/
def runLi (w : IForm) (s : State) : Res :=
  sSlot w.p [] [w.d.toNat] s fun s => .ok (s.onCore fun c => c.wrS w.d.toNat w.imm64)
def runLih (w : IForm) (s : State) : Res :=
  runI w (fun x i => (i.extractLsb' 0 32 : BitVec 32) ++ (x.extractLsb' 0 32 : BitVec 32)) s

/-- CMP (R79). -/
def runCmp (w : PForm) (s : State) : Res :=
  sSlot w.p [w.a.toNat, w.i.toNat] [] s fun s =>
    .ok (s.onCore fun c => c.wrP w.d.toNat (cmpCond w.c (c.rdS w.a.toNat) (c.rdS w.i.toNat)))
/-- CMPI. -/
def runCmpi (w : PForm) (s : State) : Res :=
  sSlot w.p [w.a.toNat] [] s fun s => .ok (s.onCore fun c => c.wrP w.d.toNat (cmpCond w.c (c.rdS w.a.toNat) w.imm64))
def runPand (w : PLogForm) (s : State) : Res := runL w (· && ·) s
def runPor (w : PLogForm) (s : State) : Res := runL w (· || ·) s
def runPxor (w : PLogForm) (s : State) : Res := runL w (· ^^ ·) s
def runPnot (w : PLogForm) (s : State) : Res := runL w (fun u _ => !u) s
def runPmov (w : PLogForm) (s : State) : Res := runL w (fun u _ => u) s

/-- AADD (R81). -/
def runAadd (w : IForm) (s : State) : Res :=
  sSlot w.p [] [] s fun s => .ok (s.onCore fun c => c.wrA w.d.toNat (c.rdA w.a.toNat + BitVec.ofInt 32 w.imm))
/-- AMOV by FN (R81). -/
def runAmov (w : RForm) (s : State) : Res :=
  match w.f.toNat with
  | 0 => sSlot w.p [] [] s fun s => .ok (s.onCore fun c => c.wrA w.d.toNat (c.rdA w.a.toNat))
  | 1 => sSlot w.p [w.a.toNat] [] s fun s => .ok (s.onCore fun c => c.wrA w.d.toNat ((c.rdS w.a.toNat).extractLsb' 0 32))
  | _ => sSlot w.p [] [w.d.toNat] s fun s => .ok (s.onCore fun c => c.wrS w.d.toNat ((c.rdA w.a.toNat).zeroExtend 64))
/-- ASTEP (R82). -/
def runAstep (w : IForm) (s : State) : Res :=
  sSlot w.p [] [] s fun s => .ok (s.onCore fun c => c.wrStep w.d.toNat w.a.toNat (BitVec.ofInt 32 w.imm))
/-- LCSET (R83): Sat(S[SA] + imm, n32). -/
def runLcset (w : IForm) (s : State) : Res :=
  sSlot w.p [w.a.toNat] [] s fun s =>
    .ok (s.onCore fun c => c.wrLc w.d.toNat (BitVec.ofInt 32 (satInt false 32 ((c.rdS w.a.toNat).toInt + w.imm))))

/-! ### Each instruction by itself -/

def execNop (s : State) : Out := finish (runNop s)
def execAdd (w : RForm) (s : State) : Out := finish (runAdd w s)
def execSub (w : RForm) (s : State) : Out := finish (runSub w s)
def execMul (w : RForm) (s : State) : Out := finish (runMul w s)
def execMulh (w : RForm) (s : State) : Out := finish (runMulh w s)
def execMulhn (w : RForm) (s : State) : Out := finish (runMulhn w s)
def execDiv (w : RForm) (s : State) : Out := finish (runDiv w s)
def execDivn (w : RForm) (s : State) : Out := finish (runDivn w s)
def execRem (w : RForm) (s : State) : Out := finish (runRem w s)
def execRemn (w : RForm) (s : State) : Out := finish (runRemn w s)
def execAnd (w : RForm) (s : State) : Out := finish (runAnd w s)
def execOr (w : RForm) (s : State) : Out := finish (runOr w s)
def execXor (w : RForm) (s : State) : Out := finish (runXor w s)
def execShl (w : RForm) (s : State) : Out := finish (runShl w s)
def execShr (w : RForm) (s : State) : Out := finish (runShr w s)
def execSra (w : RForm) (s : State) : Out := finish (runSra w s)
def execMin (w : RForm) (s : State) : Out := finish (runMin w s)
def execMax (w : RForm) (s : State) : Out := finish (runMax w s)
def execMinn (w : RForm) (s : State) : Out := finish (runMinn w s)
def execMaxn (w : RForm) (s : State) : Out := finish (runMaxn w s)
def execClz (w : RForm) (s : State) : Out := finish (runClz w s)
def execCtz (w : RForm) (s : State) : Out := finish (runCtz w s)
def execPopc (w : RForm) (s : State) : Out := finish (runPopc w s)
def execSext (w : RForm) (s : State) : Out := finish (runSext w s)
def execZext (w : RForm) (s : State) : Out := finish (runZext w s)
def execSel (w : XForm) (s : State) : Out := finish (runSel w s)
def execAddi (w : IForm) (s : State) : Out := finish (runAddi w s)
def execAndi (w : IForm) (s : State) : Out := finish (runAndi w s)
def execOri (w : IForm) (s : State) : Out := finish (runOri w s)
def execXori (w : IForm) (s : State) : Out := finish (runXori w s)
def execShli (w : IForm) (s : State) : Out := finish (runShli w s)
def execShri (w : IForm) (s : State) : Out := finish (runShri w s)
def execSrai (w : IForm) (s : State) : Out := finish (runSrai w s)
def execLi (w : IForm) (s : State) : Out := finish (runLi w s)
def execLih (w : IForm) (s : State) : Out := finish (runLih w s)
def execCmp (w : PForm) (s : State) : Out := finish (runCmp w s)
def execCmpi (w : PForm) (s : State) : Out := finish (runCmpi w s)
def execPand (w : PLogForm) (s : State) : Out := finish (runPand w s)
def execPor (w : PLogForm) (s : State) : Out := finish (runPor w s)
def execPxor (w : PLogForm) (s : State) : Out := finish (runPxor w s)
def execPnot (w : PLogForm) (s : State) : Out := finish (runPnot w s)
def execPmov (w : PLogForm) (s : State) : Out := finish (runPmov w s)
def execAadd (w : IForm) (s : State) : Out := finish (runAadd w s)
def execAmov (w : RForm) (s : State) : Out := finish (runAmov w s)
def execAstep (w : IForm) (s : State) : Out := finish (runAstep w s)
def execLcset (w : IForm) (s : State) : Out := finish (runLcset w s)

end Sys2Proof.Machine
end

