-- ==== Sys2Proof/Machine/Issue.lean ====
section
/-! DEFINITION. One issue of a bundle (R22 to R26): its slots, the decode fates, the choice of the first fate of R414, the
latches, the window changes and the counts; and the sequencer's own events. -/

namespace Sys2Proof.Machine

/-- The meaning of a slot's instruction at its issue: `pre` is the state that the V slots' names and the M and C slots' guards
are read from, `later` the own fronts that later slots of the issue bind. Events stand in no slot. -/
def slotRes (i : Instr) (pre : State) (later : List Nat) (s : State) : Res :=
  match i with
  | .nop => runNop s
  | .add w => runAdd w s
  | .sub w => runSub w s
  | .mul w => runMul w s
  | .mulh w => runMulh w s
  | .mulhn w => runMulhn w s
  | .div w => runDiv w s
  | .divn w => runDivn w s
  | .rem w => runRem w s
  | .remn w => runRemn w s
  | .and w => runAnd w s
  | .or w => runOr w s
  | .xor w => runXor w s
  | .shl w => runShl w s
  | .shr w => runShr w s
  | .sra w => runSra w s
  | .min w => runMin w s
  | .max w => runMax w s
  | .minn w => runMinn w s
  | .maxn w => runMaxn w s
  | .clz w => runClz w s
  | .ctz w => runCtz w s
  | .popc w => runPopc w s
  | .sext w => runSext w s
  | .zext w => runZext w s
  | .sel w => runSel w s
  | .addi w => runAddi w s
  | .andi w => runAndi w s
  | .ori w => runOri w s
  | .xori w => runXori w s
  | .shli w => runShli w s
  | .shri w => runShri w s
  | .srai w => runSrai w s
  | .li w => runLi w s
  | .lih w => runLih w s
  | .cmp w => runCmp w s
  | .cmpi w => runCmpi w s
  | .pand w => runPand w s
  | .por w => runPor w s
  | .pxor w => runPxor w s
  | .pnot w => runPnot w s
  | .pmov w => runPmov w s
  | .aadd w => runAadd w s
  | .amov w => runAmov w s
  | .astep w => runAstep w s
  | .lcset w => runLcset w s
  | .loop w => runLoop w s
  | .prep w => runPrep w s
  | .prepr w => runPrepr w s
  | .go w => runGo w s
  | .gol w => runGol w s
  | .endGroup w => runEnd w s
  | .wset w => runWset w s
  | .wrot w => runWrot w s
  | .ld w => runLd w s
  | .st w => runSt w s
  | .ldPf w => runLdPf w s
  | .ldc w => runLdc w s
  | .cinv w => runCinv w s
  | .lds w => runLds w s
  | .sts w => runSts w s
  | .ldsRaw w => runLdsRaw w s
  | .amo w => runAmo w s
  | .amos w => runAmos w s
  | .fence w => runFence w s
  | .fenceE w => runFenceE w s
  | .cflush w => runCflush w s
  | .stflush w => runStflush w s
  | .spmap w => runSpmap w s
  | .spunmap w => runSpunmap w s
  | .sppin w => runSppin w s
  | .spunpin w => runSpunpin w s
  | .spevict w => runSpevict w s
  | .spfetch w => runSpfetch w s
  | .span w => runSpan w s
  | .curveld w => runCurveld w s
  | .bmapld w => runBmapld w s
  | .fwait w => runFwait w s
  | .fwaitMemory w => runFwaitMemory w s
  | .fstat w => runFstat w s
  | .fpub w => runFpub w s
  | .freset w => runFreset w s
  | .barinit w => runBarinit w s
  | .baradd w => runBaradd w s
  | .barwait w => runBarwait w s
  | .qpost w => runQpost w s
  | .qtake w => runQtake w s
  | .spawn w => runSpawn w s
  | .signal w => runSignal w s
  | .evwait w => runEvwait w s
  | .yield w => runYield w s
  | .mwait w => runMwait w s
  | .cwait w => runCwait w s
  | .rdcnt w => runRdcnt w s
  | .trap w => runTrap w s
  | .rte w => runRte w s
  | .rdcause w => runRdcause w s
  | .rdctl w => runRdctl w s
  | .wrctl w => runWrctl w s
  | .amaxrd w => runAmaxrd w s
  | .amaxrdFront w => runAmaxrdFront w s
  | .vnop _ => runVnop pre s
  | .vadd w => runVadd w pre s
  | .vsub w => runVsub w pre s
  | .vmul w => runVmul w pre s
  | .vfma w => runVfma w pre s
  | .vfms w => runVfms w pre s
  | .vfnma w => runVfnma w pre s
  | .vabs w => runVabs w pre s
  | .vneg w => runVneg w pre s
  | .vmin w => runVmin w pre s
  | .vmax w => runVmax w pre s
  | .vdiv w => runVdiv w pre s
  | .vsqrt w => runVsqrt w pre s
  | .vrcp w => runVrcp w pre s
  | .vrsq w => runVrsq w pre s
  | .vcurve w => runVcurve w pre s
  | .vadds w => runVadds w pre s
  | .vsubs w => runVsubs w pre s
  | .vmulh w => runVmulh w pre s
  | .vand w => runVand w pre s
  | .vor w => runVor w pre s
  | .vxor w => runVxor w pre s
  | .vnot w => runVnot w pre s
  | .vshl w => runVshl w pre s
  | .vshr w => runVshr w pre s
  | .vsra w => runVsra w pre s
  | .vcmp w => runVcmp w pre s
  | .vsel w => runVsel w pre s
  | .vcvt w => runVcvt w pre s
  | .vpack w => runVpack w pre s
  | .vunpk w => runVunpk w pre s
  | .vrsum w => runVrsum w pre s
  | .vrmax w => runVrmax w pre s
  | .vrmin w => runVrmin w pre s
  | .vramax w => runVramax w pre s
  | .vbcast w => runVbcast w pre s
  | .vdup w => runVdup w pre s
  | .viota w => runViota w pre s
  | .vshuf w => runVshuf w pre s
  | .vlrot w => runVlrot w pre s
  | .vxmov w => runVxmov w pre s
  | .vext w => runVext w pre s
  | .vld w => runVld w pre s
  | .vst w => runVst w pre s
  | .vldr w => runVldr w pre s
  | .vgath w => runVgath w pre s
  | .vscat w => runVscat w pre s
  | .vacc w => runVacc w pre s
  | .mma w => runMma w pre later s
  | .mmar w => runMmar w pre later s
  | .mmad w => runMmad w pre later s
  | .mclr w => runMclr w pre later s
  | .mdrain w => runMdrain w pre later s
  | .msetRbound w => runMsetRbound w pre later s
  | .msetTap w => runMsetTap w pre later s
  | .msetNotap w => runMsetNotap w pre later s
  | .cpy w => runCpy w pre later s
  | .cgath w => runCgath w pre later s
  | .cscat w => runCscat w pre later s
  | .cred w => runCred w pre later s
  | .cfill w => runCfill w pre later s
  | .mcast w => runMcast w pre later s
  | .crem w => runCrem w pre later s
  | .cstop w => runCstop w pre later s
  | .bundleFetch | .bundleIssue | .asyncTrapDelivery | .vResultLanding | .sResultLanding _ | .muldivComplete _
  | .commandStart _ | .copyBeat _ | .matrixBeat | .drainBeat | .tapBeat | .matrixCommandComplete | .frontResume _
  | .mcastDelivery _ | .mcastAck _ _ | .cremAck _ | .cremIncoming _ | .chaseTimerExpiry _ | .pageIn _
  | .stashLineFill _ _ | .pinRetryTimeout _ | .transientReadRequest _ _ _ | .transientWriteRequest _ _ _
  | .transientReduceRequest _ _ _ | .tokenResponse _ | .upgradeRequest _ _ | .clusterInvalidation _ _ _ _
  | .clusterAck _ _ _ | .ttoExpiry _ _ | .hawserRequest _ _ | .hawserActivation _ _ | .hawserDeactivation _
  | .eviction _ _ | .cleaningWriteBack _ _ | .writeBackAck _ _ | .landing _ | .flitCrcFailure _ | .replayLimit _
  | .ondieFlitError _ _ _ _ | .linkDoze _ | .linkSleep _ | .linkWake _ | .linkWakeTimeout _ | .dieLost _
  | .schedulingRound _ | .gangReservation _ _ | .preemptionComplete _ _ | .parkTimeout _ _ | .regrouping _ _
  | .watchdogSample _ | .watchdogLim1 _ | .watchdogLim2 _ | .groupRetirement _ | .auditCompare _ _ _ _
  | .auditTimeout _ _ | .scrubPass _ _ | .heatSweep _ | .hostMemoryWrite _ _ | .hostMemoryRead _ _
  | .hostAtomic _ _ _ _ _ | .doorbell _ | .invctl _ _ | .resolve _ _ | .registerWrite _ _ _ | .halt _ | .save _
  | .saveTimeout _ | .restore _ | .resume _ | .logarm _ | .logclear _ | .logread _ | .logdisarm _ | .partcreate _
  | .partdestroy _ | .s2set _ | .s2inv _ | .vfbind _ | .setmode _ | .setports _ | .setaudit _ | .setweight _
  | .peerset _ | .s2rings _ | .fwdfault _ | .killctx _ | .withdraw _ | .tokrebuild _ | .functionLevelReset _
  | .boot _ | .spdmRequest _ | .kretanAcknowledgementTimeout _ => .ok s

/-! ### The slots of a bundle -/

/-- A slot that acts in an issue: its place in the order S, V0, V1, M, C0, C1, its word as TVAL holds it, and what decode
makes of it. -/
structure Slotted where
  place : Nat
  word : BitVec 64
  ins : Except DecErr Instr

/-- A re-issued memory form takes no post-increment unless STEP is 01 (R25). -/
def noInc (i : Instr) : Instr :=
  match i with
  | .vld w => .vld { w with i := 0 }
  | .vst w => .vst { w with i := 0 }
  | .vldr w => .vldr { w with i := 0 }
  | .vgath w => .vgath { w with i := 0 }
  | .vscat w => .vscat { w with i := 0 }
  | i => i
/-- The V slot v of an issue: its present word, or the latched word re-issued, or nothing. -/
def vSlotted (h : Header) (v : BitVec 1) (w : Option (BitVec 32)) (latch : BitVec 32) : List Slotted :=
  match w with
  | some w => [⟨1 + v.toNat, w.zeroExtend 64, decodeWords (.word (vSlot v) w none)⟩]
  | none =>
    if h.policy = 0 && latch != 0 then
      let i := decodeWords (.word (vSlot v) latch none)
      [⟨1 + v.toNat, latch.zeroExtend 64, if h.step = 1 then i else i.map noInc⟩]
    else []
/-- The S slot. -/
def sSlotted (b : Bundle) : List Slotted :=
  match b.s with
  | some w => [⟨0, w.zeroExtend 64, decodeWords (.word .s w b.ext)⟩]
  | none => []
/-- An M or C slot. -/
def longSlotted (k : Slot) (place : Nat) (w : Option (BitVec 64)) : List Slotted :=
  match w with
  | some w => [⟨place, w, decodeWords (.long k w)⟩]
  | none => []
/-- What acts in an issue, in slot order. -/
def Core.slotted (c : Core) (b : Bundle) : List Slotted :=
  sSlotted b ++ vSlotted b.hdr 0 b.v0 c.latch0 ++ vSlotted b.hdr 1 b.v1 c.latch1
    ++ longSlotted .m 3 b.m ++ longSlotted .c0 4 b.c0 ++ longSlotted .c1 5 b.c1

/-! ### Decode fates (R40, R414 step 4) -/

/-- GO, GOL, LOOP, END, TRAP, RTE by opcode (R36). -/
def isControl (w : BitVec 32) : Bool :=
  match (opOf w).toNat with
  | 0x32 | 0x33 | 0x34 | 0x35 | 0x70 | 0x71 => true
  | _ => false
/-- The scalar register that a VEXT names. -/
def vextDest (x : Slotted) : Option (BitVec 6) := match x.ins with | .ok (.vext w) => some w.d | _ => none
/-- The address register that a V slot post-increments. -/
def incReg (x : Slotted) : Option Nat :=
  let r := fun (w : VMem) => if w.i = 1 then some w.r.toNat else none
  match x.ins with
  | .ok (.vld w) => r w
  | .ok (.vst w) => r w
  | .ok (.vldr w) => r w
  | .ok (.vgath w) => r w
  | .ok (.vscat w) => r w
  | _ => none
/-- The address register that the S slot names as destination (R81). -/
def addrDest (x : Slotted) : Option Nat :=
  match x.ins with
  | .ok (.aadd w) => some w.d.toNat
  | .ok (.amov w) => if w.f.toNat < 2 then some w.d.toNat else none
  | _ => none
/-- Two lists share a value. -/
def meet (a b : List Nat) : Bool := a.any fun x => b.contains x

/-- The fate of the bundle as a whole: 0x03, or 0x01 with its TVAL (R21, R36, R39, R40, R74, R84, R115). A delay bundle with an illegal
header and a control transfer meets two rules, and the header's 0x01 is taken. DESIGN CHOICE -/
def Core.bundleFate (c : Core) (b : Bundle) (xs : List Slotted) : Option (Nat × BitVec 64) :=
  let hdr := some (0x01, b.header.zeroExtend 64)
  let sw := b.s.getD 0
  let ctl := b.s.isSome && isControl sw
  let isLoop := b.s.isSome && (opOf sw).toNat == 0x34
  let vexts := xs.filterMap vextDest
  let others := b.v0.isSome || b.v1.isSome || b.m.isSome || b.c0.isSome || b.c1.isSome
  if !b.hdr.ok then hdr
  else if ctl && c.xfer.isSome then some (0x03, sw.zeroExtend 64)
  else if ctl && b.hdr.rep != 0 then hdr
  else if isLoop && others then hdr
  else if vexts.length == 2 && vexts.head? == vexts.getLast? then hdr
  else if meet (xs.filterMap addrDest) (xs.filterMap incReg) then hdr
  else if ctl && c.loop.isSome then some (0x01, sw.zeroExtend 64)
  else none
/-! ### Running the slots -/

/-- Own fronts that a slot binds when its guard is true (R318). -/
def Core.binds (c : Core) (e : Eng) (i : Instr) : List Nat :=
  let front := fun (p : BitVec 4) (fen : BitVec 1) (n : BitVec 6) => if c.rdP p.toNat && fen == 1 then [n.toNat] else []
  match i with
  | .mdrain w => front w.p w.fen w.fc
  | .mmad w => if c.rdP w.p.toNat && w.tap != 0 then (match e.tap with | some t => [t.2] | none => []) else []
  | .cpy w => front w.p w.fen w.fc
  | .cgath w => front w.p w.fen w.fc
  | .cscat w => front w.p w.fen w.fc
  | .cred w => front w.p w.fen w.fc
  | .cfill w => front w.p w.fen w.fc
  | .mcast w => front w.p w.fen w.fc
  | .crem w => front w.p w.fen w.fc
  | _ => []
def Slotted.bound (c : Core) (e : Eng) (x : Slotted) : List Nat := match x.ins with | .ok i => c.binds e i | .error _ => []

def Halt.rank : Halt → Nat
  | .trap r _ _ _ _ => r
  | .stall r _ _ => r
/-- The halt of an M or C slot: what it did is undone, and what the state before holds stands (R40). -/
def Halt.under (pre : State) (h : Halt) : Halt :=
  match h with
  | .trap r c t st _ => .trap r c t st pre
  | .stall r w st => if r = 5 then .stall r w st else .stall r w pre
def Halt.isTrap : Halt → Bool
  | .trap _ _ _ _ _ => true
  | .stall _ _ _ => false
/-- Of two halts the one of the earlier step of R414, and at one step that of the earlier slot; of two full copy queues the strict one
traps (R244). -/
def Halt.first (o : Option Halt) (h : Halt) : Option Halt :=
  match o with
  | none => some h
  | some g => if h.rank < g.rank || (h.rank == 8 && g.rank == 8 && h.isTrap && !g.isTrap) then some h else some g

/-- A slot runs after those before it: a V slot as `runV`, an M or C slot with the address registers that the S slot left
(R22, R115). A word that decode refuses raises 0x02 (R40). -/
def runSlot (pre : State) (a : Sparse (BitVec 32)) (x : Slotted) (later : List Nat) (s : State) : Res :=
  match x.ins with
  | .error _ => .error (.trap 4 0x02 x.word noStage pre)
  | .ok i =>
    if x.place < 3 then slotRes i pre later s
    else match slotRes i pre later { s with core := { s.core with a := a } } with
      | .ok t => .ok { t with core := { t.core with a := s.core.a } }
      | .error h => .error (h.under pre)

/-- The slots after an S slot that has not gone through: an M or C word of a SPAN's own bundle meets the descriptor that the SPAN will have
loaded (R149, R243), never the old one, and no rule of it yet. -/
def Slotted.blind (x : Slotted) (s : State) : State :=
  match x.ins with
  | .ok (.span w) => s.onCore fun c => { c with d := sset {} c.d w.d.toNat {} }
  | _ => s
/-- Run slots in order: the state and the first halt by R414. -/
def runSlots (pre : State) (a : Sparse (BitVec 32)) : List Slotted → State → Option Halt → State × Option Halt
  | [], s, o => (s, o)
  | x :: r, s, o =>
    let later := (r.map fun y => y.bound pre.core pre.eng).flatten
    match runSlot pre a x later s with
    | .ok t => runSlots pre a r t o
    | .error h => runSlots pre a r (x.blind s) (Halt.first o h)
/-- Every stall that slots meet in an issue (R339). -/
def slotStalls (pre : State) (a : Sparse (BitVec 32)) : List Slotted → State → List Stall
  | [], _ => []
  | x :: r, s => match runSlot pre a x [] s with
    | .ok t => slotStalls pre a r t
    | .error (.stall _ why _) => why :: slotStalls pre a r (x.blind s)
    | .error (.trap _ _ _ _ _) => slotStalls pre a r (x.blind s)

/-- SPMAP to SPFETCH: their effects stand when a V access of the bundle traps (R187). -/
def pageIns (i : Instr) : Bool :=
  match i with
  | .spmap _ => true
  | .spunmap _ => true
  | .sppin _ => true
  | .spunpin _ => true
  | .spevict _ => true
  | .spfetch _ => true
  | _ => false
/-- The scalar register that a page instruction writes. -/
def pageDest (i : Instr) : Option (BitVec 6) := match i with | .sppin w => some w.d | .spevict w => some w.d | _ => none
/-- The guard of a page instruction. -/
def pageGuard (i : Instr) : BitVec 4 :=
  match i with
  | .spmap w => w.p
  | .spunmap w => w.p
  | .sppin w => w.p
  | .spunpin w => w.p
  | .spevict w => w.p
  | .spfetch w => w.p
  | _ => 0
/-- A page instruction that acts (R31). -/
def Slotted.pageIns (x : Slotted) (c : Core) : Bool :=
  match x.ins with | .ok i => Machine.pageIns i && c.rdP (pageGuard i).toNat | .error _ => false
/-- What a page instruction wrote, by index in the file of scalar registers. -/
def Slotted.pageResult (x : Slotted) (pre post : Core) : List (Nat × BitVec 64) :=
  match x.ins with
  | .ok i => match pageDest i with | some d => [(pre.destIdx d.toNat, post.rdS d.toNat)] | none => []
  | .error _ => []

/-- The slots of an issue from a state on, with a stall that already holds at step 5 of R414. -/
def State.runFrom (s pre : State) (a : Sparse (BitVec 32)) (xs : List Slotted) (o : Option Halt) : Res :=
  match runSlots pre a xs s o with
  | (t, none) => .ok t
  | (_, some h) => .error h
/-- The slots after a page instruction that has been performed: its register result lands with the issue. A stall leaves it performed,
so that the S instruction is not performed again (R187); the fates of the M and C slots let its effects stand as well. DEDUCED -/
def State.afterPage (s : State) (r : List Slotted) : Res :=
  match s.core.paged with
  | some ws => (s.runFrom s s.core.a r none).map fun t => t.onCore fun c => { ws.foldl (fun (c : Core) x => c.wrIdx x.1 x.2) c with paged := none }
  | none => .ok s
/-- An issue whose S slot x is a page instruction: the fates of the steps before its own come first, then it is performed once, then the
other slots. -/
def State.runPaged (s : State) (x : Slotted) (r : List Slotted) (o : Option Halt) : Res :=
  if s.core.paged.isSome then s.afterPage r
  else match (runSlots s s.core.a (x :: r) s o).2.filter fun h => decide (h.rank ≤ 5) with
    | some h => .error h
    | none => match runSlot s s.core.a x [] s with
      | .error h => .error h
      | .ok t => (t.onCore fun c => { c with
          s := s.core.s, defrec := s.core.defrec, paged := some (x.pageResult s.core t.core) }).afterPage r

/-- An S result and a VEXT of one issue name the same register: the VEXT's stands, whichever lands first (R74, R98). -/
def Core.extWins (pre c : Core) (xs : List Slotted) : Core :=
  let ds := (xs.filterMap vextDest).map fun d => pre.destIdx d.toNat
  if ds.isEmpty then c
  else
    let pn := pre.pend.length
    let mn := pre.muldiv.length
    { c with
      pend := c.pend.take pn ++ (c.pend.drop pn).map fun p => if ds.contains p.dest then { p with dest := 0 } else p
      muldiv := c.muldiv.take mn ++ (c.muldiv.drop mn).map fun p => if ds.contains p.dest then { p with dest := 0 } else p }

/-- A slot beside S accesses memory. -/
def Slotted.accesses (x : Slotted) : Bool :=
  3 ≤ x.place || (match x.ins with
    | .ok i => match i with
      | .vld _ => true
      | .vst _ => true
      | .vldr _ => true
      | .vgath _ => true
      | .vscat _ => true
      | _ => false
    | .error _ => false)
/-- The fault record that an acquire waits on which was not there before. -/
def State.acquireWait (pre s : State) : Option Nat :=
  match (s.core.pend.drop pre.core.pend.length).find? fun p => p.acq && p.waits.isSome with
  | some p => p.waits
  | none => (s.core.parked.find? fun p => p.acq && p.waits.isSome && !pre.core.parked.contains p).bind fun p => p.waits
/-- An acquire of the S slot waits on a record while other slots of its bundle access memory, which they do after it (R213): the fates of the
slots that come first are taken; else the bundle waits for the record, which it made once, and is tried again; a record that was
forwarded ends the acquire with 0x11 (R303). `t` is the state after the S slot alone. -/
def State.holdAcquire (s t : State) (id : Nat) (a : Sparse (BitVec 32)) (r : List Slotted) (o : Option Halt) : Res :=
  match (runSlots s a r s o).2.filter fun h => decide (h.rank ≤ 5), t.sys.recs.find? fun x => x.id == id with
  | some h, _ => .error h
  | none, none => .error (.stall 6 .other s)
  | none, some x =>
    if s.waitsFor x.ia then .error (.stall 6 .other s)
    else if s.forwarded x.ia then
      let t := t.forwardAccess id { x.stage with walk := false, stage := 2 }
      let t := (t.onSys fun y => { y with recs := y.recs.filter fun x => x.id != id }).dropForwarded x.ia
      t.runFrom s a r none
    else
      let recs := t.sys.recs.map fun y => if y.id = id then { y with waiter := .other } else y
      .error (.stall 6 .other { s with mem := t.mem, sys := { t.sys with recs := recs } })
/-- All slots of one issue: the state after, or the first fate. -/
def State.runIssue (s : State) (xs : List Slotted) (o : Option Halt) : Res :=
  match xs with
  | x :: r =>
    if x.pageIns s.core then s.runPaged x r o
    else
      let first := if x.place = 0 then (runSlot s s.core.a x [] s).toOption else none
      let a := match first with | some t => t.core.a | none => s.core.a
      match if r.any Slotted.accesses then first.bind fun t => (s.acquireWait t).map fun id => (t, id) else none with
      | some (t, id) => s.holdAcquire t id a r o
      | none => (s.runFrom s a (x :: r) o).map fun t => t.onCore fun c => s.core.extWins c xs
  | [] => match o with | none => .ok s | some h => .error h

/-! ### What an issue leaves -/

/-- A latch after an issue (R25). -/
def latchAfter (h : Header) (w : Option (BitVec 32)) (old : BitVec 32) : BitVec 32 :=
  match w with
  | some w => w
  | none => if h.policy = 2 then 0 else old
/-- Latches, rotation, counts, and one issue cycle for the results in flight (R13, R22, R339). -/
def Core.issued (c : Core) (b : Bundle) : Core :=
  let h := b.hdr
  let c := { c with latch0 := latchAfter h b.v0 c.latch0, latch1 := latchAfter h b.v1 c.latch1, fresh := false }
  let c := (c.rotate h.rota.toNat h.rotb.toNat).bump 2
  { c.ageVec with
    retired := c.retired + 1, cycle := c.cycle + 1, made := c.made + 1, timer := 0, waitOn := none, waitBroken := false, waitDone := false, waitBar := none, barMet := false, pw := none, qstall := 0 }
/-- Issues that the bundle at hand makes in all. -/
def Core.total (c : Core) (b : Bundle) : Nat := if c.owed = 0 then b.hdr.rep.toNat + 1 else c.owed

/-- After the slots: the issue is counted, and after the last one the sequencer moves on and does what the S slot left to
do. -/
def State.afterIssue (pre s : State) (b : Bundle) : State :=
  let s := (s.onCore fun c => c.issued b).setWaiting none
  if s.core.made < s.core.total b then s
  else
    let next := (s.core.jump).getD (s.core.pc + BitVec.ofNat 32 b.size)
    (s.onCore fun c => Core.advance pre.core c next).actAfter

/-- An acquire whose access waits on a fault record holds up every later bundle (R196, R213). -/
def Core.acquiring (c : Core) : Bool := (c.pend.any fun p => p.acq && p.waits.isSome) || c.parked.any fun p => p.acq && p.waits.isSome

/-- An acquire that a Freeze cancelled, or whose parked entry it did, is not performed yet. -/
def Core.cancelledAcq (c : Core) : Bool :=
  (c.parked.any fun p => p.acq && p.cause == 0 && p.waits.isNone)
    || c.defrec.any fun e => match e.2 with | some r => r.acq && r.cause.isNone | none => false
/-- A BARWAIT begins to wait with the first try of its bundle (R337). -/
def State.startWait (s : State) (xs : List Slotted) : State :=
  match (xs.head?.bind fun x => x.ins.toOption : Option Instr) with
  | some (.barwait w) =>
    if !s.core.rdP w.p.toNat || s.core.waitBar.isSome then s
    else match s.scoreboard (RForm.barRegs w) with
      | .ok _ => if s.barVa w % 16 ≠ 0 then s else (s.onCore fun c => { c with waitBar := some (w.f != 0, s.barVa w) }).lookWait
      | .error _ => s
  | _ => s
/-- One issue of the bundle at hand. An acquire that a Freeze cancelled comes before what the handler does (R213). DEDUCED -/
def State.issueOnce (s : State) (b : Bundle) : Res :=
  let s := s.clearWay Core.cancelledAcq
  let xs := s.core.slotted b
  let s := s.startWait xs
  match s.core.bundleFate b xs with
  | some (cause, tval) => .error (.trap 4 cause tval noStage s)
  | none => match s.runIssue xs (if s.core.acquiring then some (.stall 5 .other s) else none) with
    | .ok t => .ok (State.afterIssue s t b)
    | .error h => .error h

/-! ### Fetching the bundle at hand -/

/-- After RTE or a restore the LOOP words are read back at the body's address less 8 and 4 (R85): not a LOOP raises 0x01
with the S word; a changed D keeps the indices of the levels below both. -/
def State.reloadLoop (s : State) (l : LoopSt) : Except Halt State := do
  let (w, s) ← s.fetchWord (l.body - 8)
  let (e, s) ← s.fetchWord (l.body - 4)
  match decodeWords (.word .s w (some e)) with
  | .ok (.loop x) =>
    let d := x.a.toNat
    let idx := (List.range d).map fun k => if k < l.depth then l.idx.getD k 0 else 0
    return s.onCore fun c => { c with loop := some { l with
      reload := false, len := x.d.toNat + 1, depth := d, amask := x.ext, idx := idx } }
  | _ => .error (.trap 4 0x01 (w.zeroExtend 64) noStage s)

/-- A bundle is at hand; what the core has enqueued so far came from earlier ones, unless it is owed only in part. -/
def State.atHand (s : State) (b : Bundle) : State :=
  s.onCore fun c => { c with cur := some b, made := 0, since := if c.owed = 0 then s.sys.order else c.since }
/-- The bundle at PC: at hand, from the loop buffer, or fetched; the first pass of a loop fills the buffer (R38). -/
def State.fetchCur (s : State) : Except Halt State := do
  match s.core.cur with
  | some _ => return s
  | none =>
    let s ← match s.core.loop with
      | some l => if l.reload then s.reloadLoop l else .ok s
      | none => .ok s
    match s.core.loop with
    | some l => match l.buf.find? fun x => x.1 == s.core.pc with
      | some x => return s.atHand x.2
      | none =>
        let (b, s) ← s.fetchBundle s.core.pc
        return (s.atHand b).onCore fun c => { c with loop := some { l with buf := l.buf ++ [(c.pc, b)] } }
    | none =>
      let (b, s) ← s.fetchBundle s.core.pc
      return s.atHand b

/-- A bundle boundary in the order of R414: due results land, a pending asynchronous cause, the fetch, the issue. -/
def State.boundary (s : State) : Res :=
  match s.landDue with
  | (some t, s) => .error (.trap 1 0x28 t noStage s)
  | (none, s) =>
    let s := s.dropHeld
    match (if s.core.lvl && !s.core.thbOff then none else s.core.held.head?) with
    | some h => .ok ((s.onCore fun c => { c with held := c.held.tail }).takeTrap h.cause h.tval h.stage true)
    | none => do
      let s ← s.fetchCur
      match s.core.cur with
      | some b => s.issueOnce b
      | none => return s

/-- What a stalled bundle boundary leaves: every kind of its stall is counted (R339). -/
def State.stalled (s : State) (why : Stall) (t : State) : State :=
  let ws := match s.core.cur with | some b => slotStalls s s.core.a (s.core.slotted b) s | none => []
  (t.stallTick why).alsoStalls why ws

/-! ### The sequencer's events -/

/-- BUNDLE_FETCH (R190). -/
def execBundleFetch (s : State) : Out :=
  if s.core.run == .running then finish s.fetchCur else done s
/-- BUNDLE_ISSUE (R22): one issue of the bundle at hand. -/
def execBundleIssue (s : State) : Out :=
  match s.core.run, s.core.cur with
  | .running, some b => finish (s.issueOnce b)
  | _, _ => done s
/-- ASYNC_TRAP_DELIVERY (R173): oldest first; at handler level it stays held. -/
def State.deliver (s : State) : State :=
  let s := s.dropHeld
  match (if (s.core.lvl && !s.core.thbOff) || s.core.run != .running then none else s.core.held.head?) with
  | some h => (s.onCore fun c => { c with held := c.held.tail }).takeTrap h.cause h.tval h.stage true
  | none => s
def execAsyncTrapDelivery (s : State) : Out := done s.deliver
/-- V_RESULT_LANDING (R97 to R99): the results that are due. -/
def execVResultLanding (s : State) : Out :=
  match s.landDue with
  | (some t, s) => done (s.takeTrap 0x28 t noStage false)
  | (none, s) => done s
/-- S_RESULT_LANDING (R73). -/
def execSResultLanding (i : Nat) (s : State) : Out := done (s.landPend i)
/-- MULDIV_COMPLETE (R72). -/
def State.landMul (s : State) (i : Nat) : State :=
  match s.core.muldiv[i]? with
  | some m => s.onCore fun c => { c.wrIdx m.dest m.value with muldiv := c.muldiv.eraseIdx i }
  | none => s
def execMuldivComplete (i : Nat) (s : State) : Out := done (s.landMul i)

end Sys2Proof.Machine
end

