-- ==== Sys2Proof/Machine/Mgmt.lean ====
section
/-! DEFINITION. The management commands of the physical function (R341, R342, R374, R415), the dirty log (R307 to R309), ferry images
(R344 to R352), and writes to the windows' registers (R360, R369, R370). -/

namespace Sys2Proof

open Machine (fieldOf setField64)

/-- Fields of word 0 of a command block (R341). -/
def Mgmt.op (c : Mgmt) : Nat := c.w0.toNat % 256
def Mgmt.part (c : Mgmt) : Nat := c.w0.toNat / 256 % 32
/-- The block that the event of an operation writes: its OP field names the operation. -/
def Mgmt.withOp (c : Mgmt) (op : Nat) : Mgmt := { c with w0 := setField64 c.w0 0 8 op }
/-- The bits of NODE, ARG and ARG2 that an operation uses (R341, R374); none for an operation listed nowhere. -/
def mgmtUse : Nat → Option (Nat × Nat × Nat)
  | 0x01 => some (2 ^ 56 - 1, 0, 0)
  | 0x02 => some (2 ^ 56 - 1, 0, 0)
  | 0x03 => some (2 ^ 56 - 1, 0, 0)
  | 0x04 => some (2 ^ 56 - 1, 0, 0)
  | 0x08 => some (0, 2 ^ 52 - 1, 2 ^ 48 - 1)
  | 0x09 => some (0, 2 ^ 52 - 1, 0)
  | 0x0A => some (0, 2 ^ 52 - 1, 0)
  | 0x0B => some (0, 0, 0)
  | 0x10 => some (2 ^ 56 - 1, 2 ^ 64 - 1, 2 ^ 64 - 1)
  | 0x11 => some (0, 0, 0)
  | 0x12 => some (0, 2 ^ 56 - 1, 0)
  | 0x13 => some (0, 2 ^ 52 - 1, 2 ^ 64 - 1)
  | 0x14 => some (0x7F, 0, 0)
  | 0x15 => some (0, 0x7F, 0)
  | 0x16 => some (0, 0x3FFFF, 0)
  | 0x17 => some (0, 0x1F, 0)
  | 0x18 => some (0, 0xFF, 0)
  | 0x19 => some (0xF, 2 ^ 64 - 1, 2 ^ 64 - 1)
  | 0x1A => some (0, 2 ^ 52 - 1, 2 ^ 52 - 1)
  | 0x1B => some (0, 0xFFFFFF, 0)
  | 0x1C => some (2 ^ 56 - 1, 0, 0)
  | 0x1D => some (0, 0xFF00FFFFFFFFFFFF, 0)
  | 0x1E => some (0, 0xFF, 0)
  | _ => none
/-- No bit outside a mask. -/
def inMask (x : BitVec 64) (m : Nat) : Bool := x &&& ~~~(BitVec.ofNat 64 m) == 0
/-- The block passes the checks that all commands share. -/
def Mgmt.ok (c : Mgmt) : Bool :=
  match mgmtUse c.op with
  | none => false
  | some (n, a, b) =>
    c.part == c.slot && fieldOf c.w0 32 32 == 0 && fieldOf c.w0 13 11 == 0 && inMask c.node n && inMask c.arg a && inMask c.arg2 b

end Sys2Proof

namespace Sys2Proof.Machine

/-! ### The command block (R341) -/

def stDone : Nat := 0
def stBusy : Nat := 1
def stWrong : Nat := 2
def stRefused : Nat := 3
def stKilledCtx : Nat := 4
def stPoisoned : Nat := 5
def stTimedOut : Nat := 6

def State.slot (s : State) (k : Nat) : CmdSlot := sget {} s.sys.slots k
def State.setSlot (s : State) (k : Nat) (v : CmdSlot) : State := s.onSys fun y => { y with slots := sset {} y.slots k v }
/-- The block that a slot holds. -/
def CmdSlot.block (x : CmdSlot) (k : Nat) : Mgmt := ⟨k, x.w0, x.node, x.arg, x.arg2⟩

/-- A command: the action answers the STATUS with which it completes, or 1 while it goes on. A busy slot ignores the block; in recovery
every command completes with STATUS 3 (R379). -/
def State.command (s : State) (c : Mgmt) (act : State → Mgmt → Nat × State) : State :=
  let fin := fun (s : State) (st : Nat) => s.setSlot c.slot ⟨c.w0, c.node, c.arg, c.arg2, st⟩
  if 20 ≤ c.slot then s
  else match s.sys.boot with
    | .off => s
    | .recovery => fin s stRefused
    | .up =>
      if (s.slot c.slot).status = stBusy then s
      else if !c.ok || (c.op ≠ 0x10 && !(s.part c.part).live) then fin s stWrong
      else
        let r := act s c
        fin r.2 r.1
/-- The block is the one that its slot is busy with: the control die's own completion of HALT or SAVE is the same event again. -/
def State.busyWith (s : State) (c : Mgmt) : Bool := (s.slot c.slot).status == stBusy && (s.slot c.slot).block c.slot == c && decide (c.slot < 20)
def State.setStatus (s : State) (k st : Nat) : State := s.setSlot k { s.slot k with status := st }

/-- The launch node whose control block lies at a machine address. -/
def State.nodeAt (s : State) (part pa : Nat) : Option Nat :=
  ((s.sys.nodes.filter fun e => keyPart e.1 == part && e.2.launch).find? fun e => (s.ctlPa part (keyVa e.1) needR).1 == some pa).map
    fun e => keyVa e.1

/-! ### HALT, SAVE, RESTORE, RESUME (R342, R343, R347 to R352) -/

/-- HALT is complete when every placed group is written to its slot. -/
def State.haltDone (s : State) (part va : Nat) : Bool := (s.node? part va).leaving.isEmpty && (s.placedOf part va).isEmpty
/-- HALT: the node is halted, its placed gangs are pre-empted. -/
def doHalt (s : State) (c : Mgmt) : Nat × State :=
  match s.nodeAt c.part c.node.toNat with
  | none => (stWrong, s)
  | some va =>
    let n := s.node? c.part va
    if n.halted || n.done || s.nodeState c.part va ≠ stAdmitted then (stWrong, s)
    else
      let s := s.setNode c.part va { n with halted := true }
      let s := (s.gangsOf c.part va).foldl (fun s g => s.startPreempt c.part va g false) s
      (if s.haltDone c.part va then stDone else stBusy, s)
/-- A busy HALT looks whether it is complete; a killed context ends it with STATUS 4. -/
def finishHalt (s : State) (c : Mgmt) : State :=
  match s.nodeAt c.part c.node.toNat with
  | none => s.setStatus c.slot stKilledCtx
  | some va =>
    if s.nodeState c.part va = stKilled then s.setStatus c.slot stKilledCtx
    else if s.haltDone c.part va then s.setStatus c.slot stDone else s
def execHalt (c : Mgmt) (s : State) : Out :=
  let c := c.withOp 0x01
  done (if s.busyWith c then finishHalt s c else s.command c doHalt)

/-- COMPLETE of an image that is to be written again is 0 from now on (R349). -/
def State.clearComplete (s : State) (part va g : Nat) : State :=
  let at' := s.slotVa part va g + 8
  match s.savePa part va at' needRW with
  | (some a, s) => (s.ctlOwn (lineOf (iaOf part at'))).onMem fun m => (m.wr64 a (setBit64 (m.rd64 a) 0 false)).writeBack a 8
  | (none, s) => s
/-- SAVE of a node whose HALT is complete begins. -/
def doSave (s : State) (c : Mgmt) : Nat × State :=
  match s.nodeAt c.part c.node.toNat with
  | none => (stWrong, s)
  | some va =>
    let n := s.node? c.part va
    if !n.halted || n.saving || n.done || !s.haltDone c.part va || s.nodeState c.part va ≠ stAdmitted then (stWrong, s)
    else
      let s := (List.range n.count).foldl (fun s g => s.clearComplete c.part va g) s
      (stBusy, s.setNode c.part va { n with saving := true })
/-- A retired group's core and engines, which stand while its gang has groups left, as one that has ended (R168). -/
def State.retiredImage (s : State) (part va g : Nat) : Image :=
  match s.others.find? fun (o : Other) => o.retired && o.ctx.ofNode part va && o.index == g with
  | some o => { core := { o.ctx with run := .retired }, eng := o.eng }
  | none => { core := { run := .retired } }
/-- The image of group g of a node with its body: the sections that the pre-emption filled its slot with, one that has retired, or a fresh
one; none where the slot cannot be read. -/
def State.imageToSave (s : State) (part va g : Nat) : Option (Image × List (BitVec 8)) :=
  let n := s.node? part va
  let about : Image :=
    { fresh := false, complete := true, groupw := BitVec.ofNat 64 (n.count % 2 ^ 24 * 2 ^ 24 + g)
      gangw := BitVec.ofNat 64 ((if n.gangsz = 0 then 0 else g % n.gangsz) * 16 + n.gangsz)
      imgid := (s.ctlRd part (n.image + 8)).getD 0, wdpend := n.wdpend || n.lim2pend }
  if n.retired.contains g then
    let i := s.retiredImage part va g
    let i := { about with core := { i.core with group := about.groupw, gang := about.gangw }, eng := i.eng }
    some (i, i.body)
  else if n.saved.contains g then (s.readSlot part va g).map fun (h, body, us) =>
    let i := { about with hlvl := (h.getD 1 0).getLsbD 3, units := us.filter fun u => decide (u < 0x7FF00), badPages := (bodyList body).2 }
    (i, body.take (0x7FF00 - headerBytes) ++ i.section (14, 0x7FF00, 0x1000))
  else some ({ about with fresh := true }, [])
/-- A latched watchdog expiry acts once the save is complete: one of LIM1 counts a strike and is recorded, one of LIM2 kills (R350). -/
def State.latchedExpiry (s : State) (part va : Nat) : State :=
  let n := s.node? part va
  let s := if !n.wdpend then s
    else
      let s := (s.watchRecord part n.eff.tag).setNode part va { n with wdpend := false, strikes := n.strikes + 1 }
      if n.strikeLim ≠ 0 && decide (n.strikeLim ≤ n.strikes + 1) then s.killNode part va 8 else s
  if n.lim2pend then (s.onNode part va fun n => { n with lim2pend := false }).killNode part va 8 else s
/-- A SAVE completes: every image is written; a fault in the save area or too many poisoned units kill the context (R349). -/
def finishSave (s : State) (c : Mgmt) : State :=
  match s.nodeAt c.part c.node.toNat with
  | none => s.setStatus c.slot stKilledCtx
  | some va =>
    if s.nodeState c.part va = stKilled then s.setStatus c.slot stKilledCtx
    else
      let is := (List.range (s.node? c.part va).count).map fun g => (g, s.imageToSave c.part va g)
      let r := is.foldl
        (fun (a : Bool × State) x => match x.2 with
          | some (i, body) =>
            if !a.1 || listMax < i.units.length + i.badPages.length then (false, a.2) else a.2.writeImage c.part va x.1 i body
          | none => (false, a.2)) (true, s)
      let s := r.2.onNode c.part va fun n => { n with saving := false }
      let bad := is.any fun x => (x.2.map fun y => y.1.poisoned).getD false
      if r.1 then (s.setStatus c.slot (if bad then stPoisoned else stDone)).latchedExpiry c.part va
      else (s.killNode c.part va 4).setStatus c.slot stKilledCtx
def execSave (c : Mgmt) (s : State) : Out :=
  let c := c.withOp 0x02
  done (if s.busyWith c then finishSave s c else s.command c doSave)
/-- SAVE_TIMEOUT: a save not complete 2 ms after its acceptance stops; the context is killed with class 4, STATUS 6. -/
def State.saveTimeout (s : State) (k : Nat) : State :=
  let c := (s.slot k).block k
  if (s.slot k).status ≠ stBusy || c.op ≠ 0x02 then s
  else
    let s := match s.nodeAt c.part c.node.toNat with
      | none => s
      | some va => (s.onNode c.part va fun n => { n with saving := false }).killNode c.part va 4
    s.setStatus k stTimedOut
def execSaveTimeout (slot : Nat) (s : State) : Out := done (s.saveTimeout slot)

/-- The checks of R351 on slot g, in what memory holds: whether it is FRESH, the body, and the poisoned units. Reserved bits are ignored
(R5). The CRC of a FRESH slot is that of no bytes. -/
def State.checkImage (s : State) (part va g : Nat) : Option (Bool × List (BitVec 8) × List Nat) :=
  match s.readSlot part va g with
  | none => none
  | some (h, body, us) =>
    let w := fun k => h.getD k 0
    let n := s.node? part va
    let groupw := BitVec.ofNat 64 (n.count % 2 ^ 24 * 2 ^ 24 + g)
    let gangw := BitVec.ofNat 64 ((if n.gangsz = 0 then 0 else g % n.gangsz) * 16 + n.gangsz)
    let table := (List.range 14).all fun k => setField64 (w (8 + k)) 48 8 0 == (({} : Image).header).getD (8 + k) 0
    let fresh := (w 1).getLsbD 5
    if w 0 ≠ (({} : Image).header).getD 0 0 || fieldOf (w 6) 0 8 ≠ 14 || !(w 1).getLsbD 0 || !table || w 2 ≠ groupw || w 3 ≠ gangw
        || w 4 ≠ (s.ctlRd part (n.image + 8)).getD 0 || w 5 ≠ crc64 (if fresh then [] else body) then none
    else some (fresh, body, us)
/-- A poisoned section of an image that cannot be restored, by its header or by the units that are poisoned (R352). -/
def State.spoiled (s : State) (part va g : Nat) : Bool :=
  match s.readSlot part va g with
  | some (h, _, us) =>
    !(h.getD 1 0).getLsbD 5
      && (([2, 3, 4, 5, 6, 7, 8, 9, 11, 13].any fun id => (h.getD (7 + id) 0).getLsbD 48) || us.any fun u => !unitHealable u)
  | none => false
/-- RESTORE finds the SPT through the saved VA and rewrites IAPN[39:35] of every entry with V 1 to the new partition (R352); bits [41:40]
are written as zero (R294). -/
def State.restoreSpt (s : State) (part va : Nat) : State :=
  (s.readSpt part va).foldl (fun s e =>
    if sptV e.2 then s.ctlWr part (va + 8 * e.1) (setField64 (setField64 e.2 40 2 0) 35 5 part) else s) s
/-- RESTORE: every slot passes R351 and can be restored, or nothing changes; the node becomes halted. -/
def doRestore (s : State) (c : Mgmt) : Nat × State :=
  match s.nodeAt c.part c.node.toNat with
  | none => (stWrong, s)
  | some va =>
    let n := s.node? c.part va
    if n.halted || n.done || s.nodeState c.part va ≠ stAdmitted || !n.retired.isEmpty || !(s.placedOf c.part va).isEmpty || !n.leaving.isEmpty then
      (stWrong, s)
    else
      let is := (List.range n.count).map fun g => (g, s.checkImage c.part va g)
      if is.any fun x => x.2.isNone then (stRefused, s)
      else if is.any fun x => s.spoiled c.part va x.1 then (stPoisoned, s)
      else
        let live := is.filterMap fun x => match x.2 with | some (false, body, _) => some (x.1, body) | _ => none
        let spts := live.map fun x => (x.1, (cSpad.get (sectionOfBody x.2 13)).1.1)
        let s := spts.foldl (fun s x => s.restoreSpt c.part x.2) s
        let given := spts.flatMap fun x =>
          (x.1, x.2, sptBytes) :: ((s.readSpt c.part x.2).filter fun e => sptV e.2 && !sptStash e.2).map fun e => (x.1, sptIapn e.2 % 2 ^ 35 * 4096, 4096)
        (stDone, s.setNode c.part va { n with halted := true, saved := live.map (·.1), restored := live.map (·.1), given := given })
def execRestore (c : Mgmt) (s : State) : Out := done (s.command (c.withOp 0x03) doRestore)

/-- RESUME: halted is cleared, and the scheduler places the groups. -/
def doResume (s : State) (c : Mgmt) : Nat × State :=
  match s.nodeAt c.part c.node.toNat with
  | none => (stWrong, s)
  | some va =>
    let n := s.node? c.part va
    if !n.halted || n.done then (stWrong, s) else (stDone, (s.setNode c.part va { n with halted := false }).due c.part)
def execResume (c : Mgmt) (s : State) : Out := done (s.command (c.withOp 0x04) doResume)

/-! ### The dirty log (R307 to R309, R342) -/

/-- Copy bytes of machine memory: only what memory lists. -/
def Mem.copyRange (m : Mem) (src dst n : Nat) : Mem :=
  let here := fun (a : Nat) => m.bytes.filter fun e => decide (a ≤ e.1) && decide (e.1 < a + n)
  let src0 := here src
  let m := ((here dst).map (·.1)).foldl (fun (m : Mem) a => m.wr a 0) m
  src0.foldl (fun (m : Mem) e => m.wr (dst + (e.1 - src)) e.2) m
/-- The snapshot buffer: LOGPAGES / 8 bytes of bitmap, then a word with OVF. -/
def State.snapshot (s : State) (p dst : Nat) : State :=
  let pt := s.part p
  let n := pt.logPages / 8
  s.onMem fun m => (m.copyRange pt.logBase dst n).wr64 (dst + n) (if pt.ovf then 1 else 0)
/-- LOGARM; the bitmap is not cleared. -/
def doLogarm (s : State) (c : Mgmt) : Nat × State :=
  if c.arg.toNat % 4096 ≠ 0 || c.arg2.toNat % 64 ≠ 0 then (stWrong, s)
  else (stDone, s.setPart c.part { s.part c.part with logBase := c.arg.toNat, logPages := c.arg2.toNat, armed := true, ovf := false })
def execLogarm (c : Mgmt) (s : State) : Out := done (s.command (c.withOp 0x08) doLogarm)
/-- Revocation (R309): the partition's translation-cache entries drop W, and WP is recalled from every holder of its lines. -/
def State.revoke (s : State) (p : Nat) : State :=
  s.onMem fun m => { m with
    tcache := m.tcache.map fun t => if partOfIa (t.iapage * 65536) = p then { t with p1 := t.p1 &&& 5 } else t
    lines := smap {} (fun l (x : Line) =>
      if partOfIa (l * 256) = p then { x with dies := smap {} (fun _ (d : DieLine) => { d with wp := false }) x.dies } else x) m.lines
    l1 := smap {} (fun k (x : L1Line) => if partOfIa (keyLine k * 64) = p then { x with wp := false } else x) m.l1 }
/-- LOGCLEAR: revocation, then the snapshot, which leaves bitmap and OVF zero. -/
def doLogclear (s : State) (c : Mgmt) : Nat × State :=
  let pt := s.part c.part
  if !pt.armed || c.arg.toNat % 8 ≠ 0 then (stWrong, s)
  else
    let s := (s.revoke c.part).snapshot c.part c.arg.toNat
    (stDone, (s.onMem fun m => m.zeroRange pt.logBase (pt.logPages / 8)).setPart c.part { pt with ovf := false })
def execLogclear (c : Mgmt) (s : State) : Out := done (s.command (c.withOp 0x09) doLogclear)
/-- LOGREAD: the snapshot without revocation. -/
def doLogread (s : State) (c : Mgmt) : Nat × State :=
  if !(s.part c.part).armed || c.arg.toNat % 8 ≠ 0 then (stWrong, s) else (stDone, s.snapshot c.part c.arg.toNat)
def execLogread (c : Mgmt) (s : State) : Out := done (s.command (c.withOp 0x0A) doLogread)
/-- LOGDISARM. -/
def doLogdisarm (s : State) (c : Mgmt) : Nat × State := (stDone, s.setPart c.part { s.part c.part with armed := false })
def execLogdisarm (c : Mgmt) (s : State) : Out := done (s.command (c.withOp 0x0B) doLogdisarm)

/-! ### Partitions (R373, R374, R415) -/

/-- The module clusters that ARG and ARG2 name. -/
def maskClusters (a b : BitVec 64) : List Nat :=
  ((List.range 64).filter fun k => a.getLsbD k) ++ ((List.range 64).filter fun k => b.getLsbD k).map (· + 64)
/-- PARTCREATE, with a key of its own; refused when a cluster is owned. The task queues beside the clusters are empty (R263). -/
def doPartcreate (s : State) (c : Mgmt) : Nat × State :=
  let cls := maskClusters c.arg c.arg2
  let owned := s.sys.parts.any fun e => e.2.live && cls.any fun k => e.2.clusters.contains k
  if (s.part c.part).live || cls.isEmpty || owned || c.node.toNat % 0x8000 ≠ 0 then (stWrong, s)
  else (stDone, (s.setPart c.part { live := true, clusters := cls, rootva := c.node.toNat, key := s.sys.keys + 1, weight := 1 }).onSys fun y =>
    { y with keys := y.keys + 1, queues := cls.foldl (fun m k => sset [] m k []) y.queues, overflow := cls.foldl (fun m k => sset [] m k []) y.overflow })
def execPartcreate (c : Mgmt) (s : State) : Out := done (s.command (c.withOp 0x10) doPartcreate)

/-- PARTDESTROY: every VF is reset, the roots go to STATE 4, the key is zeroed, the clusters are free. -/
def doPartdestroy (s : State) (c : Mgmt) : Nat × State :=
  let p := c.part
  let pt := s.part p
  let s := s.resetPart p
  let roots := if pt.rootUp then pt.rootva :: pt.vfs.map fun v => pt.rootva + 0x100 * v else []
  let s := roots.foldl (fun s va => s.setNodeState p va stKilled) s
  let s := pt.vfs.foldl (fun s v => s.setVf v {}) s
  (stDone, (s.onSys fun y => { y with nodes := y.nodes.filter fun e => keyPart e.1 != p }).setPart p {})
def execPartdestroy (c : Mgmt) (s : State) : Out := done (s.command (c.withOp 0x11) doPartdestroy)

/-- A root block (R415): the words that are not zero. -/
def rootBlock (parent next ovr prio bw pages cores domain tag : Nat) : List (BitVec 64) :=
  [BitVec.ofNat 64 (2 * 2 ^ 16 + 1), BitVec.ofNat 64 parent, 0, BitVec.ofNat 64 next, BitVec.ofNat 64 (ovr * 256 + prio)
   , BitVec.ofNat 64 (bw * 2 ^ 40 + pages * 2 ^ 16 + cores), BitVec.ofNat 64 domain, BitVec.ofNat 64 tag] ++ List.replicate 24 0
/-- The partition root is written at ROOTVA; false where the root area is not mapped. -/
def State.writeRoot (s : State) (p : Nat) : Bool × State :=
  let pt := s.part p
  let cores := 8 * pt.clusters.length
  let r := s.ctlPut p pt.rootva (rootBlock 0 0 0xF 255 255 (2 ^ 24 - 1) cores 0 0xFF00)
  let e : Eff := { cores := cores, pages := 2 ^ 24 - 1, bw := 255, prio := 255, domain := 0, tag := 0xFF00 }
  (r.1, (r.2.setNode p pt.rootva { part := p, eff := e, ownBudget := true }).setPart p { r.2.part p with rootUp := true })
/-- S2SET: no table page of the new tree lies in another partition's pages; the first one writes the partition root. -/
def doS2set (s : State) (c : Mgmt) : Nat × State :=
  let others := s.sys.parts.filter fun e => e.2.live && e.1 != c.part
  let bad := (treePages s.mem c.arg false).any fun a => others.any fun e => (treePages s.mem e.2.s2root true).any fun b => meets a b
  if bad then (stWrong, s)
  else
    let t := s.setPart c.part { s.part c.part with s2root := c.arg }
    if (s.part c.part).rootUp then (stDone, t)
    else
      let r := t.writeRoot c.part
      if r.1 then (stDone, r.2.due c.part) else (stWrong, s)
def execS2set (c : Mgmt) (s : State) : Out := done (s.command (c.withOp 0x12) doS2set)

/-- S2INV: lines are kept by IA, so the whole partition is invalidated, which holds the GPA range. -/
def doS2inv (s : State) (c : Mgmt) : Nat × State :=
  if 2 ^ 52 < c.arg.toNat + c.arg2.toNat * 65536 || c.arg.toNat % 65536 ≠ 0 then (stWrong, s)
  else (stDone, if c.arg2 = 0 then s else s.invalidate fun pg => partOfIa (pg * 65536) == c.part)
def execS2inv (c : Mgmt) (s : State) : Out := done (s.command (c.withOp 0x13) doS2inv)

/-- VFBIND: the function root is written and linked at the head of the partition root's child list. -/
def doVfbind (s : State) (c : Mgmt) : Nat × State :=
  let v := c.node.toNat
  let p := c.part
  let pt := s.part p
  if v = 0 || 64 < v || (s.vf v).part.isSome || !pt.rootUp then (stWrong, s)
  else
    let va := pt.rootva + 0x100 * v
    let next := fieldOf (s.nodeWord p pt.rootva 0x10) 0 56
    let r := s.ctlPut p va (rootBlock pt.rootva next 0xC 0 0 0 0 v (0xFF00 + v))
    let up := (s.node? p pt.rootva).eff
    if !r.1 then (stWrong, s)
    else
      let s := r.2.ctlWr p (pt.rootva + 0x10) (BitVec.ofNat 64 va)
      let s := s.setNode p va
        { part := p, parent := pt.rootva, eff := { up with domain := v, tag := BitVec.ofNat 16 (0xFF00 + v) } }
      (stDone, ((s.setVf v { part := some p }).setPart p { s.part p with vfs := pt.vfs ++ [v] }).due p)
def execVfbind (c : Mgmt) (s : State) : Out := done (s.command (c.withOp 0x14) doVfbind)

/-- SETMODE: FUNCMODE for what begins from now on. -/
def doSetmode (s : State) (c : Mgmt) : Nat × State :=
  let s := if c.arg.getLsbD modeTree then s.unwatchAll c.part else s
  (stDone, s.setPart c.part { s.part c.part with funcmode := c.arg })
def execSetmode (c : Mgmt) (s : State) : Out := done (s.command (c.withOp 0x15) doSetmode)
/-- SETPORTS; refused when a port is owned elsewhere, or withdrawn (R364). -/
def doSetports (s : State) (c : Mgmt) : Nat × State :=
  let x := c.arg.extractLsb' 0 18
  let gone := s.sys.withdrawn.any fun u => u.utype == 11 && u.die == ctlDie && x.getLsbD u.uindex
  if gone || s.sys.parts.any fun e => e.2.live && e.1 != c.part && e.2.ports &&& x != 0 then (stWrong, s)
  else (stDone, s.setPart c.part { s.part c.part with ports := x })
def execSetports (c : Mgmt) (s : State) : Out := done (s.command (c.withOp 0x16) doSetports)
/-- SETAUDIT: 16 off, 0 to 15 the exponent. -/
def doSetaudit (s : State) (c : Mgmt) : Nat × State :=
  if 16 < c.arg.toNat then (stWrong, s)
  else (stDone, s.setPart c.part { s.part c.part with audit := if c.arg = 16 then none else some c.arg.toNat })
def execSetaudit (c : Mgmt) (s : State) : Out := done (s.command (c.withOp 0x17) doSetaudit)
/-- SETWEIGHT: 1 to 255. -/
def doSetweight (s : State) (c : Mgmt) : Nat × State :=
  if c.arg = 0 then (stWrong, s) else (stDone, s.setPart c.part { s.part c.part with weight := c.arg.toNat })
def execSetweight (c : Mgmt) (s : State) : Out := done (s.command (c.withOp 0x18) doSetweight)
/-- PEERSET: a peer-table entry (R376), whose target is one of the 20 partitions. -/
def doPeerset (s : State) (c : Mgmt) : Nat × State :=
  let pt := s.part c.part
  if 20 ≤ fieldOf c.arg 56 5 then (stWrong, s)
  else (stDone, s.setPart c.part { pt with peers := sset (0, 0) pt.peers c.node.toNat (c.arg, c.arg2) })
def execPeerset (c : Mgmt) (s : State) : Out := done (s.command (c.withOp 0x19) doPeerset)
/-- S2RINGS: each 64-byte aligned, 0 for none. -/
def doS2rings (s : State) (c : Mgmt) : Nat × State :=
  if c.arg.toNat % 64 ≠ 0 || c.arg2.toNat % 64 ≠ 0 then (stWrong, s)
  else (stDone, s.setPart c.part { s.part c.part with free2 := c.arg.toNat, ret2 := c.arg2.toNat })
def execS2rings (c : Mgmt) (s : State) : Out := done (s.command (c.withOp 0x1A) doS2rings)

/-- FWDFAULT: an outstanding record of the physical function's queue for the partition. -/
def doFwdfault (s : State) (c : Mgmt) : Nat × State :=
  match s.findRec 0 c.arg.toNat with
  | some r => if r.part = c.part then (stDone, s.forward r) else (stWrong, s)
  | none => (stWrong, s)
def execFwdfault (c : Mgmt) (s : State) : Out := done (s.command (c.withOp 0x1B) doFwdfault)
/-- KILLCTX: NODE is the launch node's VA; its waiting accesses are dropped. -/
def doKillctx (s : State) (c : Mgmt) : Nat × State :=
  let va := c.node.toNat
  let n := s.node? c.part va
  if !n.launch || n.done || s.nodeState c.part va ≠ stAdmitted then (stWrong, s) else (stDone, (s.killNode c.part va 4).due c.part)
def execKillctx (c : Mgmt) (s : State) : Out := done (s.command (c.withOp 0x1C) doKillctx)

/-- Units that R364 withdraws, with the dies and indices at which they exist. -/
def unitExists (u : UnitId) : Bool :=
  match u.utype with
  | 1 => decide (u.die < 8) && u.uindex / 128 == u.die
  | 2 => decide (u.die < 8) && decide (u.uindex < 4096)
  | 3 => decide (u.die < 8) && decide (u.uindex < 256)
  | 4 => decide (u.die < 8) && decide (u.uindex < 128)
  | 5 => decide (u.die < 8) && decide (u.uindex < 16)
  | 6 => decide (u.die < 8) && decide (u.uindex < 16)
  | 7 => decide (9 ≤ u.die) && decide (u.die < 25) && u.uindex == 0
  | 9 => (linkEnd u.die u.uindex).isSome
  | 11 => u.die == 8 && decide (u.uindex < 18)
  | 12 => decide (u.die < 8) && decide (u.uindex < 128)
  | 13 => decide (u.die < 8) && decide (u.uindex < 256)
  | _ => false
/-- WITHDRAW: the unit may lie outside the slot's partition. -/
def doWithdraw (s : State) (c : Mgmt) : Nat × State :=
  let u : UnitId := ⟨fieldOf c.arg 56 8, fieldOf c.arg 32 16, fieldOf c.arg 0 32⟩
  if unitExists u then (stDone, s.withdrawUnit u) else (stWrong, s)
def execWithdraw (c : Mgmt) (s : State) : Out := done (s.command (c.withOp 0x1D) doWithdraw)
/-- TOKREBUILD: the partition's lines are rebuilt after the loss of a die in the mode that stood at the loss (R240, R375), and the mirror
writes that waited for that are made. -/
def doTokrebuild (s : State) (c : Mgmt) : Nat × State :=
  let d := c.arg.toNat
  let pt := s.part c.part
  if !pt.tokWait.contains d then (stWrong, s)
  else
    let s := s.setPart c.part { pt with tokWait := pt.tokWait.erase d }
    (stDone, (s.onMem fun m => m.rebuildAll d fun l => partOfIa (l * 256) == c.part).lateMirrors)
def execTokrebuild (c : Mgmt) (s : State) : Out := done (s.command (c.withOp 0x1E) doTokrebuild)

/-! ### Register writes (R360, R369, R370) -/

/-- What an operation does, by its OP. -/
def actOf (op : Nat) : State → Mgmt → Nat × State :=
  match op with
  | 0x01 => doHalt | 0x02 => doSave | 0x03 => doRestore | 0x04 => doResume
  | 0x08 => doLogarm | 0x09 => doLogclear | 0x0A => doLogread | 0x0B => doLogdisarm
  | 0x10 => doPartcreate | 0x11 => doPartdestroy | 0x12 => doS2set | 0x13 => doS2inv | 0x14 => doVfbind
  | 0x15 => doSetmode | 0x16 => doSetports | 0x17 => doSetaudit | 0x18 => doSetweight | 0x19 => doPeerset
  | 0x1A => doS2rings | 0x1B => doFwdfault | 0x1C => doKillctx | 0x1D => doWithdraw | 0x1E => doTokrebuild
  | _ => fun s _ => (stWrong, s)
/-- A word of a command slot: words 1 to 3 are kept, word 0 starts the command. -/
def State.slotWrite (s : State) (k off : Nat) (v : BitVec 64) : State :=
  let x := s.slot k
  if x.status = stBusy then s
  else match off with
    | 0x00 => s.command ⟨k, v, x.node, x.arg, x.arg2⟩ (actOf (v.toNat % 256))
    | 0x08 => s.setSlot k { x with node := v }
    | 0x10 => s.setSlot k { x with arg := v }
    | 0x18 => s.setSlot k { x with arg2 := v }
    | _ => s
/-- QSIZE: 0 or a power of two from 64 to 65,536. -/
def qsizeOk (n : Nat) : Bool := n == 0 || ((List.range 11).any fun k => n == 64 * 2 ^ k)
/-- The registers of a function's fault queue, at their offsets in a VF window. -/
def State.queueWrite (s : State) (f off : Nat) (v : BitVec 64) : State :=
  let w := s.vf f
  match off with
  | 0x1000 => s.setVf f { w with qbase := fieldOf v 12 40 * 4096 }
  | 0x1008 => if qsizeOk (fieldOf v 0 17) then ((s.setVf f { w with qsize := fieldOf v 0 17 }).divert f).pump else s
  | 0x1018 => s.resolve f (v.extractLsb' 0 24)
  | _ => s
/-- W1C bits of an error record: V and OVF of word 0. -/
def State.bankWrite (s : State) (die b : Nat) (v : BitVec 64) : State :=
  let x := s.bank die b
  s.setBank die b { x with v := x.v && !v.getLsbD 63, ovf := x.ovf && !v.getLsbD 60 }
/-- A landing-ring address of the window is that of the partition's stage 1 (R306). -/
def State.ringWrite (s : State) (f : Nat) (ret : Bool) (v : BitVec 64) : State :=
  let w := s.vf f
  let a := v &&& 0xFFFFFFFFFFFFF#64
  let s := s.setVf f (if ret then { w with landRet := a } else { w with landFree := a })
  match w.part with
  | some p => s.setPart p (if ret then { s.part p with ret1 := a.toNat } else { s.part p with free1 := a.toNat })
  | none => s
/-- REGISTER_WRITE: function 0 is the physical function's management window, 1 to 64 a VF's control window; a write at an offset
not listed is dropped. -/
def State.registerWrite (s : State) (f off : Nat) (v : BitVec 64) : State :=
  let w := s.vf f
  if f = 0 then
    if off < 0x500 then s.slotWrite (off / 64) (off % 64) v
    else if s.sys.boot ≠ .up then s
    else if 0x10000 ≤ off && decide (off < 0x10000 + 25 * 0x800) then
      (if off % 64 = 0 then s.bankWrite ((off - 0x10000) / 0x800) (off % 0x800 / 64) v else s)
    else if 0x100000 ≤ off then s.queueWrite 0 (off - 0x100000 + 0x1000) v
    else s
  else if !s.winUp f then s
  else if off = 0x10 then s.ring f
  else if off = 0x100 then s.setVf f { w with iabase := fieldOf v 16 36 * 65536 }
  else if off = 0x108 then s.setVf f { w with iapages := fieldOf v 0 36 }
  else if off = 0x110 then s.invctlWrite f v
  else if off = 0x2000 then s.ringWrite f false v
  else if off = 0x2008 then s.ringWrite f true v
  else if 0x8000 ≤ off && decide (off < 0x8200) && off % 8 == 0 then
    s.msixWrite f ((off - 0x8000) / 8) v
  else s.queueWrite f off v
/-- Word k of an error-record bank (R360). -/
def Bank.word (b : Bank) (k : Nat) : BitVec 64 :=
  match k with
  | 0 => BitVec.ofNat 64 (bitAt b.v 63 + b.rank % 4 * 2 ^ 61 + bitAt b.ovf 60 + b.cls % 16 * 2 ^ 56 + b.code % 256 * 2 ^ 48
    + b.count % 65536 * 2 ^ 32)
  | 1 => BitVec.ofNat 64 b.addr
  | 2 => b.syndrome
  | 3 => BitVec.ofNat 64 (b.aspace % 16 * 2 ^ 60 + b.utype % 65536 * 2 ^ 32 + b.uindex % 2 ^ 32)
  | 4 => BitVec.ofNat 64 (b.rqtag.toNat * 2 ^ 48 + b.part % 32 * 2 ^ 43)
  | 5 => BitVec.ofNat 64 b.time
  | _ => 0
/-- What a read of a fault queue's register returns: RESOLVE is write only (R4, R370). -/
def State.queueRead (s : State) (f off : Nat) : BitVec 64 :=
  let w := s.vf f
  match off with
  | 0x1000 => BitVec.ofNat 64 w.qbase
  | 0x1008 => BitVec.ofNat 64 w.qsize
  | 0x1010 => BitVec.ofNat 64 w.prod
  | _ => 0
/-- What a read of a command slot returns, with STATUS in word 0 (R341). -/
def CmdSlot.read (x : CmdSlot) (off : Nat) : BitVec 64 :=
  match off with
  | 0x00 => setField64 x.w0 24 8 x.status
  | 0x08 => x.node
  | 0x10 => x.arg
  | 0x18 => x.arg2
  | _ => 0
/-- What a read of the physical function's management window or of a VF's control window returns (R4, R360, R369, R370): a register that
is only written, and an offset not listed, read zero; a VF in its reset reads all ones (R377). -/
def State.registerRead (s : State) (f off : Nat) : BitVec 64 :=
  let w := s.vf f
  if f = 0 then
    if off < 0x500 then (s.slot (off / 64)).read (off % 64)
    else if 0x10000 ≤ off && decide (off < 0x10000 + 25 * 0x800) then
      (if off % 8 = 0 then (s.bank ((off - 0x10000) / 0x800) (off % 0x800 / 64)).word (off % 64 / 8) else 0)
    else if 0x100000 ≤ off then s.queueRead 0 (off - 0x100000 + 0x1000)
    else 0
  else if w.down then BitVec.allOnes 64
  else match w.part with
    | none => 0
    | some p =>
      if off = 0x0 then BitVec.ofNat 64 (p * 256 + f)
      else if off = 0x8 then BitVec.ofNat 64 ((s.part p).rootva + 0x100 * f)
      else if off = 0x100 then BitVec.ofNat 64 w.iabase
      else if off = 0x108 then BitVec.ofNat 64 w.iapages
      else if off = 0x110 then BitVec.ofNat 64 w.invctl
      else if off = 0x2000 then w.landFree
      else if off = 0x2008 then w.landRet
      else if 0x8000 ≤ off && decide (off < 0x8200) && off % 8 == 0 then w.msixWord ((off - 0x8000) / 8)
      else if off = 0x8200 then w.pba.zeroExtend 64
      else s.queueRead f off
/-- Where a host read through a BAR of a window lies among the operands of HOST_MEMORY_READ, whose machine addresses end at 2^41: function
f's window from 2^41 + f × 2^24 on. DESIGN CHOICE -/
def windowBase : Nat := 2 ^ 41
/-- HOST_MEMORY_READ: of the memory aperture, or of an 8-byte register of a window. -/
def State.hostReads (s : State) (pa n : Nat) : State :=
  if pa < windowBase then s.hostRead pa n
  else if n = 8 && pa % 8 = 0 then
    s.answerHost false (leBytes 8 (s.registerRead ((pa - windowBase) / 2 ^ 24) ((pa - windowBase) % 2 ^ 24)).toNat)
  else s
def execHostMemoryRead (pa n : Nat) (s : State) : Out := done (s.hostReads pa n)
def execRegisterWrite (vf off : Nat) (value : BitVec 64) (s : State) : Out := done (s.registerWrite vf off value)

end Sys2Proof.Machine
end

