-- ==== Sys2Proof/Machine/Dispatch.lean ====
section
/-! DEFINITION. One arm per instruction and event: each is a direct call of its meaning. -/

namespace Sys2Proof.Machine

/-- The effect of an instruction's issue, or of an event. -/
def exec (i : Instr) (s : State) : Host.Outcome State Fault Refusal :=
  match i with
  | .bundleFetch => Sys2Proof.Machine.execBundleFetch s
  | .bundleIssue => Sys2Proof.Machine.execBundleIssue s
  | .asyncTrapDelivery => Sys2Proof.Machine.execAsyncTrapDelivery s
  | .vResultLanding => Sys2Proof.Machine.execVResultLanding s
  | .sResultLanding k => Sys2Proof.Machine.execSResultLanding k s
  | .muldivComplete k => Sys2Proof.Machine.execMuldivComplete k s
  | .nop => Sys2Proof.Machine.execNop s
  | .add w => Sys2Proof.Machine.execAdd w s
  | .sub w => Sys2Proof.Machine.execSub w s
  | .mul w => Sys2Proof.Machine.execMul w s
  | .mulh w => Sys2Proof.Machine.execMulh w s
  | .mulhn w => Sys2Proof.Machine.execMulhn w s
  | .div w => Sys2Proof.Machine.execDiv w s
  | .divn w => Sys2Proof.Machine.execDivn w s
  | .rem w => Sys2Proof.Machine.execRem w s
  | .remn w => Sys2Proof.Machine.execRemn w s
  | .and w => Sys2Proof.Machine.execAnd w s
  | .or w => Sys2Proof.Machine.execOr w s
  | .xor w => Sys2Proof.Machine.execXor w s
  | .shl w => Sys2Proof.Machine.execShl w s
  | .shr w => Sys2Proof.Machine.execShr w s
  | .sra w => Sys2Proof.Machine.execSra w s
  | .min w => Sys2Proof.Machine.execMin w s
  | .max w => Sys2Proof.Machine.execMax w s
  | .minn w => Sys2Proof.Machine.execMinn w s
  | .maxn w => Sys2Proof.Machine.execMaxn w s
  | .clz w => Sys2Proof.Machine.execClz w s
  | .ctz w => Sys2Proof.Machine.execCtz w s
  | .popc w => Sys2Proof.Machine.execPopc w s
  | .sext w => Sys2Proof.Machine.execSext w s
  | .zext w => Sys2Proof.Machine.execZext w s
  | .sel w => Sys2Proof.Machine.execSel w s
  | .addi w => Sys2Proof.Machine.execAddi w s
  | .andi w => Sys2Proof.Machine.execAndi w s
  | .ori w => Sys2Proof.Machine.execOri w s
  | .xori w => Sys2Proof.Machine.execXori w s
  | .shli w => Sys2Proof.Machine.execShli w s
  | .shri w => Sys2Proof.Machine.execShri w s
  | .srai w => Sys2Proof.Machine.execSrai w s
  | .li w => Sys2Proof.Machine.execLi w s
  | .lih w => Sys2Proof.Machine.execLih w s
  | .cmp w => Sys2Proof.Machine.execCmp w s
  | .cmpi w => Sys2Proof.Machine.execCmpi w s
  | .pand w => Sys2Proof.Machine.execPand w s
  | .por w => Sys2Proof.Machine.execPor w s
  | .pxor w => Sys2Proof.Machine.execPxor w s
  | .pnot w => Sys2Proof.Machine.execPnot w s
  | .pmov w => Sys2Proof.Machine.execPmov w s
  | .aadd w => Sys2Proof.Machine.execAadd w s
  | .amov w => Sys2Proof.Machine.execAmov w s
  | .astep w => Sys2Proof.Machine.execAstep w s
  | .lcset w => Sys2Proof.Machine.execLcset w s
  | .loop w => Sys2Proof.Machine.execLoop w s
  | .prep w => Sys2Proof.Machine.execPrep w s
  | .prepr w => Sys2Proof.Machine.execPrepr w s
  | .go w => Sys2Proof.Machine.execGo w s
  | .gol w => Sys2Proof.Machine.execGol w s
  | .endGroup w => Sys2Proof.Machine.execEndGroup w s
  | .wset w => Sys2Proof.Machine.execWset w s
  | .wrot w => Sys2Proof.Machine.execWrot w s
  | .ld w => Sys2Proof.Machine.execLd w s
  | .st w => Sys2Proof.Machine.execSt w s
  | .ldPf w => Sys2Proof.Machine.execLdPf w s
  | .ldc w => Sys2Proof.Machine.execLdc w s
  | .cinv w => Sys2Proof.Machine.execCinv w s
  | .lds w => Sys2Proof.Machine.execLds w s
  | .sts w => Sys2Proof.Machine.execSts w s
  | .ldsRaw w => Sys2Proof.Machine.execLdsRaw w s
  | .amo w => Sys2Proof.Machine.execAmo w s
  | .amos w => Sys2Proof.Machine.execAmos w s
  | .fence w => Sys2Proof.Machine.execFence w s
  | .fenceE w => Sys2Proof.Machine.execFenceE w s
  | .cflush w => Sys2Proof.Machine.execCflush w s
  | .stflush w => Sys2Proof.Machine.execStflush w s
  | .spmap w => Sys2Proof.Machine.execSpmap w s
  | .spunmap w => Sys2Proof.Machine.execSpunmap w s
  | .sppin w => Sys2Proof.Machine.execSppin w s
  | .spunpin w => Sys2Proof.Machine.execSpunpin w s
  | .spevict w => Sys2Proof.Machine.execSpevict w s
  | .spfetch w => Sys2Proof.Machine.execSpfetch w s
  | .span w => Sys2Proof.Machine.execSpan w s
  | .curveld w => Sys2Proof.Machine.execCurveld w s
  | .bmapld w => Sys2Proof.Machine.execBmapld w s
  | .fwait w => Sys2Proof.Machine.execFwait w s
  | .fwaitMemory w => Sys2Proof.Machine.execFwaitMemory w s
  | .fstat w => Sys2Proof.Machine.execFstat w s
  | .fpub w => Sys2Proof.Machine.execFpub w s
  | .freset w => Sys2Proof.Machine.execFreset w s
  | .barinit w => Sys2Proof.Machine.execBarinit w s
  | .baradd w => Sys2Proof.Machine.execBaradd w s
  | .barwait w => Sys2Proof.Machine.execBarwait w s
  | .qpost w => Sys2Proof.Machine.execQpost w s
  | .qtake w => Sys2Proof.Machine.execQtake w s
  | .spawn w => Sys2Proof.Machine.execSpawn w s
  | .signal w => Sys2Proof.Machine.execSignal w s
  | .evwait w => Sys2Proof.Machine.execEvwait w s
  | .yield w => Sys2Proof.Machine.execYield w s
  | .mwait w => Sys2Proof.Machine.execMwait w s
  | .cwait w => Sys2Proof.Machine.execCwait w s
  | .rdcnt w => Sys2Proof.Machine.execRdcnt w s
  | .trap w => Sys2Proof.Machine.execTrap w s
  | .rte w => Sys2Proof.Machine.execRte w s
  | .rdcause w => Sys2Proof.Machine.execRdcause w s
  | .rdctl w => Sys2Proof.Machine.execRdctl w s
  | .wrctl w => Sys2Proof.Machine.execWrctl w s
  | .amaxrd w => Sys2Proof.Machine.execAmaxrd w s
  | .amaxrdFront w => Sys2Proof.Machine.execAmaxrdFront w s
  | .vnop v => Sys2Proof.Machine.execVnop v s
  | .vadd w => Sys2Proof.Machine.execVadd w s
  | .vsub w => Sys2Proof.Machine.execVsub w s
  | .vmul w => Sys2Proof.Machine.execVmul w s
  | .vfma w => Sys2Proof.Machine.execVfma w s
  | .vfms w => Sys2Proof.Machine.execVfms w s
  | .vfnma w => Sys2Proof.Machine.execVfnma w s
  | .vabs w => Sys2Proof.Machine.execVabs w s
  | .vneg w => Sys2Proof.Machine.execVneg w s
  | .vmin w => Sys2Proof.Machine.execVmin w s
  | .vmax w => Sys2Proof.Machine.execVmax w s
  | .vdiv w => Sys2Proof.Machine.execVdiv w s
  | .vsqrt w => Sys2Proof.Machine.execVsqrt w s
  | .vrcp w => Sys2Proof.Machine.execVrcp w s
  | .vrsq w => Sys2Proof.Machine.execVrsq w s
  | .vcurve w => Sys2Proof.Machine.execVcurve w s
  | .vadds w => Sys2Proof.Machine.execVadds w s
  | .vsubs w => Sys2Proof.Machine.execVsubs w s
  | .vmulh w => Sys2Proof.Machine.execVmulh w s
  | .vand w => Sys2Proof.Machine.execVand w s
  | .vor w => Sys2Proof.Machine.execVor w s
  | .vxor w => Sys2Proof.Machine.execVxor w s
  | .vnot w => Sys2Proof.Machine.execVnot w s
  | .vshl w => Sys2Proof.Machine.execVshl w s
  | .vshr w => Sys2Proof.Machine.execVshr w s
  | .vsra w => Sys2Proof.Machine.execVsra w s
  | .vcmp w => Sys2Proof.Machine.execVcmp w s
  | .vsel w => Sys2Proof.Machine.execVsel w s
  | .vcvt w => Sys2Proof.Machine.execVcvt w s
  | .vpack w => Sys2Proof.Machine.execVpack w s
  | .vunpk w => Sys2Proof.Machine.execVunpk w s
  | .vrsum w => Sys2Proof.Machine.execVrsum w s
  | .vrmax w => Sys2Proof.Machine.execVrmax w s
  | .vrmin w => Sys2Proof.Machine.execVrmin w s
  | .vramax w => Sys2Proof.Machine.execVramax w s
  | .vbcast w => Sys2Proof.Machine.execVbcast w s
  | .vdup w => Sys2Proof.Machine.execVdup w s
  | .viota w => Sys2Proof.Machine.execViota w s
  | .vshuf w => Sys2Proof.Machine.execVshuf w s
  | .vlrot w => Sys2Proof.Machine.execVlrot w s
  | .vxmov w => Sys2Proof.Machine.execVxmov w s
  | .vext w => Sys2Proof.Machine.execVext w s
  | .vld w => Sys2Proof.Machine.execVld w s
  | .vst w => Sys2Proof.Machine.execVst w s
  | .vldr w => Sys2Proof.Machine.execVldr w s
  | .vgath w => Sys2Proof.Machine.execVgath w s
  | .vscat w => Sys2Proof.Machine.execVscat w s
  | .vacc w => Sys2Proof.Machine.execVacc w s
  | .mma w => Sys2Proof.Machine.execMma w s
  | .mmar w => Sys2Proof.Machine.execMmar w s
  | .mmad w => Sys2Proof.Machine.execMmad w s
  | .mclr w => Sys2Proof.Machine.execMclr w s
  | .mdrain w => Sys2Proof.Machine.execMdrain w s
  | .msetRbound w => Sys2Proof.Machine.execMsetRbound w s
  | .msetTap w => Sys2Proof.Machine.execMsetTap w s
  | .msetNotap w => Sys2Proof.Machine.execMsetNotap w s
  | .cpy w => Sys2Proof.Machine.execCpy w s
  | .cgath w => Sys2Proof.Machine.execCgath w s
  | .cscat w => Sys2Proof.Machine.execCscat w s
  | .cred w => Sys2Proof.Machine.execCred w s
  | .cfill w => Sys2Proof.Machine.execCfill w s
  | .mcast w => Sys2Proof.Machine.execMcast w s
  | .crem w => Sys2Proof.Machine.execCrem w s
  | .cstop w => Sys2Proof.Machine.execCstop w s
  | .commandStart e => Sys2Proof.Machine.execCommandStart e s
  | .copyBeat e => Sys2Proof.Machine.execCopyBeat e s
  | .matrixBeat => Sys2Proof.Machine.execMatrixBeat s
  | .drainBeat => Sys2Proof.Machine.execDrainBeat s
  | .tapBeat => Sys2Proof.Machine.execTapBeat s
  | .matrixCommandComplete => Sys2Proof.Machine.execMatrixCommandComplete s
  | .frontResume f => Sys2Proof.Machine.execFrontResume f s
  | .mcastDelivery d => Sys2Proof.Machine.execMcastDelivery d s
  | .mcastAck e core => Sys2Proof.Machine.execMcastAck e core s
  | .cremAck e => Sys2Proof.Machine.execCremAck e s
  | .cremIncoming m => Sys2Proof.Machine.execCremIncoming m s
  | .chaseTimerExpiry w => Sys2Proof.Machine.execChaseTimerExpiry w s
  | .pageIn sva => Sys2Proof.Machine.execPageIn sva s
  | .stashLineFill sva write => Sys2Proof.Machine.execStashLineFill sva write s
  | .pinRetryTimeout line => Sys2Proof.Machine.execPinRetryTimeout line s
  | .transientReadRequest h line die => Sys2Proof.Machine.execTransientReadRequest h line die s
  | .transientWriteRequest h line die => Sys2Proof.Machine.execTransientWriteRequest h line die s
  | .transientReduceRequest h line die => Sys2Proof.Machine.execTransientReduceRequest h line die s
  | .tokenResponse k => Sys2Proof.Machine.execTokenResponse k s
  | .upgradeRequest die line => Sys2Proof.Machine.execUpgradeRequest die line s
  | .clusterInvalidation die cluster line drop => Sys2Proof.Machine.execClusterInvalidation die cluster line drop s
  | .clusterAck die cluster line => Sys2Proof.Machine.execClusterAck die cluster line s
  | .ttoExpiry die line => Sys2Proof.Machine.execTtoExpiry die line s
  | .hawserRequest die line => Sys2Proof.Machine.execHawserRequest die line s
  | .hawserActivation h line => Sys2Proof.Machine.execHawserActivation h line s
  | .hawserDeactivation line => Sys2Proof.Machine.execHawserDeactivation line s
  | .eviction die line => Sys2Proof.Machine.execEviction die line s
  | .cleaningWriteBack die line => Sys2Proof.Machine.execCleaningWriteBack die line s
  | .writeBackAck die line => Sys2Proof.Machine.execWriteBackAck die line s
  | .landing ia => Sys2Proof.Machine.execLanding ia s
  | .flitCrcFailure link => Sys2Proof.Machine.execFlitCrcFailure link s
  | .replayLimit link => Sys2Proof.Machine.execReplayLimit link s
  | .ondieFlitError die line data suspect => Sys2Proof.Machine.execOndieFlitError die line data suspect s
  | .linkDoze link => Sys2Proof.Machine.execLinkDoze link s
  | .linkSleep link => Sys2Proof.Machine.execLinkSleep link s
  | .linkWake link => Sys2Proof.Machine.execLinkWake link s
  | .linkWakeTimeout link => Sys2Proof.Machine.execLinkWakeTimeout link s
  | .dieLost die => Sys2Proof.Machine.execDieLost die s
  | .schedulingRound part => Sys2Proof.Machine.execSchedulingRound part s
  | .gangReservation part node => Sys2Proof.Machine.execGangReservation part node s
  | .preemptionComplete node gang => Sys2Proof.Machine.execPreemptionComplete node gang s
  | .parkTimeout node gang => Sys2Proof.Machine.execParkTimeout node gang s
  | .regrouping die cluster => Sys2Proof.Machine.execRegrouping die cluster s
  | .watchdogSample node => Sys2Proof.Machine.execWatchdogSample node s
  | .watchdogLim1 node => Sys2Proof.Machine.execWatchdogLim1 node s
  | .watchdogLim2 node => Sys2Proof.Machine.execWatchdogLim2 node s
  | .groupRetirement core => Sys2Proof.Machine.execGroupRetirement core s
  | .auditCompare node gang core sigs => Sys2Proof.Machine.execAuditCompare node gang core sigs s
  | .auditTimeout node gang => Sys2Proof.Machine.execAuditTimeout node gang s
  | .scrubPass place find => Sys2Proof.Machine.execScrubPass place find s
  | .heatSweep part => Sys2Proof.Machine.execHeatSweep part s
  | .hostMemoryWrite pa bytes => Sys2Proof.Machine.execHostMemoryWrite pa bytes s
  | .hostMemoryRead pa n => Sys2Proof.Machine.execHostMemoryRead pa n s
  | .hostAtomic pa op wide x y => Sys2Proof.Machine.execHostAtomic pa op wide x y s
  | .doorbell vf => Sys2Proof.Machine.execDoorbell vf s
  | .invctl vf value => Sys2Proof.Machine.execInvctl vf value s
  | .resolve queue seq => Sys2Proof.Machine.execResolve queue seq s
  | .registerWrite vf off value => Sys2Proof.Machine.execRegisterWrite vf off value s
  | .halt c => Sys2Proof.Machine.execHalt c s
  | .save c => Sys2Proof.Machine.execSave c s
  | .saveTimeout slot => Sys2Proof.Machine.execSaveTimeout slot s
  | .restore c => Sys2Proof.Machine.execRestore c s
  | .resume c => Sys2Proof.Machine.execResume c s
  | .logarm c => Sys2Proof.Machine.execLogarm c s
  | .logclear c => Sys2Proof.Machine.execLogclear c s
  | .logread c => Sys2Proof.Machine.execLogread c s
  | .logdisarm c => Sys2Proof.Machine.execLogdisarm c s
  | .partcreate c => Sys2Proof.Machine.execPartcreate c s
  | .partdestroy c => Sys2Proof.Machine.execPartdestroy c s
  | .s2set c => Sys2Proof.Machine.execS2set c s
  | .s2inv c => Sys2Proof.Machine.execS2inv c s
  | .vfbind c => Sys2Proof.Machine.execVfbind c s
  | .setmode c => Sys2Proof.Machine.execSetmode c s
  | .setports c => Sys2Proof.Machine.execSetports c s
  | .setaudit c => Sys2Proof.Machine.execSetaudit c s
  | .setweight c => Sys2Proof.Machine.execSetweight c s
  | .peerset c => Sys2Proof.Machine.execPeerset c s
  | .s2rings c => Sys2Proof.Machine.execS2rings c s
  | .fwdfault c => Sys2Proof.Machine.execFwdfault c s
  | .killctx c => Sys2Proof.Machine.execKillctx c s
  | .withdraw c => Sys2Proof.Machine.execWithdraw c s
  | .tokrebuild c => Sys2Proof.Machine.execTokrebuild c s
  | .functionLevelReset vf => Sys2Proof.Machine.execFunctionLevelReset vf s
  | .boot b => Sys2Proof.Machine.execBoot b s
  | .spdmRequest r => Sys2Proof.Machine.execSpdmRequest r s
  | .kretanAcknowledgementTimeout e => Sys2Proof.Machine.execKretanAcknowledgementTimeout e s

end Sys2Proof.Machine
end

