-- ==== Sys2Proof/Machine/Enabled.lean ====
section
/-! DEFINITION. Which events of the machine's own agents may come next, how one is chosen, and how a program is placed by hand
(R10, R13). An event listed here may turn out to change nothing: then a clock cycle has passed. -/

namespace Sys2Proof.Machine

/-- Results that may land. -/
def State.landings (s : State) : List Instr :=
  ((s.core.pend.zipIdx.filter fun p => p.1.waits.isNone).map fun p => .sResultLanding p.2)
    ++ (if s.core.muldiv.isEmpty then [] else [.muldivComplete 0])
/-- What serves a command that is suspended: the pager in the order of arrival (R176), a line of a stash page with the permission that it needs
(R177), a landing. -/
def State.services (s : State) (x : Susp) : List Instr :=
  if x.stay then []
  else if x.cause ≤ 1 then
    (if (s.part s.core.partNo).mode modePaging || (x.pw.any fun w => !s.pageTurn w) then [] else [.pageIn x.addr])
      ++ [.stashLineFill x.addr x.write]
  else if x.cause = 2 && x.waits.isNone then [.landing x.addr]
  else []
/-- What an engine's head command may do. -/
def State.engineEvents (s : State) (g : Engine) : List Instr :=
  match s.eng.head g with
  | none => []
  | some c =>
    let beat : List Instr := match g with
      | .matrix => [.matrixBeat, .tapBeat, .drainBeat, .matrixCommandComplete]
      | .copy0 => [.copyBeat 0]
      | .copy1 => [.copyBeat 1]
    let e : BitVec 1 := if g = .copy1 then 1 else 0
    (if c.susp.isSome || !c.started then [.commandStart g] else beat)
      ++ (match c.susp with | some x => s.services x | none => [])
      ++ (if c.waitOn.isSome && decide (s.core.chaselim.toNat ≤ c.timer) then [.chaseTimerExpiry (.engine g)] else [])
      ++ (if g = .matrix then [] else (c.recv.filter fun r => !c.acked.contains r).map fun r => .mcastAck e r)
/-- Elements that left on the Kretan port and are not acknowledged (R257, R259). -/
def State.peerAcks (s : State) : List Instr :=
  (if s.eng.sent.any fun x => x.1 != engProd .copy1 then [.cremAck 0] else [])
    ++ (if s.eng.sent.any fun x => x.1 == engProd .copy1 then [.cremAck 1] else [])
/-- Deliveries on their way. -/
def State.flights (s : State) : List Instr := (List.range s.eng.flight.length).map fun i => .mcastDelivery (.own i)
/-- Cores whose group may retire. -/
def State.retirable (s : State) : List Nat := s.liveCores.filter fun k => (s.atWith k false fun t => (t.canRetire, t)).1
/-- What the control die may do. A round of a partition may come at any time (R273). -/
def State.controlEvents (s : State) : List Instr :=
  ((s.sys.parts.filter fun e => e.2.live && e.2.rootUp).map fun e => .schedulingRound e.1)
    ++ (s.sys.nodes.map fun e => e.2.leaving.map fun x => Instr.preemptionComplete e.1 x.1).flatten
    ++ (s.sys.slots.filter fun e => e.2.status == stBusy).map (fun e =>
      if e.2.w0.toNat % 256 = 0x02 then Instr.save (e.2.block e.1) else Instr.halt (e.2.block e.1))
    ++ (s.retirable.map fun k => .groupRetirement k)
    ++ ((List.range (s.mem.msgs.length + s.mem.resent.length)).map fun i => .tokenResponse i)
    ++ (s.mem.lines.map fun e => (e.2.dies.filter fun d => d.2.trans == .rc && !s.pinned d.1 e.1).map
      fun d => Instr.clusterAck d.1 (d.2.awaits.headD 16) e.1).flatten
    ++ s.mem.retry.map fun l => .pinRetryTimeout l
/-- All of them. -/
def State.enabled (s : State) : List Instr :=
  s.landings ++ s.engineEvents .matrix ++ s.engineEvents .copy0 ++ s.engineEvents .copy1 ++ s.peerAcks ++ s.flights ++ s.controlEvents

/-- Choose among n > 0 things: no draw when there is one. -/
def State.choose (s : State) (n : Nat) : Nat × State := if n ≤ 1 then (0, s) else (Config.pick s.free % n, s.draw)

/-- A clock cycle in which nothing else happens: CYCLE counts while the group holds a core (R151). -/
def State.idleTick (s : State) : State :=
  let s := s.tickEngines
  if s.core.run == .running || s.core.run == .ended then s.onCore fun c => { c with cycle := c.cycle + 1 } else s

/-! ### Placing a program by hand -/

def homeRoot : Nat := 0x2000000000
/-- A valid stage-2 pointer or 512 MiB leaf with R, W and C (R296, R297). -/
def mapPtr (pa : Nat) : BitVec 64 := BitVec.ofNat 64 (pa + 1)
def mapLeaf (pa : Nat) : BitVec 64 := BitVec.ofNat 64 (pa + 0x1F)
/-- Words at machine addresses, in the canonical form. -/
def putWords (m : Sparse (BitVec 8)) (ws : List (Nat × BitVec 64)) : Sparse (BitVec 8) :=
  ws.foldl (fun m w => ssetN 0 m w.1 (leBytes 8 w.2.toNat)) m
/-- Where a hand-placed program is fetched from: partition 0 with one 512 MiB leaf over the text. -/
def State.placeProgram (s : State) (bytes : List (BitVec 8)) : State :=
  let va := s.core.textva + s.core.pc.toNat
  let base := va / 2 ^ 29 * 2 ^ 29
  let tables := [(homeRoot + 8 * (va / 2 ^ 42 % 1024), mapPtr (homeRoot + 0x10000)),
    (homeRoot + 0x10000 + 8 * (va / 2 ^ 29 % 8192), mapLeaf base)]
  { s with
    agenda := [], others := []
    core := { s.core with
      run := .running, cur := none, made := 0, owed := 0, waitBar := none, barMet := false, pw := none, sigq := [], xfer := none, loop := none, held := [], vfly := []
      pend := [], muldiv := [], paged := none, parked := [], sptva := 0
      gang := if s.core.gang = 0 then 1 else s.core.gang
      part := 0, s1root := 0, rg := [(0, { valid := true, base := 0, limit := 2 ^ 47 - 1, r := true, w := true, c := true })] }
    eng := { s.eng with mq := [], c0q := [], c1q := [], flight := [], sent := [], told := [] }
    mem := { s.mem with
      l1 := [], cc := [], ccBad := [], ic := [], lines := [], msgs := [], resent := [], tcache := [], poison := [], lost := [], blocked := false, stood := false
      retry := []
      bytes := ssetN 0 (putWords s.mem.bytes tables) va bytes }
    sys := { s.sys with
      nodes := smap {} (fun _ (n : NodeRt) => { n with leaving := [] }) s.sys.nodes
      parts := sset {} (smap {} (fun _ (p : Part) => { p with rootUp := false }) s.sys.parts) 0 { (s.part 0) with live := true, rootUp := false, clusters := [0], s2root := BitVec.ofNat 64 (homeRoot + 1) } } }

end Sys2Proof.Machine
end

