-- ==== Sys2Proof/Machine/Step.lean ====
section
/-! DEFINITION. One step of the machine, and how the host places an instruction where the next step fetches. -/

namespace Sys2Proof.Machine

/-- A step that met a line whose tokens wait to be rebuilt (R240), or one that another party's core holds pinned (R222), does not take
place: a clock cycle passes, the party stands in a retry, and the pins of a core that stands so end before it retries. -/
def State.retried (s t : State) (core : Bool) : State :=
  let s := s.onMem fun m => { m with retry := t.mem.retry }
  (if core && t.mem.stood then s.onCore fun c => { c with pins := [] } else s).idleTick
/-- What a step leaves. -/
def State.settleStep (s t : State) (core : Bool) : State := if t.mem.blocked then s.retried t core else t.observe
/-- The same of an outcome. -/
def unlessBlocked (s : State) (core : Bool) (o : Host.Outcome State Fault Refusal) : Host.Outcome State Fault Refusal :=
  match o with
  | .next t => .next (s.settleStep t core)
  | o => o
/-- One event of the machine's own agents; with none enabled, a clock cycle. -/
def eventStep (s : State) (es : List Instr) : Host.Outcome State Fault Refusal :=
  match es with
  | [] => .next s.idleTick
  | _ =>
    let r := s.choose es.length
    unlessBlocked r.2 false (exec (es.getD r.1 .bundleFetch) r.2.tickEngines)

/-- A bundle boundary of the running core; a stalled core lets one event of the other agents pass. -/
def coreStep (s : State) : Host.Outcome State Fault Refusal :=
  match s.boundary with
  | .ok t => unlessBlocked s true (.next t.tickEngines)
  | .error h =>
    match h with
    | .trap _ _ _ _ _ => unlessBlocked s true (.next h.after)
    | .stall _ why t =>
      let t := s.stalled why t
      if t.mem.blocked then .next (s.retried t true) else eventStep t t.enabled

/-- A step of the core that acts: its bundle boundary or an event of another agent, in an order that is left open. -/
def actStep (s : State) : Host.Outcome State Fault Refusal :=
  let es := s.enabled
  if s.core.run == .running then
    let r := s.choose (es.length + 1)
    if r.1 = 0 then coreStep r.2 else unlessBlocked r.2 false (exec (es.getD (r.1 - 1) .bundleFetch) r.2.tickEngines)
  else eventStep s es

/-- Places of the other groups that hold a core. -/
def State.otherPlaces (s : State) : List Nat := (s.others.zipIdx.filter fun x => x.1.ctx.live).map (·.2)
/-- The core that acts, or another one that then acts, takes its step: which one is left open. -/
def anyStep (s : State) : Host.Outcome State Fault Refusal :=
  let ks := s.otherPlaces
  let r := s.choose (ks.length + 1)
  if r.1 = 0 then actStep r.2 else actStep (r.2.focus (ks.getD (r.1 - 1) 0))
/-- A step: the next event of the agenda, or one of the machine's own. An event that stands in a retry stays first in the agenda while the
cores go on. -/
def step (s : State) : Host.Outcome State Fault Refusal :=
  match s.agenda with
  | i :: r => match exec i { s with agenda := r } with
    | .next t => if t.mem.blocked then anyStep (s.onMem fun m => { m with retry := t.mem.retry }) else .next t.observe
    | o => o
  | [] => anyStep s

/-- `s` with an instruction, given by its bits, as the bundle that the next step fetches: it stands alone in its slot. -/
def State.withFetchWord (s : State) (nbits w : Nat) : State :=
  match tableWords nbits w with
  | some x => s.placeProgram (bundleBytes (oneSlotBundle x.1))
  | none => s.placeProgram (leBytes ((nbits + 7) / 8) w)

end Sys2Proof.Machine
end

