-- ==== Sys2Proof/Safety.lean ====
section
/-! DEFINITION. What counts as a safe run: every step answers a next state, and machine memory and the window bases keep their
forms. -/

namespace Sys2Proof.Safety

open Sys2Proof.Machine

/-- The step goes on: it neither faults nor is refused. -/
def Goes (o : Out) : Prop := ∃ t, o = .next t

/-- Machine memory is in its canonical form. -/
def MemoryOk (s : State) : Prop := Memory.wf s.mem.bytes = true

/-- Both window bases name a physical vector register (R89, R94). -/
def WindowsOk (s : State) : Prop := s.core.vwa < 768 ∧ s.core.vwb < 768

/-- A run of `n` steps goes on all the way. -/
def Runs : Nat → State → Prop
  | 0, _ => True
  | n + 1, s => ∃ t, step s = .next t ∧ Runs n t

/-! ### When a slot issues -/

/-- An S instruction issues (R31, R73, R195): its guard reads true, no register that it reads or writes is pending, and none that it
reads carries a deferred-access record (R196). -/
def Ready (s : State) (p : BitVec 4) (reads writes : List Nat) : Prop :=
  s.core.rdP p.toNat = true
    ∧ (∀ n ∈ reads ++ writes, n ≠ 0 → s.core.pending (s.core.sIdx n) = false)
    ∧ ∀ n ∈ reads, n ≠ 0 → sget none s.core.defrec (s.core.sIdx n) = none

/-- An integer brought into a range. -/
def clamp (lo hi v : Int) : Int := max lo (min hi v)

end Sys2Proof.Safety
end

