-- ==== Sys2Proof/Certificates/Slice0/Obligations.lean ====
section
/-! DEFINITION. The statements of this package: what the spec says the instructions and the machine do. -/

namespace Sys2Proof.Claim

open Sys2Proof Sys2Proof.Machine Sys2Proof.Safety

/-! ### Words of the statements -/

/-- The value of a scalar register at the issue. -/
abbrev S (s : State) (n : BitVec 6) : BitVec 64 := s.core.rdS n.toNat
/-- The state after a scalar register was written. -/
abbrev put (s : State) (n : BitVec 6) (v : BitVec 64) : State := s.onCore fun c => c.wrS n.toNat v
/-- Ready, by the fields of the word. -/
abbrev RdyS (s : State) (p : BitVec 4) (reads writes : List (BitVec 6)) : Prop :=
  Ready s p (reads.map BitVec.toNat) (writes.map BitVec.toNat)

/-- An S word, with its extension word, that the decoder refuses: at its issue it raises 0x02 (R30). -/
def Refused (w : BitVec 32) (e : Option (BitVec 32)) : Prop := ∃ x, decodeWords (.word .s w e) = .error x
/-- Its opcode, and the field [lo + n - 1 : lo] of it. -/
abbrev opcode (w : BitVec 32) : Nat := w.toNat / 2 ^ 25
abbrev bits (w : BitVec 32) (lo n : Nat) : Nat := w.toNat / 2 ^ lo % 2 ^ n

/-! ### Rows: a constructor with the value that the spec's table gives it -/

/-- Two-operand results by FN (R76, R77). -/
def binary : List ((RForm → Instr) × (BitVec 2 → BitVec 64 → BitVec 64 → BitVec 64)) :=
  [(Instr.add, fun f x y =>
      if f = 0 then x + y
      else if f = 1 then BitVec.ofInt 64 (clamp (-2 ^ 63) (2 ^ 63 - 1) (x.toInt + y.toInt))
      else BitVec.ofInt 64 (clamp 0 (2 ^ 64 - 1) ((x.toNat : Int) + y.toNat))),
   (Instr.sub, fun f x y =>
      if f = 0 then x - y
      else if f = 1 then BitVec.ofInt 64 (clamp (-2 ^ 63) (2 ^ 63 - 1) (x.toInt - y.toInt))
      else BitVec.ofInt 64 (clamp 0 (2 ^ 64 - 1) ((x.toNat : Int) - y.toNat))),
   (Instr.and, fun _ x y => x &&& y),
   (Instr.or, fun _ x y => x ||| y),
   (Instr.xor, fun _ x y => x ^^^ y),
   (Instr.shl, fun _ x y => x <<< (y.toNat % 64)),
   (Instr.shr, fun _ x y => x >>> (y.toNat % 64)),
   (Instr.sra, fun _ x y => x.sshiftRight (y.toNat % 64)),
   (Instr.min, fun _ x y => if x.toInt ≤ y.toInt then x else y),
   (Instr.max, fun _ x y => if y.toInt ≤ x.toInt then x else y),
   (Instr.minn, fun _ x y => if x.toNat ≤ y.toNat then x else y),
   (Instr.maxn, fun _ x y => if y.toNat ≤ x.toNat then x else y)]

/-- One-operand results (R76). -/
def unary : List ((RForm → Instr) × (BitVec 2 → BitVec 64 → BitVec 64)) :=
  [(Instr.clz, fun _ x => BitVec.ofNat 64 ((List.range 64).takeWhile fun k => !x.getLsbD (63 - k)).length),
   (Instr.ctz, fun _ x => BitVec.ofNat 64 ((List.range 64).takeWhile fun k => !x.getLsbD k).length),
   (Instr.popc, fun _ x => BitVec.ofNat 64 ((List.range 64).filter fun k => x.getLsbD k).length),
   (Instr.sext, fun f x => (x.setWidth (8 * 2 ^ f.toNat)).signExtend 64),
   (Instr.zext, fun f x => (x.setWidth (8 * 2 ^ f.toNat)).zeroExtend 64)]

/-- Results with an immediate (R78). -/
def immediate : List ((IForm → Instr) × (BitVec 64 → Int → BitVec 64)) :=
  [(Instr.addi, fun x i => x + BitVec.ofInt 64 i),
   (Instr.andi, fun x i => x &&& BitVec.ofInt 64 i),
   (Instr.ori, fun x i => x ||| BitVec.ofInt 64 i),
   (Instr.xori, fun x i => x ^^^ BitVec.ofInt 64 i),
   (Instr.shli, fun x i => x <<< i.toNat),
   (Instr.shri, fun x i => x >>> i.toNat),
   (Instr.srai, fun x i => x.sshiftRight i.toNat),
   (Instr.lih, fun x i => (BitVec.ofInt 64 i <<< 32) ||| (x &&& 0xFFFFFFFF#64))]

/-- Products and quotients (R76, R77): the constructor, whether it is a divide, the result. -/
def muldiv : List ((RForm → Instr) × Bool × (BitVec 2 → BitVec 64 → BitVec 64 → BitVec 64)) :=
  [(Instr.mul, false, fun f x y =>
      if f = 0 then x * y
      else if f = 1 then BitVec.ofInt 64 (clamp (-2 ^ 63) (2 ^ 63 - 1) (x.toInt * y.toInt))
      else BitVec.ofInt 64 (clamp 0 (2 ^ 64 - 1) ((x.toNat : Int) * y.toNat))),
   (Instr.mulh, false, fun _ x y => BitVec.ofInt 64 (x.toInt * y.toInt / 2 ^ 64)),
   (Instr.mulhn, false, fun _ x y => BitVec.ofNat 64 (x.toNat * y.toNat / 2 ^ 64)),
   (Instr.div, true, fun _ x y =>
      if y = 0 then BitVec.allOnes 64
      else if x.toInt = -2 ^ 63 ∧ y.toInt = -1 then BitVec.ofInt 64 (-2 ^ 63) else BitVec.ofInt 64 (x.toInt.tdiv y.toInt)),
   (Instr.divn, true, fun _ x y => if y = 0 then BitVec.allOnes 64 else BitVec.ofNat 64 (x.toNat / y.toNat)),
   (Instr.rem, true, fun _ x y =>
      if y = 0 then x
      else if x.toInt = -2 ^ 63 ∧ y.toInt = -1 then 0
      else BitVec.ofInt 64 (x.toInt - y.toInt * x.toInt.tdiv y.toInt)),
   (Instr.remn, true, fun _ x y => if y = 0 then x else BitVec.ofNat 64 (x.toNat - y.toNat * (x.toNat / y.toNat)))]

/-- CMP's conditions (R79). -/
def condition (c : BitVec 4) (x y : BitVec 64) : Prop :=
  match c.toNat with
  | 0 => x = y
  | 1 => x ≠ y
  | 2 => x.toInt < y.toInt
  | 3 => y.toInt ≤ x.toInt
  | 4 => x.toNat < y.toNat
  | 5 => y.toNat ≤ x.toNat
  | 6 => x.toInt ≤ y.toInt
  | 7 => y.toInt < x.toInt
  | 8 => x.toNat ≤ y.toNat
  | 9 => y.toNat < x.toNat
  | 10 => x &&& y ≠ 0
  | _ => x &&& y = 0

/-- Predicate operations of two sources (R80). -/
def predicate : List ((PLogForm → Instr) × (Bool → Bool → Bool)) :=
  [(Instr.pand, fun u v => u && v), (Instr.por, fun u v => u || v), (Instr.pxor, fun u v => xor u v),
   (Instr.pnot, fun u _ => !u), (Instr.pmov, fun u _ => u)]

end Sys2Proof.Claim

section

open Sys2Proof Sys2Proof.Machine Sys2Proof.Safety Sys2Proof.Claim

/-! ### Scalar arithmetic -/

/-- Two-operand arithmetic, logic, shifts, minima and maxima of the S slot: the result goes to SD and nothing else changes. -/
def Obligations.BinaryArithmetic : Prop :=
  ∀ e ∈ binary, ∀ (w : RForm) (s : State), (e.1 w).wf = true → RdyS s w.p [w.a, w.b] [w.d] →
    exec (e.1 w) s = .next (put s w.d (e.2 w.f (S s w.a) (S s w.b)))

/-- Bit counts and extensions of the S slot. -/
def Obligations.UnaryArithmetic : Prop :=
  ∀ e ∈ unary, ∀ (w : RForm) (s : State), (e.1 w).wf = true → RdyS s w.p [w.a] [w.d] →
    exec (e.1 w) s = .next (put s w.d (e.2 w.f (S s w.a)))

/-- The immediate forms: imm is IMM8 sign-extended, or the extension word sign-extended. A shift by more than 63, an LI with SA,
and an extension word beside a nonzero IMM8 are refused; LI and LIH together build every constant. -/
def Obligations.ImmediateArithmetic : Prop :=
  (∀ e ∈ immediate, ∀ (w : IForm) (s : State), (e.1 w).wf = true → RdyS s w.p [w.a] [w.d] →
    exec (e.1 w) s = .next (put s w.d (e.2 (S s w.a) (if w.x = 1 then w.ext.toInt else w.i.toInt))))
  ∧ (∀ (w : IForm) (s : State), (Instr.li w).wf = true → RdyS s w.p [] [w.d] →
    exec (.li w) s = .next (put s w.d (BitVec.ofInt 64 (if w.x = 1 then w.ext.toInt else w.i.toInt))))
  ∧ (∀ w : BitVec 32, 0x24 ≤ opcode w → opcode w ≤ 0x26 → bits w 24 1 = 0 → 64 ≤ bits w 0 8 → Refused w none)
  ∧ (∀ (w e : BitVec 32), 0x24 ≤ opcode w → opcode w ≤ 0x26 → bits w 24 1 = 1 → 64 ≤ e.toNat → Refused w (some e))
  ∧ (∀ (w : BitVec 32) (e : Option (BitVec 32)), opcode w = 0x27 → bits w 8 6 ≠ 0 → Refused w e)
  ∧ (∀ (w e : BitVec 32), 0x20 ≤ opcode w → opcode w ≤ 0x28 → bits w 24 1 = 1 → bits w 0 8 ≠ 0 → Refused w (some e))
  ∧ (∀ v : BitVec 64, ∃ lo hi : BitVec 32,
    (BitVec.ofInt 64 hi.toInt <<< 32) ||| (BitVec.ofInt 64 lo.toInt &&& 0xFFFFFFFF#64) = v)
  ∧ decodeWords (.word .s 0x0231461D none) = .ok (.add ⟨3, 5, 6, 7, 1⟩)
  ∧ decodeWords (.word .s 0x4F020000 (some 0x1000)) = .ok (.li ⟨0, 8, 0, 1, 0, 0x1000⟩)
  ∧ decodeWords (.word .s 0x4C008903 none) = .ok (.srai ⟨0, 2, 9, 0, 3, 0⟩)

/-- The multiply-divide unit: at issue the result joins the unit's operations and SD becomes pending; when the operation
completes, SD takes the result. A divide while another is in progress waits. SEL chooses by its selector predicate; it is refused without
its extension word, or with a bit of [31:5] set in it. -/
def Obligations.MultiplyDivideSelect : Prop :=
  (∀ e ∈ muldiv, ∀ (w : RForm) (s : State), (e.1 w).wf = true → RdyS s w.p [w.a, w.b] [w.d] →
    (e.2.1 = true → ∀ m ∈ s.core.muldiv, m.divide = false) →
    exec (e.1 w) s = .next (s.onCore fun c => { c with
      muldiv := c.muldiv ++ [⟨if w.d = 0 then 0 else c.sIdx w.d.toNat, e.2.1, e.2.2 w.f (S s w.a) (S s w.b)⟩] }))
  ∧ (∀ (s : State) (k : Nat) (m : MulDiv), s.core.muldiv[k]? = some m →
    exec (.muldivComplete k) s
      = .next (s.onCore fun c => { c.wrIdx m.dest m.value with muldiv := c.muldiv.eraseIdx k }))
  ∧ (∀ e ∈ muldiv, ∀ (w : RForm) (s : State), e.2.1 = true → RdyS s w.p [w.a, w.b] [w.d] →
    (∃ m ∈ s.core.muldiv, m.divide = true) →
    exec (e.1 w) s = .next (s.stallTick .scoreboard))
  ∧ (∀ (w : XForm) (s : State), (Instr.sel w).wf = true → RdyS s w.p [w.a, w.b] [w.d] →
    exec (.sel w) s = .next (put s w.d
      (if xor (s.core.rdP (w.ext.extractLsb' 0 4).toNat) (w.ext.getLsbD 4) = true then S s w.a else S s w.b)))
  ∧ (∀ (w : XForm) (s : State), s.core.rdP w.p.toNat = false → exec (.sel w) s = .next s)
  ∧ ∀ (w e : BitVec 32), opcode w = 0x19 →
    (bits w 24 1 = 0 → Refused w none) ∧ (bits w 24 1 = 1 → 32 ≤ e.toNat → Refused w (some e))

/-- Compares and predicate logic write one predicate; a write to p0 is discarded. A condition above 1011 of a compare or above 0100 of
PLOG, an extension word of CMP or PLOG, one of CMPI beside a nonzero IMM6, and a nonzero unused field of PLOG are refused. -/
def Obligations.Predicates : Prop :=
  (∀ (w : PForm) (s : State), (Instr.cmp w).wf = true → RdyS s w.p [w.a, w.i] [] →
    ∃ b, (b = true ↔ condition w.c (S s w.a) (S s w.i)) ∧ exec (.cmp w) s = .next (s.onCore fun c => c.wrP w.d.toNat b))
  ∧ (∀ (w : PForm) (s : State), (Instr.cmpi w).wf = true → RdyS s w.p [w.a] [] →
    ∃ b, (b = true ↔ condition w.c (S s w.a) (BitVec.ofInt 64 (if w.x = 1 then w.ext.toInt else w.i.toInt)))
      ∧ exec (.cmpi w) s = .next (s.onCore fun c => c.wrP w.d.toNat b))
  ∧ (∀ e ∈ predicate, ∀ (w : PLogForm) (s : State), RdyS s w.p [] [] →
    exec (e.1 w) s = .next (s.onCore fun c => c.wrP w.d.toNat
      (e.2 (xor (s.core.rdP w.a.toNat) (w.na == 1)) (xor (s.core.rdP w.b.toNat) (w.nb == 1)))))
  ∧ (∀ (c : Core) (n k : Nat) (b : Bool), n < 16 →
    (c.wrP n b).rdP k = (if k = 0 then true else if k = n then b else c.rdP k))
  ∧ (∀ (w : BitVec 32) (e : Option (BitVec 32)),
    (opcode w = 0x29 → bits w 24 1 = 1 ∨ 12 ≤ bits w 12 4 → Refused w e)
    ∧ (opcode w = 0x2A → 12 ≤ bits w 12 4 ∨ (bits w 24 1 = 1 ∧ bits w 0 6 ≠ 0) → Refused w e)
    ∧ (opcode w = 0x2B → bits w 24 1 = 1 ∨ 5 ≤ bits w 12 4 ∨ bits w 10 1 = 1 ∨ bits w 4 1 = 1
        ∨ ((bits w 12 4 = 3 ∨ bits w 12 4 = 4) ∧ bits w 0 6 ≠ 0) → Refused w e))
  ∧ decodeWords (.word .s 0x5402210A none) = .ok (.cmpi ⟨0, 2, 2, 4, 0, 10, 0⟩)

/-- Address registers, level steps and loop counts: what AADD, AMOV, ASTEP and LCSET write, that each is read back from where it was
written and from nowhere else, and the fields that are refused. -/
def Obligations.AddressRegisters : Prop :=
  (∀ (w : IForm) (s : State), (Instr.aadd w).wf = true → RdyS s w.p [] [] →
    exec (.aadd w) s = .next (s.onCore fun c =>
      c.wrA w.d.toNat (c.rdA w.a.toNat + BitVec.ofInt 32 (if w.x = 1 then w.ext.toInt else w.i.toInt))))
  ∧ (∀ (w : RForm) (s : State), w.f = 0 → RdyS s w.p [] [] →
    exec (.amov w) s = .next (s.onCore fun c => c.wrA w.d.toNat (c.rdA w.a.toNat)))
  ∧ (∀ (w : RForm) (s : State), w.f = 1 → RdyS s w.p [w.a] [] →
    exec (.amov w) s = .next (s.onCore fun c => c.wrA w.d.toNat ((S s w.a).setWidth 32)))
  ∧ (∀ (w : RForm) (s : State), w.f = 2 → RdyS s w.p [] [w.d] →
    exec (.amov w) s = .next (put s w.d ((s.core.rdA w.a.toNat).setWidth 64)))
  ∧ (∀ (w : IForm) (s : State), (Instr.astep w).wf = true → RdyS s w.p [] [] →
    exec (.astep w) s = .next (s.onCore fun c =>
      c.wrStep w.d.toNat w.a.toNat (BitVec.ofInt 32 (if w.x = 1 then w.ext.toInt else w.i.toInt))))
  ∧ (∀ (w : IForm) (s : State), (Instr.lcset w).wf = true → RdyS s w.p [w.a] [] →
    exec (.lcset w) s = .next (s.onCore fun c => c.wrLc w.d.toNat
      (BitVec.ofInt 32 (clamp 0 (2 ^ 32 - 1) ((S s w.a).toInt + (if w.x = 1 then w.ext.toInt else w.i.toInt))))))
  ∧ (∀ (c : Core) (n k m j : Nat) (v : BitVec 32), k < 6 → j < 6 →
    (c.wrA n v).rdA m = (if m = n then v else c.rdA m)
    ∧ (c.wrStep n k v).rdStep m j = (if m = n ∧ j = k then v else c.rdStep m j) ∧ (c.wrStep n k v).rdA m = c.rdA m
    ∧ (c.wrLc k v).rdLc j = (if j = k then v else c.rdLc j))
  ∧ ∀ (w : BitVec 32) (e : Option (BitVec 32)),
    (opcode w = 0x2C → bits w 19 1 = 1 ∨ bits w 13 1 = 1 → Refused w e)
    ∧ (opcode w = 0x2D → (bits w 0 2 = 3 ∨ bits w 2 6 ≠ 0 ∨ (bits w 0 2 < 2 ∧ bits w 19 1 = 1)
        ∨ ((bits w 0 2 = 0 ∨ bits w 0 2 = 2) ∧ bits w 13 1 = 1)) → Refused w e)
    ∧ (opcode w = 0x2E → bits w 19 1 = 1 ∨ 6 ≤ bits w 8 6 → Refused w e)
    ∧ (opcode w = 0x2F → 6 ≤ bits w 14 6 → Refused w e)

/-- A write of scalar register n is read back from n and from no other register; s0 discards writes and reads 0; at handler level
s48 to s63 are another bank, and the group bank keeps its values. -/
def Obligations.ScalarRegisterFile : Prop :=
  ∀ (c : Core) (n k : Nat) (v : BitVec 64), n < 64 → k < 64 →
    (c.wrS n v).rdS k = (if k = 0 then 0 else if k = n then v else c.rdS k)
    ∧ (48 ≤ n → c.lvl = true → sget 0 (c.wrS n v).s k = sget 0 c.s k)

end

namespace Sys2Proof.Claim

open Sys2Proof Sys2Proof.Machine Sys2Proof.Safety

/-- The guard of an S, M or C instruction (R30, R31); GO and GOL use theirs as the branch predicate, NOP has no effect. -/
def guardOf (i : Instr) : Option (BitVec 4) :=
  match i with
  | .add w => some w.p | .sub w => some w.p | .mul w => some w.p | .mulh w => some w.p | .mulhn w => some w.p
  | .div w => some w.p | .divn w => some w.p | .rem w => some w.p | .remn w => some w.p | .and w => some w.p
  | .or w => some w.p | .xor w => some w.p | .shl w => some w.p | .shr w => some w.p | .sra w => some w.p
  | .min w => some w.p | .max w => some w.p | .minn w => some w.p | .maxn w => some w.p | .clz w => some w.p
  | .ctz w => some w.p | .popc w => some w.p | .sext w => some w.p | .zext w => some w.p | .sel w => some w.p
  | .addi w => some w.p | .andi w => some w.p | .ori w => some w.p | .xori w => some w.p | .shli w => some w.p
  | .shri w => some w.p | .srai w => some w.p | .li w => some w.p | .lih w => some w.p | .cmp w => some w.p
  | .cmpi w => some w.p | .pand w => some w.p | .por w => some w.p | .pxor w => some w.p | .pnot w => some w.p
  | .pmov w => some w.p | .aadd w => some w.p | .amov w => some w.p | .astep w => some w.p | .lcset w => some w.p
  | .loop w => some w.p | .prep w => some w.p | .prepr w => some w.p | .endGroup w => some w.p | .wset w => some w.p
  | .wrot w => some w.p | .ld w => some w.p | .st w => some w.p | .ldPf w => some w.p | .ldc w => some w.p
  | .cinv w => some w.p | .lds w => some w.p | .sts w => some w.p | .ldsRaw w => some w.p | .amo w => some w.p
  | .amos w => some w.p | .fence w => some w.p | .fenceE w => some w.p | .cflush w => some w.p
  | .stflush w => some w.p | .spmap w => some w.p | .spunmap w => some w.p | .sppin w => some w.p
  | .spunpin w => some w.p | .spevict w => some w.p | .spfetch w => some w.p | .span w => some w.p
  | .curveld w => some w.p | .bmapld w => some w.p | .fwait w => some w.p | .fwaitMemory w => some w.p
  | .fstat w => some w.p | .fpub w => some w.p | .freset w => some w.p | .barinit w => some w.p
  | .baradd w => some w.p | .barwait w => some w.p | .qpost w => some w.p | .qtake w => some w.p
  | .spawn w => some w.p | .signal w => some w.p | .evwait w => some w.p | .yield w => some w.p
  | .mwait w => some w.p | .cwait w => some w.p | .rdcnt w => some w.p | .trap w => some w.p | .rte w => some w.p
  | .rdcause w => some w.p | .rdctl w => some w.p | .wrctl w => some w.p | .amaxrd w => some w.p
  | .amaxrdFront w => some w.p | .mma w => some w.p | .mmar w => some w.p | .mmad w => some w.p | .mclr w => some w.p
  | .mdrain w => some w.p | .msetRbound w => some w.p | .msetTap w => some w.p | .msetNotap w => some w.p
  | .cpy w => some w.p | .cgath w => some w.p | .cscat w => some w.p | .cred w => some w.p | .cfill w => some w.p
  | .mcast w => some w.p | .crem w => some w.p | .cstop w => some w.p
  | _ => none

/-- Register-only S instructions with a scalar destination: guard, scalar registers read, destination. -/
def scalarOp (i : Instr) : Option (BitVec 4 × List (BitVec 6) × BitVec 6) :=
  match i with
  | .add w | .sub w | .and w | .or w | .xor w | .shl w | .shr w | .sra w | .min w | .max w | .minn w | .maxn w =>
    some (w.p, [w.a, w.b], w.d)
  | .clz w | .ctz w | .popc w | .sext w | .zext w => some (w.p, [w.a], w.d)
  | .sel w => some (w.p, [w.a, w.b], w.d)
  | .addi w | .andi w | .ori w | .xori w | .shli w | .shri w | .srai w | .lih w => some (w.p, [w.a], w.d)
  | .li w => some (w.p, [], w.d)
  | .rdcnt w | .amaxrd w => some (w.p, [], w.d)
  | _ => none

/-- Register-only S instructions that write one predicate, address register, level step, loop count, branch target or window base:
guard, scalar registers read. -/
def sideOp (i : Instr) : Option (BitVec 4 × List (BitVec 6)) :=
  match i with
  | .cmp w => some (w.p, [w.a, w.i])
  | .cmpi w => some (w.p, [w.a])
  | .pand w | .por w | .pxor w | .pnot w | .pmov w => some (w.p, [])
  | .aadd w | .astep w => some (w.p, [])
  | .lcset w => some (w.p, [w.a])
  | .prep w => some (w.p, [])
  | .wset w => some (w.p, [w.a])
  | .wrot w => some (w.p, [])
  | _ => none

/-- Everything but the core is as before; every byte of memory reads as before. -/
def OnlyCore (s t : State) : Prop :=
  t.mem = s.mem ∧ t.spad = s.spad ∧ t.eng = s.eng ∧ t.others = s.others ∧ t.sys = s.sys ∧ t.agenda = s.agenda ∧ t.free = s.free
    ∧ ∀ pa, t.mem.rd pa = s.mem.rd pa

/-- The signed displacement or immediate of an S word with an optional extension word. -/
abbrev immOf (w : IForm) : Int := if w.x = 1 then w.ext.toInt else w.i.toInt

/-- What a trap leaves when it enters the handler (R156): TPC, CAUSE, TVAL, TSTAGE, the saved sequencing state of R41 and records of
R155, STATUS.LVL and CLK set, the handler's latches empty, PC at THB.BASE × 4; the windows, VRM, the vector and the other registers
keep their values; scalar registers change only where a result in flight lands (R155), and the group waits on nothing (R279). -/
def Entered (s t : State) (cause : Nat) (tval : BitVec 64) (stage : Stage) (async : Bool) : Prop :=
  t.core.tpc = s.core.pc
    ∧ t.core.cause = BitVec.ofNat 64 (cause + if async then 65536 else 0)
    ∧ t.core.tval = tval ∧ t.core.tstage = stage.word
    ∧ t.core.tstate = some ⟨s.core.owedNow, s.core.xfer, s.core.loop, s.core.latch0, s.core.latch1, s.core.vwa, s.core.vwb,
        s.core.srcnt, s.core.vfly, s.core.since⟩
    ∧ t.core.lvl = true ∧ t.core.clk = true
    ∧ t.core.latch0 = 0 ∧ t.core.latch1 = 0 ∧ t.core.xfer = none ∧ t.core.loop = none ∧ t.core.vfly = []
    ∧ t.core.pc = s.core.thb &&& 0xFFFFFFFC#32
    ∧ t.core.pend = [] ∧ t.core.muldiv = [] ∧ t.core.pins = []
    ∧ t.core.vwa = s.core.vwa ∧ t.core.vwb = s.core.vwb ∧ t.core.vrm = s.core.vrm ∧ t.core.va = s.core.va ∧ t.core.vb = s.core.vb
    ∧ t.core.q = s.core.q ∧ t.core.pr = s.core.pr ∧ t.core.a = s.core.a ∧ t.core.step = s.core.step ∧ t.core.lc = s.core.lc
    ∧ t.core.br = s.core.br ∧ t.core.d = s.core.d ∧ t.core.thb = s.core.thb
    ∧ (∀ k, (∀ m ∈ s.core.muldiv, m.dest ≠ k) → (∀ p ∈ s.core.pend, p.dest ≠ k) →
        sget 0 t.core.s k = sget 0 s.core.s k ∧ sget none t.core.defrec k = sget none s.core.defrec k)
    ∧ t.core.parked = s.core.parked.map (fun p => { p with waits := none })
    ∧ { t.core with
        tpc := s.core.tpc, cause := s.core.cause, tval := s.core.tval, tstage := s.core.tstage, tstate := s.core.tstate
        lvl := s.core.lvl, clk := s.core.clk, latch0 := s.core.latch0, latch1 := s.core.latch1, pc := s.core.pc
        cur := s.core.cur, made := s.core.made, owed := s.core.owed, jump := s.core.jump, after := s.core.after
        xfer := s.core.xfer, loop := s.core.loop, vfly := s.core.vfly, s := s.core.s, defrec := s.core.defrec
        muldiv := s.core.muldiv, pend := s.core.pend, pins := s.core.pins, paged := s.core.paged, parked := s.core.parked
        timer := s.core.timer, waitOn := s.core.waitOn, waitBroken := s.core.waitBroken, waitDone := s.core.waitDone
        waitBar := s.core.waitBar, barMet := s.core.barMet, pw := s.core.pw, qstall := s.core.qstall } = s.core
    ∧ t.mem = s.mem ∧ t.spad = s.spad ∧ t.eng = s.eng ∧ t.others = s.others
    ∧ t.sys = { s.sys with placed := s.sys.placed.map fun p => if p.core = s.core.num then { p with wait := none } else p }

/-- The group runs at group level with a handler: THB.OFF is 0. -/
def Traps (s : State) : Prop := s.core.lvl = false ∧ s.core.thb.getLsbD 0 = false

/-- Control registers that RDCTL reads whole (R151). -/
def control (n : Nat) (c : Core) : Option (BitVec 64) :=
  match n with
  | 0x01 => some c.cause
  | 0x02 => some c.tval
  | 0x03 => some c.tstage
  | 0x04 => some (c.tpc.zeroExtend 64)
  | 0x05 => some (c.thb.zeroExtend 64)
  | 0x06 => some (BitVec.ofNat 64 c.vwa)
  | 0x07 => some (BitVec.ofNat 64 c.vwb)
  | 0x08 => some c.vrm
  | 0x09 => some c.seed
  | 0x0A => some (c.qmode.zeroExtend 64)
  | 0x0B => some (BitVec.ofNat 64 c.rbound)
  | 0x0C => some (c.chaselim.zeroExtend 64)
  | 0x0D => some c.group
  | 0x0E => some c.gang
  | 0x0F => some c.node
  | 0x10 => some c.args
  | 0x11 => some (c.rqtag.zeroExtend 64)
  | 0x12 => some (c.part.zeroExtend 64)
  | 0x13 => some c.cycle
  | 0x14 => some (c.retired + 1)
  | _ => none

/-- WRCTL's effects (R151, R153, R154): the number, the values it takes, what it writes. -/
def controlWrites : List (Nat × (BitVec 64 → Prop) × (BitVec 64 → Core → Core)) :=
  [(0x05, fun v => v.getLsbD 1 = false, fun v c => { c with thb := v.setWidth 32 }),
   (0x06, fun _ => True, fun v c => { c with vwa := v.toNat % 768 }),
   (0x07, fun _ => True, fun v c => { c with vwb := v.toNat % 768 }),
   (0x08, fun v => v.toNat % 8 ≤ 4, fun v c => { c with vrm := v &&& 0x1FFF }),
   (0x09, fun _ => True, fun v c => { c with seed := v, srcnt := 0 }),
   (0x0A, fun _ => True, fun v c => { c with qmode := v.setWidth 2 }),
   (0x0B, fun v => 1 ≤ v.toNat ∧ v.toNat ≤ 65536, fun v c => { c with rbound := v.toNat }),
   (0x0C, fun v => 1024 ≤ v.toNat % 2 ^ 32, fun v c => { c with chaselim := v.setWidth 32 })]

end Sys2Proof.Claim

section

open Sys2Proof Sys2Proof.Machine Sys2Proof.Safety Sys2Proof.Claim

/-! ### Guards and frames -/

/-- Under a false guard an S, M or C instruction does nothing: registers keep their values, and a pending deferred fault stays. NOP
and VNOP change nothing but what the issue itself counts and latches: RETIRED, and the slot's latch; with a bit of [24:0] set they are
refused. -/
def Obligations.FalseGuard : Prop :=
  (∀ (i : Instr) (p : BitVec 4) (s : State), guardOf i = some p → s.core.rdP p.toNat = false → s.core.after = none →
    exec i s = .next s)
  ∧ (∀ (v : BitVec 1) (s : State), exec .nop s = .next s ∧ exec (.vnop v) s = .next s)
  ∧ (∀ (c : Core) (b : Bundle), (c.issued b).retired = c.retired + 1
    ∧ (b.v0 = some 0 → (c.issued b).latch0 = 0) ∧ (b.v1 = some 0 → (c.issued b).latch1 = 0))
  ∧ decodeWords (.word .s 0 none) = .ok .nop ∧ decodeWords (.word .v0 0 none) = .ok (.vnop 0)
  ∧ decodeWords (.word .v1 0 none) = .ok (.vnop 1)
  ∧ ∀ (w : BitVec 32) (e : Option (BitVec 32)), opcode w = 0 → w ≠ 0 →
    Refused w e ∧ (∃ x, decodeWords (.word .v0 w none) = .error x) ∧ ∃ x, decodeWords (.word .v1 w none) = .error x

/-- Frame of the register-only S instructions: memory, scratchpad, engines and every register but the destination stand; of those with a
scalar destination, and of those that write a predicate, an address register, a step, a count, a branch target or a window base. -/
def Obligations.RegisterFrame : Prop :=
  (∀ (i : Instr) (p : BitVec 4) (rs : List (BitVec 6)) (d : BitVec 6) (s t : State),
    scalarOp i = some (p, rs, d) → RdyS s p rs [d] → exec i s = .next t →
    OnlyCore s t ∧ (∀ k, k < 64 → k ≠ d.toNat → t.core.rdS k = s.core.rdS k)
      ∧ { t.core with s := s.core.s, defrec := s.core.defrec } = s.core)
  ∧ (∀ (i : Instr) (p : BitVec 4) (rs : List (BitVec 6)) (s t : State), sideOp i = some (p, rs) → RdyS s p rs [] → exec i s = .next t →
    OnlyCore s t ∧ (∀ k, t.core.rdS k = s.core.rdS k)
      ∧ { t.core with pr := s.core.pr, a := s.core.a, step := s.core.step, lc := s.core.lc, br := s.core.br, vwa := s.core.vwa,
                      vwb := s.core.vwb } = s.core
      ∧ (∀ w, (i = .cmp w ∨ i = .cmpi w) → t.core.a = s.core.a ∧ t.core.br = s.core.br ∧ t.core.lc = s.core.lc ∧ t.core.vwa = s.core.vwa)
      ∧ (∀ w, (i = .aadd w ∨ i = .astep w ∨ i = .lcset w) → t.core.pr = s.core.pr ∧ t.core.br = s.core.br))

/-! ### Sequencing -/

/-- PREP and PREPR load a branch-target register; PREPR of a value with a bit of [1:0] or [63:32] set raises 0x02. -/
def Obligations.BranchTargets : Prop :=
  (∀ (w : BForm) (s : State), (Instr.prep w).wf = true → RdyS s w.p [] [] →
    exec (.prep w) s = .next (s.onCore fun c =>
      c.wrB w.t.toNat (c.pc + BitVec.ofInt 32 (4 * (if w.x = 1 then w.ext.toInt else w.i.toInt)))))
  ∧ (∀ (w : BForm) (s : State), (Instr.prepr w).wf = true → RdyS s w.p [w.i.extractLsb' 10 6] [] →
    (S s (w.i.extractLsb' 10 6)).toNat % 4 = 0 → (S s (w.i.extractLsb' 10 6)).toNat < 2 ^ 32 →
    exec (.prepr w) s = .next (s.onCore fun c => c.wrB w.t.toNat ((S s (w.i.extractLsb' 10 6)).setWidth 32)))
  ∧ (∀ (w : BForm) (s : State), (Instr.prepr w).wf = true → RdyS s w.p [w.i.extractLsb' 10 6] [] →
    ((S s (w.i.extractLsb' 10 6)).toNat % 4 ≠ 0 ∨ 2 ^ 32 ≤ (S s (w.i.extractLsb' 10 6)).toNat) →
    exec (.prepr w) s = .next (s.takeTrap 0x02 ((sWord (.prepr w)).zeroExtend 64) noStage false))

/-- GO and GOL: the transfer is taken when the guard XOR NEG is 1, to the target that the register holds; two delay bundles issue,
and then a taken transfer goes on at its target, an untaken one at the next bundle. GOL writes the text offset of the bundle after
the second delay bundle into s63. -/
def Obligations.Branches : Prop :=
  (∀ (w : BForm) (s : State),
    exec (.go w) s = .next (s.onCore fun c => { c with xfer := some ⟨xor (c.rdP w.p.toNat) (w.n == 1), c.rdB w.t.toNat, 2⟩ }))
  ∧ (∀ (w : BForm) (s u : State) (t : BitVec 32), s.core.pending (s.core.sIdx 63) = false →
    s.skipBundles s.core.pc 3 = .ok (t, u) →
    exec (.gol w) s = .next (u.onCore fun c =>
      { c.wrS 63 (t.zeroExtend 64) with xfer := some ⟨xor (c.rdP w.p.toNat) (w.n == 1), c.rdB w.t.toNat, 2⟩ }))
  ∧ (∀ (pre c : Core) (x : Xfer) (next : BitVec 32), pre.xfer = some x → x.left = 2 →
    (Core.advance pre c next).pc = next ∧ (Core.advance pre c next).xfer = some { x with left := 1 })
  ∧ ∀ (pre c : Core) (x : Xfer) (next : BitVec 32), pre.xfer = some x → x.left = 1 →
    (Core.advance pre c next).pc = (if x.taken then x.target else next) ∧ (Core.advance pre c next).xfer = none

/-- LOOP: with every count above zero the body of L bundles is looped over with every index at 0; with a zero count the body is
passed over. After the last bundle of a body: level k is the lowest whose index plus one is below its count; its index advances, the
lower ones restart at 0, the masked address registers take its step, and the body begins again; with no such level the loop ends. -/
def Obligations.Loops : Prop :=
  ((∀ (w : XForm) (s : State), (Instr.loop w).wf = true → RdyS s w.p [] [] → (∀ k, k < w.a.toNat → s.core.rdLc k ≠ 0) →
    exec (.loop w) s = .next (s.onCore fun c => { c with
      loop := some ⟨c.pc + 12, w.d.toNat + 1, w.a.toNat, w.ext, List.replicate w.a.toNat 0, 0, [], false⟩ }))
  ∧ ∀ (w : XForm) (s u : State) (t : BitVec 32), (Instr.loop w).wf = true → RdyS s w.p [] [] →
    (∃ k, k < w.a.toNat ∧ s.core.rdLc k = 0) → s.skipBundles (s.core.pc + 12) (w.d.toNat + 1) = .ok (t, u) →
    exec (.loop w) s = .next (u.onCore fun c => { c with jump := some t }))
  ∧ (∀ (c : Core) (l : LoopSt) (next : BitVec 32), l.pos + 1 = l.len → l.depth ≤ 6 → l.idx.length = l.depth →
    ((∀ k, k < l.depth → (c.rdLc k).toNat ≤ l.idx.getD k 0 + 1) → c.loopAdvance l next = { c with loop := none, pc := next })
    ∧ ∀ k, k < l.depth → (∀ j, j < k → (c.rdLc j).toNat ≤ l.idx.getD j 0 + 1) → l.idx.getD k 0 + 1 < (c.rdLc k).toNat →
      (c.loopAdvance l next).pc = l.body
      ∧ (c.loopAdvance l next).loop = some { l with
          pos := 0
          idx := (List.range l.depth).map fun j => if j < k then 0 else if j = k then l.idx.getD k 0 + 1 else l.idx.getD j 0 }
      ∧ ∀ n, n < 32 → (c.loopAdvance l next).rdA n = if l.amask.getLsbD n then c.rdA n + c.rdStep n k else c.rdA n)

/-- WSET and WROT set a window base modulo 768; the header's rotation of the same issue is added after it; fields that are not used, and
FN above 01, are refused. A window name reaches the physical register (base + name) modulo 768. -/
def Obligations.Windows : Prop :=
  (∀ (w : RForm) (s : State),
    ((Instr.wset w).wf = true → RdyS s w.p [w.a] [] → exec (.wset w) s = .next (s.onCore fun c =>
      if w.f = 0 then { c with vwa := (S s w.a).toNat % 768 } else { c with vwb := (S s w.a).toNat % 768 }))
    ∧ ((Instr.wrot w).wf = true → RdyS s w.p [] [] → exec (.wrot w) s = .next (s.onCore fun c =>
      if w.f = 0 then { c with vwa := (c.vwa + w.b.toNat) % 768 } else { c with vwb := (c.vwb + w.b.toNat) % 768 })))
  ∧ (∀ (w : RForm) (s : State), s.core.rdP w.p.toNat = false → exec (.wset w) s = .next s ∧ exec (.wrot w) s = .next s)
  ∧ (∀ (c : Core) (b : Bundle), (c.issued b).vwa = (c.vwa + b.hdr.rota.toNat) % 768
    ∧ (c.issued b).vwb = (c.vwb + b.hdr.rotb.toNat) % 768)
  ∧ (∀ (c : Core) (n : BitVec 6), c.vPhys 0 n = (c.vwa + n.toNat) % 768 ∧ c.vPhys 1 n = (c.vwb + n.toNat) % 768)
  ∧ ∀ (w : BitVec 32) (e : Option (BitVec 32)),
    (opcode w = 0x36 → 2 ≤ bits w 0 2 ∨ bits w 14 6 ≠ 0 ∨ bits w 2 6 ≠ 0 → Refused w e)
    ∧ (opcode w = 0x37 → 2 ≤ bits w 0 2 ∨ bits w 14 6 ≠ 0 ∨ bits w 8 6 ≠ 0 → Refused w e)

/-! ### Traps -/

/-- Taking a trap at group level with a handler: R156's steps. TRAP takes cause 0x05 so, with the sign-extended immediate, after its
bundle: run by itself with PC at the next bundle, and as the one slot of the bundle at hand, where TPC then holds the bundle after it. -/
def Obligations.TrapEntry : Prop :=
  (∀ (s : State) (cause : Nat) (tval : BitVec 64) (stage : Stage) (async : Bool),
    Traps s → cause < 256 → cause ≠ 0x30 → cause ≠ 0x31 → Entered s (s.takeTrap cause tval stage async) cause tval stage async)
  ∧ (∀ (w : IForm) (s : State), (Instr.trap w).wf = true → RdyS s w.p [] [] → s.core.after = none → Traps s →
    ∃ t, exec (.trap w) s = .next t ∧ Entered s t 0x05 (BitVec.ofInt 64 (immOf w)) noStage false)
  ∧ (∀ (w : IForm) (s : State) (b : Bundle) (x : Slotted), s.core.run = .running → s.core.cur = some b → s.core.slotted b = [x] →
    x.ins = .ok (.trap w) → s.core.bundleFate b [x] = none → s.core.acquiring = false → s.core.cancelledAcq = false → (Instr.trap w).wf = true →
    RdyS s w.p [] [] → Traps s → b.hdr.rep = 0 → s.core.owed = 0 → s.core.made = 0 → s.core.xfer = none → s.core.loop = none →
    s.core.after = none → s.core.jump = none →
    ∃ t, exec .bundleIssue s = .next t ∧ t.core.tpc = s.core.pc + BitVec.ofNat 32 b.size
      ∧ t.core.cause = 5 ∧ t.core.tval = BitVec.ofInt 64 (immOf w) ∧ t.core.lvl = true ∧ t.core.clk = true
      ∧ t.core.pc = s.core.thb &&& 0xFFFFFFFC#32)
  ∧ (∀ (w : IForm) (s : State), (Instr.trap w).wf = true → RdyS s w.p [] [] → s.core.after = none → s.core.lvl = true →
    exec (.trap w) s = .next (s.takeTrap 0x05 (BitVec.ofInt 64 (immOf w)) noStage false)
    ∧ (s.takeTrap 0x05 (BitVec.ofInt 64 (immOf w)) noStage false).core.run ≠ .running)
  ∧ ∀ (w : BitVec 32) (e : Option (BitVec 32)), opcode w = 0x70 → bits w 14 6 ≠ 0 ∨ bits w 8 6 ≠ 0 → Refused w e

/-- RTE at handler level, with no vector result of the handler in flight: its products and quotients land, the group's sequencing state,
latches, windows and records come back, the group bank is selected, PC is TPC, and parked stores and deferred accesses are performed
again. A result in flight lands first; one that raises an enabled flag makes a nested stop. A nonzero field is refused. -/
def Obligations.ReturnFromTrap : Prop :=
  ∀ (w : RForm) (s : State) (ts : TrapSt), RdyS s w.p [] [] → s.core.after = none → s.core.lvl = true → s.core.vfly = [] →
    s.core.tstate = some ts →
    exec (.rte w) s = .next ((s.onCore fun c => { c.landMulDiv with
      lvl := false, clk := false, pc := c.tpc, cur := none, made := 0, owed := ts.owed, xfer := ts.xfer
      loop := ts.loop.map fun l => { l with buf := [], reload := true }
      latch0 := ts.latch0, latch1 := ts.latch1, vwa := ts.vwa, vwb := ts.vwb, srcnt := ts.srcnt, vfly := ts.records, since := ts.since
      tstate := none, timer := 0, waitOn := none, waitBroken := false, waitDone := false, waitBar := none, barMet := false, pw := none
      qstall := 0, paged := none }).replay true)
    ∧ (s.core.muldiv = [] → s.core.parked = [] → s.core.defrec = [] →
      ∃ t, exec (.rte w) s = .next t ∧ t.core.pc = s.core.tpc ∧ t.core.lvl = false ∧ t.core.clk = false ∧ t.core.vfly = ts.records
        ∧ t.core.xfer = ts.xfer ∧ t.core.owed = ts.owed ∧ t.core.vwa = ts.vwa ∧ t.core.vwb = ts.vwb ∧ t.core.s = s.core.s
        ∧ t.core.vrm = s.core.vrm ∧ t.core.va = s.core.va ∧ t.core.vb = s.core.vb ∧ t.mem = s.mem ∧ t.spad = s.spad ∧ t.eng = s.eng
        ∧ t.sys = s.sys)
    ∧ ∀ (w : BitVec 32) (e : Option (BitVec 32)), opcode w = 0x71 → bits w 0 20 ≠ 0 → Refused w e

/-- A synchronous trap at handler level, or any without a handler, stops the group: CODE becomes 0x3F; ORIG, TVAL and TSTAGE keep the
locked record, or describe the new trap when CLK is 0. -/
def Obligations.NestedStop : Prop :=
  ∀ (s : State) (cause : Nat) (tval : BitVec 64) (stage : Stage) (async : Bool),
    (s.core.thb.getLsbD 0 = true ∨ (s.core.lvl = true ∧ async = false)) → cause < 256 → cause ≠ 0x30 → cause ≠ 0x31 →
    (s.takeTrap cause tval stage async).core.run ≠ .running
    ∧ ((s.takeTrap cause tval stage async).core.run = .stopped →
      (s.takeTrap cause tval stage async).core.cause.toNat % 256 = 0x3F
      ∧ (s.core.clk = true →
        (s.takeTrap cause tval stage async).core.cause.toNat / 256 % 256 = s.core.cause.toNat % 256
        ∧ (s.takeTrap cause tval stage async).core.tval = s.core.tval ∧ (s.takeTrap cause tval stage async).core.tstage = s.core.tstage)
      ∧ (s.core.clk = false →
        (s.takeTrap cause tval stage async).core.cause.toNat / 256 % 256 = cause
        ∧ (s.takeTrap cause tval stage async).core.tval = tval ∧ (s.takeTrap cause tval stage async).core.tstage = stage.word))

/-- An asynchronous cause at handler level with a handler is held; the oldest held cause is delivered at a boundary at group level. -/
def Obligations.AsynchronousTraps : Prop :=
  (∀ (s : State) (cause : Nat) (tval : BitVec 64) (stage : Stage), s.core.lvl = true → s.core.thb.getLsbD 0 = false →
    s.takeTrap cause tval stage true = s.onCore fun c => c.raise ⟨cause, tval, stage⟩)
  ∧ ∀ (s : State) (h : Async) (r : List Async), s.core.run = .running → Traps s → s.dropHeld = s → s.core.held = h :: r →
    h.cause < 256 → h.cause ≠ 0x30 → h.cause ≠ 0x31 →
    ∃ t, exec .asyncTrapDelivery s = .next t
      ∧ Entered (s.onCore fun c => { c with held := r }) t h.cause h.tval h.stage true ∧ t.core.held = r

/-- Privileged instructions at group level raise 0x04 with the S word, and change nothing else: RTE, RDCAUSE, and RDCTL and WRCTL of
the group bank. -/
def Obligations.Privilege : Prop :=
  ∀ (i : Instr) (s : State), s.core.lvl = false →
    ((∃ w, i = .rte w ∧ s.core.rdP w.p.toNat = true) ∨ (∃ w, i = .rdcause w ∧ s.core.rdP w.p.toNat = true)
      ∨ (∃ w, i = .rdctl w ∧ s.core.rdP w.p.toNat = true ∧ 0x30 ≤ w.a.toNat)
      ∨ (∃ w, i = .wrctl w ∧ s.core.rdP w.p.toNat = true ∧ 0x30 ≤ w.d.toNat)) →
    exec i s = .next (s.takeTrap 0x04 ((sWord i).zeroExtend 64) noStage false)

/-- END: fetch stops, results in flight land, a saved trap state, held causes and deferred records are discarded; a parked store with a
cause raises 0x14 instead. -/
def Obligations.GroupEnd : Prop :=
  (∀ (w : RForm) (s : State), RdyS s w.p [] [] → s.core.after = none → s.core.parkedReal = [] → (∀ r ∈ s.core.vfly, r.rem ≤ 14) →
    ∃ t, exec (.endGroup w) s = .next t ∧ t.core.run = .ended ∧ t.core.vfly = [] ∧ t.core.muldiv = [] ∧ t.core.tstate = none
      ∧ t.core.held = [] ∧ t.core.defrec = [] ∧ t.core.xfer = none ∧ t.core.loop = none ∧ t.core.pins = []
      ∧ t.mem = s.mem ∧ t.spad = s.spad ∧ t.eng = s.eng ∧ t.sys = s.sys)
  ∧ ∀ (w : RForm) (s : State) (p : Parked) (r : List Parked), RdyS s w.p [] [] → s.core.parkedReal = p :: r →
    exec (.endGroup w) s = .next (s.takeTrap 0x14 (BitVec.ofNat 64 p.va) p.stage false)

/-! ### Control registers and counters -/

/-- RDCTL reads the register of its number; RDCAUSE reads CAUSE and unlocks; RDCNT reads a counter, counting its own issue in 1 and 2.
WRCTL writes the register of its number with the values that R153 allows; a value that R153 forbids raises 0x02; read-only registers
ignore it; TPC is written at handler level only. -/
def Obligations.ControlRegisters : Prop :=
  ((∀ (w : RForm) (s : State) (v : BitVec 64), RdyS s w.p [] [w.d] → control w.a.toNat s.core = some v →
    exec (.rdctl w) s = .next (put s w.d v))
  ∧ (∀ (w : RForm) (s : State), RdyS s w.p [] [w.d] → w.a.toNat = 0 →
    ∃ v, exec (.rdctl w) s = .next (put s w.d v) ∧ v.getLsbD 0 = s.core.lvl ∧ v.getLsbD 1 = s.core.clk
      ∧ v.getLsbD 7 = !s.core.parkedReal.isEmpty
      ∧ v.getLsbD 8 = (match s.core.tstate with | some x => x.xfer.isSome | none => false)
      ∧ v.getLsbD 9 = (match s.core.tstate with | some x => x.loop.isSome | none => false)
      ∧ v.toNat / 2 ^ 10 = (match s.core.tstate with | some x => x.owed % 128 | none => 0)
      ∧ v.toNat / 4 % 32 = 0)
  ∧ (∀ (w : RForm) (s : State), RdyS s w.p [] [w.d] → s.core.lvl = true → 0x30 ≤ w.a.toNat →
    exec (.rdctl w) s = .next (put s w.d (sget 0 s.core.s w.a.toNat)))
  ∧ (∀ (w : RForm) (s : State), RdyS s w.p [] [w.d] → s.core.lvl = true →
    exec (.rdcause w) s = .next (s.onCore fun c => { c.wrS w.d.toNat c.cause with clk := false }))
  ∧ (∀ (w : RForm) (s : State), s.core.rdP w.p.toNat = true → s.core.lvl = false →
    exec (.rdcause w) s = .next (s.takeTrap 0x04 ((sWord (.rdcause w)).zeroExtend 64) noStage false))
  ∧ decodeWords (.word .s 0xE40C0000 none) = .ok (.rdcause ⟨0, 48, 0, 0, 0⟩)
  ∧ (∀ (w : BitVec 32) (e : Option (BitVec 32)), opcode w = 0x72 → bits w 0 14 ≠ 0 → Refused w e)
  ∧ ∀ (w : RForm) (s : State), RdyS s w.p [] [w.d] → w.a.toNat ≤ 8 →
    exec (.rdcnt w) s = .next (put s w.d
      ((if w.a.toNat = 0 then s.core.cycle else if w.a.toNat = 1 then s.core.retired else sget 0 s.core.cnt w.a.toNat)
        + (if w.a.toNat = 1 ∨ w.a.toNat = 2 then 1 else 0))))
  ∧ ((∀ e ∈ controlWrites, ∀ (w : RForm) (s : State), RdyS s w.p [w.a] [] → w.d.toNat = e.1 →
    (e.2.1 (S s w.a) → exec (.wrctl w) s = .next (s.onCore fun c => e.2.2 (S s w.a) c))
    ∧ (¬ e.2.1 (S s w.a) → exec (.wrctl w) s = .next (s.takeTrap 0x02 ((sWord (.wrctl w)).zeroExtend 64) noStage false)))
  ∧ (∀ (w : RForm) (s : State), RdyS s w.p [w.a] [] → (w.d.toNat ≤ 0x03 ∨ (0x0D ≤ w.d.toNat ∧ w.d.toNat ≤ 0x14)) →
    exec (.wrctl w) s = .next s)
  ∧ (∀ (w : RForm) (s : State), RdyS s w.p [w.a] [] → w.d.toNat = 0x04 → s.core.lvl = false → exec (.wrctl w) s = .next s)
  ∧ (∀ (w : RForm) (s : State), RdyS s w.p [w.a] [] → w.d.toNat = 0x04 → s.core.lvl = true → (S s w.a).toNat % 4 = 0 →
    exec (.wrctl w) s = .next (s.onCore fun c => { c with
      tpc := (S s w.a).setWidth 32, tstate := c.tstate.map fun x => { x with owed := 0 } }))
  ∧ ∀ (w : RForm) (s : State), RdyS s w.p [w.a] [] → s.core.lvl = true → 0x30 ≤ w.d.toNat →
    exec (.wrctl w) s = .next (s.onCore fun c => { c with
      s := sset 0 c.s w.d.toNat (S s w.a), defrec := sset none c.defrec w.d.toNat none }))

end

namespace Sys2Proof.Claim

open Sys2Proof Sys2Proof.Machine Sys2Proof.Safety

/-- Bytes of a SIZE code: 1, 2, 4, 8. -/
abbrev size (c : BitVec 2) : Nat := 2 ^ c.toNat
/-- The VA of a format-M access: S[SA] + displacement, modulo 2^64, its low bits cleared. -/
def vaOf (s : State) (w : MForm) : Nat := (S s w.a + BitVec.ofInt 64 w.ext.toInt).toNat / size w.s * size w.s
/-- The SVA of a format-M scratchpad access: a[SA] + displacement, modulo 2^32, its low bits cleared. -/
def svaOf (s : State) (w : MForm) : Nat := (s.core.rdA w.a.toNat + BitVec.ofInt 32 w.ext.toInt).toNat / size w.s * size w.s
/-- A loaded value: the little-endian bytes, sign- or zero-extended (R199). -/
def loaded (zero : Bool) (bs : List (BitVec 8)) : BitVec 64 :=
  if zero then BitVec.ofNat 64 (leNat bs) else (BitVec.ofNat (8 * bs.length) (leNat bs)).signExtend 64
/-- The operations of AMO and AMOS on n bytes (R184). -/
def atomic (op n old x c : Nat) : Nat :=
  match op with
  | 0 => (old + x) % 2 ^ (8 * n)
  | 1 => ((Fmt.fp fp32).round (exactSum [fp32.val old, fp32.val x] false).1 rne).1
  | 2 => if (BitVec.ofNat (8 * n) x).toInt < (BitVec.ofNat (8 * n) old).toInt then x else old
  | 3 => if (BitVec.ofNat (8 * n) old).toInt < (BitVec.ofNat (8 * n) x).toInt then x else old
  | 4 => min old x
  | 5 => max old x
  | 6 => old &&& x
  | 7 => old ||| x
  | 8 => old ^^^ x
  | 9 => x
  | _ => if old = c then x else old

/-- A VA reaches machine address a with a need: the core's Translate passes, and the memory side grants it, leaving state u. -/
def Reaches (s : State) (va : Nat) (need : Perm) (ia a : Nat) (u : State) : Prop :=
  s.core.translate va need = .ia ia ∧ s.reach s.core.s1root s.core.die ia need = (.pa a, u)

/-- The result that an access left pending: its register, its value, and the record of poison. -/
def Pends (u t : State) (p : SPend) : Prop :=
  t.core.pend = u.core.pend ++ [p] ∧ { t.core with pend := u.core.pend } = u.core ∧ t.eng = u.eng ∧ t.others = u.others

/-- The bytes of [a, a + n) are the low bytes of x; every other byte of memory reads as in u. -/
def Stored (u t : State) (a n : Nat) (x : BitVec 64) : Prop :=
  (∀ k, k < n → t.mem.rd (a + k) = x.extractLsb' (8 * k) 8) ∧ ∀ b, (b < a ∨ a + n ≤ b) → t.mem.rd b = u.mem.rd b

/-- What one byte of a place reads as. -/
def placeByte (s : State) (p : Place) (k : Nat) : BitVec 8 :=
  if p.stash then s.mem.rd (s.stashPa p.ia + k) else sget 0 (s.spadOf p.owner).phys (p.phys * 4096 + p.off + k)

/-- A store at a place changes its n bytes and no other byte of any memory. -/
def StoredAt (s t : State) (p : Place) (n : Nat) (bs : List (BitVec 8)) : Prop :=
  (∀ k, k < n → placeByte t p k = bs.getD k 0)
    ∧ (p.stash = true → (∀ b, (b < s.stashPa p.ia ∨ s.stashPa p.ia + n ≤ b) → t.mem.rd b = s.mem.rd b)
        ∧ ∀ o b, sget 0 (t.spadOf o).phys b = sget 0 (s.spadOf o).phys b)
    ∧ (p.stash = false → (∀ b, t.mem.rd b = s.mem.rd b)
        ∧ ∀ o b, (o = p.owner → b < p.phys * 4096 + p.off ∨ p.phys * 4096 + p.off + n ≤ b) →
          sget 0 (t.spadOf o).phys b = sget 0 (s.spadOf o).phys b)

/-- A front as FPUB publishes it (R331). -/
def published (s : State) (w : XForm) : Front :=
  { s.front w.d.toNat with
    pub := true, pva := (S s w.a).toNat, pscope := w.ext.toNat / 32 % 8, pgran := w.ext.toNat / 2 % 16 }

/-- The own page that an address register names (R186). -/
def pageOf (s : State) (n : BitVec 6) : Nat := (s.core.rdA n.toNat).toNat / 4096
/-- It lies in the own space. -/
def OwnPage (s : State) (n : BitVec 6) : Prop := (s.core.rdA n.toNat).toNat < 0x8000000

/-- The core's die holds the line of an IA to write it, with W granted, and its L1s hold no partial sum of it (R193, R227). -/
def Held (s : State) (ia : Nat) : Prop :=
  (s.mem.line (lineOf ia)).canRead (some s.core.die) = true ∧ (s.mem.line (lineOf ia)).canWrite (some s.core.die) = true
    ∧ ((s.mem.line (lineOf ia)).die s.core.die).wp = true ∧ s.mem.reduceKey (lineOf ia) = none

/-- A curve block (R311): LO, INVW, POLICY, and 64 pairs of slope and intercept from byte 64 on. -/
def curveOf (bs : List (BitVec 8)) : Curve :=
  { lo := BitVec.ofNat 32 (leAt bs 0 4), invw := BitVec.ofNat 32 (leAt bs 4 4), clamp := leAt bs 8 4 % 2 == 1
    segs := (List.range 64).map fun i =>
      (BitVec.ofNat 32 (leAt bs (64 + 8 * i) 4), BitVec.ofNat 32 (leAt bs (68 + 8 * i) 4)) }

/-- A word of memory that a core reads through its L1 carries poison (R354, R356). -/
def Poisoned (u : State) (ia a : Nat) : Prop := u.wordBad ia a = true
/-- The bundle at hand has met no broken front while it waited, nor the end of the binding that it waits at (R322, R333). -/
def Unbroken (s : State) : Prop := (s.core.waitBroken = false ∧ s.core.waitDone = false) ∨ s.core.waitOn = none
/-- But for the lines of its stash pages that are valid and dirty (R178). -/
def SpadButLines (s t : State) : Prop := { t.spad with line := s.spad.line } = s.spad
/-- The n lines of a block from an aligned SVA on are there, and no front holds their bytes back (R149, R311). -/
def BlockThere (s : State) (sva n : Nat) (place : Nat → Place) : Prop :=
  Unbroken s ∧ ∀ k, k < n → s.touch (sva + 64 * k) false = .at (place k) ∧ s.chase (sva + 64 * k) 64 = .pass
/-- Its bytes. -/
def blockOf (s : State) (place : Nat → Place) (n : Nat) : List (BitVec 8) :=
  ((List.range n).map fun k => (s.placeRd (place k) 64).1).flatten
/-- The core becomes c; beside it only the pages' stamps change (R171). -/
def OnlyStamps (s t : State) (c : Core) : Prop :=
  t.core = c ∧ t.mem = s.mem ∧ t.eng = s.eng ∧ t.sys = s.sys
    ∧ ∀ o, { t.spadOf o with stamp := [] } = { s.spadOf o with stamp := [] }
/-- LO is not finite, or INVW is not finite and positive: reason 8 (R311). -/
def CurveUnfit (bs : List (BitVec 8)) : Prop :=
  leAt bs 0 4 / 2 ^ 23 % 256 = 255 ∨ leAt bs 4 4 / 2 ^ 23 % 256 = 255 ∨ leAt bs 4 4 = 0 ∨ 2 ^ 31 ≤ leAt bs 4 4
/-- A zero field of a curve block is nonzero: reason 9 (R311). -/
def CurveStray (bs : List (BitVec 8)) : Prop := leAt bs 8 4 / 2 ≠ 0 ∨ leAt bs 12 52 ≠ 0
/-- V, LAST and the zero fields of word b of a branch map (R312). -/
def mapV (bs : List (BitVec 8)) (b : Nat) : Bool := decide (2 ^ 31 ≤ leAt bs (4 * b) 4)
def mapEnd (bs : List (BitVec 8)) (b : Nat) : Nat := leAt bs (4 * b) 4 % 2 ^ 17
def mapZeros (bs : List (BitVec 8)) (b : Nat) : Prop := leAt bs (4 * b) 4 / 2 ^ 24 % 128 = 0 ∧ leAt bs (4 * b) 4 / 2 ^ 17 % 8 = 0
/-- A branch map of n branches (R312, R313). -/
def MapFit (bs : List (BitVec 8)) (n : Nat) : Prop :=
  1 ≤ n ∧ n ≤ 16 ∧ (∀ b, b < 16 → mapV bs b = decide (b < n) ∧ mapZeros bs b)
    ∧ (∀ b, b + 1 < n → mapEnd bs b < mapEnd bs (b + 1)) ∧ ∀ b, b < n → mapEnd bs b ≤ 65535
/-- What R313 refuses with reason 10. -/
def MapUnfit (bs : List (BitVec 8)) : Prop :=
  mapV bs 0 = false ∨ (∃ b, b + 1 < 16 ∧ mapV bs b = false ∧ mapV bs (b + 1) = true) ∨ (∃ b, b < 16 ∧ ¬mapZeros bs b)
    ∨ ∃ b, b + 1 < 16 ∧ mapV bs (b + 1) = true ∧ mapEnd bs (b + 1) ≤ mapEnd bs b
/-- TVAL of 0x21 of SPAN, CURVELD and BMAPLD: the word, the reason and a[SA] (R149). -/
def blockTval (i : Instr) (k sva : Nat) : BitVec 64 :=
  BitVec.ofNat 64 ((sWord i).toNat * 2 ^ 32 + k * 2 ^ 28 + sva % 2 ^ 28)
/-- A command of an earlier bundle than the one at hand (R206, R260, R291). -/
def OfEarlier (s : State) (c : Cmd) : Prop := (s.core.made = 0 ∧ s.core.owed = 0) ∨ c.stamp < s.core.since

/-- Every earlier access of the core has been performed: nothing waits at the memory side, no store is parked, no fault is deferred. -/
def Quiet (s : State) : Prop := s.core.parked = [] ∧ s.core.defrec = [] ∧ ∀ p ∈ s.core.pend, p.waits = none ∧ p.record = none

end Sys2Proof.Claim

section

open Sys2Proof Sys2Proof.Machine Sys2Proof.Safety Sys2Proof.Claim

/-! ### Global memory -/

/-- LD and LDC: the little-endian value at the VA, sign- or zero-extended, is pending for SD; poison travels with it as a deferred
0x30; no byte of memory changes. -/
def Obligations.Loads : Prop :=
  (∀ (w : MForm) (s u : State) (ia a : Nat), (Instr.ld w).wf = true → RdyS s w.p [w.a] [w.d] → Quiet s →
    Reaches s (vaOf s w) needR ia a u →
    ∃ t r, exec (.ld w) s = .next t
      ∧ Pends u t ⟨if w.d = 0 then 0 else s.core.sIdx w.d.toNat, loaded (w.n == 1) (u.mem.rdN a (size w.s)), r, none, w.o == 1⟩
      ∧ (r = none ↔ ¬Poisoned u ia a) ∧ (∀ d, r = some d → d.cause = some 0x30)
      ∧ (∀ b, t.mem.rd b = u.mem.rd b) ∧ SpadButLines u t)
  ∧ ∀ (w : MForm) (s u : State) (ia a : Nat), (Instr.ldc w).wf = true → RdyS s w.p [w.a] [w.d] →
    Reaches s (vaOf s w) needC ia a u → s.ccLine ia = none →
    ∃ t r, exec (.ldc w) s = .next t
      ∧ Pends u t ⟨if w.d = 0 then 0 else s.core.sIdx w.d.toNat, loaded (w.n == 1) (u.mem.rdN a (size w.s)), r, none, false⟩
      ∧ (r = none ↔ u.mem.bad a = false) ∧ (∀ d, r = some d → d.cause = some 0x30)
      ∧ (∀ b, t.mem.rd b = u.mem.rd b) ∧ t.spad = u.spad

/-- A fault of a load is deferred: the load issues, its result lands as a record with the cause, and the first instruction that reads
the register takes that trap; a write of the register discards it. -/
def Obligations.DeferredFaults : Prop :=
  (∀ (w : MForm) (s : State) (c : Nat), (Instr.ld w).wf = true → RdyS s w.p [w.a] [w.d] → Quiet s →
    s.core.translate (vaOf s w) needR = .cause c →
    ∃ t d, exec (.ld w) s = .next t
      ∧ Pends s t ⟨if w.d = 0 then 0 else s.core.sIdx w.d.toNat, 0, some d, none, w.o == 1⟩ ∧ d.cause = some c ∧ d.va = vaOf s w)
  ∧ (∀ (s : State) (k : Nat) (p : SPend), s.core.pend[k]? = some p → p.waits = none → p.dest ≠ 0 →
    exec (.sResultLanding k) s = .next (s.onCore fun c => { c with
      s := sset 0 c.s p.dest p.value, defrec := sset none c.defrec p.dest p.record, pend := c.pend.eraseIdx k }))
  ∧ (∀ (i : Instr) (p : BitVec 4) (n d : BitVec 6) (s : State) (x : DefRec) (c : Nat), scalarOp i = some (p, [n], d) →
    s.core.rdP p.toNat = true → n ≠ 0 → s.core.pending (s.core.sIdx n.toNat) = false →
    (d ≠ 0 → s.core.pending (s.core.sIdx d.toNat) = false) →
    sget none s.core.defrec (s.core.sIdx n.toNat) = some x → x.cause = some c →
    exec i s = .next (s.takeTrap c (BitVec.ofNat 64 x.va) x.stage false))
  ∧ ∀ (c : Core) (n : Nat) (v : BitVec 64), n ≠ 0 → sget none (c.wrS n v).defrec (c.sIdx n) = none

/-- ST: the SIZE low bytes of S[SD] are stored at the VA, little-endian; every other byte of memory, the scratchpad and the engines stand,
and of the core only the pins, the records of parked stores and the audit signature may change. -/
def Obligations.Stores : Prop :=
  ∀ (w : MForm) (s u : State) (ia a : Nat), (Instr.st w).wf = true → RdyS s w.p [w.a, w.d] [] → Quiet s →
    Reaches (s.sign 0 (vaOf s w) (leBytes (size w.s) (S s w.d).toNat)) (vaOf s w) needW ia a u →
    ∃ t, exec (.st w) s = .next t ∧ Stored u t a (size w.s) (S s w.d) ∧ SpadButLines u t ∧ t.eng = u.eng ∧ t.others = u.others
      ∧ { t.core with pins := u.core.pins } = u.core

/-- AMO: one read-modify-write at the VA; the old value is pending for SD, zero-extended. With SD = s0 nothing is pending. -/
def Obligations.Atomics : Prop :=
  ∀ (w : XForm) (s u : State) (ia a : Nat), (Instr.amo w).wf = true →
    RdyS s w.p ([w.a, w.b] ++ if w.aop = 10 then [w.asc] else []) [w.d] → Quiet s →
    s.mem.reduceKey (lineOf ia) = none →
    Reaches s ((S s w.a + BitVec.ofInt 64 w.adisp.toInt).toNat / size w.asize * size w.asize) needRW ia a u →
    ∃ t, exec (.amo w) s = .next t
      ∧ Stored u t a (size w.asize) (BitVec.ofNat 64 (atomic w.aop.toNat (size w.asize) (leNat (u.mem.rdN a (size w.asize)))
          ((S s w.b).toNat % 2 ^ (8 * size w.asize)) ((S s w.asc).toNat % 2 ^ (8 * size w.asize))))
      ∧ (w.d = 0 → t.core.pend = u.core.pend)
      ∧ (w.d ≠ 0 → ∃ r acq, t.core.pend = u.core.pend
          ++ [⟨s.core.sIdx w.d.toNat, BitVec.ofNat 64 (leNat (u.mem.rdN a (size w.asize))), r, none, acq⟩])

/-- LD.PF never faults and changes no byte; CINV empties the constant cache, or drops the line of a VA. -/
def Obligations.PrefetchAndInvalidate : Prop :=
  (∀ (w : MForm) (s : State) (c : Nat), RdyS s w.p [w.a] [] → s.core.translate (vaOf s w) needR = .cause c →
    exec (.ldPf w) s = .next s)
  ∧ (∀ (w : MForm) (s u : State) (ia a : Nat), RdyS s w.p [w.a] [] → Reaches s (vaOf s w) needR ia a u →
    ∃ t, exec (.ldPf w) s = .next t ∧ t.core = u.core ∧ SpadButLines u t ∧ t.eng = u.eng ∧ ∀ b, t.mem.rd b = u.mem.rd b)
  ∧ (∀ (w : RForm) (s : State), RdyS s w.p [w.a] [] → w.f = 0 →
    ∃ t, exec (.cinv w) s = .next t ∧ (∀ ia, ia < 2 ^ 52 → t.ccLine ia = none) ∧ t.core = s.core ∧ t.spad = s.spad ∧ t.eng = s.eng
      ∧ { t.mem with cc := s.mem.cc, ccBad := s.mem.ccBad } = s.mem)
  ∧ ∀ (w : RForm) (s : State) (ia : Nat), RdyS s w.p [w.a] [] → w.f = 1 → s.core.translate (S s w.a).toNat 0 = .ia ia →
    ∃ t, exec (.cinv w) s = .next t ∧ t.core = s.core ∧ t.ccLine ia = none ∧ ∀ b, t.mem.rd b = s.mem.rd b

/-- FENCE, FENCE.E, MWAIT and CWAIT: with every earlier access performed, and for the last three no command of an earlier bundle in the
queues that they name, they only end the pins of the core; with an access outstanding, or such a command queued, they wait; commands of
the own bundle's earlier issues are not waited for; a parked store with a cause raises 0x14. -/
def Obligations.FencesAndWaits : Prop :=
  (∀ (w : RForm) (s : State), RdyS s w.p [] [] → Quiet s →
    exec (.fence w) s = .next (s.onCore fun c => { c with pins := if w.b.toNat / 8 = 0 then c.pins else [] })
    ∧ ((∀ c ∈ s.eng.mq ++ s.eng.c0q ++ s.eng.c1q, ¬OfEarlier s c) →
      exec (.fenceE w) s = .next (s.onCore fun c => { c with pins := if w.b.toNat / 8 = 0 then c.pins else [] }))
    ∧ ((∃ c ∈ s.eng.mq ++ s.eng.c0q ++ s.eng.c1q, OfEarlier s c) →
      exec (.fenceE w) s = .next (s.onCore fun c => { c with cycle := c.cycle + 1 })))
  ∧ (∀ (w : RForm) (s : State) (p : Parked) (r : List Parked), RdyS s w.p [] [] → s.core.parkedReal = p :: r →
    exec (.fence w) s = .next (s.takeTrap 0x14 (BitVec.ofNat 64 p.va) p.stage false))
  ∧ (∀ (w : RForm) (s : State), RdyS s w.p [] [] → s.core.parkedReal = [] → s.core.cancelled = false → (∃ p ∈ s.core.pend, p.waits ≠ none) →
    exec (.fence w) s = .next (s.onCore fun c => { c with cycle := c.cycle + 1 }))
  ∧ (∀ (w : RForm) (s : State), RdyS s w.p [] [] →
    ((∀ c ∈ s.eng.mq, ¬OfEarlier s c) → exec (.mwait w) s = .next s)
    ∧ ((∃ c ∈ s.eng.mq, OfEarlier s c) → exec (.mwait w) s = .next (s.onCore fun c => { c with cycle := c.cycle + 1 })))
  ∧ ∀ (w : RForm) (s : State), (Instr.cwait w).wf = true → RdyS s w.p [] [] →
    ((w.f ≠ 1 → ∀ c ∈ s.eng.c0q, ¬OfEarlier s c) → (w.f ≠ 0 → ∀ c ∈ s.eng.c1q, ¬OfEarlier s c) → exec (.cwait w) s = .next s)
    ∧ (((w.f ≠ 1 ∧ ∃ c ∈ s.eng.c0q, OfEarlier s c) ∨ (w.f ≠ 0 ∧ ∃ c ∈ s.eng.c1q, OfEarlier s c)) →
      exec (.cwait w) s = .next (s.onCore fun c => { c with cycle := c.cycle + 1 }))

/-- CFLUSH changes no byte of memory outside a reduce line; .clean leaves the core's line of the VA clean, .inv drops it, and the third
form sends every token of the line home. -/
def Obligations.CacheFlush : Prop :=
  ∀ (w : RForm) (s u : State) (ia a : Nat), (Instr.cflush w).wf = true → RdyS s w.p [w.a] [] → Quiet s →
    Reaches s (S s w.a).toNat needR ia a u →
    ∃ t, exec (.cflush w) s = .next t ∧ t.core = u.core ∧ t.spad.phys = u.spad.phys ∧ t.eng = u.eng
      ∧ (w.f ≠ 2 → t.spad = u.spad)
      ∧ (w.f = 0 → sget {} t.mem.l1 (coreKey s.core.num ia) = { sget {} u.mem.l1 (coreKey s.core.num ia) with dirty := false }
        ∧ ∀ b, t.mem.rd b = u.mem.rd b)
      ∧ (w.f = 1 → sget {} t.mem.l1 (coreKey s.core.num ia) = {} ∧ ∀ b, t.mem.rd b = u.mem.rd b)
      ∧ (w.f = 2 → (t.mem.line (lineOf ia)).dies = [] ∧ (t.mem.line (lineOf ia)).homeOwner = true
        ∧ ((u.mem.line (lineOf ia)).reduceKey = none → (∀ m ∈ u.mem.msgs, m.line ≠ lineOf ia) → ∀ b, t.mem.rd b = u.mem.rd b))

/-! ### The scratchpad -/

/-- LDS and LDS.RAW read the bytes at the SVA once its page is there; LDS only when no front holds the element back: it stalls on a
running or halted front, and traps on a broken one (0x19), also one that broke while it waited, or an idle one (0x1A). Poison travels
with the register. -/
def Obligations.ScratchpadLoads : Prop :=
  (∀ (i : Instr) (w : MForm) (s : State) (p : Place),
    (i = .lds w ∧ Unbroken s ∧ s.chase (svaOf s w) (size w.s) = .pass ∨ i = .ldsRaw w) → i.wf = true → RdyS s w.p [] [w.d] → Quiet s →
    s.touch (svaOf s w) false = .at p →
    ∃ t r, exec i s = .next t
      ∧ t.core.pend = s.core.pend
        ++ [⟨if w.d = 0 then 0 else s.core.sIdx w.d.toNat, loaded (w.n == 1) (s.placeRd p (size w.s)).1, r, none, false⟩]
      ∧ (r = none ↔ (s.placeRd p (size w.s)).2 = false)
      ∧ { t.core with pend := s.core.pend } = s.core ∧ t.mem = s.mem ∧ t.eng = s.eng
      ∧ ∀ o b, sget 0 (t.spadOf o).phys b = sget 0 (s.spadOf o).phys b)
  ∧ (∀ (w : MForm) (s : State) (p : Place) (o : Owner) (n : Nat), RdyS s w.p [] [w.d] → s.touch (svaOf s w) false = .at p →
    (s.chase (svaOf s w) (size w.s)).lost s = false →
    (Unbroken s → ∀ r b, s.chase (svaOf s w) (size w.s) = .wait o n r b → exec (.lds w) s = .next (s.stallTick (.chase o n r)))
    ∧ (s.core.waitBroken = true → s.core.waitOn = some (o, n) → exec (.lds w) s = .next (s.takeTrap 0x19 (s.frontTval o n) noStage false))
    ∧ (Unbroken s → s.chase (svaOf s w) (size w.s) = .broken o n → exec (.lds w) s = .next (s.takeTrap 0x19 (s.frontTval o n) noStage false))
    ∧ (Unbroken s → s.chase (svaOf s w) (size w.s) = .unbound o n → exec (.lds w) s = .next (s.takeTrap 0x1A (s.frontTval o n) noStage false)))

/-- STS stores the SIZE low bytes of S[SD] at the SVA; AMOS is one read-modify-write there, its old value pending for SD. -/
def Obligations.ScratchpadStores : Prop :=
  (∀ (w : MForm) (s : State) (p : Place), (Instr.sts w).wf = true → RdyS s w.p [w.d] [] → Quiet s →
    s.touch (svaOf s w) true = .at p →
    ∃ t, exec (.sts w) s = .next t ∧ StoredAt s t p (size w.s) (leBytes (size w.s) (S s w.d).toNat) ∧ t.eng = s.eng
      ∧ t.core.pend = s.core.pend ∧ t.core.s = s.core.s)
  ∧ ∀ (w : XForm) (s : State) (p : Place) (a : Nat), (Instr.amos w).wf = true →
    RdyS s w.p ([w.b] ++ if w.aop = 10 then [w.asc] else []) [w.d] → Quiet s →
    a = (s.core.rdA w.a.toNat + BitVec.ofInt 32 w.adisp.toInt).toNat / size w.asize * size w.asize →
    s.touch a true = .at p → Unbroken s → s.chase a (size w.asize) = .pass →
    ∃ t r, exec (.amos w) s = .next t
      ∧ StoredAt s t p (size w.asize) (leBytes (size w.asize) (atomic w.aop.toNat (size w.asize)
          (leNat (s.placeRd p (size w.asize)).1)
          ((S s w.b).toNat % 2 ^ (8 * size w.asize)) ((S s w.asc).toNat % 2 ^ (8 * size w.asize))))
      ∧ t.core.pend = s.core.pend
        ++ [⟨if w.d = 0 then 0 else s.core.sIdx w.d.toNat, BitVec.ofNat 64 (leNat (s.placeRd p (size w.asize)).1), r, none,
          w.aord.getLsbD 0⟩]

/-- The page instructions. On a mapped own page: SPUNPIN clears PIN; SPPIN of a resident page sets it and writes 1, or writes 0 at the
limit of 448 pins; SPEVICT of a pinned, non-resident or used page writes 0, of a clean page frees it and writes 1; SPFETCH of a
resident page changes nothing, and of another starts the page-in, which its waiting form stalls for in the order of arrival. SPMAP writes a fresh entry V 1,
SHARED 1, STASH by FN, with the IA page number; SPUNMAP clears V and PIN and frees the physical page, and its .drop
discards what a stash page's dirty lines hold; STFLUSH writes the dirty lines of a stash page, or of every one, to L2 and leaves them
clean, and valid where the die holds them, and of a page that is no stash page changes nothing. -/
def Obligations.Pages : Prop :=
  (∀ (w : RForm) (s : State) (e : BitVec 64), OwnPage s w.a → s.spad.entry (pageOf s w.a) = e → e.getLsbD 63 = true →
    (RdyS s w.p [] [] → exec (.spunpin w) s = .next (s.onSpad fun sp => sp.setEntry (pageOf s w.a) (e &&& ~~~(1#64 <<< 61))))
    ∧ (RdyS s w.p [] [w.d] → e.getLsbD 62 = true → (e.getLsbD 61 = true ∨ s.spad.pinned < 448) →
      exec (.sppin w) s = .next ((s.onSpad fun sp => sp.setEntry (pageOf s w.a) (e ||| (1#64 <<< 61))).onCore
        fun c => c.wrS w.d.toNat 1))
    ∧ (RdyS s w.p [] [w.d] → e.getLsbD 61 = false → 448 ≤ s.spad.pinned → exec (.sppin w) s = .next (put s w.d 0))
    ∧ (RdyS s w.p [] [w.d] → (e.getLsbD 61 = true ∨ e.getLsbD 62 = false ∨ underFront s.eng.fc (pageOf s w.a) = true) →
      exec (.spevict w) s = .next (put s w.d 0))
    ∧ (RdyS s w.p [] [] → (Instr.spfetch w).wf = true → e.getLsbD 62 = true → exec (.spfetch w) s = .next s)
    ∧ (∀ t, RdyS s w.p [] [] → e.getLsbD 62 = false → s.pageIn none (pageOf s w.a) = .done t →
      (t.spad.entry (pageOf s w.a)).getLsbD 62 = true ∧ (w.f = 1 → exec (.spfetch w) s = .next t))
    ∧ (∀ t u q, RdyS s w.p [] [] → w.f = 0 → e.getLsbD 62 = false → s.waitPage none (pageOf s w.a) = (q, u) →
      (u.pageTurn q = true → u.pageIn none (pageOf s w.a) = .done t → exec (.spfetch w) s = .next (t.stallTick .page))
      ∧ (u.pageTurn q = false → exec (.spfetch w) s = .next (u.stallTick .page)))
    ∧ (∀ p, RdyS s w.p [] [] → w.f = 1 → e.getLsbD 62 = false → e.getLsbD 60 = true → s.spad.freePage = some p →
      ∃ t, exec (.spfetch w) s = .next t ∧ (t.spad.entry (pageOf s w.a)).getLsbD 62 = true
        ∧ sptPpage (t.spad.entry (pageOf s w.a)) = p ∧ t.core = s.core ∧ t.mem = s.mem ∧ t.eng = s.eng
        ∧ ∀ k, k ≠ pageOf s w.a → t.spad.entry k = s.spad.entry k))
  ∧ ((∀ (w : RForm) (s : State) (ia : Nat), (Instr.spmap w).wf = true → RdyS s w.p [w.b] [] → OwnPage s w.a →
    (S s w.b).toNat % 4096 = 0 → s.pinnedPage none (pageOf s w.a) = false →
    (∀ a ∈ rangeCuts s.core.rg (S s w.b).toNat 4096, ∃ x, s.core.translate a needRW = .ia x) →
    s.core.translate (S s w.b).toNat needRW = .ia ia → (s.spad.entry (pageOf s w.a)).getLsbD 63 = false →
    ∃ e, exec (.spmap w) s = .next (s.onSpad fun sp => sp.setEntry (pageOf s w.a) e)
      ∧ e.toNat = 2 ^ 63 + 2 ^ 58 + (if w.f = 1 then 2 ^ 60 else 0) + ia / 4096 % 2 ^ 40)
  ∧ (∀ (w : RForm) (s : State), (Instr.spunmap w).wf = true → RdyS s w.p [] [] → OwnPage s w.a →
    (s.spad.entry (pageOf s w.a)).getLsbD 63 = true → s.pinnedPage none (pageOf s w.a) = false →
    (w.f = 1 ∨ (s.spad.entry (pageOf s w.a)).getLsbD 62 = false) →
    ∃ t, exec (.spunmap w) s = .next t ∧ (t.spad.entry (pageOf s w.a)).getLsbD 63 = false
      ∧ (t.spad.entry (pageOf s w.a)).getLsbD 62 = false ∧ (t.spad.entry (pageOf s w.a)).getLsbD 61 = false
      ∧ t.core = s.core ∧ (∀ k, k ≠ pageOf s w.a → t.spad.entry k = s.spad.entry k)
      ∧ t.mem = (if (s.spad.entry (pageOf s w.a)).getLsbD 62 = true ∧ (s.spad.entry (pageOf s w.a)).getLsbD 60 = true
          then (dirtyLines s.spad (s.spad.entry (pageOf s w.a))).foldl
            (fun (m : Mem) ia => m.dropUnder ((m.line (lineOf ia)).pa + ia % 256) 64) s.mem
          else s.mem))
  ∧ (∀ (w : RForm) (s : State), (Instr.spevict w).wf = true → RdyS s w.p [] [w.d] → OwnPage s w.a →
    (s.spad.entry (pageOf s w.a)).getLsbD 63 = true → (s.spad.entry (pageOf s w.a)).getLsbD 62 = true →
    (s.spad.entry (pageOf s w.a)).getLsbD 61 = false → (s.spad.entry (pageOf s w.a)).getLsbD 60 = false →
    (s.spad.entry (pageOf s w.a)).getLsbD 59 = false → s.pinnedPage none (pageOf s w.a) = false →
    ∃ t, exec (.spevict w) s = .next t ∧ t.core = s.core.wrS w.d.toNat 1 ∧ (t.spad.entry (pageOf s w.a)).getLsbD 62 = false
      ∧ t.mem = s.mem)
  ∧ (∀ (w : RForm) (s : State), (Instr.stflush w).wf = true → RdyS s w.p [] [] → w.f = 0 → OwnPage s w.a →
    (s.spad.entry (pageOf s w.a)).getLsbD 63 = true →
    ((s.spad.entry (pageOf s w.a)).getLsbD 60 = false → exec (.stflush w) s = .next s)
    ∧ ∀ u, (s.spad.entry (pageOf s w.a)).getLsbD 60 = true → (s.spad.entry (pageOf s w.a)).getLsbD 62 = true →
      s.writePage none (pageOf s w.a) = (none, u) →
      exec (.stflush w) s = .next u ∧ u.core = s.core ∧ u.eng = s.eng ∧ u.spad.phys = s.spad.phys ∧ u.spad.spt = s.spad.spt
        ∧ ∀ k, (sptPpage (s.spad.entry (pageOf s w.a))) * 64 ≤ k → k < (sptPpage (s.spad.entry (pageOf s w.a))) * 64 + 64 →
          (sget 0 u.spad.line k).getLsbD 1 = false
          ∧ ((∀ ia ∈ dirtyLines s.spad (s.spad.entry (pageOf s w.a)), Held s ia) →
            (sget 0 u.spad.line k).getLsbD 0 = (sget 0 s.spad.line k).getLsbD 0))
  ∧ ∀ (w : RForm) (s : State), (Instr.stflush w).wf = true → RdyS s w.p [] [] → w.f = 1 →
    (s.spad.stashPages = [] → exec (.stflush w) s = .next s)
    ∧ ∀ (pg : Nat) (u : State), s.spad.stashPages = [pg] → s.writePage none pg = (none, u) → exec (.stflush w) s = .next u)

/-- SPAN, CURVELD and BMAPLD read their block and write a descriptor, a curve or a branch map; beside it only stamps of pages change. A
block that is not aligned (reason 5), and one that R149, R311 or R313 refuses, raises 0x21 with its reason in TVAL; CURVELD waits while
a queued MMAD names its curve. -/
def Obligations.BlockLoads : Prop :=
  (∀ (w : RForm) (s : State) (place : Nat → Place) (bs : List (BitVec 8)), RdyS s w.p [] [] → (s.core.rdA w.a.toNat).toNat % 64 = 0 →
    BlockThere s (s.core.rdA w.a.toNat).toNat 1 place → blockOf s place 1 = bs →
    (∀ rp wp, s.core.spanReason bs (parseSpan bs) = none → s.core.spanBounds (parseSpan bs) = some (rp, wp) →
      ∃ t, exec (.span w) s = .next t ∧ OnlyStamps s t (s.core.wrD w.d.toNat
        { parseSpan bs with valid := true, inj := (parseSpan bs).injTest, rp := rp, wp := wp }))
    ∧ (∀ k, s.core.spanReason bs (parseSpan bs) = some k →
      exec (.span w) s = .next (s.takeTrap 0x21 (blockTval (.span w) k (s.core.rdA w.a.toNat).toNat) noStage false)))
  ∧ (∀ (w : RForm) (s : State) (place : Nat → Place) (bs : List (BitVec 8)), RdyS s w.p [] [] → (s.core.rdA w.a.toNat).toNat % 64 = 0 →
    s.eng.curveBusy w.d.toNat = false → BlockThere s (s.core.rdA w.a.toNat).toNat 9 place → blockOf s place 9 = bs →
    (¬CurveUnfit bs → ¬CurveStray bs →
      ∃ t, exec (.curveld w) s = .next t ∧ OnlyStamps s t { s.core with curve := sset {} s.core.curve w.d.toNat (curveOf bs) })
    ∧ (CurveUnfit bs →
      exec (.curveld w) s = .next (s.takeTrap 0x21 (blockTval (.curveld w) 8 (s.core.rdA w.a.toNat).toNat) noStage false))
    ∧ (¬CurveUnfit bs → CurveStray bs →
      exec (.curveld w) s = .next (s.takeTrap 0x21 (blockTval (.curveld w) 9 (s.core.rdA w.a.toNat).toNat) noStage false)))
  ∧ (∀ (w : RForm) (s : State), RdyS s w.p [] [] → s.eng.curveBusy w.d.toNat = true →
    exec (.curveld w) s = .next (s.onCore fun c => { c with cycle := c.cycle + 1 }))
  ∧ (∀ (w : RForm) (s : State) (place : Nat → Place) (bs : List (BitVec 8)), RdyS s w.p [] [] → (s.core.rdA w.a.toNat).toNat % 64 = 0 →
    BlockThere s (s.core.rdA w.a.toNat).toNat 1 place → blockOf s place 1 = bs →
    (∀ n, MapFit bs n → ∃ t, exec (.bmapld w) s = .next t ∧ OnlyStamps s t { s.core with
      bmap := sset none s.core.bmap w.d.toNat (some ((List.range 16).map fun b => BitVec.ofNat 32 (leAt bs (4 * b) 4))) })
    ∧ (MapUnfit bs →
      exec (.bmapld w) s = .next (s.takeTrap 0x21 (blockTval (.bmapld w) 10 (s.core.rdA w.a.toNat).toNat) noStage false)))
  ∧ ∀ (w : RForm) (s : State) (i : Instr), i = .span w ∨ (i = .curveld w ∧ s.eng.curveBusy w.d.toNat = false) ∨ i = .bmapld w →
    RdyS s w.p [] [] → (s.core.rdA w.a.toNat).toNat % 64 ≠ 0 →
    exec i s = .next (s.takeTrap 0x21 (blockTval i 5 (s.core.rdA w.a.toNat).toNat) noStage false)

/-! ### Fronts and barriers -/

/-- FWAIT on an own front by its state and VALUE, and by the end that the binding it waits at has met; its memory form by a mirror word; AMAXRD, by itself and after such a wait; FSTAT
reads word 0, LIMIT or word 1 of an own front; FPUB.off ends its publication, and either form on an idle front raises 0x1A; FRESET makes an ended front idle with its tags cleared,
and breaks a live one with cause 10. -/
def Obligations.Fronts : Prop :=
  ((∀ (w : RForm) (s : State) (f : Front), RdyS s w.p [w.b] [] → w.a = 0 → s.front w.d.toNat = f →
    Unbroken s →
    ((f.state = .complete ∨ ((f.state = .running ∨ f.state = .halted) ∧ (S s w.b).toNat ≤ f.value)) → exec (.fwait w) s = .next s)
    ∧ (f.state = .idle → exec (.fwait w) s = .next (s.takeTrap 0x1A (s.frontTval none w.d.toNat) noStage false))
    ∧ (f.state = .broken → exec (.fwait w) s = .next (s.takeTrap 0x19 (s.frontTval none w.d.toNat) noStage false))
    ∧ ((f.state = .running ∨ f.state = .halted) → f.value < (S s w.b).toNat →
      exec (.fwait w) s = .next (s.stallTick (.chase none w.d.toNat (S s w.b).toNat))))
  ∧ (∀ (w : RForm) (s : State), RdyS s w.p [w.b] [] → w.a = 0 → s.core.waitOn = some (none, w.d.toNat) →
    (s.core.waitBroken = true → exec (.fwait w) s = .next (s.takeTrap 0x19 (s.frontTval none w.d.toNat) noStage false))
    ∧ (s.core.waitBroken = false → s.core.waitDone = true → exec (.fwait w) s = .next s))
  ∧ (∀ (w : XForm) (s u : State) (ia a : Nat) (x : BitVec 64), RdyS s w.p [w.a, w.b] [w.d] → (S s w.a).toNat % 8 = 0 →
    s.core.parked = [] → Reaches s (S s w.a).toNat needR ia a u → ¬Poisoned u ia a → u.mem.rd64 a = x →
    (x.toNat / 2 ^ 61 = 3 ∨ x.toNat / 2 ^ 61 = 4 ∨ (S s w.b).toNat ≤ x.toNat % 2 ^ 48) →
    ∃ t, exec (.fwaitMemory w) s = .next t ∧ t.core = u.core.wrS w.d.toNat x ∧ ∀ b, t.mem.rd b = u.mem.rd b)
  ∧ (∀ (w : RForm) (s : State), RdyS s w.p [] [w.d] →
    exec (.amaxrd w) s = .next (put s w.d ((sget 0 s.eng.amax w.a.toNat).zeroExtend 64)))
  ∧ ∀ (w : XForm) (s : State) (f : Front), RdyS s w.p [w.b] [w.d] → s.front (w.ext.toNat % 64) = f → Unbroken s →
    (f.state = .complete ∨ (f.state = .running ∧ (S s w.b).toNat ≤ f.value)) →
    exec (.amaxrdFront w) s = .next (put s w.d ((sget 0 s.eng.amax w.a.toNat).zeroExtend 64)))
  ∧ ((∀ (w : RForm) (s : State) (f : Front), RdyS s w.p [] [w.d] → (Instr.fstat w).wf = true → w.a = 0 → s.front w.b.toNat = f →
    f.value < 2 ^ 48 → f.limit < 2 ^ 48 →
    ∃ v, exec (.fstat w) s = .next (put s w.d v)
      ∧ (w.f = 0 → v.toNat = f.gen.toNat * 2 ^ 48 + f.value) ∧ (w.f = 1 → v.toNat = f.limit)
      ∧ (w.f = 2 → v.toNat / 2 ^ 61 = f.state.code ∧ v.toNat % 2 ^ 48 = f.limit ∧ v.toNat / 2 ^ 57 % 16 = f.cause % 16))
  ∧ (∀ (w : XForm) (s : State), RdyS s w.p [] [] → w.ext.getLsbD 0 = true →
    ((s.front w.d.toNat).state ≠ .idle → exec (.fpub w) s = .next (s.setFront w.d.toNat { s.front w.d.toNat with pub := false }))
    ∧ ((s.front w.d.toNat).state = .idle → exec (.fpub w) s = .next (s.takeTrap 0x1A (s.frontTval none w.d.toNat) noStage false)))
  ∧ (∀ (w : XForm) (s : State) (ia : Nat), RdyS s w.p [w.a] [] → w.ext.getLsbD 0 = false → (S s w.a).toNat % 8 = 0 →
    s.core.translate (S s w.a).toNat needW = .ia ia → (s.front w.d.toNat).state = .idle →
    exec (.fpub w) s = .next (s.takeTrap 0x1A (s.frontTval none w.d.toNat) noStage false))
  ∧ (∀ (w : XForm) (s u : State) (ia a : Nat), RdyS s w.p [w.a] [] → w.ext.getLsbD 0 = false → (S s w.a).toNat % 8 = 0 →
    ((s.front w.d.toNat).state = .running ∨ (s.front w.d.toNat).state = .halted) → (s.front w.d.toNat).mwait = none →
    Reaches (s.setFront w.d.toNat (published s w)) (S s w.a).toNat needW ia a u → u.mirrorBad w.d.toNat = false →
    ∃ t, exec (.fpub w) s = .next t ∧ t.core = u.core ∧ t.eng = u.eng
      ∧ Stored u t a 8 (BitVec.ofNat 64 ((s.front w.d.toNat).state.code * 2 ^ 61 + (s.front w.d.toNat).value % 2 ^ 48)))
  ∧ ∀ (w : RForm) (s : State), RdyS s w.p [] [] →
    ∃ t, exec (.freset w) s = .next t
      ∧ (((s.front w.d.toNat).state = .running ∨ (s.front w.d.toNat).state = .halted) →
        (t.front w.d.toNat).state = .broken ∧ (t.front w.d.toNat).cause = 10 ∧ (t.front w.d.toNat).pub = false)
      ∧ (((s.front w.d.toNat).state ≠ .running ∧ (s.front w.d.toNat).state ≠ .halted) →
        (t.front w.d.toNat).state = .idle ∧ (t.front w.d.toNat).cause = 0 ∧ (t.front w.d.toNat).pub = false
          ∧ (t.front w.d.toNat).tagged = false))

/-- A scratchpad barrier of 16 bytes: BARINIT sets EXPECT and clears ARRIVED; BARADD adds to ARRIVED and writes the sum to SD, or raises
0x22 where the sum would pass EXPECT; BARWAIT goes on when ARRIVED equals EXPECT, or did while it waited, and else waits. -/
def Obligations.Barriers : Prop :=
  ∀ (w : RForm) (s : State) (a : Nat) (p : Place), w.f = 0 → a = (s.core.rdA w.a.toNat).toNat → a % 16 = 0 → Quiet s →
    (RdyS s w.p [w.b] [] → s.touch a true = .at p →
      ∃ t, exec (.barinit w) s = .next t ∧ StoredAt s t p 16 (leBytes 8 (S s w.b).toNat ++ leBytes 8 0))
    ∧ (RdyS s w.p [w.b] [w.d] → s.touch a true = .at p →
      leAt (s.placeRd p 16).1 8 8 + (S s w.b).toNat ≤ leAt (s.placeRd p 16).1 0 8 →
      ∃ t, exec (.baradd w) s = .next t
        ∧ StoredAt s t p 16 (leBytes 8 (leAt (s.placeRd p 16).1 0 8) ++ leBytes 8 (leAt (s.placeRd p 16).1 8 8 + (S s w.b).toNat))
        ∧ (w.d ≠ 0 → t.core.rdS w.d.toNat = BitVec.ofNat 64 (leAt (s.placeRd p 16).1 8 8 + (S s w.b).toNat)))
    ∧ (RdyS s w.p [w.b] [w.d] → s.touch a true = .at p →
      leAt (s.placeRd p 16).1 0 8 < leAt (s.placeRd p 16).1 8 8 + (S s w.b).toNat →
      exec (.baradd w) s = .next (s.takeTrap 0x22 (BitVec.ofNat 64 a) noStage false))
    ∧ (RdyS s w.p [] [] → s.touch a false = .at p →
      (leAt (s.placeRd p 16).1 0 8 = leAt (s.placeRd p 16).1 8 8 ∨ s.core.barMet = true → exec (.barwait w) s = .next (s.stampPage p))
      ∧ (leAt (s.placeRd p 16).1 0 8 ≠ leAt (s.placeRd p 16).1 8 8 → s.core.barMet = false →
        exec (.barwait w) s = .next (s.onCore fun c => { c with cycle := c.cycle + 1, waitBar := some (false, a) })))

/-! ### Work -/

/-- QPOST inserts an entry with the group's tag behind entries of its key or less; QTAKE takes the only entry of a queue, which the first
of its overflow replaces, or with .try answers 0 and all ones from an empty one, on which it waits without; a queue of another partition raises 0x13. -/
def Obligations.TaskQueues : Prop :=
  (∀ (w : RForm) (s : State) (q : Nat), RdyS s w.p [w.a, w.b] [] → q = (S s w.a).toNat / 2 ^ 56 % 128 → Quiet s →
    (s.part s.core.partNo).clusters.contains q = true → (sget [] s.sys.queues q).length < 2048 →
    ∃ t l r, exec (.qpost w) s = .next t ∧ sget [] s.sys.queues q = l ++ r
      ∧ sget [] t.sys.queues q = l ++ [⟨s.core.rqtag, (S s w.a).toNat % 2 ^ 48, S s w.b, s.core.node.toNat⟩] ++ r
      ∧ (∀ x ∈ r.head?, (S s w.a).toNat % 2 ^ 48 < x.key) ∧ (∀ x ∈ l, x.key ≤ (S s w.a).toNat % 2 ^ 48)
      ∧ t.mem = s.mem ∧ t.core.s = s.core.s)
  ∧ (∀ (w : RForm) (s : State) (q : Nat) (x : Task), (Instr.qtake w).wf = true → RdyS s w.p [w.a] [w.d, w.b] →
    q = (S s w.a).toNat % 128 → (s.part s.core.partNo).clusters.contains q = true → sget [] s.sys.queues q = [x] →
    ∃ t, exec (.qtake w) s = .next t ∧ sget [] t.sys.queues q = (sget [] s.sys.overflow q).take 1
      ∧ sget [] t.sys.overflow q = (sget [] s.sys.overflow q).drop 1
      ∧ t.core = (s.core.wrS w.d.toNat x.payload).wrS w.b.toNat (BitVec.ofNat 64 (x.tag.toNat * 2 ^ 48 + x.key)))
  ∧ (∀ (w : RForm) (s : State) (q : Nat), w.f = 1 → RdyS s w.p [w.a] [w.d, w.b] → q = (S s w.a).toNat % 128 →
    (s.part s.core.partNo).clusters.contains q = true → sget [] s.sys.queues q = [] →
    exec (.qtake w) s = .next (s.onCore fun c => (c.wrS w.d.toNat 0).wrS w.b.toNat (BitVec.allOnes 64)))
  ∧ (∀ (w : RForm) (s : State) (q : Nat), w.f = 0 → RdyS s w.p [w.a] [w.d, w.b] → q = (S s w.a).toNat % 128 →
    (s.part s.core.partNo).clusters.contains q = true → sget [] s.sys.queues q = [] →
    exec (.qtake w) s = .next ((s.setWaiting (some (true, q))).stallTick .other))
  ∧ ∀ (w : RForm) (s : State), RdyS s w.p [w.a, w.b] [] →
    (s.part s.core.partNo).clusters.contains ((S s w.a).toNat / 2 ^ 56 % 128) = false →
    exec (.qpost w) s = .next (s.takeTrap 0x13 (S s w.a) noStage false)

/-- SIGNAL takes one from COUNT of the event at its VA, keeps the first nonzero class, and sets STATE when COUNT is 0 (R271); EVWAIT reads an
event whose STATE is set, and else waits; SPAWN writes 1 when the block was linked and 0 when not; YIELD with no gang waiting for its
cores writes 0 and ends the pins. -/
def Obligations.EventsAndSpawn : Prop :=
  (∀ (w : RForm) (s u : State) (ia a c x cls : Nat), (Instr.signal w).wf = true →
    RdyS s w.p (if w.f = 1 then [w.a, w.b] else [w.a]) [] → Quiet s →
    Reaches (s.onCore fun c => { c with pins := [] }) ((S s w.a).toNat / 64 * 64) needW ia a u →
    (u.mem.line (lineOf ia)).reduceKey = none → (∀ m ∈ u.mem.msgs, m.line ≠ lineOf ia) →
    cls = (if w.f = 1 then (S s w.b).toNat % 16 else 0) → (u.mem.rd64 a).toNat = c → (u.mem.rd64 (a + 8)).toNat = x →
    (u.mem.rd64 (a + 0x30)).getLsbD 63 = false →
    ∃ t, exec (.signal w) s = .next t ∧ (t.mem.rd64 a).toNat = c - 1
      ∧ (t.mem.rd64 (a + 8)).toNat / 16 % 16 = (if x / 16 % 16 = 0 then cls else x / 16 % 16)
      ∧ (t.mem.rd64 (a + 8)).toNat % 4
        = (if c ≤ 1 then max (x % 4) (if (if x / 16 % 16 = 0 then cls else x / 16 % 16) = 0 then 1 else 2) else x % 4)
      ∧ (∀ b, (b < a ∨ a + 16 ≤ b) → t.mem.rd b = u.mem.rd b) ∧ t.core = u.core ∧ t.eng = u.eng)
  ∧ (∀ (w : RForm) (s u : State) (ia a : Nat), RdyS s w.p [w.a] [w.d] → Reaches s ((S s w.a).toNat / 64 * 64) needR ia a u →
    ((u.mem.rd64 (a + 8)).toNat % 4 ≠ 0 → exec (.evwait w) s = .next (put u w.d (u.mem.rd64 (a + 8))))
    ∧ ((u.mem.rd64 (a + 8)).toNat % 4 = 0 → u.mem.rd64 a ≠ 0 →
      exec (.evwait w) s = .next ((s.setWaiting (some (false, ia % 2 ^ 47))).stallTick .other)))
  ∧ (∀ (w : RForm) (s u : State) (ia a : Nat), RdyS s w.p [w.a] [w.d] → Quiet s → Reaches s (S s w.a).toNat needRW ia a u →
    ((u.onCore fun c => { c with pins := [] }).nodeState s.core.partNo s.core.node.toNat = 4
      ∨ (u.mem.rd64 (a + 8)).toNat % 2 ^ 56 ≠ s.core.node.toNat ∨ (S s w.a).toNat % 256 ≠ 0) →
    exec (.spawn w) s = .next (put (u.onCore fun c => { c with pins := [] }) w.d 0))
  ∧ (∀ (w : RForm) (s u v : State) (ia a pa : Nat), RdyS s w.p [w.a] [w.d] → Quiet s → Reaches s (S s w.a).toNat needRW ia a u →
    (u.onCore fun c => { c with pins := [] }).nodeState s.core.partNo s.core.node.toNat ≠ 4 →
    (u.mem.rd64 (a + 8)).toNat % 2 ^ 56 = s.core.node.toNat → (S s w.a).toNat % 256 = 0 →
    (u.onCore fun c => { c with pins := [] }).ctlPa s.core.partNo (s.core.node.toNat + 0x10) needRW = (some pa, v) →
    ∃ t, exec (.spawn w) s = .next t ∧ t.core = v.core.wrS w.d.toNat 1 ∧ (t.part s.core.partNo).roundDue = true ∧ t.eng = v.eng)
  ∧ ∀ (w : RForm) (s : State), RdyS s w.p [] [w.d] → s.core.after = none →
    (s.onCore fun c => { c with pins := [] }).yieldsTo = false →
    exec (.yield w) s = .next (put (s.onCore fun c => { c with pins := [] }) w.d 0)

end

namespace Sys2Proof.Claim

open Sys2Proof Sys2Proof.Machine Sys2Proof.Safety

/-- No lane of the named registers that the predicate picks fails its parity check. -/
def NoBad (s : State) (v : BitVec 1) (pick : Nat → Bool) (names : List (BitVec 6)) : Prop :=
  ∀ n ∈ names, ∀ l, l < 64 → pick l = true → sget false s.core.bad (badIdx v.toNat (s.core.vPhys v n) l) = false

/-- The encoding of lane l of a named register, by the width of a type (R93). -/
def enc (s : State) (w : VForm) (n : BitVec 6) (l : Nat) : Nat := ((s.core.vReg w.v n).getD l 0).toNat % 2 ^ vWidth w.t
/-- The value of an encoding of a floating-point type. -/
abbrev fval (w : VForm) (x : Nat) : Val := (fmtOf (vTypeCode w.t.toNat)).val x
/-- Delivery of an exact result in VRM's mode, its flags joined (R99, R102). -/
def rounded (s : State) (w : VForm) (sat : Bool) (l : Nat) (vs : List Val) (r : Val × Fl) : Nat × Fl :=
  let e := (fmtOf (vTypeCode w.t.toNat)).deliver sat r.1 (s.core.laneMode s.core.rm l)
  (e.1, r.2 ||| e.2 ||| sigFlag vs)
/-- An exact sum, its zero sign by VRM's mode. -/
def sumOf (s : State) (vs : List Val) : Val × Fl := exactSum vs (s.core.rm == 2)

/-- Only the vector results in flight and the count of stochastic draws differ. -/
def OnlyFlight (s t : State) : Prop := { t with core := { t.core with vfly := s.core.vfly, srcnt := s.core.srcnt } } = s

/-- A result of slot w.v joins those in flight: cluster, register, lanes, issue cycles, and the data and flags of each lane that the
mask enables (R97). -/
def Flies (s t : State) (i : Instr) (v cl : BitVec 1) (dest : Nat) (mask : BitVec 64) (lat : Nat) (lane : Nat → Nat × Fl) : Prop :=
  ∃ r, t.core.vfly = s.core.vfly ++ [r] ∧ r.kind = .vec ∧ r.slot = v ∧ r.cl = cl ∧ r.dest = dest ∧ r.mask = mask ∧ r.rem = lat
    ∧ encode i = some (.word (vSlot v) r.word none) ∧ r.acc = none ∧ r.bad = 0
    ∧ ∀ l, l < 64 → mask.getLsbD l = true → r.data.getD l 0 = BitVec.ofNat 32 (lane l).1 ∧ r.lfl.getD l 0 = (lane l).2

/-- A lane-wise instruction: its word, the types of the row, the issue cycles, whether it rounds in VRM's mode, the registers it
reads, and what lane l gets from the encodings of VA, VB and VD there. -/
structure LaneRow where
  build : VForm → Instr
  types : BitVec 3 → Bool
  lat : Nat
  rounds : Bool
  reads : VForm → List (BitVec 6)
  lane : State → VForm → Nat → Nat → Nat → Nat → Nat × Fl

abbrev readA (w : VForm) : List (BitVec 6) := [w.a]
abbrev readAB (w : VForm) : List (BitVec 6) := [w.a, w.b]
abbrev readABD (w : VForm) : List (BitVec 6) := [w.a, w.b, w.d]
abbrev readShift (w : VForm) : List (BitVec 6) := if w.u = 1 then [w.a] else [w.a, w.b]

/-- Floating-point lanes (R102, R104, R105). -/
def floatRows : List LaneRow :=
  [⟨.vadd, isFType, 3, true, readAB, fun s w l x y _ =>
      rounded s w (w.u == 1) l [fval w x, fval w y] (sumOf s [fval w x, fval w y])⟩,
   ⟨.vsub, isFType, 3, true, readAB, fun s w l x y _ =>
      rounded s w (w.u == 1) l [fval w x, fval w y] (sumOf s [fval w x, (fval w y).neg])⟩,
   ⟨.vmul, isFType, 5, true, readAB, fun s w l x y _ =>
      rounded s w (w.u == 1) l [fval w x, fval w y] ((fval w x).mul (fval w y))⟩,
   ⟨.vfma, isFType, 5, true, readABD, fun s w l x y d =>
      let p := (fval w x).mul (fval w y)
      let r := sumOf s [p.1, fval w d]
      rounded s w (w.u == 1) l [fval w x, fval w y, fval w d] (r.1, p.2 ||| r.2)⟩,
   ⟨.vfms, isFType, 5, true, readABD, fun s w l x y d =>
      let p := (fval w x).mul (fval w y)
      let r := sumOf s [p.1, (fval w d).neg]
      rounded s w (w.u == 1) l [fval w x, fval w y, fval w d] (r.1, p.2 ||| r.2)⟩,
   ⟨.vfnma, isFType, 5, true, readABD, fun s w l x y d =>
      let p := (fval w x).mul (fval w y)
      let r := sumOf s [p.1.neg, fval w d]
      rounded s w (w.u == 1) l [fval w x, fval w y, fval w d] (r.1, p.2 ||| r.2)⟩,
   ⟨.vdiv, isFType, 14, true, readAB, fun s w l x y _ =>
      rounded s w (w.u == 1) l [fval w x, fval w y] ((fval w x).div (fval w y))⟩,
   ⟨.vsqrt, isFType, 14, true, readA, fun s w l x _ _ => rounded s w false l [fval w x] (fval w x).sqrt⟩,
   ⟨.vrcp, isFType, 6, true, readA, fun s w l x _ _ =>
      let r := rounded s w false l [fval w x] (rcpVal (fval w x))
      (r.1, r.2 &&& ~~~flInexact)⟩,
   ⟨.vrsq, isFType, 6, true, readA, fun s w l x _ _ =>
      let r := rounded s w false l [fval w x] (rsqVal (fval w x))
      (r.1, r.2 &&& ~~~flInexact)⟩,
   ⟨.vabs, isFType, 2, false, readA, fun _ w _ x _ _ => (x % 2 ^ (vWidth w.t - 1), 0)⟩,
   ⟨.vneg, isFType, 2, false, readA, fun _ w _ x _ _ => (x ^^^ 2 ^ (vWidth w.t - 1), 0)⟩,
   ⟨.vmin, isFType, 3, false, readAB, fun _ w _ x y _ =>
      (((fmtOf (vTypeCode w.t.toNat)).round (Val.minmax false (fval w x) (fval w y)) rne).1, sigFlag [fval w x, fval w y])⟩,
   ⟨.vmax, isFType, 3, false, readAB, fun _ w _ x y _ =>
      (((fmtOf (vTypeCode w.t.toNat)).round (Val.minmax true (fval w x) (fval w y)) rne).1, sigFlag [fval w x, fval w y])⟩,
   ⟨.vcurve, fun t => t == 0, 7, false, readA, fun s w _ x _ _ =>
      let k := s.core.rdCurve (w.b.toNat % 16)
      if w.u = 1 then k.slope (fp32.val x) else k.value (fp32.val x)⟩]

/-- The signed and the unsigned reading of an n-bit pattern. -/
abbrev sv (w : VForm) (x : Nat) : Int := (BitVec.ofNat (vWidth w.t) x).toInt
abbrev uv (_ : VForm) (x : Nat) : Int := (x : Int)
/-- The low n bits of an integer. -/
abbrev low (w : VForm) (k : Int) : Nat := (BitVec.ofInt (vWidth w.t) k).toNat
/-- Saturation to the signed and the unsigned range of the type. -/
abbrev satS (w : VForm) (k : Int) : Int := clamp (-2 ^ (vWidth w.t - 1)) (2 ^ (vWidth w.t - 1) - 1) k
abbrev satU (w : VForm) (k : Int) : Int := clamp 0 (2 ^ vWidth w.t - 1) k
/-- The amount of a shift: the field k with modifier 1, else the low bits of y. -/
abbrev amount (w : VForm) (y : Nat) : Nat := if w.u = 1 then w.b.toNat else y % vWidth w.t

/-- Integer lanes (R102, R103). -/
def integerRows : List LaneRow :=
  [⟨.vadd, isIType, 2, false, readAB, fun _ w _ x y _ => (low w (sv w x + sv w y), 0)⟩,
   ⟨.vsub, isIType, 2, false, readAB, fun _ w _ x y _ => (low w (sv w x - sv w y), 0)⟩,
   ⟨.vmul, isIType, 5, false, readAB, fun _ w _ x y _ => (low w (sv w x * sv w y), 0)⟩,
   ⟨.vabs, isIType, 2, false, readA, fun _ w _ x _ _ =>
      (low w (if w.u = 1 then satS w ((sv w x).natAbs : Int) else ((sv w x).natAbs : Int)), 0)⟩,
   ⟨.vneg, isIType, 2, false, readA, fun _ w _ x _ _ => (low w (if w.u = 1 then satS w (-sv w x) else -sv w x), 0)⟩,
   ⟨.vmin, isIType, 2, false, readAB, fun _ w _ x y _ =>
      (if w.u = 1 then min x y else low w (min (sv w x) (sv w y)), 0)⟩,
   ⟨.vmax, isIType, 2, false, readAB, fun _ w _ x y _ =>
      (if w.u = 1 then max x y else low w (max (sv w x) (sv w y)), 0)⟩,
   ⟨.vadds, isIType, 2, false, readAB, fun _ w _ x y _ =>
      (low w (if w.u = 1 then satU w (uv w x + uv w y) else satS w (sv w x + sv w y)), 0)⟩,
   ⟨.vsubs, isIType, 2, false, readAB, fun _ w _ x y _ =>
      (low w (if w.u = 1 then satU w (uv w x - uv w y) else satS w (sv w x - sv w y)), 0)⟩,
   ⟨.vmulh, isIType, 5, false, readAB, fun _ w _ x y _ =>
      (low w ((if w.u = 1 then uv w x * uv w y else sv w x * sv w y) / 2 ^ vWidth w.t), 0)⟩,
   ⟨.vand, isIType, 2, false, readAB, fun _ _ _ x y _ => (x &&& y, 0)⟩,
   ⟨.vor, isIType, 2, false, readAB, fun _ _ _ x y _ => (x ||| y, 0)⟩,
   ⟨.vxor, isIType, 2, false, readAB, fun _ _ _ x y _ => (x ^^^ y, 0)⟩,
   ⟨.vnot, isIType, 2, false, readA, fun _ w _ x _ _ => (2 ^ vWidth w.t - 1 - x, 0)⟩,
   ⟨.vshl, isIType, 2, false, readShift, fun _ w _ x y _ => (x * 2 ^ amount w y % 2 ^ vWidth w.t, 0)⟩,
   ⟨.vshr, isIType, 2, false, readShift, fun _ w _ x y _ => (x / 2 ^ amount w y, 0)⟩,
   ⟨.vsra, isIType, 2, false, readShift, fun _ w _ x y _ => (low w (sv w x / 2 ^ amount w y), 0)⟩]

/-- A move of whole lanes: cluster written, mask, issue cycles, registers read, and the register and lane that lane l gets. -/
structure MoveRow where
  build : VForm → Instr
  other : Bool
  all : Bool
  lat : Nat
  reads : VForm → List (BitVec 6)
  source : State → VForm → Nat → BitVec 6 × Nat

/-- Selects, broadcasts, shuffles, rotations and the exchange between the clusters (R107, R111 to R113). -/
def moveRows : List MoveRow :=
  [⟨.vsel, false, true, 2, readAB, fun s w l => (if xor ((s.core.rdQ w.m.toNat).getLsbD l) (w.u == 1) then w.a else w.b, l)⟩,
   ⟨.vbcast, false, false, 3, readA, fun _ w _ => (w.a, w.b.toNat)⟩,
   ⟨.vlrot, false, false, 3, readA, fun _ w l => (w.a, (l + w.b.toNat) % 64)⟩,
   ⟨.vshuf, false, false, 3, readAB, fun s w l => (w.a, ((s.core.vReg w.v w.b).getD l 0).toNat % 64)⟩,
   ⟨.vxmov, true, false, 3, readA, fun _ w l => (w.a, l)⟩]

/-- Element e of two registers' low parts, the 64 of x first. -/
def elem (x y : Vec) (n e : Nat) : Nat := (if e < 64 then x.getD e 0 else y.getD (e - 64) 0).toNat % 2 ^ n
/-- Element e of a dense image of n-bit elements. -/
def dense (v : Nat → Nat) (n e : Nat) : Nat := v (e / (32 / n)) / 2 ^ (n * (e % (32 / n))) % 2 ^ n

end Sys2Proof.Claim

section

open Sys2Proof Sys2Proof.Machine Sys2Proof.Safety Sys2Proof.Claim

/-! ### The V slots -/

/-- The lane-wise instructions of the V slots: which register, lanes and issue cycle a result is for, what each enabled lane gets, and
that nothing else changes; a source lane that fails its parity check raises 0x31 with its register, cluster and lane instead. -/
def Obligations.VectorArithmetic : Prop :=
  ∀ e ∈ floatRows ++ integerRows, ∀ (w : VForm) (s : State), (e.build w).wf = true → e.types w.t = true →
    (NoBad s w.v (fun l => (s.core.rdQ w.m.toNat).getLsbD l) (e.reads w) →
      ∃ t, exec (e.build w) s = .next t
        ∧ Flies s t (e.build w) w.v w.v ((s.core.base w.v.toNat + w.d.toNat) % 768) (s.core.rdQ w.m.toNat) e.lat
            (fun l => e.lane s w l (enc s w w.a l) (enc s w w.b l) (enc s w w.d l))
        ∧ t.core.srcnt = s.core.srcnt + (if e.rounds = true ∧ s.core.rm = 4 then 1 else 0) ∧ OnlyFlight s t)
    ∧ ∀ l, l < 64 → (s.core.rdQ w.m.toNat).getLsbD l = true → Traps s → s.core.run = .running →
      sget false s.core.bad (badIdx w.v.toNat (s.core.vPhys w.v w.a) l) = true →
      (∀ k, k < l → (s.core.rdQ w.m.toNat).getLsbD k = true → ∀ n ∈ e.reads w,
        sget false s.core.bad (badIdx w.v.toNat (s.core.vPhys w.v n) k) = false) →
      exec (e.build w) s
        = .next (s.takeTrap 0x31 (BitVec.ofNat 64 (s.core.vPhys w.v w.a + 2048 * w.v.toNat + 4096 * l)) noStage false)

/-- Moves of whole lanes: VSEL (with q0 and no modifier a copy of va), VBCAST, VLROT, VSHUF, VXMOV, and the instructions that make a register from a scalar, the lane
numbers or an accumulator row: VDUP, VIOTA, VACC. -/
def Obligations.VectorMoves : Prop :=
  (∀ e ∈ moveRows, ∀ (w : VForm) (s : State), (e.build w).wf = true → NoBad s w.v (fun _ => true) (e.reads w) →
    ∃ t, exec (e.build w) s = .next t
      ∧ Flies s t (e.build w) w.v (if e.other then 1 - w.v else w.v)
          ((s.core.base (if e.other then 1 - w.v else w.v).toNat + w.d.toNat) % 768)
          (if e.all then BitVec.allOnes 64 else s.core.rdQ w.m.toNat) e.lat
          (fun l => (((s.core.vReg w.v (e.source s w l).1).getD (e.source s w l).2 0).toNat, 0))
      ∧ OnlyFlight s t ∧ t.core.srcnt = s.core.srcnt)
  ∧ (∀ c : Core, c.rdQ 0 = BitVec.allOnes 64)
  ∧ (∀ (w : VForm) (s : State), (Instr.vdup w).wf = true → Ready s 0 [w.a.toNat] [] →
    ∃ t, exec (.vdup w) s = .next t
      ∧ Flies s t (.vdup w) w.v w.v ((s.core.base w.v.toNat + w.d.toNat) % 768) (s.core.rdQ w.m.toNat) 3
          (fun _ => ((S s w.a).toNat % 2 ^ vWidth w.t, 0))
      ∧ OnlyFlight s t ∧ t.core.srcnt = s.core.srcnt)
  ∧ (∀ (w : VForm) (s : State), (Instr.viota w).wf = true →
    ∃ t, exec (.viota w) s = .next t
      ∧ Flies s t (.viota w) w.v w.v ((s.core.base w.v.toNat + w.d.toNat) % 768) (s.core.rdQ w.m.toNat) 3
          (fun l => (if w.u = 1 then ((List.range l).filter fun k => (s.core.rdQ w.m.toNat).getLsbD k).length else l, 0))
      ∧ OnlyFlight s t ∧ t.core.srcnt = s.core.srcnt)
  ∧ ∀ (w : VForm) (s : State) (row : Nat), (Instr.vacc w).wf = true → row = w.a.toNat / 16 * 64 + w.b.toNat →
    (sget false s.eng.accBad row = false →
      ∃ t r, exec (.vacc w) s = .next t ∧ t.core.vfly = s.core.vfly ++ [r] ∧ r.kind = .vec ∧ r.slot = w.v ∧ r.cl = w.v
        ∧ r.dest = (s.core.base w.v.toNat + w.d.toNat) % 768 ∧ r.mask = s.core.rdQ w.m.toNat ∧ r.rem = 4 ∧ r.acc = some row
        ∧ (∀ l, l < 64 → r.data.getD l 0 = sget 0 s.eng.acc (row * 64 + l) ∧ r.lfl.getD l 0 = 0)
        ∧ OnlyFlight s t ∧ t.core.srcnt = s.core.srcnt)
    ∧ (sget false s.eng.accBad row = true →
      exec (.vacc w) s
        = .next (s.takeTrap 0x30 (BitVec.ofNat 64 (w.a.toNat / 16 + 256 * w.b.toNat)) noStage false))

/-- Compares, conversions, packing, reductions with the values that R110 gives them, and VEXT, which leaves a scalar register pending. -/
def Obligations.VectorReductions : Prop :=
  (∀ (w : VForm) (s : State), (Instr.vcmp w).wf = true →
    NoBad s w.v (fun l => (s.core.rdQ w.m.toNat).getLsbD l) [w.a, w.b] →
    ∃ t r, exec (.vcmp w) s = .next t ∧ t.core.vfly = s.core.vfly ++ [r] ∧ r.kind = .qreg ∧ r.slot = w.v
      ∧ r.dest = w.d.toNat / 8 ∧ r.mask = s.core.rdQ w.m.toNat ∧ r.rem = (if isFType w.t then 3 else 2)
      ∧ OnlyFlight s t ∧ t.core.srcnt = s.core.srcnt
      ∧ ∀ l, l < 64 → (s.core.rdQ w.m.toNat).getLsbD l = true →
        let x := enc s w w.a l
        let y := enc s w w.b l
        let c := w.d.toNat % 8
        (isFType w.t = true → r.value.getLsbD l = (fCond c (fval w x) (fval w y)).1
            ∧ r.lfl.getD l 0 = (fCond c (fval w x) (fval w y)).2)
        ∧ (isFType w.t = false → r.lfl.getD l 0 = 0 ∧ r.value.getLsbD l = (
            if w.u = 1 then [x == y, x != y, decide (x < y), decide (x ≤ y), decide (y < x), decide (y ≤ x)].getD c false
            else [x == y, x != y, decide (sv w x < sv w y), decide (sv w x ≤ sv w y), decide (sv w y < sv w x),
              decide (sv w y ≤ sv w x)].getD c false)))
  ∧ (∀ (w : VForm) (s : State), (Instr.vcvt w).wf = true →
    NoBad s w.v (fun l => (s.core.rdQ w.m.toNat).getLsbD l) [w.a] →
    ∃ t, exec (.vcvt w) s = .next t
      ∧ Flies s t (.vcvt w) w.v w.v ((s.core.base w.v.toNat + w.d.toNat) % 768) (s.core.rdQ w.m.toNat) 4
          (fun l =>
            let src : BitVec 3 := w.b.extractLsb' 3 3
            let f := fmtOf (vTypeCode src.toNat)
            let x := ((s.core.vReg w.v w.a).getD l 0).toNat % 2 ^ vWidth src
            let r := convert f (fmtOf (vTypeCode w.t.toNat)) (w.u == 1) x
              (s.core.laneMode (if w.b.toNat % 8 = 5 then s.core.rm else w.b.toNat % 8) l)
            (r.1, r.2 ||| (if isFType src || isF8Type src then sigFlag [f.val x] else 0)))
      ∧ OnlyFlight s t
      ∧ t.core.srcnt = s.core.srcnt + (if (if w.b.toNat % 8 = 5 then s.core.rm else w.b.toNat % 8) = 4 then 1 else 0))
  ∧ (∀ (w : VForm) (s : State), (Instr.vpack w).wf = true → NoBad s w.v (fun _ => true) [w.a, w.b, w.d] →
    ∃ t v, exec (.vpack w) s = .next t
      ∧ Flies s t (.vpack w) w.v w.v ((s.core.base w.v.toNat + w.d.toNat) % 768) (BitVec.allOnes 64) 4 (fun l => (v l, 0))
      ∧ (vWidth w.t = 16 → ∀ e, e < 128 → dense v 16 e = elem (s.core.vReg w.v w.a) (s.core.vReg w.v w.b) 16 e)
      ∧ (vWidth w.t = 8 → (∀ e, e < 128 →
            dense (fun l => v (l + if w.u = 1 then 32 else 0)) 8 e = elem (s.core.vReg w.v w.a) (s.core.vReg w.v w.b) 8 e)
          ∧ ∀ l, l < 32 → v (l + if w.u = 1 then 0 else 32)
            = ((s.core.vReg w.v w.d).getD (l + if w.u = 1 then 0 else 32) 0).toNat)
      ∧ OnlyFlight s t ∧ t.core.srcnt = s.core.srcnt)
  ∧ (∀ (w : VForm) (s : State), (Instr.vunpk w).wf = true →
    NoBad s w.v (fun l => l * (32 / vWidth w.t) / 64 = w.b.toNat) [w.a] →
    ∃ t, exec (.vunpk w) s = .next t
      ∧ Flies s t (.vunpk w) w.v w.v ((s.core.base w.v.toNat + w.d.toNat) % 768) (BitVec.allOnes 64) 4
          (fun l => (dense (fun k => ((s.core.vReg w.v w.a).getD k 0).toNat) (vWidth w.t) (64 * w.b.toNat + l), 0))
      ∧ OnlyFlight s t ∧ t.core.srcnt = s.core.srcnt)
  ∧ (∀ (i : VForm → Instr) (w : VForm) (s : State), i ∈ [Instr.vrsum, .vrmax, .vrmin, .vramax] → (i w).wf = true →
    NoBad s w.v (fun l => (s.core.rdQ w.m.toNat).getLsbD l) [w.a] →
    let on := (List.range 64).filter fun l => (s.core.rdQ w.m.toNat).getLsbD l
    let xs := on.map fun l => enc s w w.a l
    ∃ t v fl, exec (i w) s = .next t ∧ (xs = [] → fl = 0)
      ∧ Flies s t (i w) w.v w.v ((s.core.base w.v.toNat + w.d.toNat) % 768) (BitVec.allOnes 64) 8
          (fun l => (v, if on.head? = some l then fl else 0))
      ∧ OnlyFlight s t
      ∧ t.core.srcnt = s.core.srcnt + (if i w = .vrsum w ∧ isFType w.t = true ∧ s.core.rm = 4 then 1 else 0)
      ∧ (i w = .vrsum w → isFType w.t = true →
        (v, fl) = rounded s w false 0 (xs.map (fval w)) (sumOf s (xs.map (fval w))))
      ∧ (i w = .vrsum w → isFType w.t = false →
        v = low w (if w.u = 1 then satS w (xs.map (sv w)).sum else (xs.map (sv w)).sum) ∧ fl = 0)
      ∧ (i w = .vrmax w → isFType w.t = false → w.u = 0 → fl = 0 ∧
        (xs = [] → v = 2 ^ (vWidth w.t - 1)) ∧ (xs ≠ [] → v ∈ xs ∧ ∀ x ∈ xs, sv w x ≤ sv w v))
      ∧ (i w = .vrmax w → isFType w.t = false → w.u = 1 → fl = 0 ∧
        (xs = [] → v = 0) ∧ (xs ≠ [] → v ∈ xs ∧ ∀ x ∈ xs, x ≤ v))
      ∧ (i w = .vrmin w → isFType w.t = false → w.u = 0 → fl = 0 ∧
        (xs = [] → v = 2 ^ (vWidth w.t - 1) - 1) ∧ (xs ≠ [] → v ∈ xs ∧ ∀ x ∈ xs, sv w v ≤ sv w x))
      ∧ (i w = .vrmin w → isFType w.t = false → w.u = 1 → fl = 0 ∧
        (xs = [] → v = 2 ^ vWidth w.t - 1) ∧ (xs ≠ [] → v ∈ xs ∧ ∀ x ∈ xs, v ≤ x))
      ∧ (i w ≠ .vrsum w → isFType w.t = true → fl = sigFlag (xs.map (fval w))
        ∧ ((∃ x ∈ xs, (fval w x).isNaN = true) → v = ((fmtOf (vTypeCode w.t.toNat)).round (.nan false) rne).1))
      ∧ (i w = .vrmax w → isFType w.t = true → (∀ x ∈ xs, (fval w x).isNaN = false) →
        (xs = [] → fval w v = .inf true) ∧ (xs ≠ [] → v ∈ xs ∧ ∀ x ∈ xs, (fval w v).lt (fval w x) = false))
      ∧ (i w = .vrmin w → isFType w.t = true → (∀ x ∈ xs, (fval w x).isNaN = false) →
        (xs = [] → fval w v = .inf false) ∧ (xs ≠ [] → v ∈ xs ∧ ∀ x ∈ xs, (fval w x).lt (fval w v) = false))
      ∧ (i w = .vramax w → (∀ x ∈ xs, (fval w x).isNaN = false) →
        (xs = [] → v = 0) ∧ (xs ≠ [] → v ∈ xs.map (fun x => x % 2 ^ (vWidth w.t - 1)) ∧ ∀ x ∈ xs, x % 2 ^ (vWidth w.t - 1) ≤ v)))
  ∧ ∀ (w : VForm) (s : State), (Instr.vext w).wf = true → Ready s 0 [] [w.d.toNat] →
    NoBad s w.v (fun l => l = w.b.toNat) [w.a] →
    ∃ t r, exec (.vext w) s = .next t ∧ t.core.vfly = s.core.vfly ++ [r] ∧ r.kind = .scalar
      ∧ r.dest = (if w.d = 0 then 0 else s.core.sIdx w.d.toNat) ∧ r.rem = 4
      ∧ r.value = (if isIType w.t = true ∧ w.u = 0 then BitVec.ofInt 64 (sv w (enc s w w.a w.b.toNat))
          else BitVec.ofNat 64 (enc s w w.a w.b.toNat))
      ∧ OnlyFlight s t ∧ t.core.srcnt = s.core.srcnt
      ∧ (w.d ≠ 0 → t.core.pending (s.core.sIdx w.d.toNat) = true)

end

namespace Sys2Proof.Claim

open Sys2Proof Sys2Proof.Machine Sys2Proof.Safety

/-- Bytes of an element of a V memory form. -/
abbrev wide (w : VMem) : Nat := vWidth w.t / 8
/-- Base SVA of a V memory form: a[AR] + 256 × OFF, modulo 2^32, aligned to the element (R115). -/
def baseOf (s : State) (w : VMem) : Nat := (s.core.rdA w.r.toNat + BitVec.ofInt 32 (w.o.toInt * 256)).toNat / wide w * wide w
/-- SVA of lane l: consecutive elements (R115), past the last SVA too. -/
def consecutive (s : State) (w : VMem) (l : Nat) : Nat := baseOf s w + l * wide w
/-- SVA of lane l: by the index register VD + 1, scaled by the element (R116). -/
def indexed (s : State) (w : VMem) (l : Nat) : Nat :=
  (BitVec.ofNat 32 (baseOf s w) + (s.core.vReg w.v (w.d + 1)).getD l 0 * BitVec.ofNat 32 (wide w)).toNat / wide w * wide w
/-- A vector memory load: its word, whether it chases, its issue cycles, the SVA of a lane, the registers it reads. -/
def vectorLoads : List ((VMem → Instr) × Bool × Nat × (State → VMem → Nat → Nat) × (VMem → List (BitVec 6))) :=
  [(.vld, true, 6, consecutive, fun _ => []), (.vldr, false, 6, consecutive, fun _ => []),
   (.vgath, true, 8, indexed, fun w => [w.d + 1])]
/-- A vector memory store: its word, the SVA of a lane, the registers it reads. -/
def vectorStores : List ((VMem → Instr) × (State → VMem → Nat → Nat) × (VMem → List (BitVec 6))) :=
  [(.vst, consecutive, fun w => [w.d]), (.vscat, indexed, fun w => [w.d, w.d + 1])]
/-- The address register after the instruction: 64 elements further with the post-increment. -/
def afterIncrement (c : Core) (w : VMem) : Core :=
  if w.i = 1 then c.wrA w.r.toNat (c.rdA w.r.toNat + BitVec.ofNat 32 (64 * wide w)) else c
/-- A byte of machine memory, or of a scratchpad, lies in the n bytes of a place. -/
def inMemory (s : State) (p : Place) (n b : Nat) : Prop := p.stash = true ∧ s.stashPa p.ia ≤ b ∧ b < s.stashPa p.ia + n
def inPad (p : Place) (n : Nat) (o : Owner) (b : Nat) : Prop :=
  p.stash = false ∧ o = p.owner ∧ p.phys * 4096 + p.off ≤ b ∧ b < p.phys * 4096 + p.off + n
/-- Two places share no byte. -/
def Apart (s : State) (p q : Place) (n : Nat) : Prop :=
  (∀ b, ¬(inMemory s p n b ∧ inMemory s q n b)) ∧ ∀ o b, ¬(inPad p n o b ∧ inPad q n o b)
/-- Lane l is enabled by the mask of the word. -/
abbrev On (s : State) (w : VMem) (l : Nat) : Prop := l < 64 ∧ (s.core.rdQ w.m.toNat).getLsbD l = true

/-- Some enabled lane of a result raises flag k. -/
def raises (r : VRec) (k : Nat) : Bool :=
  (List.range 64).any fun l => r.mask.getLsbD l && (r.lfl.getD l 0).getLsbD k
/-- Flag k of lane l counts for the trap: the lane is enabled, it raises the flag, and EN of VRM is 1 for it. -/
def trapsOn (c : Core) (r : VRec) (l k : Nat) : Bool :=
  r.mask.getLsbD l && (r.lfl.getD l 0).getLsbD k && c.vrm.getLsbD (8 + k)

/-- What landing a result leaves: the lanes, the bits or the scalar that it is for, FLAGS of VRM, and nothing else (R97 to R99). -/
def Landed (s u : State) (r : VRec) : Prop :=
  (r.kind = .vec → ∀ cl k l, l < 64 →
      (u.core.rdPhys cl k).getD l 0
        = if (cl = 0 ↔ r.cl = 0) ∧ k = r.dest ∧ r.mask.getLsbD l = true then r.data.getD l 0
          else (s.core.rdPhys cl k).getD l 0)
    ∧ (r.kind = .qreg → ∀ k, u.core.rdQ k
        = if k = r.dest ∧ k ≠ 0 then (s.core.rdQ k &&& ~~~r.mask) ||| (r.value &&& r.mask) else s.core.rdQ k)
    ∧ (r.kind = .scalar → ∀ k, sget 0 u.core.s k = if k = r.dest ∧ k ≠ 0 then r.value else sget 0 s.core.s k)
    ∧ (r.kind ≠ .vec → u.core.va = s.core.va ∧ u.core.vb = s.core.vb ∧ u.core.bad = s.core.bad)
    ∧ (r.kind ≠ .qreg → u.core.q = s.core.q) ∧ (r.kind ≠ .scalar → u.core.s = s.core.s ∧ u.core.defrec = s.core.defrec)
    ∧ (∀ k, u.core.vrm.getLsbD k = (s.core.vrm.getLsbD k || (decide (3 ≤ k) && decide (k < 8) && raises r (k - 3))))
    ∧ u.core.vfly = s.core.vfly.filter (fun x => x.rem != 0)
    ∧ { u with core := { u.core with
          va := s.core.va, vb := s.core.vb, bad := s.core.bad, q := s.core.q, s := s.core.s, defrec := s.core.defrec,
          vrm := s.core.vrm, vfly := s.core.vfly } } = s

end Sys2Proof.Claim

section

open Sys2Proof Sys2Proof.Machine Sys2Proof.Safety Sys2Proof.Claim

/-- VLD, VLDR and VGATH: each enabled lane gets the element at its SVA, zero-extended; nothing else changes but the
post-increment. -/
def Obligations.VectorLoads : Prop :=
  ∀ e ∈ vectorLoads, ∀ (w : VMem) (s : State) (place : Nat → Place), (e.1 w).wf = true →
    NoBad s w.v (fun l => (s.core.rdQ w.m.toNat).getLsbD l) (e.2.2.2.2 w) →
    (∀ l, On s w l → s.touch (e.2.2.2.1 s w l) false = .at (place l)) →
    (e.2.1 = true → Unbroken s ∧ ∀ l, On s w l → s.chase (e.2.2.2.1 s w l) (wide w) = .pass) →
    ∃ t r, exec (e.1 w) s = .next t ∧ t.core.vfly = s.core.vfly ++ [r] ∧ r.kind = .vec ∧ r.slot = w.v ∧ r.cl = w.v
      ∧ r.dest = (s.core.base w.v.toNat + w.d.toNat) % 768 ∧ r.mask = s.core.rdQ w.m.toNat ∧ r.rem = e.2.2.1 ∧ r.acc = none
      ∧ (∀ l, On s w l → r.data.getD l 0 = BitVec.ofNat 32 (leNat (s.placeRd (place l) (wide w)).1) ∧ r.lfl.getD l 0 = 0
          ∧ r.bad.getLsbD l = (s.placeRd (place l) (wide w)).2)
      ∧ t.core.a = (afterIncrement s.core w).a
      ∧ { t.core with vfly := s.core.vfly, a := s.core.a, pend := s.core.pend, defrec := s.core.defrec } = s.core
      ∧ (Quiet s → t.core.pend = s.core.pend ∧ t.core.defrec = s.core.defrec)
      ∧ t.mem = s.mem ∧ t.eng = s.eng ∧ (∀ pa, t.mem.rd pa = s.mem.rd pa)
      ∧ ∀ o b, sget 0 (t.spadOf o).phys b = sget 0 (s.spadOf o).phys b

/-- VST and VSCAT store the element of each enabled lane at its SVA, in lane order, so that of two lanes at one place the higher
stands; no other byte of memory or of any scratchpad changes. -/
def Obligations.VectorStores : Prop :=
  ∀ e ∈ vectorStores, ∀ (w : VMem) (s : State) (place : Nat → Place), (e.1 w).wf = true →
    NoBad s w.v (fun l => (s.core.rdQ w.m.toNat).getLsbD l) (e.2.2 w) →
    (∀ l, On s w l → s.touch (e.2.1 s w l) true = .at (place l)) →
    ∃ t, exec (e.1 w) s = .next t
      ∧ (∀ l, On s w l → (∀ m, On s w m → l < m → Apart s (place l) (place m) (wide w)) →
          ∀ k, k < wide w → placeByte t (place l) k = ((s.core.vReg w.v w.d).getD l 0).extractLsb' (8 * k) 8)
      ∧ (∀ b, (∀ l, On s w l → ¬inMemory s (place l) (wide w) b) → t.mem.rd b = s.mem.rd b)
      ∧ (∀ o b, (∀ l, On s w l → ¬inPad (place l) (wide w) o b) → sget 0 (t.spadOf o).phys b = sget 0 (s.spadOf o).phys b)
      ∧ t.core.a = (afterIncrement s.core w).a ∧ t.eng = s.eng
      ∧ { t.core with a := s.core.a, sig := s.core.sig, pend := s.core.pend, defrec := s.core.defrec } = s.core
      ∧ (Quiet s → t.core.pend = s.core.pend ∧ t.core.defrec = s.core.defrec)

/-- A vector result lands when its issue cycles have passed: enabled lanes only, its flags joined into VRM.FLAGS; an enabled flag
then takes the vector FP trap 0x28 with the word, the lowest such lane, the slot and the flags in TVAL; of two results due at once the
later issued stands. -/
def Obligations.VectorLanding : Prop :=
  (∀ (s : State) (r : VRec), s.core.vfly.filter (fun x => x.rem == 0) = [r] → r.acc = none → (r.kind = .vec → r.dest < 768) →
    ∃ u, Landed s u r
      ∧ ((∀ l k, l < 64 → k < 5 → trapsOn s.core r l k = false) → exec .vResultLanding s = .next u)
      ∧ ∀ l en, l < 64 → (∃ k, k < 5 ∧ trapsOn s.core r l k = true) →
        (∀ m k, m < l → k < 5 → trapsOn s.core r m k = false) →
        (∀ k, k < 5 → en.getLsbD k = (raises r k && s.core.vrm.getLsbD (8 + k))) →
        exec .vResultLanding s = .next (u.takeTrap 0x28
          (BitVec.ofNat 64 (r.word.toNat + 2 ^ 32 * l + 2 ^ 38 * r.slot.toNat + 2 ^ 39 * (en : BitVec 5).toNat)) noStage false))
  ∧ (∀ (s : State), (∀ r ∈ s.core.vfly, r.rem ≠ 0) → exec .vResultLanding s = .next s)
  ∧ ∀ (s : State) (r q : VRec), s.core.vfly = [r, q] → r.rem = 0 → q.rem = 0 → r.kind = .vec → q.kind = .vec →
    r.acc = none → q.acc = none → r.dest = q.dest → r.cl = q.cl →
    (∀ l k, l < 64 → k < 5 → trapsOn s.core r l k = false ∧ trapsOn s.core q l k = false) →
    ∃ u, exec .vResultLanding s = .next u ∧ ∀ l, l < 64 → q.mask.getLsbD l = true →
      (u.core.rdPhys q.cl.toNat q.dest).getD l 0 = q.data.getD l 0

end

namespace Sys2Proof.Claim

open Sys2Proof Sys2Proof.Machine Sys2Proof.Safety

/-- A command with what the enqueue captures: its place in the order of commands, RQTAG, SEED and RBOUND (R125, R243). -/
def captured (s : State) (c : Cmd) : Cmd :=
  { c with stamp := s.sys.order, tag := s.core.rqtag, seed := s.core.seed, rbound := s.core.rbound }
/-- The state after a command joined the M queue. -/
def joinM (s : State) (c : Cmd) : State :=
  { s with eng := { s.eng with mq := s.eng.mq ++ [captured s c] }, sys := { s.sys with order := s.sys.order + 1 } }
/-- A command with its instruction and word alone. -/
def bare (i : Instr) : Cmd := { ins := i, word := lWord i }
/-- The four operand spans of a product word. -/
def spans (s : State) (w : MmaForm) : List Desc :=
  [s.core.rdD w.da.toNat, s.core.rdD w.db.toNat, if w.mxa = 1 then s.core.rdD w.dsa.toNat else {},
    if w.mxb = 1 then s.core.rdD w.dsb.toNat else {}]
/-- A product word without a named chase, or one whose chased own front is bound and counts a span or a tap (R323 to R325). -/
def chaseM (s : State) (w : MmaForm) : Prop :=
  w.chm ≠ 1 ∨ (w.chp.toNat < 8 ∧ (s.front w.chf.toNat).state ≠ .idle ∧ (s.front w.chf.toNat).kind ≠ .ack)
/-- A command with the generation of the own front that it chases. -/
def chasing (s : State) (w : MmaForm) (c : Cmd) : Cmd :=
  if w.chm = 1 then { c with gen := (s.front w.chf.toNat).gen, armOn := some (none, w.chf.toNat) } else c

/-- Rows of M commands that join the queue with nothing more than their operands: the instruction, its guard. -/
def guardM (i : Instr) : Option (BitVec 4) :=
  match i with
  | .mma w | .mmar w | .mmad w => if w.chm = 1 then none else some w.p
  | .mclr w => some w.p
  | .mdrain w => some w.p
  | _ => none

/-- C commands: the word of each. -/
def copies : List (CForm → Instr) := [.cpy, .cgath, .cscat, .cred, .cfill, .mcast, .crem]
/-- The captured descriptors of a C command: destination, source, index list (R251 to R257). -/
def spansC (i : Instr) (s : State) (w : CForm) : Desc × Desc × Desc :=
  (s.core.rdD w.dd.toNat,
   match i with | .cfill _ => {} | _ => s.core.rdD w.ds.toNat,
   match i with
    | .cgath _ => s.core.rdD (w.ds + 1).toNat
    | .cscat _ => s.core.rdD (w.dd + 1).toNat
    | _ => {})

/-- The walk code names an order of the ranks of the descriptor that is walked, if that is valid; MCAST has none (R247). -/
def walkFits (i : Instr) (s : State) (w : CForm) : Prop :=
  let d := match i with | .cscat _ => s.core.rdD w.ds.toNat | _ => s.core.rdD w.dd.toNat
  (match i with | .mcast _ => True | _ => d.valid = false ∨ w.walk.toNat < fact d.rank)

/-- The three engines' heads stand where they are: nothing of the state changes but what the statement names. -/
def headOf (s : State) (g : Engine) : Option Cmd :=
  match g with | .matrix => s.eng.mq.head? | .copy0 => s.eng.c0q.head? | .copy1 => s.eng.c1q.head?
/-- A head command that can move: started, not suspended, the group not halted. -/
def Moves (s : State) (g : Engine) (c : Cmd) : Prop :=
  headOf s g = some c ∧ c.started = true ∧ c.susp = none ∧ s.core.run = .running
/-- The head of a queue after an event. -/
def HeadIs (t : State) (g : Engine) (c : Cmd) : Prop := headOf t g = some c
/-- Element (i, j) of accumulator a. -/
abbrev accOf (s : State) (a i j : Nat) : BitVec 32 := sget 0 s.eng.acc (a * 4096 + 64 * i + j)

end Sys2Proof.Claim

section

open Sys2Proof Sys2Proof.Machine Sys2Proof.Safety Sys2Proof.Claim

/-! ### The M slot and the C slots -/

/-- MMA, MMAR, MMAD, MCLR and MDRAIN join the M queue with the spans, map, tap and rounding that they capture; MSET changes RBOUND or
the tap configuration at once. -/
def Obligations.MatrixCommands : Prop :=
  (∀ (w : MmaForm) (s : State), s.core.rdP w.p.toNat = true → s.eng.mq.length < 8 → chaseM s w →
    (abOk s.core w (s.core.rdD w.da.toNat) (s.core.rdD w.db.toNat) ((spans s w).getD 2 {}) ((spans s w).getD 3 {})).isSome = true →
    exec (.mma w) s = .next (joinM s (chasing s w { ins := .mma w, word := lWord (.mma w), descs := spans s w })))
  ∧ (∀ (w : MmaForm) (s : State) (r : Latch), s.core.rdP w.p.toNat = true → s.eng.mq.length < 8 → chaseM s w →
    s.eng.latchLeft = some r → aOk s.core w (s.core.rdD w.da.toNat) ((spans s w).getD 2 {}) = true →
    latchOk (s.core.rdD w.da.toNat) r = true →
    exec (.mmar w) s = .next (joinM s (chasing s w { ins := .mmar w, word := lWord (.mmar w), descs := spans s w })))
  ∧ (∀ (w : MmaForm) (s : State) (map : List (BitVec 32)), s.core.rdP w.p.toNat = true → s.eng.mq.length < 8 → chaseM s w →
    w.tap = 0 → mmFloat (s.core.rdD w.da.toNat).etype = true →
    (abOk s.core w (s.core.rdD w.da.toNat) (s.core.rdD w.db.toNat) ((spans s w).getD 2 {}) ((spans s w).getD 3 {})).isSome = true →
    sget none s.core.bmap w.bm.toNat = some map →
    mapCovers map (s.core.rdD w.da.toNat).depth
      (chunkDepth (s.core.rdD w.da.toNat).etype (s.core.rdD w.db.toNat).etype / 4) = true →
    exec (.mmad w) s
      = .next (joinM s (chasing s w { ins := .mmad w, word := lWord (.mmad w), descs := spans s w, bmap := map })))
  ∧ (∀ (w : MmaForm) (s : State) (map : List (BitVec 32)) (n f : Nat) (d : Desc), s.core.rdP w.p.toNat = true →
    s.eng.mq.length < 8 → w.chm ≠ 1 → w.tap ≠ 0 → mmFloat (s.core.rdD w.da.toNat).etype = true →
    abOk s.core w (s.core.rdD w.da.toNat) (s.core.rdD w.db.toNat) ((spans s w).getD 2 {}) ((spans s w).getD 3 {}) = some n →
    sget none s.core.bmap w.bm.toNat = some map →
    mapCovers map (s.core.rdD w.da.toNat).depth
      (chunkDepth (s.core.rdD w.da.toNat).etype (s.core.rdD w.db.toNat).etype / 4) = true →
    s.eng.tap = some (d, f) → d.dims = [n, (s.core.rdD w.da.toNat).rows, (branchesFrom 0 map).length] → s.frontFree f = true →
    ∃ t c, exec (.mmad w) s = .next t ∧ t.eng.mq.getLast? = some c ∧ t.eng.mq.length = s.eng.mq.length + 1 ∧ c.ins = .mmad w
      ∧ c.tap = some (d, f) ∧ c.front = some f ∧ c.bmap = map ∧ c.descs = spans s w ∧ t.core = s.core ∧ t.mem = s.mem
      ∧ (t.front f).gen = (s.front f).gen + 1 ∧ (t.front f).value = 0 ∧ (t.front f).limit = d.count ∧ (t.front f).kind = .tap)
  ∧ (∀ (w : MclrForm) (s : State), s.core.rdP w.p.toNat = true → s.eng.mq.length < 8 →
    exec (.mclr w) s = .next (joinM s { ins := .mclr w, word := lWord (.mclr w) }))
  ∧ (∀ (w : MdrainForm) (s : State), s.core.rdP w.p.toNat = true → s.eng.mq.length < 8 → w.dst ≠ 0 → w.fen = 0 →
    ∃ t, exec (.mdrain w) s = .next t
      ∧ t.eng = (joinM s { (bare (.mdrain w)) with
          srBase := s.core.srcnt, mode := BitVec.ofNat 3 (if w.rm = 5 then s.core.rm else w.rm.toNat) }).eng
      ∧ { t.core with srcnt := s.core.srcnt } = s.core ∧ t.mem = s.mem ∧ t.spad = s.spad
      ∧ t.core.srcnt = s.core.srcnt + (if (if w.rm = 5 then s.core.rm else w.rm.toNat) = 4 then 64 else 0))
  ∧ (∀ (w : MdrainForm) (s : State) (n m : Nat), s.core.rdP w.p.toNat = true → s.eng.mq.length < 8 → w.dst = 0 →
    drainShape w.lay.toNat (s.core.rdD w.dd.toNat).dims = some (n, m) → 1 ≤ n → n ≤ 64 → 1 ≤ m → m ≤ 64 →
    (s.core.rdD w.dd.toNat).valid = true → (s.core.rdD w.dd.toNat).space ≤ 1 → (s.core.rdD w.dd.toNat).etype = w.ot →
    (w.lay = 4 → scaleOk (s.core.rdD w.ds.toNat) n (blkOf w.blk) m = true) →
    (w.fen = 1 → (s.core.rdD w.dd.toNat).inj = true ∧ s.frontFree w.fc.toNat = true) →
    ∃ t c, exec (.mdrain w) s = .next t ∧ t.eng.mq.getLast? = some c ∧ t.eng.mq.length = s.eng.mq.length + 1 ∧ c.ins = .mdrain w
      ∧ c.descs = [s.core.rdD w.dd.toNat, s.core.rdD w.ds.toNat] ∧ c.front = (if w.fen = 1 then some w.fc.toNat else none)
      ∧ c.mode = BitVec.ofNat 3 (if w.rm = 5 then s.core.rm else w.rm.toNat) ∧ c.srBase = s.core.srcnt
      ∧ { t.core with srcnt := s.core.srcnt } = s.core ∧ t.mem = s.mem ∧ t.spad.phys = s.spad.phys
      ∧ (w.fen = 0 → t.eng.fc = s.eng.fc)
      ∧ (w.fen = 1 → (t.front w.fc.toNat).gen = (s.front w.fc.toNat).gen + 1 ∧ (t.front w.fc.toNat).value = 0
          ∧ (t.front w.fc.toNat).limit = n * m))
  ∧ (∀ (w : MsetForm) (s : State), s.core.rdP w.p.toNat = true →
    exec (.msetRbound w) s = .next (s.onCore fun c => { c with rbound := w.n.toNat + 1 })
    ∧ exec (.msetNotap w) s = .next (s.onEng fun e => { e with tap := none })
    ∧ ((s.core.rdD w.dt.toNat).valid = true ∧ (s.core.rdD w.dt.toNat).etype = 0 ∧ (s.core.rdD w.dt.toNat).rank = 3
          ∧ (s.core.rdD w.dt.toNat).space ≤ 1 ∧ (s.core.rdD w.dt.toNat).inj = true →
      exec (.msetTap w) s = .next (s.onEng fun e => { e with tap := some (s.core.rdD w.dt.toNat, w.fc.toNat) }))
    ∧ ((s.core.rdD w.dt.toNat).valid = false →
      exec (.msetTap w) s = .next (s.takeTrap 0x21 (lWord (.msetTap w)) noStage false)))
  ∧ (∀ (i : Instr) (p : BitVec 4) (s : State), guardM i = some p → s.core.rdP p.toNat = true → 8 ≤ s.eng.mq.length →
    exec i s = .next (s.stallTick .other))
  ∧ ∀ (w : MmaForm) (s : State), s.core.rdP w.p.toNat = true → s.eng.mq.length < 8 → w.chm ≠ 1 →
    (s.core.rdD w.da.toNat).valid = false →
    exec (.mma w) s = .next (s.takeTrap 0x21 (lWord (.mma w)) noStage false)

/-- A C command without chase or arming joins its queue with its captured spans, and binds its front; one whose destination span is
invalid raises 0x21; a full queue raises 0x20 when strict, and stalls when lenient; CSTOP removes the named commands of its queue and
breaks their fronts; a walk code that names no order raises 0x02 before all of these. -/
def Obligations.CopyCommands : Prop :=
  (∀ (i : CForm → Instr) (w : CForm) (s : State), i ∈ copies → s.core.rdP w.p.toNat = true →
    (s.eng.queue (cEngine w.e)).length < 16 → w.wait.toNat = 0 →
    (i w = .cfill w → Ready s w.p [w.ds.toNat] [] ∧ s.core.muldiv = [] ∧ s.core.pend = []) →
    (w.fen = 1 → s.frontFree w.fc.toNat = true ∧ (i w = .mcast w ∨
      ((s.core.rdD w.dd.toNat).inj = true ∧ (s.core.rdD w.dd.toNat).count < 2 ^ 48))) →
    (i w = .mcast w → CForm.ben w = true → (s.core.rdA (CForm.br w)).toNat % 16 = 0) →
    copyOk (i w) w (spansC (i w) s w).1 (spansC (i w) s w).2.1 (spansC (i w) s w).2.2 ((s.part s.core.partNo).ports != 0) = true →
    (i w ≠ .mcast w → w.walk.toNat < fact (if i w = .cscat w then (spansC (i w) s w).2.1 else (spansC (i w) s w).1).rank) →
    ∃ t c, exec (i w) s = .next t ∧ (t.eng.queue (cEngine w.e)).getLast? = some c
      ∧ (t.eng.queue (cEngine w.e)).length = (s.eng.queue (cEngine w.e)).length + 1 ∧ c.ins = i w
      ∧ c.descs = [(spansC (i w) s w).1, (spansC (i w) s w).2.1, (spansC (i w) s w).2.2]
      ∧ c.stamp = s.sys.order ∧ c.tag = s.core.rqtag ∧ c.seed = s.core.seed ∧ c.started = false ∧ c.pos = 0
      ∧ c.front = (if w.fen = 1 then some w.fc.toNat else none)
      ∧ (i w = .cfill w → c.vals.headD 0 = s.core.rdS w.ds.toNat)
      ∧ (w.fen = 0 → t.eng.queue (cEngine w.e) = s.eng.queue (cEngine w.e) ++ [c] ∧ t.eng.fc = s.eng.fc ∧ t.spad = s.spad)
      ∧ (w.fen = 1 → (t.front w.fc.toNat).gen = (s.front w.fc.toNat).gen + 1 ∧ (t.front w.fc.toNat).value = 0
          ∧ (t.front w.fc.toNat).limit = (if i w = .mcast w then c.recv.length else (s.core.rdD w.dd.toNat).count)
          ∧ (t.front w.fc.toNat).kind = (if i w = .mcast w then .ack else .span))
      ∧ t.sys = { s.sys with order := s.sys.order + 1 } ∧ t.mem = s.mem ∧ t.spad.phys = s.spad.phys ∧ t.others = s.others
      ∧ { t.core with srcnt := s.core.srcnt } = s.core)
  ∧ (∀ (i : CForm → Instr) (w : CForm) (s : State), i ∈ copies → s.core.rdP w.p.toNat = true → w.wait.toNat = 0 →
    (i w = .cfill w → Ready s w.p [w.ds.toNat] []) → walkFits (i w) s w → 16 ≤ (s.eng.queue (cEngine w.e)).length →
    (s.core.qmode.getLsbD w.e.toNat = false →
      exec (i w) s = .next (s.takeTrap 0x20 (lWord (i w)) ⟨4 + w.e.toNat, false, false, 0⟩ false))
    ∧ (s.core.qmode.getLsbD w.e.toNat = true → exec (i w) s = .next (s.stallTick (.queue w.e.toNat))))
  ∧ (∀ (i : CForm → Instr) (w : CForm) (s : State), i ∈ copies → s.core.rdP w.p.toNat = true → w.wait.toNat = 0 →
    (i w = .cfill w → Ready s w.p [w.ds.toNat] []) → walkFits (i w) s w → (s.eng.queue (cEngine w.e)).length < 16 →
    (s.core.rdD w.dd.toNat).valid = false →
    exec (i w) s = .next (s.takeTrap 0x21 (lWord (i w)) noStage false))
  ∧ (∀ (i : CForm → Instr) (w : CForm) (s : State), i ∈ copies → s.core.rdP w.p.toNat = true → w.wait.toNat = 0 →
    ¬walkFits (i w) s w → exec (i w) s = .next (s.takeTrap 0x02 (lWord (i w)) noStage false))
  ∧ ∀ (w : CstopForm) (s : State), s.core.rdP w.p.toNat = true →
    ∃ t, exec (.cstop w) s = .next t
      ∧ (t.eng.queue (cEngine w.e)).map (fun c => (c.ins, c.stamp))
        = ((s.eng.queue (cEngine w.e)).filter (fun c => !(w.kind == 0 || c.front == some w.fc.toNat))).map
            (fun c => (c.ins, c.stamp))
      ∧ (t.eng.queue (cEngine (1 - w.e))).map (fun c => (c.ins, c.stamp))
        = (s.eng.queue (cEngine (1 - w.e))).map (fun c => (c.ins, c.stamp))
      ∧ ∀ c ∈ s.eng.queue (cEngine w.e), ∀ f, (w.kind = 0 ∨ f = w.fc.toNat) → c.front = some f →
        ((s.front f).state = .running ∨ (s.front f).state = .halted) →
        (t.front f).state = .broken ∧ (t.front f).cause = 9 ∧ (t.front f).gen = (s.front f).gen

end

section

open Sys2Proof Sys2Proof.Machine Sys2Proof.Safety Sys2Proof.Claim

/-! ### The engines at work -/

/-- The matrix engine: MCLR clears the accumulators of its mask as it starts; a beat of a product adds the chunk's exact sum of products to
each element of one row and rounds once, an integer one saturates; a drain beat converts one row into a vector register; a tap beat
joins each column's curve value to the tree; a finished command frees its entry; a suspended head does not move. -/
def Obligations.MatrixEngine : Prop :=
  (∀ (s : State) (c : Cmd) (w : MclrForm), headOf s .matrix = some c → c.ins = .mclr w → c.started = false → c.susp = none →
    s.core.run = .running →
    ∃ t, exec (.commandStart .matrix) s = .next t ∧ HeadIs t .matrix { c with started := true, phase := 2 }
      ∧ (∀ a i j, i < 64 → j < 64 → accOf t a i j = if a < 4 ∧ w.amask.getLsbD a = true then 0 else accOf s a i j)
      ∧ (∀ a i, i < 64 → sget false t.eng.accBad (a * 64 + i)
          = if a < 4 ∧ w.amask.getLsbD a = true then false else sget false s.eng.accBad (a * 64 + i))
      ∧ t.core = s.core ∧ t.mem = s.mem ∧ t.spad = s.spad)
  ∧ (∀ (s : State) (c : Cmd) (w : MmaForm) (r : Latch) (row scales : Sparse (BitVec 32)) (bad : Bool), Moves s .matrix c →
    c.ins = .mma w → c.phase = 0 → s.eng.staging = some r →
    s.readRow c w c.row (c.chunk * c.chunkLen) (Nat.min (c.descs.getD 0 {}).depth (c.chunk * c.chunkLen + c.chunkLen))
      = .ok ((row, scales, bad), s) → r.n ≤ 64 → c.row < 64 →
    let ks := fromTo (c.chunk * c.chunkLen) (Nat.min (c.descs.getD 0 {}).depth (c.chunk * c.chunkLen + c.chunkLen))
    let ta := (c.descs.getD 0 {}).etype
    ∃ t, exec .matrixBeat s = .next t
      ∧ (∀ j, j < r.n → mmFloat ta = true → accOf t w.acc.toNat c.row j = BitVec.ofNat 32 ((Fmt.fp fp32).round
          (exactSum [fp32.val (accOf s w.acc.toNat c.row j).toNat,
            (exactSum (ks.map fun k => ((aVal w ta row scales k).mul (bVal r (c.chunk * c.chunkLen) k j)).1) false).1] false).1 rne).1)
      ∧ (∀ j, j < r.n → mmFloat ta = false → accOf t w.acc.toNat c.row j
          = BitVec.ofInt 32 (clamp (-2 ^ 31) (2 ^ 31 - 1) ((accOf s w.acc.toNat c.row j).toInt
            + (ks.map fun k => intEnc ta (sget 0 row k) * intEnc r.etype (sget 0 r.data ((k - c.chunk * c.chunkLen) * 64 + j))).sum)))
      ∧ ∀ a i j, i < 64 → j < 64 → ¬(a = w.acc.toNat ∧ i = c.row ∧ j < r.n) → accOf t a i j = accOf s a i j)
  ∧ (∀ (s : State) (c : Cmd) (w : MdrainForm), Moves s .matrix c → c.ins = .mdrain w → c.phase = 0 → w.dst ≠ 0 → w.aen = 0 →
    c.pos % 64 = 0 → c.pos < 4096 → c.front = none →
    ∃ t, exec .drainBeat s = .next t
      ∧ (∀ j, j < 64 → (t.core.rdPhys w.cl.toNat ((w.vbase.toNat + c.pos / 64) % 768)).getD j 0
          = BitVec.ofNat 32 (s.eng.drainElem w (c.pos / 64) j (c.drawMode s.core.index (c.pos / 64 * 64 + j))))
      ∧ (∀ k, k ≠ (w.vbase.toNat + c.pos / 64) % 768 → t.core.rdPhys w.cl.toNat k = s.core.rdPhys w.cl.toNat k)
      ∧ HeadIs t .matrix { c with pos := c.pos + 64, phase := if 4096 ≤ c.pos + 64 then 2 else 0 } ∧ t.mem = s.mem)
  ∧ (∀ (s : State) (c : Cmd) (w : MmaForm) (n : Nat), Moves s .matrix c → c.ins = .mmad w → c.phase = 1 → c.tap = none →
    c.front = none → c.pos = 0 → c.treeDone = false → c.row + 1 < c.mmM → c.row < 64 → n = c.mmN s.eng → n ≤ 64 →
    w.acc.toNat = 0 ∨ w.acc.toNat = 2 →
    ∃ t, exec .tapBeat s = .next t
      ∧ (∀ j, j < n → accOf t (w.acc.toNat + 1) c.row j = BitVec.ofNat 32 ((Fmt.fp fp32).round
          (exactSum [fp32.val (accOf s (w.acc.toNat + 1) c.row j).toNat,
            fp32.val (BitVec.ofNat 32 ((s.core.rdCurve c.branchBounds.2.2).value
              (fp32.val (accOf s w.acc.toNat c.row j).toNat)).1).toNat] false).1 rne).1)
      ∧ (∀ a i j, i < 64 → j < 64 → ¬(a = w.acc.toNat + 1 ∧ i = c.row ∧ j < n) → accOf t a i j = accOf s a i j)
      ∧ HeadIs t .matrix { c with row := c.row + 1 } ∧ t.mem = s.mem ∧ t.spad = s.spad)
  ∧ (∀ (s : State) (c : Cmd), headOf s .matrix = some c → c.phase = 2 →
    exec .matrixCommandComplete s = .next { s with eng := { s.eng with mq := s.eng.mq.tail } })
  ∧ ∀ (s : State) (c : Cmd) (i : Instr), headOf s .matrix = some c → ((c.started = false ∧ c.susp = none) ∨
      ∃ x, c.susp = some x ∧ s.resolved c x = false) → i ∈ [Instr.matrixBeat, .drainBeat, .tapBeat] →
    exec i s = .next s

/-- The copy engines: a command that nothing arms starts; a beat whose elements all go through counts them in the command and the
front, and the last beat frees the entry; CFILL writes the captured scalar, CPY between equal types the encoding that it reads. -/
def Obligations.CopyEngine : Prop :=
  (∀ (s : State) (e : BitVec 1) (c : Cmd), headOf s (cEngine e) = some c → c.arming = .no → c.started = false → c.susp = none →
    s.core.run = .running → (∀ w, c.ins = .mcast w → ∃ k ∈ c.recv, k ∉ c.acked) →
    exec (.commandStart (cEngine e)) s = .next (s.onHead (cEngine e) fun c => { c with started := true }))
  ∧ (∀ (s : State) (e : BitVec 1) (c : Cmd) (n : Nat) (ws : List Wrote) (u : State), Moves s (cEngine e) c →
    (∀ w, c.ins ≠ .mcast w ∧ c.ins ≠ .crem w) → c.pos < c.walked.count → n = beatLen c.walked c.walkList c.pos →
    s.copyElems (cEngine e) c (fromTo c.pos (c.pos + n)) 0 [] = (none, n, ws, u) → headOf u (cEngine e) = some c →
    c.front = none →
    ∃ t, exec (.copyBeat e) s = .next t
      ∧ (c.pos + n = c.walked.count → t.eng.queue (cEngine e) = (u.eng.queue (cEngine e)).tail)
      ∧ (c.pos + n ≠ c.walked.count → HeadIs t (cEngine e) { c with pos := c.pos + n, waitOn := none })
      ∧ (∀ b, t.mem.rd b = u.mem.rd b) ∧ ∀ o b, sget 0 (t.spadOf o).phys b = sget 0 (u.spadOf o).phys b)
  ∧ (∀ (s : State) (e : BitVec 1) (c : Cmd) (w : CForm) (k : Nat), c.ins = .cfill w →
    s.copyElem (cEngine e) c k = s.elemWrite (cEngine e) (c.descs.getD 0 {})
      (coordsOf c.walkList c.walked.dims k) ((c.vals.getD 0 0).toNat % 2 ^ (c.descs.getD 0 {}).bits) false)
  ∧ (∀ (s u : State) (e : BitVec 1) (c : Cmd) (w : CForm) (k v : Nat) (bad : Bool), c.ins = .cpy w →
    (c.descs.getD 1 {}).etype = (c.descs.getD 0 {}).etype →
    s.readElem (cEngine e) c (c.descs.getD 1 {}) (coordsOf c.walkList c.walked.dims k) = .ok ((v, bad), u) →
    s.copyElem (cEngine e) c k = u.elemWrite (cEngine e) (c.descs.getD 0 {}) (coordsOf c.walkList c.walked.dims k) v bad)
  ∧ ∀ (s : State) (e : BitVec 1) (c : Cmd), headOf s (cEngine e) = some c → c.started = false → c.susp = none →
    exec (.copyBeat e) s = .next s

/-- Acknowledgements and timeouts: CREM_ACK counts one element more; MCAST_ACK one receiver more, one that has retired or has all its bytes; a CREM that waits too long
is suspended at the first element not acknowledged, as for a path that is down; the pin of a line ends; at CHASELIM a chase timer restarts, and two copy commands that chase each
other's fronts raise 0x18 for the older one; FRONT_RESUME lets a halted front run again; the pager brings a page in and
the stash its line; an admitted element of the peer module is written at its home, another is dropped and recorded. -/
def Obligations.EngineEvents : Prop :=
  (∀ (s : State) (e : BitVec 1) (c : Cmd) (w : CForm) (k : Nat), headOf s (cEngine e) = some c → c.ins = .crem w → c.front = none →
    sget 0 s.eng.crem (engProd (cEngine e)) = k + 1 →
    ∃ t, exec (.cremAck e) s = .next t ∧ sget 0 t.eng.crem (engProd (cEngine e)) = k ∧ t.core = s.core ∧ t.mem = s.mem
      ∧ (c.cacked + 1 ≠ c.walked.count → HeadIs t (cEngine e) { c with cacked := c.cacked + 1 })
      ∧ (c.cacked + 1 = c.walked.count → t.eng.queue (cEngine e) = (s.eng.queue (cEngine e)).tail))
  ∧ (∀ (s : State) (e : BitVec 1) (idx : Nat) (c : Cmd) (w : CForm), headOf s (cEngine e) = some c →
    c.ins = .mcast w → c.front = none →
    (s.recvAt idx = .gone ∨ ((∃ k, s.recvAt idx = .here k ∧ s.recvLost k = false) ∧ c.pos = c.walked.count
      ∧ ∀ x ∈ s.eng.flight, ¬(x.1 = engProd (cEngine e) ∧ x.2.group = idx))) →
    idx ∈ c.recv → idx ∉ c.acked → (∃ r ∈ c.recv, r ≠ idx ∧ r ∉ c.acked) →
    exec (.mcastAck e idx) s = .next (s.onHead (cEngine e) fun c => { c with acked := idx :: c.acked }))
  ∧ (∀ (s : State) (e : BitVec 1) (c : Cmd) (w : CForm), headOf s (cEngine e) = some c → c.ins = .crem w → c.susp = none →
    c.front = none → sget 0 s.eng.crem (engProd (cEngine e)) ≠ 0 →
    ∃ t r, exec (.kretanAcknowledgementTimeout e) s = .next t ∧ t.core = s.core ∧ t.mem = s.mem
      ∧ sget 0 t.eng.crem (engProd (cEngine e)) = 0
      ∧ HeadIs t (cEngine e) { c with pos := c.cacked, susp := some (suspAt 6 (c.placeAt c.cacked) r false false), waitOn := none })
  ∧ (∀ (s : State) (line : Nat), line ∈ s.mem.retry → ∃ t, exec (.pinRetryTimeout line) s = .next t
    ∧ (∀ l, l ∈ t.core.pins ↔ l ∈ s.core.pins ∧ l ≠ line) ∧ { t.core with pins := s.core.pins } = s.core
    ∧ (∀ o ∈ t.others, line ∉ o.ctx.pins) ∧ t.mem = { s.mem with retry := s.mem.retry.filter fun l => l != line })
  ∧ (∀ (s : State) (line : Nat), line ∉ s.mem.retry → exec (.pinRetryTimeout line) s = .next s)
  ∧ (∀ (s : State) (f : BitVec 6) (c : Cmd) (x : Susp), headOf s .matrix = some c → s.eng.c0q = [] → s.eng.c1q = [] →
    s.core.run = .running → c.front = some f.toNat → c.susp = some x → s.resolved c x = true →
    (s.front f.toNat).state = .halted → (s.front f.toNat).pub = false →
    ∃ t, exec (.frontResume f) s = .next t ∧ (t.front f.toNat).state = .running ∧ (t.front f.toNat).cause = 0
      ∧ (t.front f.toNat).value = (s.front f.toNat).value ∧ HeadIs t .matrix { c with susp := none, waitOn := if c.armBroken then c.waitOn else none }
      ∧ t.core = s.core ∧ t.mem = s.mem)
  ∧ (∀ (s t : State) (sva pg : Nat) (o : Owner) (win : Bool), (s.part s.core.partNo).mode modePaging = false →
    s.touch sva false = .page o pg win →
    (∀ x w, s.pageSusp (s.pageWaiter 4096 sva) = some x → x.pw = some w → s.pageTurn w = true) →
    s.pageIn o pg (s.neededPages o (((s.pageSusp (s.pageWaiter 4096 sva)).map (·.need)).getD [])) = .done t → t.core.held = [] →
    exec (.pageIn sva) s = .next t)
  ∧ (∀ (s t : State) (sva : Nat) (write : Bool) (p : Place), s.touch sva write = .line p → s.fillLine p write = (none, t) →
    exec (.stashLineFill sva write) s = .next t)
  ∧ (∀ (s : State) (sva : Nat) (write : Bool) (p : Place), s.touch sva write = .at p →
    exec (.stashLineFill sva write) s = .next s)
  ∧ (∀ (s : State) (g : Engine) (c : Cmd) (o : Owner) (n : Nat), headOf s g = some c → c.waitOn = some (o, n) →
    c.timer < s.core.chaselim.toNat → exec (.chaseTimerExpiry (.engine g)) s = .next s)
  ∧ (∀ (s : State) (g : Engine) (c : Cmd) (o : Owner) (n : Nat), headOf s g = some c → c.waitOn = some (o, n) → c.susp = none →
    (s.frontOf o n).state = .running → (s.frontOf o n).value < c.waitNeed → s.core.chaselim.toNat ≤ c.timer → s.cycleFrom o n [(none, g)] 8 = [] →
    exec (.chaseTimerExpiry (.engine g)) s = .next (s.onHead g fun c => { c with timer := 0 }))
  ∧ (∀ (s : State) (c d : Cmd) (n m : Nat), headOf s .copy0 = some c → headOf s .copy1 = some d →
    c.waitOn = some (none, n) → d.waitOn = some (none, m) → c.front = some m → d.front = some n → (s.front n).prod = 2 →
    (s.front m).prod = 1 → (s.front n).state = .running → (s.front m).state = .running → (s.front n).value < c.waitNeed → (s.front m).value < d.waitNeed →
    c.susp = none → d.susp = none → c.stamp < d.stamp →
    s.core.chaselim.toNat ≤ c.timer → s.core.held = [] →
    ∃ t, exec (.chaseTimerExpiry (.engine .copy0)) s = .next t
      ∧ t.core.held = [⟨0x18, s.frontTval none n, ⟨4, false, false, 0⟩⟩] ∧ HeadIs t .copy0 { c with timer := 0 })
  ∧ (∀ (s : State) (d : Delivery) (p : Place), s.ownTouch d.sva = .at p → d.bar = none → p.stash = false →
    (∀ m ∈ d.mask, m = 0xFF#8) → d.mask.length = d.bytes.length →
    ∃ t, exec (.mcastDelivery (.incoming d)) s = .next t ∧ StoredAt s t p d.bytes.length d.bytes)
  ∧ (∀ (s : State) (m : KretanElem), s.peerPart m = none →
    exec (.cremIncoming m) s
      = .next (s.record ctlDie { rank := rankDeferred, utype := 11, uindex := m.port, addr := m.va, aspace := 1 }))
  ∧ ∀ (s u : State) (m : KretanElem) (p a : Nat), s.peerPart m = some p → s.ctlPa p m.va needW = (some a, u) → m.red = none → m.poison = false →
    ∃ t, exec (.cremIncoming m) s = .next t
      ∧ leNat (t.mem.rdN a ((m.bit % 8 + (fmtOf m.etype.toNat).bits + 7) / 8)) / 2 ^ (m.bit % 8) % 2 ^ (fmtOf m.etype.toNat).bits
        = m.data.toNat % 2 ^ (fmtOf m.etype.toNat).bits
      ∧ t.core = u.core

end

namespace Sys2Proof.Claim

open Sys2Proof Sys2Proof.Machine Sys2Proof.Safety

/-- The files that hold the lines are in their canonical form. -/
def LinesOk (s : State) : Prop := swf {} none s.mem.lines = true ∧ ∀ l, swf {} none (s.mem.line l).dies = true

/-- The events that move tokens of lines between their holders (R226, R229 to R236). -/
def movesTokens (i : Instr) : Bool :=
  match i with
  | .transientReadRequest _ _ _ | .transientWriteRequest _ _ _ | .transientReduceRequest _ _ _ | .tokenResponse _
  | .clusterInvalidation _ _ _ _ | .clusterAck _ _ _ | .ttoExpiry _ _ | .hawserRequest _ _ | .hawserActivation _ _
  | .hawserDeactivation _ | .eviction _ _ | .cleaningWriteBack _ _ | .writeBackAck _ _ => true
  | _ => false

/-- The line of an event's state. -/
abbrev ln (s : State) (l : Nat) : Line := s.mem.line l
/-- A message of a die, as R369 numbers dies, joined those on their way, with the next sequence number. -/
def Sent (s t : State) (src : Nat) (m : TokMsg) : Prop :=
  t.mem.msgs = s.mem.msgs ++ [{ m with src := src, seq := s.mem.nextSeq }] ∧ t.mem.nextSeq = s.mem.nextSeq + 1
/-- Both ends of a link are in a power state with a count of retrainings; no other end changes. -/
def BothEnds (s t : State) (k far : Nat) (p : Power) (n : Nat) : Prop :=
  ((t.wire k).power = p ∧ (t.wire k).trains = n) ∧ ((t.wire far).power = p ∧ (t.wire far).trains = n)
    ∧ ∀ j, j ≠ k → j ≠ far → t.wire j = s.wire j

end Sys2Proof.Claim

section

open Sys2Proof Sys2Proof.Machine Sys2Proof.Safety Sys2Proof.Claim

/-! ### Coherence and links -/

/-- No event of the protocol makes or loses a token of any line, and a line with one owner token keeps it: what one holder gives, a
message carries or another holder receives. -/
def Obligations.TokenConservation : Prop :=
  ∀ (i : Instr) (s t : State) (l : Nat), movesTokens i = true → LinesOk s → exec i s = .next t →
    t.mem.tokens l = s.mem.tokens l ∧ (s.mem.owners l = 1 → t.mem.owners l = 1)

/-- How a line's holders answer requests (the home after its walk), hold them while copies are recalled, hand everything over to a hawser request, and send
lines home. -/
def Obligations.Coherence : Prop :=
  (∀ (s : State) (l d : Nat), d < 8 → ((ln s l).die d).tokens = 0 → ((ln s l).die d).trans = .none →
    (ln (s.waitsAt l d false) l).die d = { (ln s l).die d with trans := .is })
  ∧ (∀ (s v u : State) (c : Core) (l d a : Nat), d < 8 → s.mem.waitsRebuild l = false → ((ln s l).die d).tokens = 0 →
    ((ln s l).die d).trans = .none → (s.waitsAt l d false).asker d (l * 256) = (some c, v) →
    v.walk c.s1root (l * 256) needR = (.pa a, u) → (ln u l).homeOwner = true → 2 ≤ (ln u l).homeTok → u.mem.reduceKey l = none →
    ∃ t, exec (.transientReadRequest .home l d) s = .next t ∧ (ln t l).homeTok = (ln u l).homeTok - 1
      ∧ (ln t l).homeOwner = true ∧ (ln t l).die d = (ln u l).die d
      ∧ Sent u t (homeDie l) { line := l, dst := .die d, tokens := 1, owner := false, data := true, dirty := 0, reduce := none })
  ∧ (∀ (s : State) (h : Holder) (l d : Nat) (i : Instr), s.mem.waitsRebuild l = true →
    i ∈ [Instr.transientReadRequest h l d, .transientWriteRequest h l d, .transientReduceRequest h l d] → exec i s = .next s)
  ∧ (∀ (s : State) (l d h : Nat), d < 8 → h ≠ d → s.mem.waitsRebuild l = false → ((ln s l).die h).tokens ≠ 0 →
    ((ln s l).die h).trans = .none →
    (((ln s l).die h).recalls true = [] → s.pinned h l = false →
      ∃ t m, exec (.transientWriteRequest (.die h) l d) s = .next t ∧ ((ln t l).die h).tokens = 0 ∧ Sent s t h m
        ∧ m.dst = .die d ∧ m.line = l ∧ m.tokens = ((ln s l).die h).tokens ∧ m.owner = ((ln s l).die h).owner
        ∧ m.data = ((ln s l).die h).owner)
    ∧ (((ln s l).die h).recalls true ≠ [] → (Ask.write, d) ∉ ((ln s l).die h).heldReq →
      ∃ t, exec (.transientWriteRequest (.die h) l d) s = .next t ∧ ((ln t l).die h).trans = .rc
        ∧ ((ln t l).die h).tokens = ((ln s l).die h).tokens ∧ ((ln t l).die h).awaits = ((ln s l).die h).recalls true
        ∧ ((ln t l).die h).heldReq = ((ln s l).die h).heldReq ++ [(Ask.write, d)] ∧ t.mem.msgs = s.mem.msgs))
  ∧ (∀ (s : State) (l d : Nat), d < 8 → s.mem.waitsRebuild l = false → (s.mem.reduceKey l).isSome = true →
    (2 ≤ (ln s l).homeTok → ∃ t, exec (.transientReduceRequest .home l d) s = .next t ∧ (ln t l).homeTok = (ln s l).homeTok - 1
      ∧ Sent s t (homeDie l) { line := l, dst := .die d, tokens := 1, owner := false, data := false, dirty := 0, reduce := none })
    ∧ ∀ h, h ≠ d → ((ln s l).die h).trans = .none → s.pinned h l = false → 2 ≤ ((ln s l).die h).tokens → ∃ t, exec (.transientReduceRequest (.die h) l d) s = .next t
      ∧ ((ln t l).die h).tokens = ((ln s l).die h).tokens - 1 ∧ ((ln t l).die h).owner = ((ln s l).die h).owner
      ∧ Sent s t h { line := l, dst := .die d, tokens := 1, owner := false, data := false, dirty := 0, reduce := none })
  ∧ (∀ (s : State) (i l d : Nat) (m : TokMsg), s.mem.msgs[i]? = some m → m.line = l → m.dst = .die d →
    ((ln s l).die d).activeFor = none →
    ∃ t, exec (.tokenResponse i) s = .next t ∧ ((ln t l).die d).tokens = ((ln s l).die d).tokens + m.tokens
      ∧ ((ln t l).die d).owner = (((ln s l).die d).owner || m.owner) ∧ t.mem.msgs = s.mem.msgs.eraseIdx i
      ∧ (((ln s l).die d).trans = .is → m.tokens ≠ 0 → m.data = true → ((ln t l).die d).trans = .none))
  ∧ (∀ (s : State) (k : Nat) (m : TokMsg), s.mem.resent[k]? = some m →
    ((∀ x ∈ s.mem.msgs, ¬(x.seq = m.seq ∧ x.src = m.src)) → exec (.tokenResponse (s.mem.msgs.length + k)) s
      = .next (s.onMem fun n => { n with resent := n.resent.eraseIdx k }))
    ∧ ∀ j, (s.mem.msgs.findIdx? fun x => x.seq == m.seq && x.src == m.src) = some j → j < s.mem.msgs.length →
      exec (.tokenResponse (s.mem.msgs.length + k)) s
        = exec (.tokenResponse j) (s.onMem fun n => { n with resent := n.resent.eraseIdx k }))
  ∧ (∀ (s v u : State) (c : Core) (l d a : Nat), ((ln s l).die d).tokens ≠ 0 → ((ln s l).die d).wp = false →
    s.asker d (l * 256) = (some c, v) →
    (v.walk c.s1root (l * 256) needW = (.pa a, u) →
      ∃ t, exec (.upgradeRequest d l) s = .next t ∧ (ln t l).die d = { (ln u l).die d with wp := true } ∧ t.core = u.core)
    ∧ ∀ f, v.walk c.s1root (l * 256) needW = (.fault f, u) →
      exec (.upgradeRequest d l) s = .next (u.homeFault c.num (l * 256) true f))
  ∧ (∀ (s : State) (d l : Nat), ((ln s l).die d).tokens = 0 ∨ ((ln s l).die d).wp = true → exec (.upgradeRequest d l) s = .next s)
  ∧ (∀ (s : State) (d c l n : Nat), clusterOf n = d * 16 + c → l < 2 ^ 44 →
    ∃ t, exec (.clusterInvalidation d c l true) s = .next t
      ∧ (∀ k, k < 4 → sget {} t.mem.l1 (coreKey n (l * 256 + k * 64)) = {}) ∧ t.core = s.core ∧ ∀ a, t.mem.rd a = s.mem.rd a)
  ∧ (∀ (s : State) (d c k l : Nat), ((ln s l).die d).trans = .rc → k ∈ ((ln s l).die d).awaits → k ≠ c →
    ∃ t, exec (.clusterAck d c l) s = .next t ∧ ((ln t l).die d).trans = .rc
      ∧ ((ln t l).die d).awaits = ((ln s l).die d).awaits.filter (fun x => x != c) ∧ t.mem.msgs = s.mem.msgs)
  ∧ (∀ (s : State) (d c l r : Nat), r < 8 → r ≠ d → ((ln s l).die d).trans = .rc → c ∈ ((ln s l).die d).awaits →
    (∀ k ∈ ((ln s l).die d).awaits, k = c) → s.pinned d l = false → ((ln s l).die d).heldReq = [(Ask.write, r)] →
    ((ln s l).die d).prev = .none → ((ln s l).die d).tokens ≠ 0 → (∀ b, ((ln s l).die d).sharers.getLsbD b = true → b = c) →
    (∀ w, ((ln s l).die d).writer = some w → w = c) →
    ∃ t m, exec (.clusterAck d c l) s = .next t ∧ ((ln t l).die d).tokens = 0 ∧ ((ln t l).die d).trans = .none ∧ Sent s t d m
      ∧ m.dst = .die r ∧ m.line = l ∧ m.tokens = ((ln s l).die d).tokens ∧ m.owner = ((ln s l).die d).owner)
  ∧ (∀ (s : State) (d l : Nat), (ln s l).haw = none → d ∉ (ln s l).hawQ →
    (∃ t, exec (.hawserRequest d l) s = .next t ∧ (ln t l).haw = some d ∧ (ln t l).hawSeq = (ln s l).hawSeq + 1)
    ∧ (((ln s l).die d).trans = .is → ∃ t, exec (.ttoExpiry d l) s = .next t ∧ ((ln t l).die d).trans = .hs
        ∧ (ln t l).haw = some d))
  ∧ (∀ (s : State) (d r l : Nat), (ln s l).haw = some r → r ≠ d → d ∉ (ln s l).hawQ → (ln s l).hawQ.length < 2304 →
    ∃ t, exec (.hawserRequest d l) s = .next t ∧ (ln t l).haw = some r ∧ (ln t l).hawQ = (ln s l).hawQ ++ [d])
  ∧ (∀ (s : State) (r l : Nat), r < 8 → (ln s l).haw = some r → (ln s l).homeTok ≠ 0 →
    ∃ t m, exec (.hawserActivation .home l) s = .next t ∧ (ln t l).homeTok = 0 ∧ (ln t l).homeOwner = false ∧ Sent s t (homeDie l) m
      ∧ m.dst = .die r ∧ m.tokens = (ln s l).homeTok ∧ m.owner = (ln s l).homeOwner)
  ∧ (∀ (s : State) (r l : Nat), r < 8 → (ln s l).haw = some r → ((ln s l).die r).trans = .none →
    ((ln s l).hawQ = [] → ∃ t, exec (.hawserDeactivation l) s = .next t ∧ (ln t l).haw = none
        ∧ (ln t l).hawDeact = (ln s l).hawSeq)
    ∧ ∀ n q, (ln s l).hawQ = n :: q → ∃ t, exec (.hawserDeactivation l) s = .next t ∧ (ln t l).haw = some n
        ∧ (ln t l).hawQ = q ∧ (ln t l).hawSeq = (ln s l).hawSeq + 1)
  ∧ (∀ (s : State) (d l : Nat), ((ln s l).die d).tokens ≠ 0 → ((ln s l).die d).trans = .none → s.pinned d l = false →
    (ln s l).partialOf d = none →
    ∃ t m, exec (.eviction d l) s = .next t ∧ ((ln t l).die d).tokens = 0 ∧ ((ln t l).die d).dirty = 0 ∧ Sent s t d m
      ∧ m.dst = .home ∧ m.line = l ∧ m.tokens = ((ln s l).die d).tokens ∧ m.owner = ((ln s l).die d).owner
      ∧ m.dirty = ((ln s l).die d).dirty)
  ∧ (∀ (s : State) (d l : Nat), ((ln s l).die d).owner = true → ((ln s l).die d).dirty ≠ 0 →
    ((ln s l).die d).trans = .none → ((ln s l).die d).reduce = none → s.pinned d l = false →
    ∃ t, exec (.cleaningWriteBack d l) s = .next t ∧ ((ln t l).die d).trans = .wb
      ∧ sget 0 (ln t l).wbs d = ((ln s l).die d).dirty ∧ ((ln t l).die d).tokens = ((ln s l).die d).tokens)
  ∧ (∀ (s : State) (d l : Nat), sget 0 (ln s l).wbs d ≠ 0 → ((ln s l).die d).trans = .wb → ((ln s l).die d).activeFor = none →
    ∃ t, exec (.writeBackAck d l) s = .next t ∧ ((ln t l).die d).trans = .none ∧ sget 0 (ln t l).wbs d = 0
      ∧ ((ln t l).die d).dirty = ((ln s l).die d).dirty &&& ~~~(sget 0 (ln s l).wbs d)
      ∧ ((ln t l).die d).owner = ((ln s l).die d).owner)
  ∧ (∀ (s : State) (ia : Nat), s.liveCores = [] ∨ (s.liveCores = [s.core.num] ∧ s.core.partNo ≠ partOfIa ia) →
    exec (.landing ia) s = .next s)
  ∧ (∀ (s u : State) (ia : Nat), s.liveCores = [s.core.num] → s.core.partNo = partOfIa ia →
    (s.landWalk s.core.s1root ia 7).2 = u → (∀ g, s.landWaiter ia g = none) → exec (.landing ia) s = .next u)
  ∧ ∀ (s : State) (ia : Nat) (v : Moved) (m : Mem), s.liveCores = [s.core.num] → s.core.partNo = partOfIa ia →
    findLeaves s.mem s.core.s1root (s.part (partOfIa ia)).s2root ia = .moved v → v.leaf.entry.wok = true →
    landLeaf s.mem (s.part (partOfIa ia)).s2root v (s.ringsOf (partOfIa ia) v.stage).1 (s.ringsOf (partOfIa ia) v.stage).2 = .landed m →
    (∀ w, findLeaves m s.core.s1root (s.part (partOfIa ia)).s2root ia ≠ .moved w) → (∀ g c, headOf s g = some c → c.susp = none) →
    exec (.landing ia) s = .next { s with mem := m }

/-- The links: a link has two ends; a failed flit is replayed up to 8 times, counted per flit, and then everything its sender has under
way goes another way too; an idle link dozes and then sleeps; a link that does not wake retrains 3 times and then fails: another link of
the far die that works leaves only the link withdrawn, else the die is lost; a die that is lost stays lost; a faulted invalidation
without data clears the sharers that it recalled, and faulted data are poisoned where they land, in a sector of the slice, a word of an
L1 or of a stash line, or a line of a constant cache; then the unit is tested. -/
def Obligations.Links : Prop :=
  (∀ (s : State) (k seq : Nat) (e : Nat × Nat), linkFar k = some e →
    let n := sget 0 (s.wire k).replays seq
    (n < 8 → ∃ t, exec (.flitCrcFailure (flitAt k seq)) s = .next t ∧ sget 0 (t.wire k).replays seq = n + 1
      ∧ (∀ j, j ≠ seq → sget 0 (t.wire k).replays j = sget 0 (s.wire k).replays j)
      ∧ (∀ j, j ≠ k → (t.wire j).replays = (s.wire j).replays) ∧ t.mem.msgs = s.mem.msgs ∧ t.mem.bytes = s.mem.bytes)
    ∧ (8 ≤ n → exec (.flitCrcFailure (flitAt k seq)) s = .next s))
  ∧ (∀ (s : State) (k seq : Nat), 8 ≤ sget 0 (s.wire k).replays seq →
    ∃ t, exec (.replayLimit k) s = .next t ∧ t.wire k = { s.wire k with replays := [], rerouted := true }
      ∧ t.mem.resent = s.mem.resent ++ s.mem.msgs.filter (fun m => m.src == k / 64) ∧ t.mem.msgs = s.mem.msgs)
  ∧ (∀ (s : State) (k : Nat), (∀ e ∈ (s.wire k).replays, e.2 < 8) → exec (.replayLimit k) s = .next s)
  ∧ (∀ (k : Nat) (e : Nat × Nat), linkFar k = some e → linkFar e.2 = some (k / 64, k) ∧ k / 64 ≠ e.1)
  ∧ (∀ (s : State) (k : Nat) (e : Nat × Nat), linkFar k = some e →
    ((s.wire k).power = .active → ∃ t, exec (.linkDoze k) s = .next t ∧ BothEnds s t k e.2 .dozing (s.wire k).trains)
    ∧ ((s.wire k).power = .active ∨ (s.wire k).power = .dozing →
      ∃ t, exec (.linkSleep k) s = .next t ∧ BothEnds s t k e.2 .sleeping (s.wire k).trains)
    ∧ ((s.wire k).power ≠ .failed → ∃ t, exec (.linkWake k) s = .next t ∧ BothEnds s t k e.2 .active 0)
    ∧ ((s.wire k).power = .sleeping ∨ (s.wire k).power = .dozing ∨ (s.wire k).power = .retraining →
      ((s.wire k).trains < 3 →
        ∃ t, exec (.linkWakeTimeout k) s = .next t ∧ BothEnds s t k e.2 .retraining ((s.wire k).trains + 1))
      ∧ (3 ≤ (s.wire k).trains → e.1 ∉ s.mem.lost →
        (∃ i x, linkEnd e.1 i = some x ∧ i < 7 ∧ e.1 * 64 + i ≠ e.2 ∧ e.1 * 64 + i ≠ k ∧ (s.wire (e.1 * 64 + i)).power ≠ .failed) →
        ∃ t, exec (.linkWakeTimeout k) s = .next t ∧ BothEnds s t k e.2 .failed (s.wire k).trains ∧ t.mem.lost = s.mem.lost
          ∧ (⟨k / 64, 9, k % 64⟩ : UnitId) ∈ t.sys.withdrawn ∧ (⟨k / 64, 9, k % 64⟩ : UnitId) ∈ t.sys.health)
      ∧ (3 ≤ (s.wire k).trains →
        (∀ i x, linkEnd e.1 i = some x → e.1 * 64 + i ≠ e.2 → (s.wire (e.1 * 64 + i)).power = .failed) →
        ∃ t, exec (.linkWakeTimeout k) s = .next t ∧ e.1 ∈ t.mem.lost)))
  ∧ (∀ (s : State) (d : Nat), d ∈ s.mem.lost → exec (.dieLost d) s = .next s)
  ∧ (∀ (s : State) (d : Nat), d ∉ s.mem.lost → ∃ t, exec (.dieLost d) s = .next t ∧ d ∈ t.mem.lost
    ∧ ∀ b ∈ s.mem.lost, b ∈ t.mem.lost)
  ∧ (∀ (s : State) (d l : Nat) (suspect : Bool), ∃ t,
    exec (.ondieFlitError d l false suspect) s = .next (t.tested ⟨d, 6, sliceOf l⟩ (l * 256) [partOfIa (l * 256)])
    ∧ ((ln t l).die d).sharers = 0 ∧ ((ln t l).die d).writer = none ∧ ((ln t l).die d).parityBad = false)
  ∧ (∀ (s : State) (d l : Nat) (suspect : Bool), ∃ t p, p ∈ s.landPlaces d l
    ∧ exec (.ondieFlitError d l true suspect) s = .next (State.tested
        (match p with | .sector _ => (t.poisonLand l p).poisonWrite d l | _ => t.poisonLand l p)
        ⟨d, 6, sliceOf l⟩ (l * 256) [partOfIa (l * 256)])
    ∧ t.mem.bytes = s.mem.bytes ∧ t.mem.l1 = s.mem.l1 ∧ t.mem.cc = s.mem.cc ∧ t.core = s.core ∧ t.spad = s.spad
    ∧ (suspect = true → ((ln t l).die d).parityBad = true))
  ∧ (∀ (s : State) (d l : Nat), (∀ k, k < 4 → Land.sector k ∈ s.landPlaces d l)
    ∧ (∀ x ∈ s.mem.l1, keyLine x.1 / 4 = l → dieOf (keyCore x.1) = d → x.2.valid = true → ∀ k, k < 8 →
        Land.l1 x.1 k ∈ s.landPlaces d l)
    ∧ ∀ x ∈ s.mem.cc, keyLine x.1 / 4 = l → dieOf (keyCore x.1) = d → Land.cc x.1 ∈ s.landPlaces d l)
  ∧ ∀ (s : State) (l k w : Nat), (s.poisonLand l (.sector k)).mem.bad ((ln s l).pa + 64 * k) = true
    ∧ (w < 8 → (sget ({} : L1Line) (s.poisonLand l (.l1 k w)).mem.l1 k).bad.getLsbD w = true)
    ∧ sget false (s.poisonLand l (.cc k)).mem.ccBad k = true
    ∧ sget false (s.poisonLand l (.stash s.core.num w)).spad.poison w = true

end

namespace Sys2Proof.Claim

open Sys2Proof Sys2Proof.Machine Sys2Proof.Safety

/-- The run-time record of a node named by an event. -/
abbrev nd (s : State) (key : Nat) : NodeRt := s.node? (key % 32) (key / 32)

/-- A slot of the management window takes the block c: the module is up, the slot is not busy, the block uses no field it may not use,
and its partition exists (R341). -/
def Accepts (s : State) (c : Mgmt) : Prop :=
  c.slot < 20 ∧ s.sys.boot = .up ∧ (s.slot c.slot).status ≠ 1 ∧ c.ok = true ∧ (c.op = 0x10 ∨ (s.part c.part).live = true)
/-- The slot holds the block with a STATUS. -/
def completed (s : State) (c : Mgmt) (status : Nat) : State := s.setSlot c.slot ⟨c.w0, c.node, c.arg, c.arg2, status⟩
/-- A change of the block's partition. -/
abbrev onPart (s : State) (c : Mgmt) (f : Part → Part) : State := s.setPart c.part (f (s.part c.part))

/-- The management events: the block of each and its OP (R342, R374). -/
def commandOf (i : Instr) : Option (Mgmt × Nat) :=
  match i with
  | .halt c => some (c, 0x01)
  | .save c => some (c, 0x02)
  | .restore c => some (c, 0x03)
  | .resume c => some (c, 0x04)
  | .logarm c => some (c, 0x08)
  | .logclear c => some (c, 0x09)
  | .logread c => some (c, 0x0A)
  | .logdisarm c => some (c, 0x0B)
  | .partcreate c => some (c, 0x10)
  | .partdestroy c => some (c, 0x11)
  | .s2set c => some (c, 0x12)
  | .s2inv c => some (c, 0x13)
  | .vfbind c => some (c, 0x14)
  | .setmode c => some (c, 0x15)
  | .setports c => some (c, 0x16)
  | .setaudit c => some (c, 0x17)
  | .setweight c => some (c, 0x18)
  | .peerset c => some (c, 0x19)
  | .s2rings c => some (c, 0x1A)
  | .fwdfault c => some (c, 0x1B)
  | .killctx c => some (c, 0x1C)
  | .withdraw c => some (c, 0x1D)
  | .tokrebuild c => some (c, 0x1E)
  | _ => none

/-- Commands that change one record of the partition: OP, the condition, the change (R306 to R308, R374, R376): LOGARM, LOGDISARM,
SETMODE, SETPORTS, SETAUDIT, SETWEIGHT, PEERSET, S2RINGS. -/
def partCommands : List (Nat × (State → Mgmt → Prop) × (Mgmt → Part → Part)) :=
  [(0x08, fun _ c => c.arg.toNat % 4096 = 0 ∧ c.arg2.toNat % 64 = 0,
      fun c p => { p with logBase := c.arg.toNat, logPages := c.arg2.toNat, armed := true, ovf := false }),
   (0x0B, fun _ _ => True, fun _ p => { p with armed := false }),
   (0x15, fun _ c => c.arg.getLsbD modeTree = false, fun c p => { p with funcmode := c.arg }),
   (0x16, fun s c => (∀ e ∈ s.sys.parts, e.2.live = true → e.1 ≠ c.part → e.2.ports &&& c.arg.extractLsb' 0 18 = 0)
        ∧ ∀ u ∈ s.sys.withdrawn, u.utype = 11 → u.die = ctlDie → (c.arg.extractLsb' 0 18).getLsbD u.uindex = false,
      fun c p => { p with ports := c.arg.extractLsb' 0 18 }),
   (0x17, fun _ c => c.arg.toNat ≤ 16, fun c p => { p with audit := if c.arg = 16 then none else some c.arg.toNat }),
   (0x18, fun _ c => c.arg ≠ 0, fun c p => { p with weight := c.arg.toNat }),
   (0x19, fun _ c => fieldOf c.arg 56 5 < 20, fun c p => { p with peers := sset (0, 0) p.peers c.node.toNat (c.arg, c.arg2) }),
   (0x1A, fun _ c => c.arg.toNat % 64 = 0 ∧ c.arg2.toNat % 64 = 0,
      fun c p => { p with free2 := c.arg.toNat, ret2 := c.arg2.toNat })]

end Sys2Proof.Claim

section

open Sys2Proof Sys2Proof.Machine Sys2Proof.Safety Sys2Proof.Claim

/-! ### The scheduler, the watchdog and the auditor -/

/-- A scheduling round puts at most one group on a core, and puts groups only on cores of the partition's clusters. -/
def Obligations.Placement : Prop :=
  ∀ (s : State) (p : Nat), (s.sys.placed.map fun q => q.core).Nodup →
    ∃ t, exec (.schedulingRound p) s = .next t ∧ (t.sys.placed.map fun q => q.core).Nodup
      ∧ ∀ q ∈ t.sys.placed, (∃ r ∈ s.sys.placed, r.core = q.core) ∨ q.core / 8 ∈ (s.part p).clusters

/-- Reservations, pre-emption, parking, regrouping, the watchdog, retirement, audits, scrubbing and the heat sweep. -/
def Obligations.Scheduler : Prop :=
  (∀ (s : State) (p node g : Nat), ((s.node? p node).todo.find? fun g => decide (64 ≤ sget 0 (s.node? p node).unplaced g)) = some g →
    (s.part p).reserve = none → (s.node? p node).wants = true → (s.part p).clusters ≠ [] →
    ∃ cl ∈ (s.part p).clusters, (∀ k ∈ (s.part p).clusters, (s.freeCores k).length ≤ (s.freeCores cl).length
        ∧ ((s.freeCores k).length = (s.freeCores cl).length → cl ≤ k))
      ∧ exec (.gangReservation p node) s = .next (s.setPart p { s.part p with reserve := some (node, g, cl) }))
  ∧ (∀ (s : State) (key gang : Nat), (∀ x ∈ (nd s key).leaving, x.1 ≠ gang) → exec (.preemptionComplete key gang) s = .next s)
  ∧ (∀ (s : State) (key gang : Nat), (∃ x ∈ (nd s key).leaving, x.1 = gang) →
    (s.allMembers (s.gangOf (key % 32) (key / 32) gang) (fun t => t.quiet gangMax) = false →
      exec (.preemptionComplete key gang) s = .next s)
    ∧ (s.allMembers (s.gangOf (key % 32) (key / 32) gang) (fun t => t.quiet gangMax) = true →
      s.allMembers (s.gangOf (key % 32) (key / 32) gang) (fun t => (dirtyPages t.spad).isEmpty) = true →
      ∃ t, exec (.preemptionComplete key gang) s = .next t
        ∧ ∀ q ∈ t.sys.placed, ∀ p ∈ s.gangOf (key % 32) (key / 32) gang, q.core ≠ p.core))
  ∧ (∀ (s : State) (key gang : Nat), exec (.parkTimeout key gang) s
    = .next (if s.allWaiting (key % 32) (key / 32) gang then s.startPreempt (key % 32) (key / 32) gang true else s))
  ∧ (∀ (s : State) (d cl : Nat),
    s.allMembers (s.gangOf s.core.partNo s.core.node.toNat (s.core.index / s.core.gsize))
      (fun t => (t.core.run == .running || t.core.run == .ended) && t.quiet gangMax) = true →
    s.allMembers (s.gangOf s.core.partNo s.core.node.toNat (s.core.index / s.core.gsize)) (fun t => t.leftDirty.isEmpty) = true →
    d * 16 + cl ∈ (s.part s.core.partNo).clusters → s.core.num / 8 ≠ d * 16 + cl →
    (∀ x ∈ (s.node? s.core.partNo s.core.node.toNat).leaving, x.1 ≠ s.core.index / s.core.gsize) →
    s.core.num ∈ (s.gangOf s.core.partNo s.core.node.toNat (s.core.index / s.core.gsize)).map (fun p => p.core) →
    (s.gangOf s.core.partNo s.core.node.toNat (s.core.index / s.core.gsize)).length ≤ (s.freeCores (d * 16 + cl)).length →
    ∃ t, exec (.regrouping d cl) s = .next t ∧ t.core.num / 8 = d * 16 + cl ∧ t.core.num ∈ s.freeCores (d * 16 + cl))
  ∧ (∀ (s : State) (key : Nat), (nd s key).launch = true → (nd s key).done = false → s.nodeState (key % 32) (key / 32) = stAdmitted →
    (nd s key).saving = false → (nd s key).halted = false → s.placedOf (key % 32) (key / 32) ≠ [] → (nd s key).svc = false →
    exec (.watchdogSample key) s = .next ((s.sampled (key % 32) (key / 32)).setNode (key % 32) (key / 32)
      (if s.progressSum (s.placedOf (key % 32) (key / 32)) = (nd s key).sample then
        { nd s key with stuckMs := (nd s key).stuckMs + 1 }
      else { nd s key with
        sample := s.progressSum (s.placedOf (key % 32) (key / 32)), stuckMs := 0, strikes := 0 })))
  ∧ (∀ (s : State) (key : Nat), (nd s key).stuckMs * 1000 < (nd s key).lim1 → exec (.watchdogLim1 key) s = .next s)
  ∧ (∀ (s : State) (key : Nat), (nd s key).launch = true → (nd s key).done = false → (nd s key).stuckMs ≠ 0 →
    (nd s key).lim1 ≤ (nd s key).stuckMs * 1000 →
    ((nd s key).saving = true → ∃ t, exec (.watchdogLim1 key) s = .next t ∧ nd t key = { nd s key with stuckMs := 0, wdpend := true })
    ∧ ((nd s key).saving = false → (nd s key).strikeLim = 0 →
      ∃ t, exec (.watchdogLim1 key) s = .next t ∧ (nd t key).strikes = (nd s key).strikes + 1 ∧ (nd t key).forced = true))
  ∧ (∀ (s : State) (key : Nat), (nd s key).forced = true → (nd s key).done = false →
    ((nd s key).saving = true → exec (.watchdogLim2 key) s
      = .next (s.setNode (key % 32) (key / 32) { nd s key with forced := false, lim2pend := true }))
    ∧ ((nd s key).saving = false → (nd s key).leaving = [] → exec (.watchdogLim2 key) s
      = .next (s.setNode (key % 32) (key / 32) { nd s key with forced := false }))
    ∧ ((nd s key).saving = false → (nd s key).leaving ≠ [] → exec (.watchdogLim2 key) s = .next (s.killNode (key % 32) (key / 32) 8)))
  ∧ (∀ (s : State), s.core.run = .ended → s.core.pend = [] → s.core.muldiv = [] → s.core.vfly = [] → s.core.parked = [] →
    s.eng.mq = [] → s.eng.c0q = [] → s.eng.c1q = [] → s.stashDirty = [] →
    ∃ t, exec (.groupRetirement s.core.num) s = .next t ∧ t.core.run = .retired ∧ ∀ q ∈ t.sys.placed, q.core ≠ s.core.num)
  ∧ (∀ (s : State) (core : Nat), (core = s.core.num ∧ s.core.run ≠ .ended) ∨ (core ≠ s.core.num ∧ s.otherOn core = none) →
    exec (.groupRetirement core) s = .next s)
  ∧ (∀ (s : State) (key gang core : Nat) (sigs : List (BitVec 64)), gang ∈ (nd s key).auditing →
    ((∃ r ∈ s.sys.replays, r.node = key ∧ r.gang = gang ∧ r.core = core) →
      ∃ t, exec (.auditCompare key gang core sigs) s = .next t ∧ (∀ a ∈ t.sys.audits, ¬(a.node = key ∧ a.gang = gang))
        ∧ ∀ r ∈ t.sys.replays, ¬(r.node = key ∧ r.gang = gang))
    ∧ ((∀ r ∈ s.sys.replays, ¬(r.node = key ∧ r.gang = gang)) →
      ∃ t, exec (.auditTimeout key gang) s = .next t ∧ ∀ a ∈ t.sys.audits, ¬(a.node = key ∧ a.gang = gang)))
  ∧ (∀ (s : State) (x : ScrubAt), exec (.scrubPass x .clean) s = .next s)
  ∧ (∀ (s : State) (pa : Nat) (y : BitVec 64), (∃ p ∈ s.usersOf (pa, 1), (s.part p).mode modeTriage = true) →
    ∃ t, exec (.scrubPass (.hbm pa) (.uncorrected y)) s = .next t ∧ t.mem.bad pa = true ∧ ∀ a, t.mem.rd a = s.mem.rd a)
  ∧ ∀ (s : State) (p : Nat), ∃ t, exec (.heatSweep p) s = .next t ∧ t.core = s.core ∧ t.eng = s.eng ∧ t.spad = s.spad ∧ t.others = s.others
    ∧ ((s.part p).mode modeSweep = true → t = s)

/-! ### The host -/

/-- Management commands: what each leaves, and the STATUS that its slot then reads; a module in recovery refuses every command with
STATUS 3, and a block with a field it may not use, or of a partition that does not exist, completes with STATUS 2 and changes
nothing. -/
def Obligations.ManagementCommands : Prop :=
  (∀ e ∈ partCommands, ∀ (i : Instr) (c : Mgmt) (s : State), commandOf i = some (c, e.1) → Accepts s (c.withOp e.1) →
    e.2.1 s (c.withOp e.1) →
    exec i s = .next (completed (onPart s (c.withOp e.1) (e.2.2 (c.withOp e.1))) (c.withOp e.1) 0))
  ∧ (∀ (i : Instr) (c : Mgmt) (op : Nat) (s : State), commandOf i = some (c, op) → c.slot < 20 →
    s.busyWith (c.withOp op) = false →
    (s.sys.boot = .recovery → exec i s = .next (completed s (c.withOp op) 3))
    ∧ (s.sys.boot = .up → (s.slot c.slot).status ≠ 1 → (c.withOp op).ok = false →
      exec i s = .next (completed s (c.withOp op) 2)))
  ∧ (∀ (c : Mgmt) (s : State), Accepts s (c.withOp 0x10) → (s.part (c.withOp 0x10).part).live = false →
    maskClusters c.arg c.arg2 ≠ [] → c.node.toNat % 0x8000 = 0 →
    (∀ e ∈ s.sys.parts, e.2.live = true → ∀ k ∈ maskClusters c.arg c.arg2, k ∉ e.2.clusters) →
    ∃ t, exec (.partcreate c) s = .next t ∧ t.part (c.withOp 0x10).part
        = { live := true, clusters := maskClusters c.arg c.arg2, rootva := c.node.toNat, key := s.sys.keys + 1, weight := 1 }
      ∧ t.sys.keys = s.sys.keys + 1
      ∧ (∀ p, p ≠ (c.withOp 0x10).part → t.part p = s.part p) ∧ (∀ k ∈ maskClusters c.arg c.arg2, sget [] t.sys.queues k = [])
      ∧ t.core = s.core ∧ t.mem = s.mem ∧ (t.slot c.slot).status = 0)
  ∧ (∀ (c : Mgmt) (s : State), Accepts s (c.withOp 0x15) → c.arg.getLsbD modeTree = true →
    exec (.setmode c) s = .next (completed ((s.unwatchAll (c.withOp 0x15).part).setPart (c.withOp 0x15).part
      { s.part (c.withOp 0x15).part with funcmode := c.arg }) (c.withOp 0x15) 0))
  ∧ (∀ (c : Mgmt) (s : State), Accepts s (c.withOp 0x11) →
    ∃ t, exec (.partdestroy c) s = .next t ∧ t.part (c.withOp 0x11).part = {} ∧ (t.slot c.slot).status = 0)
  ∧ (∀ (c : Mgmt) (s : State), Accepts s (c.withOp 0x12) → (s.part (c.withOp 0x12).part).rootUp = true →
    (∀ a ∈ treePages s.mem c.arg false, ∀ e ∈ s.sys.parts, e.2.live = true → e.1 ≠ (c.withOp 0x12).part →
      ∀ b ∈ treePages s.mem e.2.s2root true, meets a b = false) →
    exec (.s2set c) s = .next (completed (onPart s (c.withOp 0x12) fun p => { p with s2root := c.arg }) (c.withOp 0x12) 0))
  ∧ (∀ (c : Mgmt) (s : State), Accepts s (c.withOp 0x13) → c.arg.toNat + c.arg2.toNat * 65536 ≤ 2 ^ 52 → c.arg.toNat % 65536 = 0 →
    c.arg2 ≠ 0 →
    ∃ t, exec (.s2inv c) s = .next t ∧ (∀ e ∈ t.mem.tcache, partOfIa (e.iapage * 65536) ≠ (c.withOp 0x13).part)
      ∧ (t.slot c.slot).status = 0)
  ∧ (∀ (c : Mgmt) (s : State), Accepts s (c.withOp 0x14) → 1 ≤ c.node.toNat → c.node.toNat ≤ 64 → (s.vf c.node.toNat).part = none →
    (s.part (c.withOp 0x14).part).rootUp = true →
    (s.ctlPut (c.withOp 0x14).part ((s.part (c.withOp 0x14).part).rootva + 0x100 * c.node.toNat)
      (rootBlock (s.part (c.withOp 0x14).part).rootva
        (s.nodeWord (c.withOp 0x14).part (s.part (c.withOp 0x14).part).rootva 0x10 |> fun w => w.toNat % 2 ^ 56)
        0xC 0 0 0 0 c.node.toNat (0xFF00 + c.node.toNat))).1 = true →
    ∃ t, exec (.vfbind c) s = .next t ∧ (t.vf c.node.toNat).part = some (c.withOp 0x14).part
      ∧ (t.part (c.withOp 0x14).part).vfs = (s.part (c.withOp 0x14).part).vfs ++ [c.node.toNat] ∧ (t.slot c.slot).status = 0)
  ∧ (∀ (c : Mgmt) (s : State) (va : Nat), Accepts s (c.withOp 0x04) →
    s.nodeAt (c.withOp 0x04).part c.node.toNat = some va → (s.node? (c.withOp 0x04).part va).halted = true →
    (s.node? (c.withOp 0x04).part va).done = false →
    exec (.resume c) s = .next (completed ((s.setNode (c.withOp 0x04).part va
      { s.node? (c.withOp 0x04).part va with halted := false }).due (c.withOp 0x04).part) (c.withOp 0x04) 0))
  ∧ (∀ (c : Mgmt) (s : State) (va : Nat), Accepts s (c.withOp 0x01) →
    s.nodeAt (c.withOp 0x01).part c.node.toNat = some va → (s.node? (c.withOp 0x01).part va).halted = false →
    (s.node? (c.withOp 0x01).part va).done = false → s.nodeState (c.withOp 0x01).part va = stAdmitted →
    s.busyWith (c.withOp 0x01) = false →
    ∃ t, exec (.halt c) s = .next t ∧ (t.node? (c.withOp 0x01).part va).halted = true
      ∧ (t.slot c.slot).status = (if (t.node? (c.withOp 0x01).part va).leaving.isEmpty
          && (t.placedOf (c.withOp 0x01).part va).isEmpty then 0 else 1))
  ∧ (∀ (c : Mgmt) (s : State) (va : Nat), Accepts s (c.withOp 0x02) →
    s.nodeAt (c.withOp 0x02).part c.node.toNat = some va → (s.node? (c.withOp 0x02).part va).halted = true →
    (s.node? (c.withOp 0x02).part va).saving = false → (s.node? (c.withOp 0x02).part va).done = false →
    s.haltDone (c.withOp 0x02).part va = true → s.nodeState (c.withOp 0x02).part va = stAdmitted →
    s.busyWith (c.withOp 0x02) = false →
    exec (.save c) s = .next (completed (((List.range (s.node? (c.withOp 0x02).part va).count).foldl
        (fun s g => s.clearComplete (c.withOp 0x02).part va g) s).setNode (c.withOp 0x02).part va
      { s.node? (c.withOp 0x02).part va with saving := true }) (c.withOp 0x02) 1))
  ∧ (∀ (c : Mgmt) (s : State) (va g : Nat), Accepts s (c.withOp 0x03) →
    s.nodeAt (c.withOp 0x03).part c.node.toNat = some va → (s.node? (c.withOp 0x03).part va).halted = false →
    (s.node? (c.withOp 0x03).part va).done = false → s.nodeState (c.withOp 0x03).part va = stAdmitted →
    (s.node? (c.withOp 0x03).part va).retired = [] → s.placedOf (c.withOp 0x03).part va = [] →
    (s.node? (c.withOp 0x03).part va).leaving = [] →
    (g < (s.node? (c.withOp 0x03).part va).count → s.checkImage (c.withOp 0x03).part va g = none →
      exec (.restore c) s = .next (completed s (c.withOp 0x03) 3))
    ∧ ((∀ k, k < (s.node? (c.withOp 0x03).part va).count → (s.checkImage (c.withOp 0x03).part va k).isSome = true) →
      (g < (s.node? (c.withOp 0x03).part va).count → s.spoiled (c.withOp 0x03).part va g = true →
        exec (.restore c) s = .next (completed s (c.withOp 0x03) 5))
      ∧ ((∀ k, k < (s.node? (c.withOp 0x03).part va).count → s.spoiled (c.withOp 0x03).part va k = false) → ∃ t, exec (.restore c) s = .next t ∧ (t.node? (c.withOp 0x03).part va).halted = true ∧ (t.slot c.slot).status = 0)))
  ∧ (∀ (k : Nat) (s : State), (s.slot k).status = 1 → ((s.slot k).block k).op = 0x02 →
    ∃ t, exec (.saveTimeout k) s = .next t ∧ (t.slot k).status = 6)
  ∧ (∀ (c : Mgmt) (s : State) (r : FRec), Accepts s (c.withOp 0x1B) → s.findRec 0 c.arg.toNat = some r →
    r.part = (c.withOp 0x1B).part →
    (r.code = 0x3F ∨ r.waiter = .gone → exec (.fwdfault c) s = .next (completed (s.dropRec r.id) (c.withOp 0x1B) 0))
    ∧ (r.code ≠ 0x3F → r.waiter = .fetch → ∃ t, exec (.fwdfault c) s = .next t
        ∧ (∃ x ∈ t.sys.recs, x.id = r.id ∧ x.fwd = true) ∧ (t.slot c.slot).status = 0)
    ∧ ∀ p x, r.code ≠ 0x3F → (r.waiter = .store ∨ ∃ d, r.waiter = .scalar d) → r.core = s.core.num → s.core.pend = [p] →
      s.core.parked = [] → p.waits = some r.id → p.record = some x →
      ∃ t, exec (.fwdfault c) s = .next t ∧ t.core = { s.core with
          pend := [⟨p.dest, 0, some { x with cause := some 0x11, stage := ⟨r.stage.agent, false, r.stage.write, 2⟩ }, none, x.acq⟩] }
        ∧ (t.slot c.slot).status = 0)
  ∧ (∀ (c : Mgmt) (s : State), Accepts s (c.withOp 0x1C) → (s.node? (c.withOp 0x1C).part c.node.toNat).launch = true →
    (s.node? (c.withOp 0x1C).part c.node.toNat).done = false → s.nodeState (c.withOp 0x1C).part c.node.toNat = stAdmitted →
    exec (.killctx c) s = .next (completed ((s.killNode (c.withOp 0x1C).part c.node.toNat 4).due (c.withOp 0x1C).part)
      (c.withOp 0x1C) 0))
  ∧ (∀ (c : Mgmt) (s : State) (d k : Nat), Accepts s (c.withOp 0x1D) → d < 256 → k < 64 →
    c.arg = BitVec.ofNat 64 (d * 2 ^ 56 + 9 * 2 ^ 32 + k) →
    (linkEnd d k = none → exec (.withdraw c) s = .next (completed s (c.withOp 0x1D) 2))
    ∧ ∀ e, linkEnd d k = some e → ∃ t, exec (.withdraw c) s = .next t ∧ (⟨d, 9, k⟩ : UnitId) ∈ t.sys.withdrawn
      ∧ (t.wire (d * 64 + k)).power = .failed ∧ (t.wire (e.1 * 64 + e.2)).power = .failed ∧ (t.slot c.slot).status = 0)
  ∧ (∀ (c : Mgmt) (s : State), Accepts s (c.withOp 0x1E) →
    (c.arg.toNat ∈ (s.part (c.withOp 0x1E).part).tokWait → exec (.tokrebuild c) s = .next (completed
      ((onPart s (c.withOp 0x1E) fun p => { p with tokWait := p.tokWait.erase c.arg.toNat }).onMem fun m => m.rebuildAll c.arg.toNat
        fun l => partOfIa (l * 256) == (c.withOp 0x1E).part).lateMirrors (c.withOp 0x1E) 0))
    ∧ (c.arg.toNat ∉ (s.part (c.withOp 0x1E).part).tokWait → exec (.tokrebuild c) s = .next (completed s (c.withOp 0x1E) 2)))
  ∧ (∀ (c : Mgmt) (s : State), MemoryOk s → Accepts s (c.withOp 0x0A) → (s.part (c.withOp 0x0A).part).armed = true → c.arg.toNat % 8 = 0 →
    let p := s.part (c.withOp 0x0A).part
    (c.arg.toNat + p.logPages / 8 + 8 ≤ p.logBase ∨ p.logBase + p.logPages / 8 ≤ c.arg.toNat) →
    ∃ t, exec (.logread c) s = .next t ∧ (∀ k, k < p.logPages / 8 → t.mem.rd (c.arg.toNat + k) = s.mem.rd (p.logBase + k))
      ∧ t.mem.rd (c.arg.toNat + p.logPages / 8) = (if p.ovf then 1 else 0) ∧ (t.slot c.slot).status = 0)
  ∧ ∀ (c : Mgmt) (s : State), MemoryOk s → Accepts s (c.withOp 0x09) → (s.part (c.withOp 0x09).part).armed = true → c.arg.toNat % 8 = 0 →
    let p := s.part (c.withOp 0x09).part
    (c.arg.toNat + p.logPages / 8 + 8 ≤ p.logBase ∨ p.logBase + p.logPages / 8 ≤ c.arg.toNat) →
    ∃ t, exec (.logclear c) s = .next t ∧ (∀ k, k < p.logPages / 8 → t.mem.rd (c.arg.toNat + k) = s.mem.rd (p.logBase + k)
        ∧ t.mem.rd (p.logBase + k) = 0)
      ∧ (t.part (c.withOp 0x09).part).ovf = false ∧ (t.slot c.slot).status = 0
      ∧ ∀ e ∈ t.mem.tcache, partOfIa (e.iapage * 65536) = (c.withOp 0x09).part → e.p1 &&& 2 = 0

/-- The host's own accesses: the memory aperture, atomics, doorbells, invalidations, RESOLVE, register writes and what the registers
read, function-level reset, boot and SPDM. -/
def Obligations.HostAccesses : Prop :=
  (∀ (s : State) (pa : Nat) (bs : List (BitVec 8)), s.aperture pa bs.length = true →
    ∃ t, exec (.hostMemoryWrite pa bs) s = .next t ∧ ∀ k, k < bs.length → t.mem.rd (pa + k) = bs.getD k 0)
  ∧ (∀ (s : State) (pa n : Nat), s.aperture pa n = true →
    ∃ t ep, exec (.hostMemoryRead pa n) s = .next t ∧ t.sys.hostReads = s.sys.hostReads ++ [(ep, (t.plain pa n).mem.rdN pa n)])
  ∧ (∀ (s : State) (pa : Nat) (op : HostOp) (wide : Bool) (x y : BitVec 64), s.aperture pa (if wide then 8 else 4) = true →
    pa % (if wide then 8 else 4) = 0 → s.mem.lines = [] → s.plain pa (if wide then 8 else 4) = s →
    let n := if wide then 8 else 4
    let old := leNat (s.mem.rdN pa n)
    ∃ t ep, exec (.hostAtomic pa op wide x y) s = .next t ∧ t.sys.hostReads = s.sys.hostReads ++ [(ep, leBytes n old)]
      ∧ leNat (t.mem.rdN pa n) = (match op with
        | .fetchAdd => (old + x.toNat) % 2 ^ (8 * n)
        | .swap => x.toNat % 2 ^ (8 * n)
        | .cas => if old = x.toNat % 2 ^ (8 * n) then y.toNat % 2 ^ (8 * n) else old)
      ∧ ∀ b, (b < pa ∨ pa + n ≤ b) → t.mem.rd b = s.mem.rd b)
  ∧ (∀ (s : State) (v p : Nat), (s.vf v).part = some p → s.winUp v = true → (s.part p).live = true →
    exec (.doorbell v) s = .next (s.setPart p { s.part p with roundDue := true }))
  ∧ (∀ (s : State) (v p : Nat), (s.vf v).part = some p → s.winUp v = true → 2 ^ 47 < (s.vf v).iabase + (s.vf v).iapages * 65536 →
    exec (.invctl v 1) s = .next (s.setVf v { s.vf v with invctl := 2 }))
  ∧ (∀ (s : State) (v p : Nat), (s.vf v).part = some p → s.winUp v = true → (s.vf v).iabase + (s.vf v).iapages * 65536 ≤ 2 ^ 47 →
    ∃ t, exec (.invctl v 1) s = .next t ∧ (t.vf v).invctl = 0
      ∧ ∀ e ∈ t.mem.tcache, ¬(iaOf p (s.vf v).iabase / 65536 ≤ e.iapage
        ∧ e.iapage < iaOf p (s.vf v).iabase / 65536 + (s.vf v).iapages))
  ∧ (∀ (s : State) (q : Nat) (seq : BitVec 24), s.winUp q = true →
    (s.findRec q seq.toNat = none → exec (.resolve q seq) s = .next s)
    ∧ ∀ r, s.findRec q seq.toNat = some r → r.core = s.core.num → (∀ x ∈ (s.dropRec r.id).sys.recs, x.id ≠ r.id)
      ∧ exec (.resolve q seq) s = .next (match r.waiter with
        | .scalar _ | .store => (s.dropRec r.id).retry r.id
        | .engine g => (s.dropRec r.id).tryResume g
        | .mirror f => (s.dropRec r.id).republish f r.id
        | .fetch | .other | .gone => s.dropRec r.id))
  ∧ (∀ (s : State) (v : Nat) (x : BitVec 64), v ≠ 0 → s.winUp v = true →
    exec (.registerWrite v 0x100 x) s = .next (s.setVf v { s.vf v with iabase := x.toNat / 65536 % 2 ^ 36 * 65536 })
    ∧ exec (.registerWrite v 0x108 x) s = .next (s.setVf v { s.vf v with iapages := x.toNat % 2 ^ 36 })
    ∧ exec (.registerWrite v 0x1000 x) s = .next (s.setVf v { s.vf v with qbase := x.toNat / 4096 % 2 ^ 40 * 4096 }))
  ∧ (∀ (s : State) (k : Nat) (x : BitVec 64), k < 20 → (s.slot k).status ≠ 1 →
    exec (.registerWrite 0 (64 * k + 0x10) x) s = .next (s.setSlot k { s.slot k with arg := x })
    ∧ (s.setSlot k { s.slot k with arg := x }).registerRead 0 (64 * k + 0x10) = x)
  ∧ (∀ (s : State) (v p : Nat), v ≠ 0 → (s.vf v).part = some p → s.winUp v = true → s.registerRead v 0x10 = 0
    ∧ s.registerRead v 0x1018 = 0 ∧ s.registerRead v 0 = BitVec.ofNat 64 (p * 256 + v)
    ∧ s.registerRead v 0x8 = BitVec.ofNat 64 ((s.part p).rootva + 0x100 * v)
    ∧ ∀ x, ∃ t, exec (.registerWrite v 0x100 x) s = .next t ∧ t.registerRead v 0x100 = x &&& 0x000FFFFFFFFF0000#64)
  ∧ (∀ (s : State) (v : Nat), (s.vf v).part = none → exec (.functionLevelReset v) s = .next s)
  ∧ (∀ (s : State) (v p : Nat), v ≠ 0 → (s.vf v).part = some p → (s.part p).live = true →
    ((s.vf v).down = false → exec (.functionLevelReset v) s
      = .next { s.setVf v { s.vf v with down := true } with agenda := .functionLevelReset v :: s.agenda })
    ∧ ((s.vf v).down = true → ∃ t, exec (.functionLevelReset v) s = .next t ∧ { t.vf v with pba := 0 } = { part := some p }
      ∧ (t.part p).roundDue = true)
    ∧ ∀ off, (s.setVf v { s.vf v with down := true }).registerRead v off = BitVec.allOnes 64)
  ∧ (∀ (s : State) (b : BootFind), s.sys.boot = .off →
    ((∀ x ∈ b.slot1.zip b.slot2, x.1 = true ∨ x.2 = true) → (b.config1 = true ∨ b.config2 = true) →
      ∃ t, exec (.boot b) s = .next t ∧ t.sys.boot = .up ∧ t.sys.measures = b.measures ∧ t.sys.conf = b.conf
        ∧ (∀ u ∈ s.sys.health, u ∈ t.sys.withdrawn) ∧ (∀ u ∈ b.health, (⟨u.1, u.2.1, u.2.2⟩ : UnitId) ∈ t.sys.withdrawn)
        ∧ (∀ d k, d < 8 → k < 16 → sharedRev b d ctlDie = none → (⟨d, 5, k⟩ : UnitId) ∈ t.sys.withdrawn)
        ∧ ∀ d, 9 ≤ d → d < 25 → sharedRev b d ctlDie = none → (⟨d, 7, 0⟩ : UnitId) ∈ t.sys.withdrawn)
    ∧ (b.config1 = false → b.config2 = false → ∃ t, exec (.boot b) s = .next t ∧ t.sys.boot = .recovery))
  ∧ (∀ (s : State) (b : BootFind), s.sys.boot ≠ .off → exec (.boot b) s = .next s)
  ∧ ∀ (s : State) (q : SpdmReq), s.sys.boot = .up → (q.version = 0x12 ∨ q.version = 0x13) →
    exec (.spdmRequest q) s = .next (s.onSys fun y => { y with
      spdm := y.spdm ++ [(q, y.measures, Config.spdmSign q.version q.challenge y.measures)] })

end

namespace Sys2Proof.Claim

open Sys2Proof Sys2Proof.Machine Sys2Proof.Safety

/-- The core is at a bundle boundary and nothing else of the machine waits: it runs, no event is on the agenda or enabled, no other core
holds a group, no vector result is due, no asynchronous cause is held. -/
def AtBoundary (s : State) : Prop :=
  s.agenda = [] ∧ s.otherPlaces = [] ∧ s.enabled = [] ∧ s.core.run = .running ∧ (∀ r ∈ s.core.vfly, r.rem ≠ 0) ∧ s.core.held = []

end Sys2Proof.Claim

section

open Sys2Proof Sys2Proof.Machine Sys2Proof.Safety Sys2Proof.Claim

/-! ### Steps -/

/-- A step runs the decoded instruction: the bundle at PC is fetched, its one slot decoded and run on the state as fetched, and the issue
counted (latches, rotation, counters, the next bundle), or a decode fate raised, which for a word that the decoder refuses is 0x02;
`exec` of that instruction is the same run, with what the instruction leaves for after its bundle (a trap, a return, an end, a yield)
done at once; a BARWAIT begins its wait before that. BUNDLE_FETCH brings the bundle at PC to hand, and BUNDLE_ISSUE issues it, while the group runs. With an event on the
agenda, a step is `exec` of it, and barriers that groups wait at are looked at after it. An event that met a line whose tokens wait to be
rebuilt, or that a core holds pinned, does not take place, and the cores go on. -/
def Obligations.Steps : Prop :=
  (∀ (s t : State) (i : Instr) (r : List Instr), s.agenda = i :: r → exec i { s with agenda := r } = .next t →
    (t.mem.blocked = false → step s = .next t.observe)
    ∧ (t.mem.blocked = true → step s = anyStep (s.onMem fun m => { m with retry := t.mem.retry })))
  ∧ (∀ (s u v t : State) (b : Bundle) (x : Slotted) (i : Instr), AtBoundary s → s.fetchCur = .ok u → u.core.cur = some b →
    u.core.slotted b = [x] → u.startWait [x] = v → x.ins = .ok i → v.core.bundleFate b [x] = none → u.core.acquiring = false →
    u.core.cancelledAcq = false → u.core.paged = none → slotRes i v [] v = .ok t → (x.place < 3 ∨ t.core.a = v.core.a) →
    (State.afterIssue v t b).tickEngines.mem.blocked = false →
    step s = .next (State.afterIssue v t b).tickEngines.observe ∧ (exec i v = .next t ∨ exec i v = .next t.actAfter))
  ∧ (∀ (s : State) (x : Slotted) (i : Instr), x.ins = .ok i → (∀ w, i ≠ .barwait w) → s.startWait [x] = s)
  ∧ (∀ (s u v : State) (b : Bundle) (x : Slotted) (cause : Nat) (tval : BitVec 64), AtBoundary s → s.fetchCur = .ok u →
    u.core.cur = some b → u.core.slotted b = [x] → u.core.cancelledAcq = false → u.startWait [x] = v →
    (v.core.bundleFate b [x] = some (cause, tval)
      ∨ (v.core.bundleFate b [x] = none ∧ (∃ e, x.ins = .error e) ∧ cause = 0x02 ∧ tval = x.word)) →
    (v.takeTrap cause tval noStage false).mem.blocked = false →
    step s = .next (v.takeTrap cause tval noStage false).observe)
  ∧ (∀ (s u : State) (b : Bundle), s.core.cur = none → s.core.loop = none → s.fetchBundle s.core.pc = .ok (b, u) →
    s.fetchCur = .ok (u.atHand b) ∧ (u.atHand b).core.cur = some b ∧ (u.atHand b).core.made = 0
    ∧ (s.core.run = .running → exec .bundleFetch s = .next (u.atHand b)))
  ∧ (∀ s : State, s.core.run ≠ .running → exec .bundleFetch s = .next s ∧ exec .bundleIssue s = .next s)
  ∧ (∀ (s u : State) (b : Bundle), s.core.run = .running → s.core.cur = some b → s.fetchCur = .ok u →
    exec .bundleFetch s = .next s)
  ∧ ∀ (s v t : State) (b : Bundle) (x : Slotted) (i : Instr), s.core.run = .running → s.core.cur = some b →
    s.core.slotted b = [x] → s.startWait [x] = v → x.ins = .ok i → v.core.bundleFate b [x] = none → s.core.acquiring = false →
    s.core.cancelledAcq = false → s.core.paged = none → slotRes i v [] v = .ok t → (x.place < 3 ∨ t.core.a = v.core.a) →
    exec .bundleIssue s = .next (State.afterIssue v t b)

/-- Every step of every state answers a next state: no state of the machine is stuck, faulted or refused. -/
def Obligations.EveryStepGoes : Prop := ∀ s : State, Goes (step s)

/-! ### Encodings -/

/-- Decoding the encoding of a well-formed instruction gives it back, with every operand at every value the encoding admits, and the
bundle that holds it alone is cut into the same words. -/
def Obligations.DecodeOfEncode : Prop :=
  ∀ (i : Instr) (ws : SlotWords), i.wf = true → encode i = some ws →
    decodeWords ws = .ok i ∧ cutBundle (bundleBytes (oneSlotBundle ws)) = oneSlotBundle ws

/-- A word that decodes is the encoding of the instruction it decodes to, which is well-formed: every field that must be zero is, and
no two words mean the same. -/
def Obligations.EncodeOfDecode : Prop :=
  ∀ (ws : SlotWords) (i : Instr), decodeWords ws = .ok i → i.wf = true ∧ encode i = some ws

/-- Words written out from the encodings decode to the instructions they stand for. -/
def Obligations.DecodingWords : Prop :=
  decodeWords (.word .s 0x0231461D none) = .ok (.add ⟨3, 5, 6, 7, 1⟩)
  ∧ decodeWords (.word .s 0x4C008903 none) = .ok (.srai ⟨0, 2, 9, 0, 3, 0⟩)
  ∧ decodeWords (.word .s 0x64210000 none) = .ok (.go ⟨2, 0, 1, 0, 0, 0⟩)
  ∧ decodeWords (.word .s 0xE2000000 none) = .ok (.rte ⟨0, 0, 0, 0, 0⟩)
  ∧ decodeWords (.word .s 0xDE024500 none) = .ok (.rdcnt ⟨0, 9, 5, 0, 0⟩)
  ∧ decodeWords (.word .s 0xFE000000 none) = .error .reservedOpcode

/-! ### Invariants -/

/-- Every step keeps machine memory in its canonical form. -/
def Obligations.MemoryInvariant : Prop := ∀ s t : State, MemoryOk s → step s = .next t → MemoryOk t

/-- Reset has the invariant of memory. -/
def Obligations.ResetMemory : Prop := MemoryOk State.reset

end
end

