-- ==== Sys2Proof/Laws/Issue.lean ====
section
/-! SUPPORT. What the shared operations of an issue do once an instruction may issue. -/

namespace Sys2Proof.Machine

open Sys2Proof.Safety

/-- No register of the list is pending: the scoreboard lets the instruction pass. -/
theorem scoreboard_ok (s : State) (l : List Nat)
    (h : ∀ n ∈ l, n ≠ 0 → s.core.pending (s.core.sIdx n) = false) : s.scoreboard l = .ok () := by
  induction l with
  | nil => rfl
  | cons n r ih =>
    have h0 : s.core.pending (if n = 0 then 0 else s.core.sIdx n) = false := by
      by_cases hn : n = 0
      · simp [hn, Core.pending]
      · simpa [hn] using h n (by simp) hn
    simp only [State.scoreboard, h0]
    exact ih fun m hm => h m (by simp [hm])

/-- No register of the list carries a deferred-access record. -/
theorem deferredOf_ok (s : State) (l : List Nat)
    (h : ∀ n ∈ l, n ≠ 0 → sget none s.core.defrec (s.core.sIdx n) = none) :
    s.deferredOf l = .ok () := by
  induction l with
  | nil => rfl
  | cons n r ih =>
    have ih := ih fun m hm => h m (by simp [hm])
    unfold State.deferredOf
    by_cases hn : n = 0
    · simpa [hn] using ih
    · simp only [hn, if_false]
      rw [h n (by simp) hn]
      exact ih

/-- A ready S instruction runs its body on the state as it stands. -/
theorem sSlot_ready {s : State} {p : BitVec 4} {reads writes : List Nat} (h : Ready s p reads writes) (body : State → Res) :
    sSlot p reads writes s body = body s := by
  obtain ⟨hp, hs, hd⟩ := h
  simp [sSlot, hp, scoreboard_ok s _ hs, deferredOf_ok s _ hd, bind, Except.bind]

/-- Under a false guard an S instruction does nothing (R31). -/
theorem sSlot_false {s : State} {p : BitVec 4} (reads writes : List Nat) (h : s.core.rdP p.toNat = false) (body : State → Res) :
    sSlot p reads writes s body = .ok s := by
  simp [sSlot, h]

@[simp] theorem finish_ok (t : State) : finish (.ok t) = .next t := rfl
@[simp] theorem finish_error (h : Halt) : finish (.error h) = .next h.after := rfl
@[simp] theorem done_eq (s : State) : done s = .next s := rfl

/-- What finish answers is always a next state. -/
theorem finish_goes (r : Res) : Goes (finish r) := by cases r <;> exact ⟨_, rfl⟩

end Sys2Proof.Machine
end

