-- ==== Sys2Proof/Laws/Sparse.lean ====
section
/-! SUPPORT. The laws of the files kept in canonical form: a read after a write, and that every operation keeps the form. -/

namespace Sys2Proof.Machine

/-! ### The form under filters -/

/-- A smaller bound, or none. -/
theorem swf_le {α : Type} [DecidableEq α] (d : α) {a b : Nat} (h : a ≤ b) (m : Sparse α) (hm : swf d (some b) m = true) :
    swf d (some a) m = true := by
  cases m with
  | nil => rfl
  | cons e r =>
    simp only [swf, Bool.and_eq_true, decide_eq_true_eq] at hm ⊢
    exact ⟨⟨by omega, hm.1.2⟩, hm.2⟩
theorem swf_weaken {α : Type} [DecidableEq α] (d : α) (lo : Option Nat) (n : Nat) (h : ∀ l, lo = some l → l ≤ n) (m : Sparse α)
    (hm : swf d (some n) m = true) : swf d lo m = true := by
  cases lo with
  | some l => exact swf_le d (h l rfl) m hm
  | none =>
    cases m with
    | nil => rfl
    | cons e r =>
      simp only [swf, Bool.and_eq_true] at hm ⊢
      exact ⟨⟨trivial, hm.1.2⟩, hm.2⟩
/-- What the head of a file in canonical form satisfies. -/
theorem swf_bound {α : Type} [DecidableEq α] {d : α} {lo : Option Nat} {n : Nat} {v : α} {r : Sparse α}
    (h : swf d lo ((n, v) :: r) = true) : (∀ l, lo = some l → l < n) ∧ v ≠ d ∧ swf d (some n) r = true := by
  simp only [swf, Bool.and_eq_true, Bool.not_eq_true', decide_eq_false_iff_not] at h
  refine ⟨fun l hl => ?_, h.1.2, h.2⟩
  subst hl
  exact of_decide_eq_true h.1.1
theorem swf_intro {α : Type} [DecidableEq α] {d : α} {lo : Option Nat} {n : Nat} {v : α} {r : Sparse α}
    (h : ∀ l, lo = some l → l < n) (hv : v ≠ d) (hr : swf d (some n) r = true) : swf d lo ((n, v) :: r) = true := by
  cases lo with
  | none => simp [swf, hv, hr]
  | some l => simp [swf, hv, hr, h l rfl]

/-- A filter keeps the form. -/
theorem swf_filter_lo {α : Type} [DecidableEq α] (d : α) (p : Nat × α → Bool) (m : Sparse α) :
    ∀ lo, swf d lo m = true → swf d lo (m.filter p) = true := by
  induction m with
  | nil => intro _ _; rfl
  | cons e r ih =>
    intro lo h
    obtain ⟨hb, hv, hr⟩ := swf_bound (n := e.1) (v := e.2) h
    by_cases hp : p e
    · rw [List.filter_cons_of_pos hp]
      exact swf_intro hb hv (ih _ hr)
    · rw [List.filter_cons_of_neg hp]
      exact swf_weaken d lo e.1 (fun l hl => Nat.le_of_lt (hb l hl)) _ (ih _ hr)
theorem swf_filter {α : Type} [DecidableEq α] (d : α) (p : Nat × α → Bool) (m : Sparse α) (h : swf d none m = true) :
    swf d none (m.filter p) = true := swf_filter_lo d p m none h
theorem swf_sclear {α : Type} [DecidableEq α] (d : α) (m : Sparse α) (k n : Nat) (h : swf d none m = true) :
    swf d none (sclear m k n) = true := swf_filter d _ m h

/-! ### Reads after writes -/

@[simp] theorem sget_nil {α : Type} (d : α) (k : Nat) : sget d ([] : Sparse α) k = d := rfl
theorem sget_cons {α : Type} (d : α) (e : Nat × α) (m : Sparse α) (k : Nat) :
    sget d (e :: m) k = if e.1 = k then e.2 else sget d m k := rfl
/-- Writing the default removes the number. -/
theorem sset_default {α : Type} [DecidableEq α] (d : α) (m : Sparse α) (k : Nat) :
    sset d m k d = m.filter fun e => decide (e.1 ≠ k) := by
  induction m with
  | nil => simp [sset]
  | cons e r ih =>
    by_cases h : e.1 = k
    · simp [sset, h, ih]
    · simp [sset, h, ih]
theorem sget_filter_ne {α : Type} (d : α) (m : Sparse α) (k j : Nat) :
    sget d (m.filter fun e => decide (e.1 ≠ k)) j = if j = k then d else sget d m j := by
  induction m with
  | nil => simp
  | cons e r ih =>
    by_cases h : e.1 = k
    · rw [List.filter_cons_of_neg (by simp [h]), ih, sget_cons]
      by_cases hj : j = k
      · simp [hj]
      · rw [if_neg hj, if_neg hj, if_neg (by omega)]
    · rw [List.filter_cons_of_pos (by simp [h]), sget_cons, sget_cons, ih]
      by_cases hj : j = k
      · rw [if_pos hj, if_pos hj, if_neg (by omega)]
      · rw [if_neg hj, if_neg hj]

/-- A read after a write: the value at the number written, and what was there at any other. -/
theorem sget_sset {α : Type} [DecidableEq α] (d : α) (m : Sparse α) (k j : Nat) (v : α) :
    sget d (sset d m k v) j = if j = k then v else sget d m j := by
  by_cases hv : v = d
  · subst hv; rw [sset_default, sget_filter_ne]
  · induction m with
    | nil =>
      simp only [sset, if_neg hv, sget_cons, sget_nil]
      by_cases hj : j = k
      · rw [if_pos hj.symm, if_pos hj]
      · rw [if_neg (by omega), if_neg hj]
    | cons e r ih =>
      obtain ⟨n, u⟩ := e
      by_cases h1 : n = k
      · simp only [sset, if_pos h1, if_neg hv, sget_cons]
        by_cases hj : j = k
        · rw [if_pos hj.symm, if_pos hj]
        · rw [if_neg (by omega), if_neg hj, if_neg (by omega)]
      · by_cases h2 : k < n ∧ v ≠ d
        · simp only [sset, if_neg h1, if_pos h2, sget_cons]
          by_cases hj : j = k
          · rw [if_pos hj.symm, if_pos hj]
          · rw [if_neg (by omega), if_neg hj]
        · simp only [sset, if_neg h1, if_neg h2, sget_cons, ih]
          by_cases hj : j = k
          · rw [if_pos hj, if_neg (by omega), if_pos hj]
          · rw [if_neg hj, if_neg hj]
@[simp] theorem sget_sset_same {α : Type} [DecidableEq α] (d : α) (m : Sparse α) (k : Nat) (v : α) :
    sget d (sset d m k v) k = v := by rw [sget_sset, if_pos rfl]
theorem sget_sset_other {α : Type} [DecidableEq α] (d : α) (m : Sparse α) {k j : Nat} (v : α) (h : j ≠ k) :
    sget d (sset d m k v) j = sget d m j := by rw [sget_sset, if_neg h]

/-- A read of a run of values after a write outside it. -/
theorem sgetN_sset {α : Type} [DecidableEq α] (d : α) (m : Sparse α) (k : Nat) (v : α) (n : Nat) :
    ∀ a, (k < a ∨ a + n ≤ k) → sgetN d (sset d m k v) a n = sgetN d m a n := by
  induction n with
  | zero => intro a _; rfl
  | succ n ih =>
    intro a h
    simp only [sgetN]
    rw [sget_sset_other _ _ _ (by omega), ih (a + 1) (by omega)]

/-- A read after a write of a run of values. -/
theorem sget_ssetN {α : Type} [DecidableEq α] (d : α) (vs : List α) : ∀ (m : Sparse α) (k j : Nat),
    sget d (ssetN d m k vs) j = if k ≤ j ∧ j < k + vs.length then vs.getD (j - k) d else sget d m j := by
  induction vs with
  | nil => intro m k j; simp only [ssetN, List.length_nil]; rw [if_neg (by omega)]
  | cons v vs ih =>
    intro m k j
    rw [ssetN, ih, sget_sset, List.length_cons]
    by_cases h : j = k
    · subst h
      rw [if_neg (by omega), if_pos rfl, if_pos (by omega)]
      simp
    · rw [if_neg h]
      by_cases h2 : k + 1 ≤ j ∧ j < k + 1 + vs.length
      · rw [if_pos h2, if_pos (by omega)]
        obtain ⟨i, rfl⟩ : ∃ i, j = k + 1 + i := ⟨j - (k + 1), by omega⟩
        rw [show k + 1 + i - k = i + 1 by omega, show k + 1 + i - (k + 1) = i by omega]
        simp
      · rw [if_neg h2, if_neg (by omega)]

/-! ### The form under writes -/

/-- A write keeps the form. -/
theorem swf_sset_lo {α : Type} [DecidableEq α] (d : α) (k : Nat) (v : α) (m : Sparse α) :
    ∀ lo, swf d lo m = true → (∀ l, lo = some l → l < k) → swf d lo (sset d m k v) = true := by
  by_cases hv : v = d
  · subst hv
    intro lo h _
    rw [sset_default]
    exact swf_filter_lo v _ m lo h
  · induction m with
    | nil =>
      intro lo _ hk
      simp only [sset, if_neg hv]
      exact swf_intro hk hv rfl
    | cons e r ih =>
      obtain ⟨n, u⟩ := e
      intro lo h hk
      obtain ⟨hb, hu, hr⟩ := swf_bound h
      by_cases h1 : n = k
      · simp only [sset, if_pos h1, if_neg hv]
        exact swf_intro hk hv (h1 ▸ hr)
      · by_cases h2 : k < n ∧ v ≠ d
        · simp only [sset, if_neg h1, if_pos h2]
          exact swf_intro hk hv (swf_intro (fun l hl => by cases hl; exact h2.1) hu hr)
        · simp only [sset, if_neg h1, if_neg h2]
          refine swf_intro hb hu (ih _ hr fun l hl => ?_)
          cases hl
          rcases Nat.lt_trichotomy n k with g | g | g
          · exact g
          · exact absurd g h1
          · exact absurd ⟨g, hv⟩ h2
theorem swf_sset {α : Type} [DecidableEq α] (d : α) (m : Sparse α) (k : Nat) (v : α) (h : swf d none m = true) :
    swf d none (sset d m k v) = true := swf_sset_lo d k v m none h (fun _ h => by cases h)
theorem swf_ssetN {α : Type} [DecidableEq α] (d : α) (vs : List α) :
    ∀ (m : Sparse α) (k : Nat), swf d none m = true → swf d none (ssetN d m k vs) = true := by
  induction vs with
  | nil => intro m k h; exact h
  | cons v vs ih => intro m k h; exact ih _ _ (swf_sset d m k v h)

end Sys2Proof.Machine
end

