-- ==== Sys2Proof/Laws/Memory.lean ====
section
/-! SUPPORT. Machine memory: a read after a write, and that every operation on it keeps the canonical form. -/

namespace Sys2Proof.Machine

/-! ### Reads after writes -/

theorem Mem.rd_wr (m : Mem) (a b : Nat) (v : BitVec 8) : (m.wr a v).rd b = if b = a then v else m.rd b := sget_sset 0 m.bytes a b v
theorem Mem.wrAll_bytes (bs : List (BitVec 8)) : ∀ (m : Mem) (a : Nat), (m.wrAll a bs).bytes = ssetN 0 m.bytes a bs := by
  induction bs with
  | nil => intro m a; rfl
  | cons b bs ih => intro m a; rw [Mem.wrAll, ih]; rfl
@[simp] theorem Mem.wrN_bytes (m : Mem) (a : Nat) (bs : List (BitVec 8)) : (m.wrN a bs).bytes = ssetN 0 m.bytes a bs :=
  Mem.wrAll_bytes bs m a
/-- A read of a byte after a store of bytes. -/
theorem Mem.rd_wrN (m : Mem) (a b : Nat) (bs : List (BitVec 8)) :
    (m.wrN a bs).rd b = if a ≤ b ∧ b < a + bs.length then bs.getD (b - a) 0 else m.rd b := by
  unfold Mem.rd; rw [Mem.wrN_bytes, sget_ssetN]
/-- A store leaves every byte outside it. -/
theorem Mem.rd_wrN_outside (m : Mem) (a b : Nat) (bs : List (BitVec 8)) (h : b < a ∨ a + bs.length ≤ b) :
    (m.wrN a bs).rd b = m.rd b := by rw [Mem.rd_wrN, if_neg (by omega)]

/-! ### Encrypted pages (R297) -/

/-- A page that stands under a key already is as it is. -/
@[simp] theorem Mem.view_same (m : Mem) (pa k : Nat) (h : m.keyOf pa = k) : m.view pa k = m := by simp [Mem.view, h]
theorem exchange_swap (b : BitVec 128) (x : BitVec 128 × BitVec 128) : exchange (exchange b [x]) [x] = b := by
  unfold exchange
  simp only [List.foldl]
  by_cases h : b = x.1
  · by_cases g : x.2 = x.1 <;> simp [h, g]
  · by_cases g : b = x.2
    · simp [h, g]
    · simp [h, g]
theorem exchange_append (b : BitVec 128) (xs ys : List (BitVec 128 × BitVec 128)) : exchange b (xs ++ ys) = exchange (exchange b xs) ys :=
  List.foldl_append
/-- Exchanges made and then made again from the last one on leave a block as it was. -/
theorem exchange_reverse (xs : List (BitVec 128 × BitVec 128)) : ∀ b, exchange (exchange b xs) xs.reverse = b := by
  induction xs with
  | nil => exact fun b => rfl
  | cons x xs ih =>
    intro b
    have h : exchange b (x :: xs) = exchange (exchange b [x]) xs := rfl
    rw [h, List.reverse_cons, exchange_append, ih, exchange_swap]
/-- A block encrypted under a key and decrypted again is as it was. -/
theorem recrypt_back (k a : Nat) (b : BitVec 128) : recrypt 0 k a (recrypt k 0 a b) = b := by
  unfold recrypt
  by_cases h : k = 0
  · simp [h]
  · simp [h, exchange_reverse]

/-! ### The canonical form -/

theorem Memory.wf_wr (m : Mem) (a : Nat) (v : BitVec 8) (h : Memory.wf m.bytes = true) : Memory.wf (m.wr a v).bytes = true :=
  swf_sset 0 m.bytes a v h
theorem Memory.wf_wrAll (m : Mem) (a : Nat) (bs : List (BitVec 8)) (h : Memory.wf m.bytes = true) :
    Memory.wf (m.wrAll a bs).bytes = true := by rw [Mem.wrAll_bytes]; exact swf_ssetN 0 bs _ _ h
theorem Memory.wf_wrN (m : Mem) (a : Nat) (bs : List (BitVec 8)) (h : Memory.wf m.bytes = true) :
    Memory.wf (m.wrN a bs).bytes = true := Memory.wf_wrAll m a bs h
theorem Memory.wf_wr64 (m : Mem) (a : Nat) (v : BitVec 64) (h : Memory.wf m.bytes = true) :
    Memory.wf (m.wr64 a v).bytes = true := Memory.wf_wrN m a _ h
@[simp] theorem Mem.setBad_bytes (m : Mem) (a : Nat) (v : Bool) : (m.setBad a v).bytes = m.bytes := rfl
@[simp] theorem Mem.cleanCovered_bytes (m : Mem) (a n : Nat) : (m.cleanCovered a n).bytes = m.bytes := rfl
@[simp] theorem Mem.writeBack_bytes (m : Mem) (a n : Nat) : (m.writeBack a n).bytes = m.bytes := rfl
@[simp] theorem Mem.merged_bytes (m : Mem) (a n : Nat) : (m.merged a n).bytes = m.bytes := rfl
@[simp] theorem Mem.keepUnder_bytes (n : Nat) : ∀ (m : Mem) (a : Nat), (m.keepUnder a n).bytes = m.bytes := by
  induction n with
  | zero => intro m a; rfl
  | succ n ih => intro m a; simp only [Mem.keepUnder, ih]; split <;> rfl

/-- A fold of steps that each keep the form keeps it. -/
theorem Memory.wf_foldl {β : Type} (f : Mem → β → Mem) (hf : ∀ m x, Memory.wf m.bytes = true → Memory.wf (f m x).bytes = true)
    (l : List β) : ∀ m : Mem, Memory.wf m.bytes = true → Memory.wf (l.foldl f m).bytes = true := by
  induction l with
  | nil => intro m h; exact h
  | cons x l ih => intro m h; exact ih _ (hf m x h)
theorem Memory.wf_dropUnder (m : Mem) (a n : Nat) (h : Memory.wf m.bytes = true) : Memory.wf (m.dropUnder a n).bytes = true := by
  unfold Mem.dropUnder
  rw [Mem.merged_bytes]
  refine Memory.wf_foldl _ (fun m x h => ?_) _ _ h
  split
  · exact Memory.wf_wr _ _ _ h
  · exact h
theorem Memory.wf_copyPage (m : Mem) (src dst : Nat) (h : Memory.wf m.bytes = true) : Memory.wf (copyPage m src dst).bytes = true := by
  unfold copyPage
  exact Memory.wf_foldl _ (fun m x h => Memory.wf_wr _ _ _ h) _ _ (swf_sclear 0 m.bytes dst 65536 h)
theorem Memory.wf_recryptPage (b : Sparse (BitVec 8)) (o k pa : Nat) (h : Memory.wf b = true) :
    Memory.wf (recryptPage b o k pa) = true := by
  unfold recryptPage
  generalize List.range 4096 = l
  induction l generalizing b with
  | nil => exact h
  | cons i l ih => exact ih _ (swf_ssetN 0 _ _ _ h)
theorem Memory.wf_view (m : Mem) (pa k : Nat) (h : Memory.wf m.bytes = true) : Memory.wf (m.view pa k).bytes = true := by
  unfold Mem.view
  dsimp only
  split
  · exact h
  · dsimp only
    split
    · exact h
    · exact Memory.wf_recryptPage _ _ _ _ h
theorem Memory.wf_copyRange (m : Mem) (src dst n : Nat) (h : Memory.wf m.bytes = true) :
    Memory.wf (m.copyRange src dst n).bytes = true := by
  unfold Mem.copyRange
  exact Memory.wf_foldl _ (fun m x h => Memory.wf_wr _ _ _ h) _ _ (Memory.wf_foldl _ (fun m x h => Memory.wf_wr _ _ _ h) _ _ h)
theorem Memory.wf_zeroRange (m : Mem) (a n : Nat) (h : Memory.wf m.bytes = true) : Memory.wf (m.zeroRange a n).bytes = true := by
  unfold Mem.zeroRange
  exact Memory.wf_foldl _ (fun m x h => Memory.wf_wr _ _ _ h) _ _ h
theorem Memory.wf_putWords (ws : List (Nat × BitVec 64)) : ∀ m : Sparse (BitVec 8), Memory.wf m = true → Memory.wf (putWords m ws) = true := by
  induction ws with
  | nil => intro m h; exact h
  | cons w ws ih => intro m h; exact ih _ (swf_ssetN 0 _ _ _ h)
theorem Memory.wf_dropDirtyL1 (m : Mem) (core : Nat) (h : Memory.wf m.bytes = true) : Memory.wf (m.dropDirtyL1 core).bytes = true := by
  unfold Mem.dropDirtyL1
  exact Memory.wf_foldl _ (fun m x h => Memory.wf_dropUnder _ _ _ h) _ _ h
theorem Memory.wf_reset : Memory.wf State.reset.mem.bytes = true := rfl

end Sys2Proof.Machine
end

