-- ==== Sys2Proof/Laws/State.lean ====
section
/-! SUPPORT. What each update of the state leaves in each field: one lemma per field and update, so that no later proof unfolds a
record update. -/

namespace Sys2Proof.Machine

/-! ### The parts of the state -/

@[simp] theorem State.onCore_core (f : Core → Core) (s : State) : (s.onCore f).core = f s.core := rfl
@[simp] theorem State.onCore_spad (f : Core → Core) (s : State) : (s.onCore f).spad = s.spad := rfl
@[simp] theorem State.onCore_eng (f : Core → Core) (s : State) : (s.onCore f).eng = s.eng := rfl
@[simp] theorem State.onCore_others (f : Core → Core) (s : State) : (s.onCore f).others = s.others := rfl
@[simp] theorem State.onCore_mem (f : Core → Core) (s : State) : (s.onCore f).mem = s.mem := rfl
@[simp] theorem State.onCore_sys (f : Core → Core) (s : State) : (s.onCore f).sys = s.sys := rfl
@[simp] theorem State.onCore_agenda (f : Core → Core) (s : State) : (s.onCore f).agenda = s.agenda := rfl
@[simp] theorem State.onCore_free (f : Core → Core) (s : State) : (s.onCore f).free = s.free := rfl
@[simp] theorem State.onSpad_core (f : Spad → Spad) (s : State) : (s.onSpad f).core = s.core := rfl
@[simp] theorem State.onSpad_spad (f : Spad → Spad) (s : State) : (s.onSpad f).spad = f s.spad := rfl
@[simp] theorem State.onSpad_eng (f : Spad → Spad) (s : State) : (s.onSpad f).eng = s.eng := rfl
@[simp] theorem State.onSpad_others (f : Spad → Spad) (s : State) : (s.onSpad f).others = s.others := rfl
@[simp] theorem State.onSpad_mem (f : Spad → Spad) (s : State) : (s.onSpad f).mem = s.mem := rfl
@[simp] theorem State.onSpad_sys (f : Spad → Spad) (s : State) : (s.onSpad f).sys = s.sys := rfl
@[simp] theorem State.onSpad_agenda (f : Spad → Spad) (s : State) : (s.onSpad f).agenda = s.agenda := rfl
@[simp] theorem State.onSpad_free (f : Spad → Spad) (s : State) : (s.onSpad f).free = s.free := rfl
@[simp] theorem State.onEng_core (f : Eng → Eng) (s : State) : (s.onEng f).core = s.core := rfl
@[simp] theorem State.onEng_spad (f : Eng → Eng) (s : State) : (s.onEng f).spad = s.spad := rfl
@[simp] theorem State.onEng_eng (f : Eng → Eng) (s : State) : (s.onEng f).eng = f s.eng := rfl
@[simp] theorem State.onEng_others (f : Eng → Eng) (s : State) : (s.onEng f).others = s.others := rfl
@[simp] theorem State.onEng_mem (f : Eng → Eng) (s : State) : (s.onEng f).mem = s.mem := rfl
@[simp] theorem State.onEng_sys (f : Eng → Eng) (s : State) : (s.onEng f).sys = s.sys := rfl
@[simp] theorem State.onEng_agenda (f : Eng → Eng) (s : State) : (s.onEng f).agenda = s.agenda := rfl
@[simp] theorem State.onEng_free (f : Eng → Eng) (s : State) : (s.onEng f).free = s.free := rfl
@[simp] theorem State.onMem_core (f : Mem → Mem) (s : State) : (s.onMem f).core = s.core := rfl
@[simp] theorem State.onMem_spad (f : Mem → Mem) (s : State) : (s.onMem f).spad = s.spad := rfl
@[simp] theorem State.onMem_eng (f : Mem → Mem) (s : State) : (s.onMem f).eng = s.eng := rfl
@[simp] theorem State.onMem_others (f : Mem → Mem) (s : State) : (s.onMem f).others = s.others := rfl
@[simp] theorem State.onMem_mem (f : Mem → Mem) (s : State) : (s.onMem f).mem = f s.mem := rfl
@[simp] theorem State.onMem_sys (f : Mem → Mem) (s : State) : (s.onMem f).sys = s.sys := rfl
@[simp] theorem State.onMem_agenda (f : Mem → Mem) (s : State) : (s.onMem f).agenda = s.agenda := rfl
@[simp] theorem State.onMem_free (f : Mem → Mem) (s : State) : (s.onMem f).free = s.free := rfl
@[simp] theorem State.onSys_core (f : Sys → Sys) (s : State) : (s.onSys f).core = s.core := rfl
@[simp] theorem State.onSys_spad (f : Sys → Sys) (s : State) : (s.onSys f).spad = s.spad := rfl
@[simp] theorem State.onSys_eng (f : Sys → Sys) (s : State) : (s.onSys f).eng = s.eng := rfl
@[simp] theorem State.onSys_others (f : Sys → Sys) (s : State) : (s.onSys f).others = s.others := rfl
@[simp] theorem State.onSys_mem (f : Sys → Sys) (s : State) : (s.onSys f).mem = s.mem := rfl
@[simp] theorem State.onSys_sys (f : Sys → Sys) (s : State) : (s.onSys f).sys = f s.sys := rfl
@[simp] theorem State.onSys_agenda (f : Sys → Sys) (s : State) : (s.onSys f).agenda = s.agenda := rfl
@[simp] theorem State.onSys_free (f : Sys → Sys) (s : State) : (s.onSys f).free = s.free := rfl
@[simp] theorem State.draw_core (s : State) : s.draw.core = s.core := rfl
@[simp] theorem State.draw_spad (s : State) : s.draw.spad = s.spad := rfl
@[simp] theorem State.draw_eng (s : State) : s.draw.eng = s.eng := rfl
@[simp] theorem State.draw_others (s : State) : s.draw.others = s.others := rfl
@[simp] theorem State.draw_mem (s : State) : s.draw.mem = s.mem := rfl
@[simp] theorem State.draw_sys (s : State) : s.draw.sys = s.sys := rfl
@[simp] theorem State.draw_agenda (s : State) : s.draw.agenda = s.agenda := rfl
@[simp] theorem State.draw_free (s : State) : s.draw.free = s.free + 1 := rfl

@[simp] theorem State.setPart_core (s : State) (p : Nat) (v : Part) : (s.setPart p v).core = s.core := rfl
@[simp] theorem State.setPart_spad (s : State) (p : Nat) (v : Part) : (s.setPart p v).spad = s.spad := rfl
@[simp] theorem State.setPart_eng (s : State) (p : Nat) (v : Part) : (s.setPart p v).eng = s.eng := rfl
@[simp] theorem State.setPart_others (s : State) (p : Nat) (v : Part) : (s.setPart p v).others = s.others := rfl
@[simp] theorem State.setPart_mem (s : State) (p : Nat) (v : Part) : (s.setPart p v).mem = s.mem := rfl
@[simp] theorem State.setPart_agenda (s : State) (p : Nat) (v : Part) : (s.setPart p v).agenda = s.agenda := rfl
@[simp] theorem State.setPart_free (s : State) (p : Nat) (v : Part) : (s.setPart p v).free = s.free := rfl
@[simp] theorem State.setPart_sys_parts (s : State) (p : Nat) (v : Part) : (s.setPart p v).sys.parts = sset {} s.sys.parts p v := rfl
@[simp] theorem State.setPart_sys_keys (s : State) (p : Nat) (v : Part) : (s.setPart p v).sys.keys = s.sys.keys := rfl
@[simp] theorem State.setPart_sys_vfs (s : State) (p : Nat) (v : Part) : (s.setPart p v).sys.vfs = s.sys.vfs := rfl
@[simp] theorem State.setPart_sys_recs (s : State) (p : Nat) (v : Part) : (s.setPart p v).sys.recs = s.sys.recs := rfl
@[simp] theorem State.setPart_sys_slots (s : State) (p : Nat) (v : Part) : (s.setPart p v).sys.slots = s.sys.slots := rfl
@[simp] theorem State.setPart_sys_nodes (s : State) (p : Nat) (v : Part) : (s.setPart p v).sys.nodes = s.sys.nodes := rfl
@[simp] theorem State.setPart_sys_placed (s : State) (p : Nat) (v : Part) : (s.setPart p v).sys.placed = s.sys.placed := rfl
@[simp] theorem State.setPart_sys_order (s : State) (p : Nat) (v : Part) : (s.setPart p v).sys.order = s.sys.order := rfl
@[simp] theorem State.setPart_sys_queues (s : State) (p : Nat) (v : Part) : (s.setPart p v).sys.queues = s.sys.queues := rfl
@[simp] theorem State.setPart_sys_overflow (s : State) (p : Nat) (v : Part) : (s.setPart p v).sys.overflow = s.sys.overflow := rfl
@[simp] theorem State.setPart_sys_banks (s : State) (p : Nat) (v : Part) : (s.setPart p v).sys.banks = s.sys.banks := rfl
@[simp] theorem State.setPart_sys_errs (s : State) (p : Nat) (v : Part) : (s.setPart p v).sys.errs = s.sys.errs := rfl
@[simp] theorem State.setPart_sys_health (s : State) (p : Nat) (v : Part) : (s.setPart p v).sys.health = s.sys.health := rfl
@[simp] theorem State.setPart_sys_rows (s : State) (p : Nat) (v : Part) : (s.setPart p v).sys.rows = s.sys.rows := rfl
@[simp] theorem State.setPart_sys_conf (s : State) (p : Nat) (v : Part) : (s.setPart p v).sys.conf = s.sys.conf := rfl
@[simp] theorem State.setPart_sys_withdrawn (s : State) (p : Nat) (v : Part) : (s.setPart p v).sys.withdrawn = s.sys.withdrawn := rfl
@[simp] theorem State.setPart_sys_msix (s : State) (p : Nat) (v : Part) : (s.setPart p v).sys.msix = s.sys.msix := rfl
@[simp] theorem State.setPart_sys_hostReads (s : State) (p : Nat) (v : Part) : (s.setPart p v).sys.hostReads = s.sys.hostReads := rfl
@[simp] theorem State.setPart_sys_time (s : State) (p : Nat) (v : Part) : (s.setPart p v).sys.time = s.sys.time := rfl
@[simp] theorem State.setPart_sys_boot (s : State) (p : Nat) (v : Part) : (s.setPart p v).sys.boot = s.sys.boot := rfl
@[simp] theorem State.setPart_sys_measures (s : State) (p : Nat) (v : Part) : (s.setPart p v).sys.measures = s.sys.measures := rfl
@[simp] theorem State.setPart_sys_spdm (s : State) (p : Nat) (v : Part) : (s.setPart p v).sys.spdm = s.sys.spdm := rfl
@[simp] theorem State.setPart_sys_identity (s : State) (p : Nat) (v : Part) : (s.setPart p v).sys.identity = s.sys.identity := rfl
@[simp] theorem State.setPart_sys_audits (s : State) (p : Nat) (v : Part) : (s.setPart p v).sys.audits = s.sys.audits := rfl
@[simp] theorem State.setPart_sys_replays (s : State) (p : Nat) (v : Part) : (s.setPart p v).sys.replays = s.sys.replays := rfl
@[simp] theorem State.setVf_core (s : State) (k : Nat) (v : Vf) : (s.setVf k v).core = s.core := rfl
@[simp] theorem State.setVf_spad (s : State) (k : Nat) (v : Vf) : (s.setVf k v).spad = s.spad := rfl
@[simp] theorem State.setVf_eng (s : State) (k : Nat) (v : Vf) : (s.setVf k v).eng = s.eng := rfl
@[simp] theorem State.setVf_others (s : State) (k : Nat) (v : Vf) : (s.setVf k v).others = s.others := rfl
@[simp] theorem State.setVf_mem (s : State) (k : Nat) (v : Vf) : (s.setVf k v).mem = s.mem := rfl
@[simp] theorem State.setVf_agenda (s : State) (k : Nat) (v : Vf) : (s.setVf k v).agenda = s.agenda := rfl
@[simp] theorem State.setVf_free (s : State) (k : Nat) (v : Vf) : (s.setVf k v).free = s.free := rfl
@[simp] theorem State.setVf_sys_parts (s : State) (k : Nat) (v : Vf) : (s.setVf k v).sys.parts = s.sys.parts := rfl
@[simp] theorem State.setVf_sys_keys (s : State) (k : Nat) (v : Vf) : (s.setVf k v).sys.keys = s.sys.keys := rfl
@[simp] theorem State.setVf_sys_vfs (s : State) (k : Nat) (v : Vf) : (s.setVf k v).sys.vfs = sset {} s.sys.vfs k v := rfl
@[simp] theorem State.setVf_sys_recs (s : State) (k : Nat) (v : Vf) : (s.setVf k v).sys.recs = s.sys.recs := rfl
@[simp] theorem State.setVf_sys_slots (s : State) (k : Nat) (v : Vf) : (s.setVf k v).sys.slots = s.sys.slots := rfl
@[simp] theorem State.setVf_sys_nodes (s : State) (k : Nat) (v : Vf) : (s.setVf k v).sys.nodes = s.sys.nodes := rfl
@[simp] theorem State.setVf_sys_placed (s : State) (k : Nat) (v : Vf) : (s.setVf k v).sys.placed = s.sys.placed := rfl
@[simp] theorem State.setVf_sys_order (s : State) (k : Nat) (v : Vf) : (s.setVf k v).sys.order = s.sys.order := rfl
@[simp] theorem State.setVf_sys_queues (s : State) (k : Nat) (v : Vf) : (s.setVf k v).sys.queues = s.sys.queues := rfl
@[simp] theorem State.setVf_sys_overflow (s : State) (k : Nat) (v : Vf) : (s.setVf k v).sys.overflow = s.sys.overflow := rfl
@[simp] theorem State.setVf_sys_banks (s : State) (k : Nat) (v : Vf) : (s.setVf k v).sys.banks = s.sys.banks := rfl
@[simp] theorem State.setVf_sys_errs (s : State) (k : Nat) (v : Vf) : (s.setVf k v).sys.errs = s.sys.errs := rfl
@[simp] theorem State.setVf_sys_health (s : State) (k : Nat) (v : Vf) : (s.setVf k v).sys.health = s.sys.health := rfl
@[simp] theorem State.setVf_sys_rows (s : State) (k : Nat) (v : Vf) : (s.setVf k v).sys.rows = s.sys.rows := rfl
@[simp] theorem State.setVf_sys_conf (s : State) (k : Nat) (v : Vf) : (s.setVf k v).sys.conf = s.sys.conf := rfl
@[simp] theorem State.setVf_sys_withdrawn (s : State) (k : Nat) (v : Vf) : (s.setVf k v).sys.withdrawn = s.sys.withdrawn := rfl
@[simp] theorem State.setVf_sys_msix (s : State) (k : Nat) (v : Vf) : (s.setVf k v).sys.msix = s.sys.msix := rfl
@[simp] theorem State.setVf_sys_hostReads (s : State) (k : Nat) (v : Vf) : (s.setVf k v).sys.hostReads = s.sys.hostReads := rfl
@[simp] theorem State.setVf_sys_time (s : State) (k : Nat) (v : Vf) : (s.setVf k v).sys.time = s.sys.time := rfl
@[simp] theorem State.setVf_sys_boot (s : State) (k : Nat) (v : Vf) : (s.setVf k v).sys.boot = s.sys.boot := rfl
@[simp] theorem State.setVf_sys_measures (s : State) (k : Nat) (v : Vf) : (s.setVf k v).sys.measures = s.sys.measures := rfl
@[simp] theorem State.setVf_sys_spdm (s : State) (k : Nat) (v : Vf) : (s.setVf k v).sys.spdm = s.sys.spdm := rfl
@[simp] theorem State.setVf_sys_identity (s : State) (k : Nat) (v : Vf) : (s.setVf k v).sys.identity = s.sys.identity := rfl
@[simp] theorem State.setVf_sys_audits (s : State) (k : Nat) (v : Vf) : (s.setVf k v).sys.audits = s.sys.audits := rfl
@[simp] theorem State.setVf_sys_replays (s : State) (k : Nat) (v : Vf) : (s.setVf k v).sys.replays = s.sys.replays := rfl
@[simp] theorem State.setNode_core (s : State) (p a : Nat) (n : NodeRt) : (s.setNode p a n).core = s.core := rfl
@[simp] theorem State.setNode_spad (s : State) (p a : Nat) (n : NodeRt) : (s.setNode p a n).spad = s.spad := rfl
@[simp] theorem State.setNode_eng (s : State) (p a : Nat) (n : NodeRt) : (s.setNode p a n).eng = s.eng := rfl
@[simp] theorem State.setNode_others (s : State) (p a : Nat) (n : NodeRt) : (s.setNode p a n).others = s.others := rfl
@[simp] theorem State.setNode_mem (s : State) (p a : Nat) (n : NodeRt) : (s.setNode p a n).mem = s.mem := rfl
@[simp] theorem State.setNode_agenda (s : State) (p a : Nat) (n : NodeRt) : (s.setNode p a n).agenda = s.agenda := rfl
@[simp] theorem State.setNode_free (s : State) (p a : Nat) (n : NodeRt) : (s.setNode p a n).free = s.free := rfl
@[simp] theorem State.setNode_sys_parts (s : State) (p a : Nat) (n : NodeRt) : (s.setNode p a n).sys.parts = s.sys.parts := rfl
@[simp] theorem State.setNode_sys_keys (s : State) (p a : Nat) (n : NodeRt) : (s.setNode p a n).sys.keys = s.sys.keys := rfl
@[simp] theorem State.setNode_sys_vfs (s : State) (p a : Nat) (n : NodeRt) : (s.setNode p a n).sys.vfs = s.sys.vfs := rfl
@[simp] theorem State.setNode_sys_recs (s : State) (p a : Nat) (n : NodeRt) : (s.setNode p a n).sys.recs = s.sys.recs := rfl
@[simp] theorem State.setNode_sys_slots (s : State) (p a : Nat) (n : NodeRt) : (s.setNode p a n).sys.slots = s.sys.slots := rfl
@[simp] theorem State.setNode_sys_nodes (s : State) (p a : Nat) (n : NodeRt) : (s.setNode p a n).sys.nodes = sset {} s.sys.nodes (nodeKey p a) n := rfl
@[simp] theorem State.setNode_sys_placed (s : State) (p a : Nat) (n : NodeRt) : (s.setNode p a n).sys.placed = s.sys.placed := rfl
@[simp] theorem State.setNode_sys_order (s : State) (p a : Nat) (n : NodeRt) : (s.setNode p a n).sys.order = s.sys.order := rfl
@[simp] theorem State.setNode_sys_queues (s : State) (p a : Nat) (n : NodeRt) : (s.setNode p a n).sys.queues = s.sys.queues := rfl
@[simp] theorem State.setNode_sys_overflow (s : State) (p a : Nat) (n : NodeRt) : (s.setNode p a n).sys.overflow = s.sys.overflow := rfl
@[simp] theorem State.setNode_sys_banks (s : State) (p a : Nat) (n : NodeRt) : (s.setNode p a n).sys.banks = s.sys.banks := rfl
@[simp] theorem State.setNode_sys_errs (s : State) (p a : Nat) (n : NodeRt) : (s.setNode p a n).sys.errs = s.sys.errs := rfl
@[simp] theorem State.setNode_sys_health (s : State) (p a : Nat) (n : NodeRt) : (s.setNode p a n).sys.health = s.sys.health := rfl
@[simp] theorem State.setNode_sys_rows (s : State) (p a : Nat) (n : NodeRt) : (s.setNode p a n).sys.rows = s.sys.rows := rfl
@[simp] theorem State.setNode_sys_conf (s : State) (p a : Nat) (n : NodeRt) : (s.setNode p a n).sys.conf = s.sys.conf := rfl
@[simp] theorem State.setNode_sys_withdrawn (s : State) (p a : Nat) (n : NodeRt) : (s.setNode p a n).sys.withdrawn = s.sys.withdrawn := rfl
@[simp] theorem State.setNode_sys_msix (s : State) (p a : Nat) (n : NodeRt) : (s.setNode p a n).sys.msix = s.sys.msix := rfl
@[simp] theorem State.setNode_sys_hostReads (s : State) (p a : Nat) (n : NodeRt) : (s.setNode p a n).sys.hostReads = s.sys.hostReads := rfl
@[simp] theorem State.setNode_sys_time (s : State) (p a : Nat) (n : NodeRt) : (s.setNode p a n).sys.time = s.sys.time := rfl
@[simp] theorem State.setNode_sys_boot (s : State) (p a : Nat) (n : NodeRt) : (s.setNode p a n).sys.boot = s.sys.boot := rfl
@[simp] theorem State.setNode_sys_measures (s : State) (p a : Nat) (n : NodeRt) : (s.setNode p a n).sys.measures = s.sys.measures := rfl
@[simp] theorem State.setNode_sys_spdm (s : State) (p a : Nat) (n : NodeRt) : (s.setNode p a n).sys.spdm = s.sys.spdm := rfl
@[simp] theorem State.setNode_sys_identity (s : State) (p a : Nat) (n : NodeRt) : (s.setNode p a n).sys.identity = s.sys.identity := rfl
@[simp] theorem State.setNode_sys_audits (s : State) (p a : Nat) (n : NodeRt) : (s.setNode p a n).sys.audits = s.sys.audits := rfl
@[simp] theorem State.setNode_sys_replays (s : State) (p a : Nat) (n : NodeRt) : (s.setNode p a n).sys.replays = s.sys.replays := rfl
@[simp] theorem State.setSlot_core (s : State) (k : Nat) (v : CmdSlot) : (s.setSlot k v).core = s.core := rfl
@[simp] theorem State.setSlot_spad (s : State) (k : Nat) (v : CmdSlot) : (s.setSlot k v).spad = s.spad := rfl
@[simp] theorem State.setSlot_eng (s : State) (k : Nat) (v : CmdSlot) : (s.setSlot k v).eng = s.eng := rfl
@[simp] theorem State.setSlot_others (s : State) (k : Nat) (v : CmdSlot) : (s.setSlot k v).others = s.others := rfl
@[simp] theorem State.setSlot_mem (s : State) (k : Nat) (v : CmdSlot) : (s.setSlot k v).mem = s.mem := rfl
@[simp] theorem State.setSlot_agenda (s : State) (k : Nat) (v : CmdSlot) : (s.setSlot k v).agenda = s.agenda := rfl
@[simp] theorem State.setSlot_free (s : State) (k : Nat) (v : CmdSlot) : (s.setSlot k v).free = s.free := rfl
@[simp] theorem State.setSlot_sys_parts (s : State) (k : Nat) (v : CmdSlot) : (s.setSlot k v).sys.parts = s.sys.parts := rfl
@[simp] theorem State.setSlot_sys_keys (s : State) (k : Nat) (v : CmdSlot) : (s.setSlot k v).sys.keys = s.sys.keys := rfl
@[simp] theorem State.setSlot_sys_vfs (s : State) (k : Nat) (v : CmdSlot) : (s.setSlot k v).sys.vfs = s.sys.vfs := rfl
@[simp] theorem State.setSlot_sys_recs (s : State) (k : Nat) (v : CmdSlot) : (s.setSlot k v).sys.recs = s.sys.recs := rfl
@[simp] theorem State.setSlot_sys_slots (s : State) (k : Nat) (v : CmdSlot) : (s.setSlot k v).sys.slots = sset {} s.sys.slots k v := rfl
@[simp] theorem State.setSlot_sys_nodes (s : State) (k : Nat) (v : CmdSlot) : (s.setSlot k v).sys.nodes = s.sys.nodes := rfl
@[simp] theorem State.setSlot_sys_placed (s : State) (k : Nat) (v : CmdSlot) : (s.setSlot k v).sys.placed = s.sys.placed := rfl
@[simp] theorem State.setSlot_sys_order (s : State) (k : Nat) (v : CmdSlot) : (s.setSlot k v).sys.order = s.sys.order := rfl
@[simp] theorem State.setSlot_sys_queues (s : State) (k : Nat) (v : CmdSlot) : (s.setSlot k v).sys.queues = s.sys.queues := rfl
@[simp] theorem State.setSlot_sys_overflow (s : State) (k : Nat) (v : CmdSlot) : (s.setSlot k v).sys.overflow = s.sys.overflow := rfl
@[simp] theorem State.setSlot_sys_banks (s : State) (k : Nat) (v : CmdSlot) : (s.setSlot k v).sys.banks = s.sys.banks := rfl
@[simp] theorem State.setSlot_sys_errs (s : State) (k : Nat) (v : CmdSlot) : (s.setSlot k v).sys.errs = s.sys.errs := rfl
@[simp] theorem State.setSlot_sys_health (s : State) (k : Nat) (v : CmdSlot) : (s.setSlot k v).sys.health = s.sys.health := rfl
@[simp] theorem State.setSlot_sys_rows (s : State) (k : Nat) (v : CmdSlot) : (s.setSlot k v).sys.rows = s.sys.rows := rfl
@[simp] theorem State.setSlot_sys_conf (s : State) (k : Nat) (v : CmdSlot) : (s.setSlot k v).sys.conf = s.sys.conf := rfl
@[simp] theorem State.setSlot_sys_withdrawn (s : State) (k : Nat) (v : CmdSlot) : (s.setSlot k v).sys.withdrawn = s.sys.withdrawn := rfl
@[simp] theorem State.setSlot_sys_msix (s : State) (k : Nat) (v : CmdSlot) : (s.setSlot k v).sys.msix = s.sys.msix := rfl
@[simp] theorem State.setSlot_sys_hostReads (s : State) (k : Nat) (v : CmdSlot) : (s.setSlot k v).sys.hostReads = s.sys.hostReads := rfl
@[simp] theorem State.setSlot_sys_time (s : State) (k : Nat) (v : CmdSlot) : (s.setSlot k v).sys.time = s.sys.time := rfl
@[simp] theorem State.setSlot_sys_boot (s : State) (k : Nat) (v : CmdSlot) : (s.setSlot k v).sys.boot = s.sys.boot := rfl
@[simp] theorem State.setSlot_sys_measures (s : State) (k : Nat) (v : CmdSlot) : (s.setSlot k v).sys.measures = s.sys.measures := rfl
@[simp] theorem State.setSlot_sys_spdm (s : State) (k : Nat) (v : CmdSlot) : (s.setSlot k v).sys.spdm = s.sys.spdm := rfl
@[simp] theorem State.setSlot_sys_identity (s : State) (k : Nat) (v : CmdSlot) : (s.setSlot k v).sys.identity = s.sys.identity := rfl
@[simp] theorem State.setSlot_sys_audits (s : State) (k : Nat) (v : CmdSlot) : (s.setSlot k v).sys.audits = s.sys.audits := rfl
@[simp] theorem State.setSlot_sys_replays (s : State) (k : Nat) (v : CmdSlot) : (s.setSlot k v).sys.replays = s.sys.replays := rfl
@[simp] theorem State.setBank_core (s : State) (d b : Nat) (v : Bank) : (s.setBank d b v).core = s.core := rfl
@[simp] theorem State.setBank_spad (s : State) (d b : Nat) (v : Bank) : (s.setBank d b v).spad = s.spad := rfl
@[simp] theorem State.setBank_eng (s : State) (d b : Nat) (v : Bank) : (s.setBank d b v).eng = s.eng := rfl
@[simp] theorem State.setBank_others (s : State) (d b : Nat) (v : Bank) : (s.setBank d b v).others = s.others := rfl
@[simp] theorem State.setBank_mem (s : State) (d b : Nat) (v : Bank) : (s.setBank d b v).mem = s.mem := rfl
@[simp] theorem State.setBank_agenda (s : State) (d b : Nat) (v : Bank) : (s.setBank d b v).agenda = s.agenda := rfl
@[simp] theorem State.setBank_free (s : State) (d b : Nat) (v : Bank) : (s.setBank d b v).free = s.free := rfl
@[simp] theorem State.setBank_sys_parts (s : State) (d b : Nat) (v : Bank) : (s.setBank d b v).sys.parts = s.sys.parts := rfl
@[simp] theorem State.setBank_sys_keys (s : State) (d b : Nat) (v : Bank) : (s.setBank d b v).sys.keys = s.sys.keys := rfl
@[simp] theorem State.setBank_sys_vfs (s : State) (d b : Nat) (v : Bank) : (s.setBank d b v).sys.vfs = s.sys.vfs := rfl
@[simp] theorem State.setBank_sys_recs (s : State) (d b : Nat) (v : Bank) : (s.setBank d b v).sys.recs = s.sys.recs := rfl
@[simp] theorem State.setBank_sys_slots (s : State) (d b : Nat) (v : Bank) : (s.setBank d b v).sys.slots = s.sys.slots := rfl
@[simp] theorem State.setBank_sys_nodes (s : State) (d b : Nat) (v : Bank) : (s.setBank d b v).sys.nodes = s.sys.nodes := rfl
@[simp] theorem State.setBank_sys_placed (s : State) (d b : Nat) (v : Bank) : (s.setBank d b v).sys.placed = s.sys.placed := rfl
@[simp] theorem State.setBank_sys_order (s : State) (d b : Nat) (v : Bank) : (s.setBank d b v).sys.order = s.sys.order := rfl
@[simp] theorem State.setBank_sys_queues (s : State) (d b : Nat) (v : Bank) : (s.setBank d b v).sys.queues = s.sys.queues := rfl
@[simp] theorem State.setBank_sys_overflow (s : State) (d b : Nat) (v : Bank) : (s.setBank d b v).sys.overflow = s.sys.overflow := rfl
@[simp] theorem State.setBank_sys_banks (s : State) (d b : Nat) (v : Bank) : (s.setBank d b v).sys.banks = sset Bank.empty s.sys.banks (d * 32 + b) v := rfl
@[simp] theorem State.setBank_sys_errs (s : State) (d b : Nat) (v : Bank) : (s.setBank d b v).sys.errs = s.sys.errs := rfl
@[simp] theorem State.setBank_sys_health (s : State) (d b : Nat) (v : Bank) : (s.setBank d b v).sys.health = s.sys.health := rfl
@[simp] theorem State.setBank_sys_rows (s : State) (d b : Nat) (v : Bank) : (s.setBank d b v).sys.rows = s.sys.rows := rfl
@[simp] theorem State.setBank_sys_conf (s : State) (d b : Nat) (v : Bank) : (s.setBank d b v).sys.conf = s.sys.conf := rfl
@[simp] theorem State.setBank_sys_withdrawn (s : State) (d b : Nat) (v : Bank) : (s.setBank d b v).sys.withdrawn = s.sys.withdrawn := rfl
@[simp] theorem State.setBank_sys_msix (s : State) (d b : Nat) (v : Bank) : (s.setBank d b v).sys.msix = s.sys.msix := rfl
@[simp] theorem State.setBank_sys_hostReads (s : State) (d b : Nat) (v : Bank) : (s.setBank d b v).sys.hostReads = s.sys.hostReads := rfl
@[simp] theorem State.setBank_sys_time (s : State) (d b : Nat) (v : Bank) : (s.setBank d b v).sys.time = s.sys.time := rfl
@[simp] theorem State.setBank_sys_boot (s : State) (d b : Nat) (v : Bank) : (s.setBank d b v).sys.boot = s.sys.boot := rfl
@[simp] theorem State.setBank_sys_measures (s : State) (d b : Nat) (v : Bank) : (s.setBank d b v).sys.measures = s.sys.measures := rfl
@[simp] theorem State.setBank_sys_spdm (s : State) (d b : Nat) (v : Bank) : (s.setBank d b v).sys.spdm = s.sys.spdm := rfl
@[simp] theorem State.setBank_sys_identity (s : State) (d b : Nat) (v : Bank) : (s.setBank d b v).sys.identity = s.sys.identity := rfl
@[simp] theorem State.setBank_sys_audits (s : State) (d b : Nat) (v : Bank) : (s.setBank d b v).sys.audits = s.sys.audits := rfl
@[simp] theorem State.setBank_sys_replays (s : State) (d b : Nat) (v : Bank) : (s.setBank d b v).sys.replays = s.sys.replays := rfl
@[simp] theorem State.sendMsix_core (s : State) (f v : Nat) : (s.sendMsix f v).core = s.core := rfl
@[simp] theorem State.sendMsix_spad (s : State) (f v : Nat) : (s.sendMsix f v).spad = s.spad := rfl
@[simp] theorem State.sendMsix_eng (s : State) (f v : Nat) : (s.sendMsix f v).eng = s.eng := rfl
@[simp] theorem State.sendMsix_others (s : State) (f v : Nat) : (s.sendMsix f v).others = s.others := rfl
@[simp] theorem State.sendMsix_mem (s : State) (f v : Nat) : (s.sendMsix f v).mem = s.mem := rfl
@[simp] theorem State.sendMsix_agenda (s : State) (f v : Nat) : (s.sendMsix f v).agenda = s.agenda := rfl
@[simp] theorem State.sendMsix_free (s : State) (f v : Nat) : (s.sendMsix f v).free = s.free := rfl
@[simp] theorem State.sendMsix_sys_parts (s : State) (f v : Nat) : (s.sendMsix f v).sys.parts = s.sys.parts := rfl
@[simp] theorem State.sendMsix_sys_keys (s : State) (f v : Nat) : (s.sendMsix f v).sys.keys = s.sys.keys := rfl
@[simp] theorem State.sendMsix_sys_vfs (s : State) (f v : Nat) : (s.sendMsix f v).sys.vfs = s.sys.vfs := rfl
@[simp] theorem State.sendMsix_sys_recs (s : State) (f v : Nat) : (s.sendMsix f v).sys.recs = s.sys.recs := rfl
@[simp] theorem State.sendMsix_sys_slots (s : State) (f v : Nat) : (s.sendMsix f v).sys.slots = s.sys.slots := rfl
@[simp] theorem State.sendMsix_sys_nodes (s : State) (f v : Nat) : (s.sendMsix f v).sys.nodes = s.sys.nodes := rfl
@[simp] theorem State.sendMsix_sys_placed (s : State) (f v : Nat) : (s.sendMsix f v).sys.placed = s.sys.placed := rfl
@[simp] theorem State.sendMsix_sys_order (s : State) (f v : Nat) : (s.sendMsix f v).sys.order = s.sys.order := rfl
@[simp] theorem State.sendMsix_sys_queues (s : State) (f v : Nat) : (s.sendMsix f v).sys.queues = s.sys.queues := rfl
@[simp] theorem State.sendMsix_sys_overflow (s : State) (f v : Nat) : (s.sendMsix f v).sys.overflow = s.sys.overflow := rfl
@[simp] theorem State.sendMsix_sys_banks (s : State) (f v : Nat) : (s.sendMsix f v).sys.banks = s.sys.banks := rfl
@[simp] theorem State.sendMsix_sys_errs (s : State) (f v : Nat) : (s.sendMsix f v).sys.errs = s.sys.errs := rfl
@[simp] theorem State.sendMsix_sys_health (s : State) (f v : Nat) : (s.sendMsix f v).sys.health = s.sys.health := rfl
@[simp] theorem State.sendMsix_sys_rows (s : State) (f v : Nat) : (s.sendMsix f v).sys.rows = s.sys.rows := rfl
@[simp] theorem State.sendMsix_sys_conf (s : State) (f v : Nat) : (s.sendMsix f v).sys.conf = s.sys.conf := rfl
@[simp] theorem State.sendMsix_sys_withdrawn (s : State) (f v : Nat) : (s.sendMsix f v).sys.withdrawn = s.sys.withdrawn := rfl
@[simp] theorem State.sendMsix_sys_msix (s : State) (f v : Nat) : (s.sendMsix f v).sys.msix = s.sys.msix ++ [(f, v)] := rfl
@[simp] theorem State.sendMsix_sys_hostReads (s : State) (f v : Nat) : (s.sendMsix f v).sys.hostReads = s.sys.hostReads := rfl
@[simp] theorem State.sendMsix_sys_time (s : State) (f v : Nat) : (s.sendMsix f v).sys.time = s.sys.time := rfl
@[simp] theorem State.sendMsix_sys_boot (s : State) (f v : Nat) : (s.sendMsix f v).sys.boot = s.sys.boot := rfl
@[simp] theorem State.sendMsix_sys_measures (s : State) (f v : Nat) : (s.sendMsix f v).sys.measures = s.sys.measures := rfl
@[simp] theorem State.sendMsix_sys_spdm (s : State) (f v : Nat) : (s.sendMsix f v).sys.spdm = s.sys.spdm := rfl
@[simp] theorem State.sendMsix_sys_identity (s : State) (f v : Nat) : (s.sendMsix f v).sys.identity = s.sys.identity := rfl
@[simp] theorem State.sendMsix_sys_audits (s : State) (f v : Nat) : (s.sendMsix f v).sys.audits = s.sys.audits := rfl
@[simp] theorem State.sendMsix_sys_replays (s : State) (f v : Nat) : (s.sendMsix f v).sys.replays = s.sys.replays := rfl
@[simp] theorem State.setFront_core (s : State) (n : Nat) (f : Front) : (s.setFront n f).core = s.core := rfl
@[simp] theorem State.setFront_spad (s : State) (n : Nat) (f : Front) : (s.setFront n f).spad = s.spad := rfl
@[simp] theorem State.setFront_others (s : State) (n : Nat) (f : Front) : (s.setFront n f).others = s.others := rfl
@[simp] theorem State.setFront_mem (s : State) (n : Nat) (f : Front) : (s.setFront n f).mem = s.mem := rfl
@[simp] theorem State.setFront_sys (s : State) (n : Nat) (f : Front) : (s.setFront n f).sys = s.sys := rfl
@[simp] theorem State.setFront_agenda (s : State) (n : Nat) (f : Front) : (s.setFront n f).agenda = s.agenda := rfl
@[simp] theorem State.setFront_free (s : State) (n : Nat) (f : Front) : (s.setFront n f).free = s.free := rfl
@[simp] theorem State.setFront_eng_acc (s : State) (n : Nat) (f : Front) : (s.setFront n f).eng.acc = s.eng.acc := rfl
@[simp] theorem State.setFront_eng_accBad (s : State) (n : Nat) (f : Front) : (s.setFront n f).eng.accBad = s.eng.accBad := rfl
@[simp] theorem State.setFront_eng_latch (s : State) (n : Nat) (f : Front) : (s.setFront n f).eng.latch = s.eng.latch := rfl
@[simp] theorem State.setFront_eng_staging (s : State) (n : Nat) (f : Front) : (s.setFront n f).eng.staging = s.eng.staging := rfl
@[simp] theorem State.setFront_eng_shadow (s : State) (n : Nat) (f : Front) : (s.setFront n f).eng.shadow = s.eng.shadow := rfl
@[simp] theorem State.setFront_eng_amax (s : State) (n : Nat) (f : Front) : (s.setFront n f).eng.amax = s.eng.amax := rfl
@[simp] theorem State.setFront_eng_tap (s : State) (n : Nat) (f : Front) : (s.setFront n f).eng.tap = s.eng.tap := rfl
@[simp] theorem State.setFront_eng_mq (s : State) (n : Nat) (f : Front) : (s.setFront n f).eng.mq = s.eng.mq := rfl
@[simp] theorem State.setFront_eng_c0q (s : State) (n : Nat) (f : Front) : (s.setFront n f).eng.c0q = s.eng.c0q := rfl
@[simp] theorem State.setFront_eng_c1q (s : State) (n : Nat) (f : Front) : (s.setFront n f).eng.c1q = s.eng.c1q := rfl
@[simp] theorem State.setFront_eng_fc (s : State) (n : Nat) (f : Front) : (s.setFront n f).eng.fc = sset {} s.eng.fc n f := rfl
@[simp] theorem State.setFront_eng_flight (s : State) (n : Nat) (f : Front) : (s.setFront n f).eng.flight = s.eng.flight := rfl
@[simp] theorem State.setFront_eng_told (s : State) (n : Nat) (f : Front) : (s.setFront n f).eng.told = s.eng.told := rfl
@[simp] theorem State.setFront_eng_crem (s : State) (n : Nat) (f : Front) : (s.setFront n f).eng.crem = s.eng.crem := rfl
@[simp] theorem State.setFront_eng_sent (s : State) (n : Nat) (f : Front) : (s.setFront n f).eng.sent = s.eng.sent := rfl

/-! ### The registers of the core -/

@[simp] theorem Core.wrIdx_num (c : Core) (k : Nat) (v : BitVec 64) : (c.wrIdx k v).num = c.num := by unfold Core.wrIdx; split <;> rfl
@[simp] theorem Core.wrIdx_run (c : Core) (k : Nat) (v : BitVec 64) : (c.wrIdx k v).run = c.run := by unfold Core.wrIdx; split <;> rfl
@[simp] theorem Core.wrIdx_fresh (c : Core) (k : Nat) (v : BitVec 64) : (c.wrIdx k v).fresh = c.fresh := by unfold Core.wrIdx; split <;> rfl
@[simp] theorem Core.wrIdx_pc (c : Core) (k : Nat) (v : BitVec 64) : (c.wrIdx k v).pc = c.pc := by unfold Core.wrIdx; split <;> rfl
@[simp] theorem Core.wrIdx_made (c : Core) (k : Nat) (v : BitVec 64) : (c.wrIdx k v).made = c.made := by unfold Core.wrIdx; split <;> rfl
@[simp] theorem Core.wrIdx_owed (c : Core) (k : Nat) (v : BitVec 64) : (c.wrIdx k v).owed = c.owed := by unfold Core.wrIdx; split <;> rfl
@[simp] theorem Core.wrIdx_cur (c : Core) (k : Nat) (v : BitVec 64) : (c.wrIdx k v).cur = c.cur := by unfold Core.wrIdx; split <;> rfl
@[simp] theorem Core.wrIdx_jump (c : Core) (k : Nat) (v : BitVec 64) : (c.wrIdx k v).jump = c.jump := by unfold Core.wrIdx; split <;> rfl
@[simp] theorem Core.wrIdx_after (c : Core) (k : Nat) (v : BitVec 64) : (c.wrIdx k v).after = c.after := by unfold Core.wrIdx; split <;> rfl
@[simp] theorem Core.wrIdx_xfer (c : Core) (k : Nat) (v : BitVec 64) : (c.wrIdx k v).xfer = c.xfer := by unfold Core.wrIdx; split <;> rfl
@[simp] theorem Core.wrIdx_loop (c : Core) (k : Nat) (v : BitVec 64) : (c.wrIdx k v).loop = c.loop := by unfold Core.wrIdx; split <;> rfl
@[simp] theorem Core.wrIdx_latch0 (c : Core) (k : Nat) (v : BitVec 64) : (c.wrIdx k v).latch0 = c.latch0 := by unfold Core.wrIdx; split <;> rfl
@[simp] theorem Core.wrIdx_latch1 (c : Core) (k : Nat) (v : BitVec 64) : (c.wrIdx k v).latch1 = c.latch1 := by unfold Core.wrIdx; split <;> rfl
@[simp] theorem Core.wrIdx_pr (c : Core) (k : Nat) (v : BitVec 64) : (c.wrIdx k v).pr = c.pr := by unfold Core.wrIdx; split <;> rfl
@[simp] theorem Core.wrIdx_br (c : Core) (k : Nat) (v : BitVec 64) : (c.wrIdx k v).br = c.br := by unfold Core.wrIdx; split <;> rfl
@[simp] theorem Core.wrIdx_a (c : Core) (k : Nat) (v : BitVec 64) : (c.wrIdx k v).a = c.a := by unfold Core.wrIdx; split <;> rfl
@[simp] theorem Core.wrIdx_step (c : Core) (k : Nat) (v : BitVec 64) : (c.wrIdx k v).step = c.step := by unfold Core.wrIdx; split <;> rfl
@[simp] theorem Core.wrIdx_lc (c : Core) (k : Nat) (v : BitVec 64) : (c.wrIdx k v).lc = c.lc := by unfold Core.wrIdx; split <;> rfl
@[simp] theorem Core.wrIdx_muldiv (c : Core) (k : Nat) (v : BitVec 64) : (c.wrIdx k v).muldiv = c.muldiv := by unfold Core.wrIdx; split <;> rfl
@[simp] theorem Core.wrIdx_pend (c : Core) (k : Nat) (v : BitVec 64) : (c.wrIdx k v).pend = c.pend := by unfold Core.wrIdx; split <;> rfl
@[simp] theorem Core.wrIdx_va (c : Core) (k : Nat) (v : BitVec 64) : (c.wrIdx k v).va = c.va := by unfold Core.wrIdx; split <;> rfl
@[simp] theorem Core.wrIdx_vb (c : Core) (k : Nat) (v : BitVec 64) : (c.wrIdx k v).vb = c.vb := by unfold Core.wrIdx; split <;> rfl
@[simp] theorem Core.wrIdx_bad (c : Core) (k : Nat) (v : BitVec 64) : (c.wrIdx k v).bad = c.bad := by unfold Core.wrIdx; split <;> rfl
@[simp] theorem Core.wrIdx_vwa (c : Core) (k : Nat) (v : BitVec 64) : (c.wrIdx k v).vwa = c.vwa := by unfold Core.wrIdx; split <;> rfl
@[simp] theorem Core.wrIdx_vwb (c : Core) (k : Nat) (v : BitVec 64) : (c.wrIdx k v).vwb = c.vwb := by unfold Core.wrIdx; split <;> rfl
@[simp] theorem Core.wrIdx_q (c : Core) (k : Nat) (v : BitVec 64) : (c.wrIdx k v).q = c.q := by unfold Core.wrIdx; split <;> rfl
@[simp] theorem Core.wrIdx_vrm (c : Core) (k : Nat) (v : BitVec 64) : (c.wrIdx k v).vrm = c.vrm := by unfold Core.wrIdx; split <;> rfl
@[simp] theorem Core.wrIdx_vfly (c : Core) (k : Nat) (v : BitVec 64) : (c.wrIdx k v).vfly = c.vfly := by unfold Core.wrIdx; split <;> rfl
@[simp] theorem Core.wrIdx_seed (c : Core) (k : Nat) (v : BitVec 64) : (c.wrIdx k v).seed = c.seed := by unfold Core.wrIdx; split <;> rfl
@[simp] theorem Core.wrIdx_srcnt (c : Core) (k : Nat) (v : BitVec 64) : (c.wrIdx k v).srcnt = c.srcnt := by unfold Core.wrIdx; split <;> rfl
@[simp] theorem Core.wrIdx_d (c : Core) (k : Nat) (v : BitVec 64) : (c.wrIdx k v).d = c.d := by unfold Core.wrIdx; split <;> rfl
@[simp] theorem Core.wrIdx_lvl (c : Core) (k : Nat) (v : BitVec 64) : (c.wrIdx k v).lvl = c.lvl := by unfold Core.wrIdx; split <;> rfl
@[simp] theorem Core.wrIdx_clk (c : Core) (k : Nat) (v : BitVec 64) : (c.wrIdx k v).clk = c.clk := by unfold Core.wrIdx; split <;> rfl
@[simp] theorem Core.wrIdx_cause (c : Core) (k : Nat) (v : BitVec 64) : (c.wrIdx k v).cause = c.cause := by unfold Core.wrIdx; split <;> rfl
@[simp] theorem Core.wrIdx_tval (c : Core) (k : Nat) (v : BitVec 64) : (c.wrIdx k v).tval = c.tval := by unfold Core.wrIdx; split <;> rfl
@[simp] theorem Core.wrIdx_tstage (c : Core) (k : Nat) (v : BitVec 64) : (c.wrIdx k v).tstage = c.tstage := by unfold Core.wrIdx; split <;> rfl
@[simp] theorem Core.wrIdx_tpc (c : Core) (k : Nat) (v : BitVec 64) : (c.wrIdx k v).tpc = c.tpc := by unfold Core.wrIdx; split <;> rfl
@[simp] theorem Core.wrIdx_thb (c : Core) (k : Nat) (v : BitVec 64) : (c.wrIdx k v).thb = c.thb := by unfold Core.wrIdx; split <;> rfl
@[simp] theorem Core.wrIdx_qmode (c : Core) (k : Nat) (v : BitVec 64) : (c.wrIdx k v).qmode = c.qmode := by unfold Core.wrIdx; split <;> rfl
@[simp] theorem Core.wrIdx_rbound (c : Core) (k : Nat) (v : BitVec 64) : (c.wrIdx k v).rbound = c.rbound := by unfold Core.wrIdx; split <;> rfl
@[simp] theorem Core.wrIdx_chaselim (c : Core) (k : Nat) (v : BitVec 64) : (c.wrIdx k v).chaselim = c.chaselim := by unfold Core.wrIdx; split <;> rfl
@[simp] theorem Core.wrIdx_group (c : Core) (k : Nat) (v : BitVec 64) : (c.wrIdx k v).group = c.group := by unfold Core.wrIdx; split <;> rfl
@[simp] theorem Core.wrIdx_gang (c : Core) (k : Nat) (v : BitVec 64) : (c.wrIdx k v).gang = c.gang := by unfold Core.wrIdx; split <;> rfl
@[simp] theorem Core.wrIdx_node (c : Core) (k : Nat) (v : BitVec 64) : (c.wrIdx k v).node = c.node := by unfold Core.wrIdx; split <;> rfl
@[simp] theorem Core.wrIdx_args (c : Core) (k : Nat) (v : BitVec 64) : (c.wrIdx k v).args = c.args := by unfold Core.wrIdx; split <;> rfl
@[simp] theorem Core.wrIdx_rqtag (c : Core) (k : Nat) (v : BitVec 64) : (c.wrIdx k v).rqtag = c.rqtag := by unfold Core.wrIdx; split <;> rfl
@[simp] theorem Core.wrIdx_part (c : Core) (k : Nat) (v : BitVec 64) : (c.wrIdx k v).part = c.part := by unfold Core.wrIdx; split <;> rfl
@[simp] theorem Core.wrIdx_cycle (c : Core) (k : Nat) (v : BitVec 64) : (c.wrIdx k v).cycle = c.cycle := by unfold Core.wrIdx; split <;> rfl
@[simp] theorem Core.wrIdx_retired (c : Core) (k : Nat) (v : BitVec 64) : (c.wrIdx k v).retired = c.retired := by unfold Core.wrIdx; split <;> rfl
@[simp] theorem Core.wrIdx_tstate (c : Core) (k : Nat) (v : BitVec 64) : (c.wrIdx k v).tstate = c.tstate := by unfold Core.wrIdx; split <;> rfl
@[simp] theorem Core.wrIdx_held (c : Core) (k : Nat) (v : BitVec 64) : (c.wrIdx k v).held = c.held := by unfold Core.wrIdx; split <;> rfl
@[simp] theorem Core.wrIdx_rg (c : Core) (k : Nat) (v : BitVec 64) : (c.wrIdx k v).rg = c.rg := by unfold Core.wrIdx; split <;> rfl
@[simp] theorem Core.wrIdx_textva (c : Core) (k : Nat) (v : BitVec 64) : (c.wrIdx k v).textva = c.textva := by unfold Core.wrIdx; split <;> rfl
@[simp] theorem Core.wrIdx_imgid (c : Core) (k : Nat) (v : BitVec 64) : (c.wrIdx k v).imgid = c.imgid := by unfold Core.wrIdx; split <;> rfl
@[simp] theorem Core.wrIdx_plan (c : Core) (k : Nat) (v : BitVec 64) : (c.wrIdx k v).plan = c.plan := by unfold Core.wrIdx; split <;> rfl
@[simp] theorem Core.wrIdx_s1root (c : Core) (k : Nat) (v : BitVec 64) : (c.wrIdx k v).s1root = c.s1root := by unfold Core.wrIdx; split <;> rfl
@[simp] theorem Core.wrIdx_sptva (c : Core) (k : Nat) (v : BitVec 64) : (c.wrIdx k v).sptva = c.sptva := by unfold Core.wrIdx; split <;> rfl
@[simp] theorem Core.wrIdx_parked (c : Core) (k : Nat) (v : BitVec 64) : (c.wrIdx k v).parked = c.parked := by unfold Core.wrIdx; split <;> rfl
@[simp] theorem Core.wrIdx_pins (c : Core) (k : Nat) (v : BitVec 64) : (c.wrIdx k v).pins = c.pins := by unfold Core.wrIdx; split <;> rfl
@[simp] theorem Core.wrIdx_curve (c : Core) (k : Nat) (v : BitVec 64) : (c.wrIdx k v).curve = c.curve := by unfold Core.wrIdx; split <;> rfl
@[simp] theorem Core.wrIdx_bmap (c : Core) (k : Nat) (v : BitVec 64) : (c.wrIdx k v).bmap = c.bmap := by unfold Core.wrIdx; split <;> rfl
@[simp] theorem Core.wrIdx_cnt (c : Core) (k : Nat) (v : BitVec 64) : (c.wrIdx k v).cnt = c.cnt := by unfold Core.wrIdx; split <;> rfl
@[simp] theorem Core.wrIdx_timer (c : Core) (k : Nat) (v : BitVec 64) : (c.wrIdx k v).timer = c.timer := by unfold Core.wrIdx; split <;> rfl
@[simp] theorem Core.wrIdx_timerAt (c : Core) (k : Nat) (v : BitVec 64) : (c.wrIdx k v).timerAt = c.timerAt := by unfold Core.wrIdx; split <;> rfl
@[simp] theorem Core.wrIdx_waitOn (c : Core) (k : Nat) (v : BitVec 64) : (c.wrIdx k v).waitOn = c.waitOn := by unfold Core.wrIdx; split <;> rfl
@[simp] theorem Core.wrIdx_waitBroken (c : Core) (k : Nat) (v : BitVec 64) : (c.wrIdx k v).waitBroken = c.waitBroken := by unfold Core.wrIdx; split <;> rfl
@[simp] theorem Core.wrIdx_waitDone (c : Core) (k : Nat) (v : BitVec 64) : (c.wrIdx k v).waitDone = c.waitDone := by unfold Core.wrIdx; split <;> rfl
@[simp] theorem Core.wrIdx_waitBar (c : Core) (k : Nat) (v : BitVec 64) : (c.wrIdx k v).waitBar = c.waitBar := by unfold Core.wrIdx; split <;> rfl
@[simp] theorem Core.wrIdx_barMet (c : Core) (k : Nat) (v : BitVec 64) : (c.wrIdx k v).barMet = c.barMet := by unfold Core.wrIdx; split <;> rfl
@[simp] theorem Core.wrIdx_since (c : Core) (k : Nat) (v : BitVec 64) : (c.wrIdx k v).since = c.since := by unfold Core.wrIdx; split <;> rfl
@[simp] theorem Core.wrIdx_paged (c : Core) (k : Nat) (v : BitVec 64) : (c.wrIdx k v).paged = c.paged := by unfold Core.wrIdx; split <;> rfl
@[simp] theorem Core.wrIdx_pw (c : Core) (k : Nat) (v : BitVec 64) : (c.wrIdx k v).pw = c.pw := by unfold Core.wrIdx; split <;> rfl
@[simp] theorem Core.wrIdx_qstall (c : Core) (k : Nat) (v : BitVec 64) : (c.wrIdx k v).qstall = c.qstall := by unfold Core.wrIdx; split <;> rfl
@[simp] theorem Core.wrIdx_sig (c : Core) (k : Nat) (v : BitVec 64) : (c.wrIdx k v).sig = c.sig := by unfold Core.wrIdx; split <;> rfl
@[simp] theorem Core.wrIdx_sigq (c : Core) (k : Nat) (v : BitVec 64) : (c.wrIdx k v).sigq = c.sigq := by unfold Core.wrIdx; split <;> rfl

@[simp] theorem Core.wrS_num (c : Core) (n : Nat) (v : BitVec 64) : (c.wrS n v).num = c.num := by unfold Core.wrS Core.wrIdx; split <;> rfl
@[simp] theorem Core.wrS_run (c : Core) (n : Nat) (v : BitVec 64) : (c.wrS n v).run = c.run := by unfold Core.wrS Core.wrIdx; split <;> rfl
@[simp] theorem Core.wrS_fresh (c : Core) (n : Nat) (v : BitVec 64) : (c.wrS n v).fresh = c.fresh := by unfold Core.wrS Core.wrIdx; split <;> rfl
@[simp] theorem Core.wrS_pc (c : Core) (n : Nat) (v : BitVec 64) : (c.wrS n v).pc = c.pc := by unfold Core.wrS Core.wrIdx; split <;> rfl
@[simp] theorem Core.wrS_made (c : Core) (n : Nat) (v : BitVec 64) : (c.wrS n v).made = c.made := by unfold Core.wrS Core.wrIdx; split <;> rfl
@[simp] theorem Core.wrS_owed (c : Core) (n : Nat) (v : BitVec 64) : (c.wrS n v).owed = c.owed := by unfold Core.wrS Core.wrIdx; split <;> rfl
@[simp] theorem Core.wrS_cur (c : Core) (n : Nat) (v : BitVec 64) : (c.wrS n v).cur = c.cur := by unfold Core.wrS Core.wrIdx; split <;> rfl
@[simp] theorem Core.wrS_jump (c : Core) (n : Nat) (v : BitVec 64) : (c.wrS n v).jump = c.jump := by unfold Core.wrS Core.wrIdx; split <;> rfl
@[simp] theorem Core.wrS_after (c : Core) (n : Nat) (v : BitVec 64) : (c.wrS n v).after = c.after := by unfold Core.wrS Core.wrIdx; split <;> rfl
@[simp] theorem Core.wrS_xfer (c : Core) (n : Nat) (v : BitVec 64) : (c.wrS n v).xfer = c.xfer := by unfold Core.wrS Core.wrIdx; split <;> rfl
@[simp] theorem Core.wrS_loop (c : Core) (n : Nat) (v : BitVec 64) : (c.wrS n v).loop = c.loop := by unfold Core.wrS Core.wrIdx; split <;> rfl
@[simp] theorem Core.wrS_latch0 (c : Core) (n : Nat) (v : BitVec 64) : (c.wrS n v).latch0 = c.latch0 := by unfold Core.wrS Core.wrIdx; split <;> rfl
@[simp] theorem Core.wrS_latch1 (c : Core) (n : Nat) (v : BitVec 64) : (c.wrS n v).latch1 = c.latch1 := by unfold Core.wrS Core.wrIdx; split <;> rfl
@[simp] theorem Core.wrS_pr (c : Core) (n : Nat) (v : BitVec 64) : (c.wrS n v).pr = c.pr := by unfold Core.wrS Core.wrIdx; split <;> rfl
@[simp] theorem Core.wrS_br (c : Core) (n : Nat) (v : BitVec 64) : (c.wrS n v).br = c.br := by unfold Core.wrS Core.wrIdx; split <;> rfl
@[simp] theorem Core.wrS_a (c : Core) (n : Nat) (v : BitVec 64) : (c.wrS n v).a = c.a := by unfold Core.wrS Core.wrIdx; split <;> rfl
@[simp] theorem Core.wrS_step (c : Core) (n : Nat) (v : BitVec 64) : (c.wrS n v).step = c.step := by unfold Core.wrS Core.wrIdx; split <;> rfl
@[simp] theorem Core.wrS_lc (c : Core) (n : Nat) (v : BitVec 64) : (c.wrS n v).lc = c.lc := by unfold Core.wrS Core.wrIdx; split <;> rfl
@[simp] theorem Core.wrS_muldiv (c : Core) (n : Nat) (v : BitVec 64) : (c.wrS n v).muldiv = c.muldiv := by unfold Core.wrS Core.wrIdx; split <;> rfl
@[simp] theorem Core.wrS_pend (c : Core) (n : Nat) (v : BitVec 64) : (c.wrS n v).pend = c.pend := by unfold Core.wrS Core.wrIdx; split <;> rfl
@[simp] theorem Core.wrS_va (c : Core) (n : Nat) (v : BitVec 64) : (c.wrS n v).va = c.va := by unfold Core.wrS Core.wrIdx; split <;> rfl
@[simp] theorem Core.wrS_vb (c : Core) (n : Nat) (v : BitVec 64) : (c.wrS n v).vb = c.vb := by unfold Core.wrS Core.wrIdx; split <;> rfl
@[simp] theorem Core.wrS_bad (c : Core) (n : Nat) (v : BitVec 64) : (c.wrS n v).bad = c.bad := by unfold Core.wrS Core.wrIdx; split <;> rfl
@[simp] theorem Core.wrS_vwa (c : Core) (n : Nat) (v : BitVec 64) : (c.wrS n v).vwa = c.vwa := by unfold Core.wrS Core.wrIdx; split <;> rfl
@[simp] theorem Core.wrS_vwb (c : Core) (n : Nat) (v : BitVec 64) : (c.wrS n v).vwb = c.vwb := by unfold Core.wrS Core.wrIdx; split <;> rfl
@[simp] theorem Core.wrS_q (c : Core) (n : Nat) (v : BitVec 64) : (c.wrS n v).q = c.q := by unfold Core.wrS Core.wrIdx; split <;> rfl
@[simp] theorem Core.wrS_vrm (c : Core) (n : Nat) (v : BitVec 64) : (c.wrS n v).vrm = c.vrm := by unfold Core.wrS Core.wrIdx; split <;> rfl
@[simp] theorem Core.wrS_vfly (c : Core) (n : Nat) (v : BitVec 64) : (c.wrS n v).vfly = c.vfly := by unfold Core.wrS Core.wrIdx; split <;> rfl
@[simp] theorem Core.wrS_seed (c : Core) (n : Nat) (v : BitVec 64) : (c.wrS n v).seed = c.seed := by unfold Core.wrS Core.wrIdx; split <;> rfl
@[simp] theorem Core.wrS_srcnt (c : Core) (n : Nat) (v : BitVec 64) : (c.wrS n v).srcnt = c.srcnt := by unfold Core.wrS Core.wrIdx; split <;> rfl
@[simp] theorem Core.wrS_d (c : Core) (n : Nat) (v : BitVec 64) : (c.wrS n v).d = c.d := by unfold Core.wrS Core.wrIdx; split <;> rfl
@[simp] theorem Core.wrS_lvl (c : Core) (n : Nat) (v : BitVec 64) : (c.wrS n v).lvl = c.lvl := by unfold Core.wrS Core.wrIdx; split <;> rfl
@[simp] theorem Core.wrS_clk (c : Core) (n : Nat) (v : BitVec 64) : (c.wrS n v).clk = c.clk := by unfold Core.wrS Core.wrIdx; split <;> rfl
@[simp] theorem Core.wrS_cause (c : Core) (n : Nat) (v : BitVec 64) : (c.wrS n v).cause = c.cause := by unfold Core.wrS Core.wrIdx; split <;> rfl
@[simp] theorem Core.wrS_tval (c : Core) (n : Nat) (v : BitVec 64) : (c.wrS n v).tval = c.tval := by unfold Core.wrS Core.wrIdx; split <;> rfl
@[simp] theorem Core.wrS_tstage (c : Core) (n : Nat) (v : BitVec 64) : (c.wrS n v).tstage = c.tstage := by unfold Core.wrS Core.wrIdx; split <;> rfl
@[simp] theorem Core.wrS_tpc (c : Core) (n : Nat) (v : BitVec 64) : (c.wrS n v).tpc = c.tpc := by unfold Core.wrS Core.wrIdx; split <;> rfl
@[simp] theorem Core.wrS_thb (c : Core) (n : Nat) (v : BitVec 64) : (c.wrS n v).thb = c.thb := by unfold Core.wrS Core.wrIdx; split <;> rfl
@[simp] theorem Core.wrS_qmode (c : Core) (n : Nat) (v : BitVec 64) : (c.wrS n v).qmode = c.qmode := by unfold Core.wrS Core.wrIdx; split <;> rfl
@[simp] theorem Core.wrS_rbound (c : Core) (n : Nat) (v : BitVec 64) : (c.wrS n v).rbound = c.rbound := by unfold Core.wrS Core.wrIdx; split <;> rfl
@[simp] theorem Core.wrS_chaselim (c : Core) (n : Nat) (v : BitVec 64) : (c.wrS n v).chaselim = c.chaselim := by unfold Core.wrS Core.wrIdx; split <;> rfl
@[simp] theorem Core.wrS_group (c : Core) (n : Nat) (v : BitVec 64) : (c.wrS n v).group = c.group := by unfold Core.wrS Core.wrIdx; split <;> rfl
@[simp] theorem Core.wrS_gang (c : Core) (n : Nat) (v : BitVec 64) : (c.wrS n v).gang = c.gang := by unfold Core.wrS Core.wrIdx; split <;> rfl
@[simp] theorem Core.wrS_node (c : Core) (n : Nat) (v : BitVec 64) : (c.wrS n v).node = c.node := by unfold Core.wrS Core.wrIdx; split <;> rfl
@[simp] theorem Core.wrS_args (c : Core) (n : Nat) (v : BitVec 64) : (c.wrS n v).args = c.args := by unfold Core.wrS Core.wrIdx; split <;> rfl
@[simp] theorem Core.wrS_rqtag (c : Core) (n : Nat) (v : BitVec 64) : (c.wrS n v).rqtag = c.rqtag := by unfold Core.wrS Core.wrIdx; split <;> rfl
@[simp] theorem Core.wrS_part (c : Core) (n : Nat) (v : BitVec 64) : (c.wrS n v).part = c.part := by unfold Core.wrS Core.wrIdx; split <;> rfl
@[simp] theorem Core.wrS_cycle (c : Core) (n : Nat) (v : BitVec 64) : (c.wrS n v).cycle = c.cycle := by unfold Core.wrS Core.wrIdx; split <;> rfl
@[simp] theorem Core.wrS_retired (c : Core) (n : Nat) (v : BitVec 64) : (c.wrS n v).retired = c.retired := by unfold Core.wrS Core.wrIdx; split <;> rfl
@[simp] theorem Core.wrS_tstate (c : Core) (n : Nat) (v : BitVec 64) : (c.wrS n v).tstate = c.tstate := by unfold Core.wrS Core.wrIdx; split <;> rfl
@[simp] theorem Core.wrS_held (c : Core) (n : Nat) (v : BitVec 64) : (c.wrS n v).held = c.held := by unfold Core.wrS Core.wrIdx; split <;> rfl
@[simp] theorem Core.wrS_rg (c : Core) (n : Nat) (v : BitVec 64) : (c.wrS n v).rg = c.rg := by unfold Core.wrS Core.wrIdx; split <;> rfl
@[simp] theorem Core.wrS_textva (c : Core) (n : Nat) (v : BitVec 64) : (c.wrS n v).textva = c.textva := by unfold Core.wrS Core.wrIdx; split <;> rfl
@[simp] theorem Core.wrS_imgid (c : Core) (n : Nat) (v : BitVec 64) : (c.wrS n v).imgid = c.imgid := by unfold Core.wrS Core.wrIdx; split <;> rfl
@[simp] theorem Core.wrS_plan (c : Core) (n : Nat) (v : BitVec 64) : (c.wrS n v).plan = c.plan := by unfold Core.wrS Core.wrIdx; split <;> rfl
@[simp] theorem Core.wrS_s1root (c : Core) (n : Nat) (v : BitVec 64) : (c.wrS n v).s1root = c.s1root := by unfold Core.wrS Core.wrIdx; split <;> rfl
@[simp] theorem Core.wrS_sptva (c : Core) (n : Nat) (v : BitVec 64) : (c.wrS n v).sptva = c.sptva := by unfold Core.wrS Core.wrIdx; split <;> rfl
@[simp] theorem Core.wrS_parked (c : Core) (n : Nat) (v : BitVec 64) : (c.wrS n v).parked = c.parked := by unfold Core.wrS Core.wrIdx; split <;> rfl
@[simp] theorem Core.wrS_pins (c : Core) (n : Nat) (v : BitVec 64) : (c.wrS n v).pins = c.pins := by unfold Core.wrS Core.wrIdx; split <;> rfl
@[simp] theorem Core.wrS_curve (c : Core) (n : Nat) (v : BitVec 64) : (c.wrS n v).curve = c.curve := by unfold Core.wrS Core.wrIdx; split <;> rfl
@[simp] theorem Core.wrS_bmap (c : Core) (n : Nat) (v : BitVec 64) : (c.wrS n v).bmap = c.bmap := by unfold Core.wrS Core.wrIdx; split <;> rfl
@[simp] theorem Core.wrS_cnt (c : Core) (n : Nat) (v : BitVec 64) : (c.wrS n v).cnt = c.cnt := by unfold Core.wrS Core.wrIdx; split <;> rfl
@[simp] theorem Core.wrS_timer (c : Core) (n : Nat) (v : BitVec 64) : (c.wrS n v).timer = c.timer := by unfold Core.wrS Core.wrIdx; split <;> rfl
@[simp] theorem Core.wrS_timerAt (c : Core) (n : Nat) (v : BitVec 64) : (c.wrS n v).timerAt = c.timerAt := by unfold Core.wrS Core.wrIdx; split <;> rfl
@[simp] theorem Core.wrS_waitOn (c : Core) (n : Nat) (v : BitVec 64) : (c.wrS n v).waitOn = c.waitOn := by unfold Core.wrS Core.wrIdx; split <;> rfl
@[simp] theorem Core.wrS_waitBroken (c : Core) (n : Nat) (v : BitVec 64) : (c.wrS n v).waitBroken = c.waitBroken := by unfold Core.wrS Core.wrIdx; split <;> rfl
@[simp] theorem Core.wrS_waitDone (c : Core) (n : Nat) (v : BitVec 64) : (c.wrS n v).waitDone = c.waitDone := by unfold Core.wrS Core.wrIdx; split <;> rfl
@[simp] theorem Core.wrS_waitBar (c : Core) (n : Nat) (v : BitVec 64) : (c.wrS n v).waitBar = c.waitBar := by unfold Core.wrS Core.wrIdx; split <;> rfl
@[simp] theorem Core.wrS_barMet (c : Core) (n : Nat) (v : BitVec 64) : (c.wrS n v).barMet = c.barMet := by unfold Core.wrS Core.wrIdx; split <;> rfl
@[simp] theorem Core.wrS_since (c : Core) (n : Nat) (v : BitVec 64) : (c.wrS n v).since = c.since := by unfold Core.wrS Core.wrIdx; split <;> rfl
@[simp] theorem Core.wrS_paged (c : Core) (n : Nat) (v : BitVec 64) : (c.wrS n v).paged = c.paged := by unfold Core.wrS Core.wrIdx; split <;> rfl
@[simp] theorem Core.wrS_pw (c : Core) (n : Nat) (v : BitVec 64) : (c.wrS n v).pw = c.pw := by unfold Core.wrS Core.wrIdx; split <;> rfl
@[simp] theorem Core.wrS_qstall (c : Core) (n : Nat) (v : BitVec 64) : (c.wrS n v).qstall = c.qstall := by unfold Core.wrS Core.wrIdx; split <;> rfl
@[simp] theorem Core.wrS_sig (c : Core) (n : Nat) (v : BitVec 64) : (c.wrS n v).sig = c.sig := by unfold Core.wrS Core.wrIdx; split <;> rfl
@[simp] theorem Core.wrS_sigq (c : Core) (n : Nat) (v : BitVec 64) : (c.wrS n v).sigq = c.sigq := by unfold Core.wrS Core.wrIdx; split <;> rfl

@[simp] theorem Core.wrP_num (c : Core) (n : Nat) (v : Bool) : (c.wrP n v).num = c.num := by unfold Core.wrP; split <;> rfl
@[simp] theorem Core.wrP_run (c : Core) (n : Nat) (v : Bool) : (c.wrP n v).run = c.run := by unfold Core.wrP; split <;> rfl
@[simp] theorem Core.wrP_fresh (c : Core) (n : Nat) (v : Bool) : (c.wrP n v).fresh = c.fresh := by unfold Core.wrP; split <;> rfl
@[simp] theorem Core.wrP_pc (c : Core) (n : Nat) (v : Bool) : (c.wrP n v).pc = c.pc := by unfold Core.wrP; split <;> rfl
@[simp] theorem Core.wrP_made (c : Core) (n : Nat) (v : Bool) : (c.wrP n v).made = c.made := by unfold Core.wrP; split <;> rfl
@[simp] theorem Core.wrP_owed (c : Core) (n : Nat) (v : Bool) : (c.wrP n v).owed = c.owed := by unfold Core.wrP; split <;> rfl
@[simp] theorem Core.wrP_cur (c : Core) (n : Nat) (v : Bool) : (c.wrP n v).cur = c.cur := by unfold Core.wrP; split <;> rfl
@[simp] theorem Core.wrP_jump (c : Core) (n : Nat) (v : Bool) : (c.wrP n v).jump = c.jump := by unfold Core.wrP; split <;> rfl
@[simp] theorem Core.wrP_after (c : Core) (n : Nat) (v : Bool) : (c.wrP n v).after = c.after := by unfold Core.wrP; split <;> rfl
@[simp] theorem Core.wrP_xfer (c : Core) (n : Nat) (v : Bool) : (c.wrP n v).xfer = c.xfer := by unfold Core.wrP; split <;> rfl
@[simp] theorem Core.wrP_loop (c : Core) (n : Nat) (v : Bool) : (c.wrP n v).loop = c.loop := by unfold Core.wrP; split <;> rfl
@[simp] theorem Core.wrP_latch0 (c : Core) (n : Nat) (v : Bool) : (c.wrP n v).latch0 = c.latch0 := by unfold Core.wrP; split <;> rfl
@[simp] theorem Core.wrP_latch1 (c : Core) (n : Nat) (v : Bool) : (c.wrP n v).latch1 = c.latch1 := by unfold Core.wrP; split <;> rfl
@[simp] theorem Core.wrP_s (c : Core) (n : Nat) (v : Bool) : (c.wrP n v).s = c.s := by unfold Core.wrP; split <;> rfl
@[simp] theorem Core.wrP_br (c : Core) (n : Nat) (v : Bool) : (c.wrP n v).br = c.br := by unfold Core.wrP; split <;> rfl
@[simp] theorem Core.wrP_a (c : Core) (n : Nat) (v : Bool) : (c.wrP n v).a = c.a := by unfold Core.wrP; split <;> rfl
@[simp] theorem Core.wrP_step (c : Core) (n : Nat) (v : Bool) : (c.wrP n v).step = c.step := by unfold Core.wrP; split <;> rfl
@[simp] theorem Core.wrP_lc (c : Core) (n : Nat) (v : Bool) : (c.wrP n v).lc = c.lc := by unfold Core.wrP; split <;> rfl
@[simp] theorem Core.wrP_muldiv (c : Core) (n : Nat) (v : Bool) : (c.wrP n v).muldiv = c.muldiv := by unfold Core.wrP; split <;> rfl
@[simp] theorem Core.wrP_pend (c : Core) (n : Nat) (v : Bool) : (c.wrP n v).pend = c.pend := by unfold Core.wrP; split <;> rfl
@[simp] theorem Core.wrP_va (c : Core) (n : Nat) (v : Bool) : (c.wrP n v).va = c.va := by unfold Core.wrP; split <;> rfl
@[simp] theorem Core.wrP_vb (c : Core) (n : Nat) (v : Bool) : (c.wrP n v).vb = c.vb := by unfold Core.wrP; split <;> rfl
@[simp] theorem Core.wrP_bad (c : Core) (n : Nat) (v : Bool) : (c.wrP n v).bad = c.bad := by unfold Core.wrP; split <;> rfl
@[simp] theorem Core.wrP_vwa (c : Core) (n : Nat) (v : Bool) : (c.wrP n v).vwa = c.vwa := by unfold Core.wrP; split <;> rfl
@[simp] theorem Core.wrP_vwb (c : Core) (n : Nat) (v : Bool) : (c.wrP n v).vwb = c.vwb := by unfold Core.wrP; split <;> rfl
@[simp] theorem Core.wrP_q (c : Core) (n : Nat) (v : Bool) : (c.wrP n v).q = c.q := by unfold Core.wrP; split <;> rfl
@[simp] theorem Core.wrP_vrm (c : Core) (n : Nat) (v : Bool) : (c.wrP n v).vrm = c.vrm := by unfold Core.wrP; split <;> rfl
@[simp] theorem Core.wrP_vfly (c : Core) (n : Nat) (v : Bool) : (c.wrP n v).vfly = c.vfly := by unfold Core.wrP; split <;> rfl
@[simp] theorem Core.wrP_seed (c : Core) (n : Nat) (v : Bool) : (c.wrP n v).seed = c.seed := by unfold Core.wrP; split <;> rfl
@[simp] theorem Core.wrP_srcnt (c : Core) (n : Nat) (v : Bool) : (c.wrP n v).srcnt = c.srcnt := by unfold Core.wrP; split <;> rfl
@[simp] theorem Core.wrP_d (c : Core) (n : Nat) (v : Bool) : (c.wrP n v).d = c.d := by unfold Core.wrP; split <;> rfl
@[simp] theorem Core.wrP_lvl (c : Core) (n : Nat) (v : Bool) : (c.wrP n v).lvl = c.lvl := by unfold Core.wrP; split <;> rfl
@[simp] theorem Core.wrP_clk (c : Core) (n : Nat) (v : Bool) : (c.wrP n v).clk = c.clk := by unfold Core.wrP; split <;> rfl
@[simp] theorem Core.wrP_cause (c : Core) (n : Nat) (v : Bool) : (c.wrP n v).cause = c.cause := by unfold Core.wrP; split <;> rfl
@[simp] theorem Core.wrP_tval (c : Core) (n : Nat) (v : Bool) : (c.wrP n v).tval = c.tval := by unfold Core.wrP; split <;> rfl
@[simp] theorem Core.wrP_tstage (c : Core) (n : Nat) (v : Bool) : (c.wrP n v).tstage = c.tstage := by unfold Core.wrP; split <;> rfl
@[simp] theorem Core.wrP_tpc (c : Core) (n : Nat) (v : Bool) : (c.wrP n v).tpc = c.tpc := by unfold Core.wrP; split <;> rfl
@[simp] theorem Core.wrP_thb (c : Core) (n : Nat) (v : Bool) : (c.wrP n v).thb = c.thb := by unfold Core.wrP; split <;> rfl
@[simp] theorem Core.wrP_qmode (c : Core) (n : Nat) (v : Bool) : (c.wrP n v).qmode = c.qmode := by unfold Core.wrP; split <;> rfl
@[simp] theorem Core.wrP_rbound (c : Core) (n : Nat) (v : Bool) : (c.wrP n v).rbound = c.rbound := by unfold Core.wrP; split <;> rfl
@[simp] theorem Core.wrP_chaselim (c : Core) (n : Nat) (v : Bool) : (c.wrP n v).chaselim = c.chaselim := by unfold Core.wrP; split <;> rfl
@[simp] theorem Core.wrP_group (c : Core) (n : Nat) (v : Bool) : (c.wrP n v).group = c.group := by unfold Core.wrP; split <;> rfl
@[simp] theorem Core.wrP_gang (c : Core) (n : Nat) (v : Bool) : (c.wrP n v).gang = c.gang := by unfold Core.wrP; split <;> rfl
@[simp] theorem Core.wrP_node (c : Core) (n : Nat) (v : Bool) : (c.wrP n v).node = c.node := by unfold Core.wrP; split <;> rfl
@[simp] theorem Core.wrP_args (c : Core) (n : Nat) (v : Bool) : (c.wrP n v).args = c.args := by unfold Core.wrP; split <;> rfl
@[simp] theorem Core.wrP_rqtag (c : Core) (n : Nat) (v : Bool) : (c.wrP n v).rqtag = c.rqtag := by unfold Core.wrP; split <;> rfl
@[simp] theorem Core.wrP_part (c : Core) (n : Nat) (v : Bool) : (c.wrP n v).part = c.part := by unfold Core.wrP; split <;> rfl
@[simp] theorem Core.wrP_cycle (c : Core) (n : Nat) (v : Bool) : (c.wrP n v).cycle = c.cycle := by unfold Core.wrP; split <;> rfl
@[simp] theorem Core.wrP_retired (c : Core) (n : Nat) (v : Bool) : (c.wrP n v).retired = c.retired := by unfold Core.wrP; split <;> rfl
@[simp] theorem Core.wrP_tstate (c : Core) (n : Nat) (v : Bool) : (c.wrP n v).tstate = c.tstate := by unfold Core.wrP; split <;> rfl
@[simp] theorem Core.wrP_held (c : Core) (n : Nat) (v : Bool) : (c.wrP n v).held = c.held := by unfold Core.wrP; split <;> rfl
@[simp] theorem Core.wrP_rg (c : Core) (n : Nat) (v : Bool) : (c.wrP n v).rg = c.rg := by unfold Core.wrP; split <;> rfl
@[simp] theorem Core.wrP_textva (c : Core) (n : Nat) (v : Bool) : (c.wrP n v).textva = c.textva := by unfold Core.wrP; split <;> rfl
@[simp] theorem Core.wrP_imgid (c : Core) (n : Nat) (v : Bool) : (c.wrP n v).imgid = c.imgid := by unfold Core.wrP; split <;> rfl
@[simp] theorem Core.wrP_plan (c : Core) (n : Nat) (v : Bool) : (c.wrP n v).plan = c.plan := by unfold Core.wrP; split <;> rfl
@[simp] theorem Core.wrP_s1root (c : Core) (n : Nat) (v : Bool) : (c.wrP n v).s1root = c.s1root := by unfold Core.wrP; split <;> rfl
@[simp] theorem Core.wrP_sptva (c : Core) (n : Nat) (v : Bool) : (c.wrP n v).sptva = c.sptva := by unfold Core.wrP; split <;> rfl
@[simp] theorem Core.wrP_parked (c : Core) (n : Nat) (v : Bool) : (c.wrP n v).parked = c.parked := by unfold Core.wrP; split <;> rfl
@[simp] theorem Core.wrP_defrec (c : Core) (n : Nat) (v : Bool) : (c.wrP n v).defrec = c.defrec := by unfold Core.wrP; split <;> rfl
@[simp] theorem Core.wrP_pins (c : Core) (n : Nat) (v : Bool) : (c.wrP n v).pins = c.pins := by unfold Core.wrP; split <;> rfl
@[simp] theorem Core.wrP_curve (c : Core) (n : Nat) (v : Bool) : (c.wrP n v).curve = c.curve := by unfold Core.wrP; split <;> rfl
@[simp] theorem Core.wrP_bmap (c : Core) (n : Nat) (v : Bool) : (c.wrP n v).bmap = c.bmap := by unfold Core.wrP; split <;> rfl
@[simp] theorem Core.wrP_cnt (c : Core) (n : Nat) (v : Bool) : (c.wrP n v).cnt = c.cnt := by unfold Core.wrP; split <;> rfl
@[simp] theorem Core.wrP_timer (c : Core) (n : Nat) (v : Bool) : (c.wrP n v).timer = c.timer := by unfold Core.wrP; split <;> rfl
@[simp] theorem Core.wrP_timerAt (c : Core) (n : Nat) (v : Bool) : (c.wrP n v).timerAt = c.timerAt := by unfold Core.wrP; split <;> rfl
@[simp] theorem Core.wrP_waitOn (c : Core) (n : Nat) (v : Bool) : (c.wrP n v).waitOn = c.waitOn := by unfold Core.wrP; split <;> rfl
@[simp] theorem Core.wrP_waitBroken (c : Core) (n : Nat) (v : Bool) : (c.wrP n v).waitBroken = c.waitBroken := by unfold Core.wrP; split <;> rfl
@[simp] theorem Core.wrP_waitDone (c : Core) (n : Nat) (v : Bool) : (c.wrP n v).waitDone = c.waitDone := by unfold Core.wrP; split <;> rfl
@[simp] theorem Core.wrP_waitBar (c : Core) (n : Nat) (v : Bool) : (c.wrP n v).waitBar = c.waitBar := by unfold Core.wrP; split <;> rfl
@[simp] theorem Core.wrP_barMet (c : Core) (n : Nat) (v : Bool) : (c.wrP n v).barMet = c.barMet := by unfold Core.wrP; split <;> rfl
@[simp] theorem Core.wrP_since (c : Core) (n : Nat) (v : Bool) : (c.wrP n v).since = c.since := by unfold Core.wrP; split <;> rfl
@[simp] theorem Core.wrP_paged (c : Core) (n : Nat) (v : Bool) : (c.wrP n v).paged = c.paged := by unfold Core.wrP; split <;> rfl
@[simp] theorem Core.wrP_pw (c : Core) (n : Nat) (v : Bool) : (c.wrP n v).pw = c.pw := by unfold Core.wrP; split <;> rfl
@[simp] theorem Core.wrP_qstall (c : Core) (n : Nat) (v : Bool) : (c.wrP n v).qstall = c.qstall := by unfold Core.wrP; split <;> rfl
@[simp] theorem Core.wrP_sig (c : Core) (n : Nat) (v : Bool) : (c.wrP n v).sig = c.sig := by unfold Core.wrP; split <;> rfl
@[simp] theorem Core.wrP_sigq (c : Core) (n : Nat) (v : Bool) : (c.wrP n v).sigq = c.sigq := by unfold Core.wrP; split <;> rfl

@[simp] theorem Core.wrA_num (c : Core) (n : Nat) (v : BitVec 32) : (c.wrA n v).num = c.num := rfl
@[simp] theorem Core.wrA_run (c : Core) (n : Nat) (v : BitVec 32) : (c.wrA n v).run = c.run := rfl
@[simp] theorem Core.wrA_fresh (c : Core) (n : Nat) (v : BitVec 32) : (c.wrA n v).fresh = c.fresh := rfl
@[simp] theorem Core.wrA_pc (c : Core) (n : Nat) (v : BitVec 32) : (c.wrA n v).pc = c.pc := rfl
@[simp] theorem Core.wrA_made (c : Core) (n : Nat) (v : BitVec 32) : (c.wrA n v).made = c.made := rfl
@[simp] theorem Core.wrA_owed (c : Core) (n : Nat) (v : BitVec 32) : (c.wrA n v).owed = c.owed := rfl
@[simp] theorem Core.wrA_cur (c : Core) (n : Nat) (v : BitVec 32) : (c.wrA n v).cur = c.cur := rfl
@[simp] theorem Core.wrA_jump (c : Core) (n : Nat) (v : BitVec 32) : (c.wrA n v).jump = c.jump := rfl
@[simp] theorem Core.wrA_after (c : Core) (n : Nat) (v : BitVec 32) : (c.wrA n v).after = c.after := rfl
@[simp] theorem Core.wrA_xfer (c : Core) (n : Nat) (v : BitVec 32) : (c.wrA n v).xfer = c.xfer := rfl
@[simp] theorem Core.wrA_loop (c : Core) (n : Nat) (v : BitVec 32) : (c.wrA n v).loop = c.loop := rfl
@[simp] theorem Core.wrA_latch0 (c : Core) (n : Nat) (v : BitVec 32) : (c.wrA n v).latch0 = c.latch0 := rfl
@[simp] theorem Core.wrA_latch1 (c : Core) (n : Nat) (v : BitVec 32) : (c.wrA n v).latch1 = c.latch1 := rfl
@[simp] theorem Core.wrA_s (c : Core) (n : Nat) (v : BitVec 32) : (c.wrA n v).s = c.s := rfl
@[simp] theorem Core.wrA_pr (c : Core) (n : Nat) (v : BitVec 32) : (c.wrA n v).pr = c.pr := rfl
@[simp] theorem Core.wrA_br (c : Core) (n : Nat) (v : BitVec 32) : (c.wrA n v).br = c.br := rfl
@[simp] theorem Core.wrA_step (c : Core) (n : Nat) (v : BitVec 32) : (c.wrA n v).step = c.step := rfl
@[simp] theorem Core.wrA_lc (c : Core) (n : Nat) (v : BitVec 32) : (c.wrA n v).lc = c.lc := rfl
@[simp] theorem Core.wrA_muldiv (c : Core) (n : Nat) (v : BitVec 32) : (c.wrA n v).muldiv = c.muldiv := rfl
@[simp] theorem Core.wrA_pend (c : Core) (n : Nat) (v : BitVec 32) : (c.wrA n v).pend = c.pend := rfl
@[simp] theorem Core.wrA_va (c : Core) (n : Nat) (v : BitVec 32) : (c.wrA n v).va = c.va := rfl
@[simp] theorem Core.wrA_vb (c : Core) (n : Nat) (v : BitVec 32) : (c.wrA n v).vb = c.vb := rfl
@[simp] theorem Core.wrA_bad (c : Core) (n : Nat) (v : BitVec 32) : (c.wrA n v).bad = c.bad := rfl
@[simp] theorem Core.wrA_vwa (c : Core) (n : Nat) (v : BitVec 32) : (c.wrA n v).vwa = c.vwa := rfl
@[simp] theorem Core.wrA_vwb (c : Core) (n : Nat) (v : BitVec 32) : (c.wrA n v).vwb = c.vwb := rfl
@[simp] theorem Core.wrA_q (c : Core) (n : Nat) (v : BitVec 32) : (c.wrA n v).q = c.q := rfl
@[simp] theorem Core.wrA_vrm (c : Core) (n : Nat) (v : BitVec 32) : (c.wrA n v).vrm = c.vrm := rfl
@[simp] theorem Core.wrA_vfly (c : Core) (n : Nat) (v : BitVec 32) : (c.wrA n v).vfly = c.vfly := rfl
@[simp] theorem Core.wrA_seed (c : Core) (n : Nat) (v : BitVec 32) : (c.wrA n v).seed = c.seed := rfl
@[simp] theorem Core.wrA_srcnt (c : Core) (n : Nat) (v : BitVec 32) : (c.wrA n v).srcnt = c.srcnt := rfl
@[simp] theorem Core.wrA_d (c : Core) (n : Nat) (v : BitVec 32) : (c.wrA n v).d = c.d := rfl
@[simp] theorem Core.wrA_lvl (c : Core) (n : Nat) (v : BitVec 32) : (c.wrA n v).lvl = c.lvl := rfl
@[simp] theorem Core.wrA_clk (c : Core) (n : Nat) (v : BitVec 32) : (c.wrA n v).clk = c.clk := rfl
@[simp] theorem Core.wrA_cause (c : Core) (n : Nat) (v : BitVec 32) : (c.wrA n v).cause = c.cause := rfl
@[simp] theorem Core.wrA_tval (c : Core) (n : Nat) (v : BitVec 32) : (c.wrA n v).tval = c.tval := rfl
@[simp] theorem Core.wrA_tstage (c : Core) (n : Nat) (v : BitVec 32) : (c.wrA n v).tstage = c.tstage := rfl
@[simp] theorem Core.wrA_tpc (c : Core) (n : Nat) (v : BitVec 32) : (c.wrA n v).tpc = c.tpc := rfl
@[simp] theorem Core.wrA_thb (c : Core) (n : Nat) (v : BitVec 32) : (c.wrA n v).thb = c.thb := rfl
@[simp] theorem Core.wrA_qmode (c : Core) (n : Nat) (v : BitVec 32) : (c.wrA n v).qmode = c.qmode := rfl
@[simp] theorem Core.wrA_rbound (c : Core) (n : Nat) (v : BitVec 32) : (c.wrA n v).rbound = c.rbound := rfl
@[simp] theorem Core.wrA_chaselim (c : Core) (n : Nat) (v : BitVec 32) : (c.wrA n v).chaselim = c.chaselim := rfl
@[simp] theorem Core.wrA_group (c : Core) (n : Nat) (v : BitVec 32) : (c.wrA n v).group = c.group := rfl
@[simp] theorem Core.wrA_gang (c : Core) (n : Nat) (v : BitVec 32) : (c.wrA n v).gang = c.gang := rfl
@[simp] theorem Core.wrA_node (c : Core) (n : Nat) (v : BitVec 32) : (c.wrA n v).node = c.node := rfl
@[simp] theorem Core.wrA_args (c : Core) (n : Nat) (v : BitVec 32) : (c.wrA n v).args = c.args := rfl
@[simp] theorem Core.wrA_rqtag (c : Core) (n : Nat) (v : BitVec 32) : (c.wrA n v).rqtag = c.rqtag := rfl
@[simp] theorem Core.wrA_part (c : Core) (n : Nat) (v : BitVec 32) : (c.wrA n v).part = c.part := rfl
@[simp] theorem Core.wrA_cycle (c : Core) (n : Nat) (v : BitVec 32) : (c.wrA n v).cycle = c.cycle := rfl
@[simp] theorem Core.wrA_retired (c : Core) (n : Nat) (v : BitVec 32) : (c.wrA n v).retired = c.retired := rfl
@[simp] theorem Core.wrA_tstate (c : Core) (n : Nat) (v : BitVec 32) : (c.wrA n v).tstate = c.tstate := rfl
@[simp] theorem Core.wrA_held (c : Core) (n : Nat) (v : BitVec 32) : (c.wrA n v).held = c.held := rfl
@[simp] theorem Core.wrA_rg (c : Core) (n : Nat) (v : BitVec 32) : (c.wrA n v).rg = c.rg := rfl
@[simp] theorem Core.wrA_textva (c : Core) (n : Nat) (v : BitVec 32) : (c.wrA n v).textva = c.textva := rfl
@[simp] theorem Core.wrA_imgid (c : Core) (n : Nat) (v : BitVec 32) : (c.wrA n v).imgid = c.imgid := rfl
@[simp] theorem Core.wrA_plan (c : Core) (n : Nat) (v : BitVec 32) : (c.wrA n v).plan = c.plan := rfl
@[simp] theorem Core.wrA_s1root (c : Core) (n : Nat) (v : BitVec 32) : (c.wrA n v).s1root = c.s1root := rfl
@[simp] theorem Core.wrA_sptva (c : Core) (n : Nat) (v : BitVec 32) : (c.wrA n v).sptva = c.sptva := rfl
@[simp] theorem Core.wrA_parked (c : Core) (n : Nat) (v : BitVec 32) : (c.wrA n v).parked = c.parked := rfl
@[simp] theorem Core.wrA_defrec (c : Core) (n : Nat) (v : BitVec 32) : (c.wrA n v).defrec = c.defrec := rfl
@[simp] theorem Core.wrA_pins (c : Core) (n : Nat) (v : BitVec 32) : (c.wrA n v).pins = c.pins := rfl
@[simp] theorem Core.wrA_curve (c : Core) (n : Nat) (v : BitVec 32) : (c.wrA n v).curve = c.curve := rfl
@[simp] theorem Core.wrA_bmap (c : Core) (n : Nat) (v : BitVec 32) : (c.wrA n v).bmap = c.bmap := rfl
@[simp] theorem Core.wrA_cnt (c : Core) (n : Nat) (v : BitVec 32) : (c.wrA n v).cnt = c.cnt := rfl
@[simp] theorem Core.wrA_timer (c : Core) (n : Nat) (v : BitVec 32) : (c.wrA n v).timer = c.timer := rfl
@[simp] theorem Core.wrA_timerAt (c : Core) (n : Nat) (v : BitVec 32) : (c.wrA n v).timerAt = c.timerAt := rfl
@[simp] theorem Core.wrA_waitOn (c : Core) (n : Nat) (v : BitVec 32) : (c.wrA n v).waitOn = c.waitOn := rfl
@[simp] theorem Core.wrA_waitBroken (c : Core) (n : Nat) (v : BitVec 32) : (c.wrA n v).waitBroken = c.waitBroken := rfl
@[simp] theorem Core.wrA_waitDone (c : Core) (n : Nat) (v : BitVec 32) : (c.wrA n v).waitDone = c.waitDone := rfl
@[simp] theorem Core.wrA_waitBar (c : Core) (n : Nat) (v : BitVec 32) : (c.wrA n v).waitBar = c.waitBar := rfl
@[simp] theorem Core.wrA_barMet (c : Core) (n : Nat) (v : BitVec 32) : (c.wrA n v).barMet = c.barMet := rfl
@[simp] theorem Core.wrA_since (c : Core) (n : Nat) (v : BitVec 32) : (c.wrA n v).since = c.since := rfl
@[simp] theorem Core.wrA_paged (c : Core) (n : Nat) (v : BitVec 32) : (c.wrA n v).paged = c.paged := rfl
@[simp] theorem Core.wrA_pw (c : Core) (n : Nat) (v : BitVec 32) : (c.wrA n v).pw = c.pw := rfl
@[simp] theorem Core.wrA_qstall (c : Core) (n : Nat) (v : BitVec 32) : (c.wrA n v).qstall = c.qstall := rfl
@[simp] theorem Core.wrA_sig (c : Core) (n : Nat) (v : BitVec 32) : (c.wrA n v).sig = c.sig := rfl
@[simp] theorem Core.wrA_sigq (c : Core) (n : Nat) (v : BitVec 32) : (c.wrA n v).sigq = c.sigq := rfl

@[simp] theorem Core.wrStep_num (c : Core) (n l : Nat) (v : BitVec 32) : (c.wrStep n l v).num = c.num := rfl
@[simp] theorem Core.wrStep_run (c : Core) (n l : Nat) (v : BitVec 32) : (c.wrStep n l v).run = c.run := rfl
@[simp] theorem Core.wrStep_fresh (c : Core) (n l : Nat) (v : BitVec 32) : (c.wrStep n l v).fresh = c.fresh := rfl
@[simp] theorem Core.wrStep_pc (c : Core) (n l : Nat) (v : BitVec 32) : (c.wrStep n l v).pc = c.pc := rfl
@[simp] theorem Core.wrStep_made (c : Core) (n l : Nat) (v : BitVec 32) : (c.wrStep n l v).made = c.made := rfl
@[simp] theorem Core.wrStep_owed (c : Core) (n l : Nat) (v : BitVec 32) : (c.wrStep n l v).owed = c.owed := rfl
@[simp] theorem Core.wrStep_cur (c : Core) (n l : Nat) (v : BitVec 32) : (c.wrStep n l v).cur = c.cur := rfl
@[simp] theorem Core.wrStep_jump (c : Core) (n l : Nat) (v : BitVec 32) : (c.wrStep n l v).jump = c.jump := rfl
@[simp] theorem Core.wrStep_after (c : Core) (n l : Nat) (v : BitVec 32) : (c.wrStep n l v).after = c.after := rfl
@[simp] theorem Core.wrStep_xfer (c : Core) (n l : Nat) (v : BitVec 32) : (c.wrStep n l v).xfer = c.xfer := rfl
@[simp] theorem Core.wrStep_loop (c : Core) (n l : Nat) (v : BitVec 32) : (c.wrStep n l v).loop = c.loop := rfl
@[simp] theorem Core.wrStep_latch0 (c : Core) (n l : Nat) (v : BitVec 32) : (c.wrStep n l v).latch0 = c.latch0 := rfl
@[simp] theorem Core.wrStep_latch1 (c : Core) (n l : Nat) (v : BitVec 32) : (c.wrStep n l v).latch1 = c.latch1 := rfl
@[simp] theorem Core.wrStep_s (c : Core) (n l : Nat) (v : BitVec 32) : (c.wrStep n l v).s = c.s := rfl
@[simp] theorem Core.wrStep_pr (c : Core) (n l : Nat) (v : BitVec 32) : (c.wrStep n l v).pr = c.pr := rfl
@[simp] theorem Core.wrStep_br (c : Core) (n l : Nat) (v : BitVec 32) : (c.wrStep n l v).br = c.br := rfl
@[simp] theorem Core.wrStep_a (c : Core) (n l : Nat) (v : BitVec 32) : (c.wrStep n l v).a = c.a := rfl
@[simp] theorem Core.wrStep_lc (c : Core) (n l : Nat) (v : BitVec 32) : (c.wrStep n l v).lc = c.lc := rfl
@[simp] theorem Core.wrStep_muldiv (c : Core) (n l : Nat) (v : BitVec 32) : (c.wrStep n l v).muldiv = c.muldiv := rfl
@[simp] theorem Core.wrStep_pend (c : Core) (n l : Nat) (v : BitVec 32) : (c.wrStep n l v).pend = c.pend := rfl
@[simp] theorem Core.wrStep_va (c : Core) (n l : Nat) (v : BitVec 32) : (c.wrStep n l v).va = c.va := rfl
@[simp] theorem Core.wrStep_vb (c : Core) (n l : Nat) (v : BitVec 32) : (c.wrStep n l v).vb = c.vb := rfl
@[simp] theorem Core.wrStep_bad (c : Core) (n l : Nat) (v : BitVec 32) : (c.wrStep n l v).bad = c.bad := rfl
@[simp] theorem Core.wrStep_vwa (c : Core) (n l : Nat) (v : BitVec 32) : (c.wrStep n l v).vwa = c.vwa := rfl
@[simp] theorem Core.wrStep_vwb (c : Core) (n l : Nat) (v : BitVec 32) : (c.wrStep n l v).vwb = c.vwb := rfl
@[simp] theorem Core.wrStep_q (c : Core) (n l : Nat) (v : BitVec 32) : (c.wrStep n l v).q = c.q := rfl
@[simp] theorem Core.wrStep_vrm (c : Core) (n l : Nat) (v : BitVec 32) : (c.wrStep n l v).vrm = c.vrm := rfl
@[simp] theorem Core.wrStep_vfly (c : Core) (n l : Nat) (v : BitVec 32) : (c.wrStep n l v).vfly = c.vfly := rfl
@[simp] theorem Core.wrStep_seed (c : Core) (n l : Nat) (v : BitVec 32) : (c.wrStep n l v).seed = c.seed := rfl
@[simp] theorem Core.wrStep_srcnt (c : Core) (n l : Nat) (v : BitVec 32) : (c.wrStep n l v).srcnt = c.srcnt := rfl
@[simp] theorem Core.wrStep_d (c : Core) (n l : Nat) (v : BitVec 32) : (c.wrStep n l v).d = c.d := rfl
@[simp] theorem Core.wrStep_lvl (c : Core) (n l : Nat) (v : BitVec 32) : (c.wrStep n l v).lvl = c.lvl := rfl
@[simp] theorem Core.wrStep_clk (c : Core) (n l : Nat) (v : BitVec 32) : (c.wrStep n l v).clk = c.clk := rfl
@[simp] theorem Core.wrStep_cause (c : Core) (n l : Nat) (v : BitVec 32) : (c.wrStep n l v).cause = c.cause := rfl
@[simp] theorem Core.wrStep_tval (c : Core) (n l : Nat) (v : BitVec 32) : (c.wrStep n l v).tval = c.tval := rfl
@[simp] theorem Core.wrStep_tstage (c : Core) (n l : Nat) (v : BitVec 32) : (c.wrStep n l v).tstage = c.tstage := rfl
@[simp] theorem Core.wrStep_tpc (c : Core) (n l : Nat) (v : BitVec 32) : (c.wrStep n l v).tpc = c.tpc := rfl
@[simp] theorem Core.wrStep_thb (c : Core) (n l : Nat) (v : BitVec 32) : (c.wrStep n l v).thb = c.thb := rfl
@[simp] theorem Core.wrStep_qmode (c : Core) (n l : Nat) (v : BitVec 32) : (c.wrStep n l v).qmode = c.qmode := rfl
@[simp] theorem Core.wrStep_rbound (c : Core) (n l : Nat) (v : BitVec 32) : (c.wrStep n l v).rbound = c.rbound := rfl
@[simp] theorem Core.wrStep_chaselim (c : Core) (n l : Nat) (v : BitVec 32) : (c.wrStep n l v).chaselim = c.chaselim := rfl
@[simp] theorem Core.wrStep_group (c : Core) (n l : Nat) (v : BitVec 32) : (c.wrStep n l v).group = c.group := rfl
@[simp] theorem Core.wrStep_gang (c : Core) (n l : Nat) (v : BitVec 32) : (c.wrStep n l v).gang = c.gang := rfl
@[simp] theorem Core.wrStep_node (c : Core) (n l : Nat) (v : BitVec 32) : (c.wrStep n l v).node = c.node := rfl
@[simp] theorem Core.wrStep_args (c : Core) (n l : Nat) (v : BitVec 32) : (c.wrStep n l v).args = c.args := rfl
@[simp] theorem Core.wrStep_rqtag (c : Core) (n l : Nat) (v : BitVec 32) : (c.wrStep n l v).rqtag = c.rqtag := rfl
@[simp] theorem Core.wrStep_part (c : Core) (n l : Nat) (v : BitVec 32) : (c.wrStep n l v).part = c.part := rfl
@[simp] theorem Core.wrStep_cycle (c : Core) (n l : Nat) (v : BitVec 32) : (c.wrStep n l v).cycle = c.cycle := rfl
@[simp] theorem Core.wrStep_retired (c : Core) (n l : Nat) (v : BitVec 32) : (c.wrStep n l v).retired = c.retired := rfl
@[simp] theorem Core.wrStep_tstate (c : Core) (n l : Nat) (v : BitVec 32) : (c.wrStep n l v).tstate = c.tstate := rfl
@[simp] theorem Core.wrStep_held (c : Core) (n l : Nat) (v : BitVec 32) : (c.wrStep n l v).held = c.held := rfl
@[simp] theorem Core.wrStep_rg (c : Core) (n l : Nat) (v : BitVec 32) : (c.wrStep n l v).rg = c.rg := rfl
@[simp] theorem Core.wrStep_textva (c : Core) (n l : Nat) (v : BitVec 32) : (c.wrStep n l v).textva = c.textva := rfl
@[simp] theorem Core.wrStep_imgid (c : Core) (n l : Nat) (v : BitVec 32) : (c.wrStep n l v).imgid = c.imgid := rfl
@[simp] theorem Core.wrStep_plan (c : Core) (n l : Nat) (v : BitVec 32) : (c.wrStep n l v).plan = c.plan := rfl
@[simp] theorem Core.wrStep_s1root (c : Core) (n l : Nat) (v : BitVec 32) : (c.wrStep n l v).s1root = c.s1root := rfl
@[simp] theorem Core.wrStep_sptva (c : Core) (n l : Nat) (v : BitVec 32) : (c.wrStep n l v).sptva = c.sptva := rfl
@[simp] theorem Core.wrStep_parked (c : Core) (n l : Nat) (v : BitVec 32) : (c.wrStep n l v).parked = c.parked := rfl
@[simp] theorem Core.wrStep_defrec (c : Core) (n l : Nat) (v : BitVec 32) : (c.wrStep n l v).defrec = c.defrec := rfl
@[simp] theorem Core.wrStep_pins (c : Core) (n l : Nat) (v : BitVec 32) : (c.wrStep n l v).pins = c.pins := rfl
@[simp] theorem Core.wrStep_curve (c : Core) (n l : Nat) (v : BitVec 32) : (c.wrStep n l v).curve = c.curve := rfl
@[simp] theorem Core.wrStep_bmap (c : Core) (n l : Nat) (v : BitVec 32) : (c.wrStep n l v).bmap = c.bmap := rfl
@[simp] theorem Core.wrStep_cnt (c : Core) (n l : Nat) (v : BitVec 32) : (c.wrStep n l v).cnt = c.cnt := rfl
@[simp] theorem Core.wrStep_timer (c : Core) (n l : Nat) (v : BitVec 32) : (c.wrStep n l v).timer = c.timer := rfl
@[simp] theorem Core.wrStep_timerAt (c : Core) (n l : Nat) (v : BitVec 32) : (c.wrStep n l v).timerAt = c.timerAt := rfl
@[simp] theorem Core.wrStep_waitOn (c : Core) (n l : Nat) (v : BitVec 32) : (c.wrStep n l v).waitOn = c.waitOn := rfl
@[simp] theorem Core.wrStep_waitBroken (c : Core) (n l : Nat) (v : BitVec 32) : (c.wrStep n l v).waitBroken = c.waitBroken := rfl
@[simp] theorem Core.wrStep_waitDone (c : Core) (n l : Nat) (v : BitVec 32) : (c.wrStep n l v).waitDone = c.waitDone := rfl
@[simp] theorem Core.wrStep_waitBar (c : Core) (n l : Nat) (v : BitVec 32) : (c.wrStep n l v).waitBar = c.waitBar := rfl
@[simp] theorem Core.wrStep_barMet (c : Core) (n l : Nat) (v : BitVec 32) : (c.wrStep n l v).barMet = c.barMet := rfl
@[simp] theorem Core.wrStep_since (c : Core) (n l : Nat) (v : BitVec 32) : (c.wrStep n l v).since = c.since := rfl
@[simp] theorem Core.wrStep_paged (c : Core) (n l : Nat) (v : BitVec 32) : (c.wrStep n l v).paged = c.paged := rfl
@[simp] theorem Core.wrStep_pw (c : Core) (n l : Nat) (v : BitVec 32) : (c.wrStep n l v).pw = c.pw := rfl
@[simp] theorem Core.wrStep_qstall (c : Core) (n l : Nat) (v : BitVec 32) : (c.wrStep n l v).qstall = c.qstall := rfl
@[simp] theorem Core.wrStep_sig (c : Core) (n l : Nat) (v : BitVec 32) : (c.wrStep n l v).sig = c.sig := rfl
@[simp] theorem Core.wrStep_sigq (c : Core) (n l : Nat) (v : BitVec 32) : (c.wrStep n l v).sigq = c.sigq := rfl

@[simp] theorem Core.wrLc_num (c : Core) (n : Nat) (v : BitVec 32) : (c.wrLc n v).num = c.num := rfl
@[simp] theorem Core.wrLc_run (c : Core) (n : Nat) (v : BitVec 32) : (c.wrLc n v).run = c.run := rfl
@[simp] theorem Core.wrLc_fresh (c : Core) (n : Nat) (v : BitVec 32) : (c.wrLc n v).fresh = c.fresh := rfl
@[simp] theorem Core.wrLc_pc (c : Core) (n : Nat) (v : BitVec 32) : (c.wrLc n v).pc = c.pc := rfl
@[simp] theorem Core.wrLc_made (c : Core) (n : Nat) (v : BitVec 32) : (c.wrLc n v).made = c.made := rfl
@[simp] theorem Core.wrLc_owed (c : Core) (n : Nat) (v : BitVec 32) : (c.wrLc n v).owed = c.owed := rfl
@[simp] theorem Core.wrLc_cur (c : Core) (n : Nat) (v : BitVec 32) : (c.wrLc n v).cur = c.cur := rfl
@[simp] theorem Core.wrLc_jump (c : Core) (n : Nat) (v : BitVec 32) : (c.wrLc n v).jump = c.jump := rfl
@[simp] theorem Core.wrLc_after (c : Core) (n : Nat) (v : BitVec 32) : (c.wrLc n v).after = c.after := rfl
@[simp] theorem Core.wrLc_xfer (c : Core) (n : Nat) (v : BitVec 32) : (c.wrLc n v).xfer = c.xfer := rfl
@[simp] theorem Core.wrLc_loop (c : Core) (n : Nat) (v : BitVec 32) : (c.wrLc n v).loop = c.loop := rfl
@[simp] theorem Core.wrLc_latch0 (c : Core) (n : Nat) (v : BitVec 32) : (c.wrLc n v).latch0 = c.latch0 := rfl
@[simp] theorem Core.wrLc_latch1 (c : Core) (n : Nat) (v : BitVec 32) : (c.wrLc n v).latch1 = c.latch1 := rfl
@[simp] theorem Core.wrLc_s (c : Core) (n : Nat) (v : BitVec 32) : (c.wrLc n v).s = c.s := rfl
@[simp] theorem Core.wrLc_pr (c : Core) (n : Nat) (v : BitVec 32) : (c.wrLc n v).pr = c.pr := rfl
@[simp] theorem Core.wrLc_br (c : Core) (n : Nat) (v : BitVec 32) : (c.wrLc n v).br = c.br := rfl
@[simp] theorem Core.wrLc_a (c : Core) (n : Nat) (v : BitVec 32) : (c.wrLc n v).a = c.a := rfl
@[simp] theorem Core.wrLc_step (c : Core) (n : Nat) (v : BitVec 32) : (c.wrLc n v).step = c.step := rfl
@[simp] theorem Core.wrLc_muldiv (c : Core) (n : Nat) (v : BitVec 32) : (c.wrLc n v).muldiv = c.muldiv := rfl
@[simp] theorem Core.wrLc_pend (c : Core) (n : Nat) (v : BitVec 32) : (c.wrLc n v).pend = c.pend := rfl
@[simp] theorem Core.wrLc_va (c : Core) (n : Nat) (v : BitVec 32) : (c.wrLc n v).va = c.va := rfl
@[simp] theorem Core.wrLc_vb (c : Core) (n : Nat) (v : BitVec 32) : (c.wrLc n v).vb = c.vb := rfl
@[simp] theorem Core.wrLc_bad (c : Core) (n : Nat) (v : BitVec 32) : (c.wrLc n v).bad = c.bad := rfl
@[simp] theorem Core.wrLc_vwa (c : Core) (n : Nat) (v : BitVec 32) : (c.wrLc n v).vwa = c.vwa := rfl
@[simp] theorem Core.wrLc_vwb (c : Core) (n : Nat) (v : BitVec 32) : (c.wrLc n v).vwb = c.vwb := rfl
@[simp] theorem Core.wrLc_q (c : Core) (n : Nat) (v : BitVec 32) : (c.wrLc n v).q = c.q := rfl
@[simp] theorem Core.wrLc_vrm (c : Core) (n : Nat) (v : BitVec 32) : (c.wrLc n v).vrm = c.vrm := rfl
@[simp] theorem Core.wrLc_vfly (c : Core) (n : Nat) (v : BitVec 32) : (c.wrLc n v).vfly = c.vfly := rfl
@[simp] theorem Core.wrLc_seed (c : Core) (n : Nat) (v : BitVec 32) : (c.wrLc n v).seed = c.seed := rfl
@[simp] theorem Core.wrLc_srcnt (c : Core) (n : Nat) (v : BitVec 32) : (c.wrLc n v).srcnt = c.srcnt := rfl
@[simp] theorem Core.wrLc_d (c : Core) (n : Nat) (v : BitVec 32) : (c.wrLc n v).d = c.d := rfl
@[simp] theorem Core.wrLc_lvl (c : Core) (n : Nat) (v : BitVec 32) : (c.wrLc n v).lvl = c.lvl := rfl
@[simp] theorem Core.wrLc_clk (c : Core) (n : Nat) (v : BitVec 32) : (c.wrLc n v).clk = c.clk := rfl
@[simp] theorem Core.wrLc_cause (c : Core) (n : Nat) (v : BitVec 32) : (c.wrLc n v).cause = c.cause := rfl
@[simp] theorem Core.wrLc_tval (c : Core) (n : Nat) (v : BitVec 32) : (c.wrLc n v).tval = c.tval := rfl
@[simp] theorem Core.wrLc_tstage (c : Core) (n : Nat) (v : BitVec 32) : (c.wrLc n v).tstage = c.tstage := rfl
@[simp] theorem Core.wrLc_tpc (c : Core) (n : Nat) (v : BitVec 32) : (c.wrLc n v).tpc = c.tpc := rfl
@[simp] theorem Core.wrLc_thb (c : Core) (n : Nat) (v : BitVec 32) : (c.wrLc n v).thb = c.thb := rfl
@[simp] theorem Core.wrLc_qmode (c : Core) (n : Nat) (v : BitVec 32) : (c.wrLc n v).qmode = c.qmode := rfl
@[simp] theorem Core.wrLc_rbound (c : Core) (n : Nat) (v : BitVec 32) : (c.wrLc n v).rbound = c.rbound := rfl
@[simp] theorem Core.wrLc_chaselim (c : Core) (n : Nat) (v : BitVec 32) : (c.wrLc n v).chaselim = c.chaselim := rfl
@[simp] theorem Core.wrLc_group (c : Core) (n : Nat) (v : BitVec 32) : (c.wrLc n v).group = c.group := rfl
@[simp] theorem Core.wrLc_gang (c : Core) (n : Nat) (v : BitVec 32) : (c.wrLc n v).gang = c.gang := rfl
@[simp] theorem Core.wrLc_node (c : Core) (n : Nat) (v : BitVec 32) : (c.wrLc n v).node = c.node := rfl
@[simp] theorem Core.wrLc_args (c : Core) (n : Nat) (v : BitVec 32) : (c.wrLc n v).args = c.args := rfl
@[simp] theorem Core.wrLc_rqtag (c : Core) (n : Nat) (v : BitVec 32) : (c.wrLc n v).rqtag = c.rqtag := rfl
@[simp] theorem Core.wrLc_part (c : Core) (n : Nat) (v : BitVec 32) : (c.wrLc n v).part = c.part := rfl
@[simp] theorem Core.wrLc_cycle (c : Core) (n : Nat) (v : BitVec 32) : (c.wrLc n v).cycle = c.cycle := rfl
@[simp] theorem Core.wrLc_retired (c : Core) (n : Nat) (v : BitVec 32) : (c.wrLc n v).retired = c.retired := rfl
@[simp] theorem Core.wrLc_tstate (c : Core) (n : Nat) (v : BitVec 32) : (c.wrLc n v).tstate = c.tstate := rfl
@[simp] theorem Core.wrLc_held (c : Core) (n : Nat) (v : BitVec 32) : (c.wrLc n v).held = c.held := rfl
@[simp] theorem Core.wrLc_rg (c : Core) (n : Nat) (v : BitVec 32) : (c.wrLc n v).rg = c.rg := rfl
@[simp] theorem Core.wrLc_textva (c : Core) (n : Nat) (v : BitVec 32) : (c.wrLc n v).textva = c.textva := rfl
@[simp] theorem Core.wrLc_imgid (c : Core) (n : Nat) (v : BitVec 32) : (c.wrLc n v).imgid = c.imgid := rfl
@[simp] theorem Core.wrLc_plan (c : Core) (n : Nat) (v : BitVec 32) : (c.wrLc n v).plan = c.plan := rfl
@[simp] theorem Core.wrLc_s1root (c : Core) (n : Nat) (v : BitVec 32) : (c.wrLc n v).s1root = c.s1root := rfl
@[simp] theorem Core.wrLc_sptva (c : Core) (n : Nat) (v : BitVec 32) : (c.wrLc n v).sptva = c.sptva := rfl
@[simp] theorem Core.wrLc_parked (c : Core) (n : Nat) (v : BitVec 32) : (c.wrLc n v).parked = c.parked := rfl
@[simp] theorem Core.wrLc_defrec (c : Core) (n : Nat) (v : BitVec 32) : (c.wrLc n v).defrec = c.defrec := rfl
@[simp] theorem Core.wrLc_pins (c : Core) (n : Nat) (v : BitVec 32) : (c.wrLc n v).pins = c.pins := rfl
@[simp] theorem Core.wrLc_curve (c : Core) (n : Nat) (v : BitVec 32) : (c.wrLc n v).curve = c.curve := rfl
@[simp] theorem Core.wrLc_bmap (c : Core) (n : Nat) (v : BitVec 32) : (c.wrLc n v).bmap = c.bmap := rfl
@[simp] theorem Core.wrLc_cnt (c : Core) (n : Nat) (v : BitVec 32) : (c.wrLc n v).cnt = c.cnt := rfl
@[simp] theorem Core.wrLc_timer (c : Core) (n : Nat) (v : BitVec 32) : (c.wrLc n v).timer = c.timer := rfl
@[simp] theorem Core.wrLc_timerAt (c : Core) (n : Nat) (v : BitVec 32) : (c.wrLc n v).timerAt = c.timerAt := rfl
@[simp] theorem Core.wrLc_waitOn (c : Core) (n : Nat) (v : BitVec 32) : (c.wrLc n v).waitOn = c.waitOn := rfl
@[simp] theorem Core.wrLc_waitBroken (c : Core) (n : Nat) (v : BitVec 32) : (c.wrLc n v).waitBroken = c.waitBroken := rfl
@[simp] theorem Core.wrLc_waitDone (c : Core) (n : Nat) (v : BitVec 32) : (c.wrLc n v).waitDone = c.waitDone := rfl
@[simp] theorem Core.wrLc_waitBar (c : Core) (n : Nat) (v : BitVec 32) : (c.wrLc n v).waitBar = c.waitBar := rfl
@[simp] theorem Core.wrLc_barMet (c : Core) (n : Nat) (v : BitVec 32) : (c.wrLc n v).barMet = c.barMet := rfl
@[simp] theorem Core.wrLc_since (c : Core) (n : Nat) (v : BitVec 32) : (c.wrLc n v).since = c.since := rfl
@[simp] theorem Core.wrLc_paged (c : Core) (n : Nat) (v : BitVec 32) : (c.wrLc n v).paged = c.paged := rfl
@[simp] theorem Core.wrLc_pw (c : Core) (n : Nat) (v : BitVec 32) : (c.wrLc n v).pw = c.pw := rfl
@[simp] theorem Core.wrLc_qstall (c : Core) (n : Nat) (v : BitVec 32) : (c.wrLc n v).qstall = c.qstall := rfl
@[simp] theorem Core.wrLc_sig (c : Core) (n : Nat) (v : BitVec 32) : (c.wrLc n v).sig = c.sig := rfl
@[simp] theorem Core.wrLc_sigq (c : Core) (n : Nat) (v : BitVec 32) : (c.wrLc n v).sigq = c.sigq := rfl

@[simp] theorem Core.wrB_num (c : Core) (n : Nat) (v : BitVec 32) : (c.wrB n v).num = c.num := rfl
@[simp] theorem Core.wrB_run (c : Core) (n : Nat) (v : BitVec 32) : (c.wrB n v).run = c.run := rfl
@[simp] theorem Core.wrB_fresh (c : Core) (n : Nat) (v : BitVec 32) : (c.wrB n v).fresh = c.fresh := rfl
@[simp] theorem Core.wrB_pc (c : Core) (n : Nat) (v : BitVec 32) : (c.wrB n v).pc = c.pc := rfl
@[simp] theorem Core.wrB_made (c : Core) (n : Nat) (v : BitVec 32) : (c.wrB n v).made = c.made := rfl
@[simp] theorem Core.wrB_owed (c : Core) (n : Nat) (v : BitVec 32) : (c.wrB n v).owed = c.owed := rfl
@[simp] theorem Core.wrB_cur (c : Core) (n : Nat) (v : BitVec 32) : (c.wrB n v).cur = c.cur := rfl
@[simp] theorem Core.wrB_jump (c : Core) (n : Nat) (v : BitVec 32) : (c.wrB n v).jump = c.jump := rfl
@[simp] theorem Core.wrB_after (c : Core) (n : Nat) (v : BitVec 32) : (c.wrB n v).after = c.after := rfl
@[simp] theorem Core.wrB_xfer (c : Core) (n : Nat) (v : BitVec 32) : (c.wrB n v).xfer = c.xfer := rfl
@[simp] theorem Core.wrB_loop (c : Core) (n : Nat) (v : BitVec 32) : (c.wrB n v).loop = c.loop := rfl
@[simp] theorem Core.wrB_latch0 (c : Core) (n : Nat) (v : BitVec 32) : (c.wrB n v).latch0 = c.latch0 := rfl
@[simp] theorem Core.wrB_latch1 (c : Core) (n : Nat) (v : BitVec 32) : (c.wrB n v).latch1 = c.latch1 := rfl
@[simp] theorem Core.wrB_s (c : Core) (n : Nat) (v : BitVec 32) : (c.wrB n v).s = c.s := rfl
@[simp] theorem Core.wrB_pr (c : Core) (n : Nat) (v : BitVec 32) : (c.wrB n v).pr = c.pr := rfl
@[simp] theorem Core.wrB_a (c : Core) (n : Nat) (v : BitVec 32) : (c.wrB n v).a = c.a := rfl
@[simp] theorem Core.wrB_step (c : Core) (n : Nat) (v : BitVec 32) : (c.wrB n v).step = c.step := rfl
@[simp] theorem Core.wrB_lc (c : Core) (n : Nat) (v : BitVec 32) : (c.wrB n v).lc = c.lc := rfl
@[simp] theorem Core.wrB_muldiv (c : Core) (n : Nat) (v : BitVec 32) : (c.wrB n v).muldiv = c.muldiv := rfl
@[simp] theorem Core.wrB_pend (c : Core) (n : Nat) (v : BitVec 32) : (c.wrB n v).pend = c.pend := rfl
@[simp] theorem Core.wrB_va (c : Core) (n : Nat) (v : BitVec 32) : (c.wrB n v).va = c.va := rfl
@[simp] theorem Core.wrB_vb (c : Core) (n : Nat) (v : BitVec 32) : (c.wrB n v).vb = c.vb := rfl
@[simp] theorem Core.wrB_bad (c : Core) (n : Nat) (v : BitVec 32) : (c.wrB n v).bad = c.bad := rfl
@[simp] theorem Core.wrB_vwa (c : Core) (n : Nat) (v : BitVec 32) : (c.wrB n v).vwa = c.vwa := rfl
@[simp] theorem Core.wrB_vwb (c : Core) (n : Nat) (v : BitVec 32) : (c.wrB n v).vwb = c.vwb := rfl
@[simp] theorem Core.wrB_q (c : Core) (n : Nat) (v : BitVec 32) : (c.wrB n v).q = c.q := rfl
@[simp] theorem Core.wrB_vrm (c : Core) (n : Nat) (v : BitVec 32) : (c.wrB n v).vrm = c.vrm := rfl
@[simp] theorem Core.wrB_vfly (c : Core) (n : Nat) (v : BitVec 32) : (c.wrB n v).vfly = c.vfly := rfl
@[simp] theorem Core.wrB_seed (c : Core) (n : Nat) (v : BitVec 32) : (c.wrB n v).seed = c.seed := rfl
@[simp] theorem Core.wrB_srcnt (c : Core) (n : Nat) (v : BitVec 32) : (c.wrB n v).srcnt = c.srcnt := rfl
@[simp] theorem Core.wrB_d (c : Core) (n : Nat) (v : BitVec 32) : (c.wrB n v).d = c.d := rfl
@[simp] theorem Core.wrB_lvl (c : Core) (n : Nat) (v : BitVec 32) : (c.wrB n v).lvl = c.lvl := rfl
@[simp] theorem Core.wrB_clk (c : Core) (n : Nat) (v : BitVec 32) : (c.wrB n v).clk = c.clk := rfl
@[simp] theorem Core.wrB_cause (c : Core) (n : Nat) (v : BitVec 32) : (c.wrB n v).cause = c.cause := rfl
@[simp] theorem Core.wrB_tval (c : Core) (n : Nat) (v : BitVec 32) : (c.wrB n v).tval = c.tval := rfl
@[simp] theorem Core.wrB_tstage (c : Core) (n : Nat) (v : BitVec 32) : (c.wrB n v).tstage = c.tstage := rfl
@[simp] theorem Core.wrB_tpc (c : Core) (n : Nat) (v : BitVec 32) : (c.wrB n v).tpc = c.tpc := rfl
@[simp] theorem Core.wrB_thb (c : Core) (n : Nat) (v : BitVec 32) : (c.wrB n v).thb = c.thb := rfl
@[simp] theorem Core.wrB_qmode (c : Core) (n : Nat) (v : BitVec 32) : (c.wrB n v).qmode = c.qmode := rfl
@[simp] theorem Core.wrB_rbound (c : Core) (n : Nat) (v : BitVec 32) : (c.wrB n v).rbound = c.rbound := rfl
@[simp] theorem Core.wrB_chaselim (c : Core) (n : Nat) (v : BitVec 32) : (c.wrB n v).chaselim = c.chaselim := rfl
@[simp] theorem Core.wrB_group (c : Core) (n : Nat) (v : BitVec 32) : (c.wrB n v).group = c.group := rfl
@[simp] theorem Core.wrB_gang (c : Core) (n : Nat) (v : BitVec 32) : (c.wrB n v).gang = c.gang := rfl
@[simp] theorem Core.wrB_node (c : Core) (n : Nat) (v : BitVec 32) : (c.wrB n v).node = c.node := rfl
@[simp] theorem Core.wrB_args (c : Core) (n : Nat) (v : BitVec 32) : (c.wrB n v).args = c.args := rfl
@[simp] theorem Core.wrB_rqtag (c : Core) (n : Nat) (v : BitVec 32) : (c.wrB n v).rqtag = c.rqtag := rfl
@[simp] theorem Core.wrB_part (c : Core) (n : Nat) (v : BitVec 32) : (c.wrB n v).part = c.part := rfl
@[simp] theorem Core.wrB_cycle (c : Core) (n : Nat) (v : BitVec 32) : (c.wrB n v).cycle = c.cycle := rfl
@[simp] theorem Core.wrB_retired (c : Core) (n : Nat) (v : BitVec 32) : (c.wrB n v).retired = c.retired := rfl
@[simp] theorem Core.wrB_tstate (c : Core) (n : Nat) (v : BitVec 32) : (c.wrB n v).tstate = c.tstate := rfl
@[simp] theorem Core.wrB_held (c : Core) (n : Nat) (v : BitVec 32) : (c.wrB n v).held = c.held := rfl
@[simp] theorem Core.wrB_rg (c : Core) (n : Nat) (v : BitVec 32) : (c.wrB n v).rg = c.rg := rfl
@[simp] theorem Core.wrB_textva (c : Core) (n : Nat) (v : BitVec 32) : (c.wrB n v).textva = c.textva := rfl
@[simp] theorem Core.wrB_imgid (c : Core) (n : Nat) (v : BitVec 32) : (c.wrB n v).imgid = c.imgid := rfl
@[simp] theorem Core.wrB_plan (c : Core) (n : Nat) (v : BitVec 32) : (c.wrB n v).plan = c.plan := rfl
@[simp] theorem Core.wrB_s1root (c : Core) (n : Nat) (v : BitVec 32) : (c.wrB n v).s1root = c.s1root := rfl
@[simp] theorem Core.wrB_sptva (c : Core) (n : Nat) (v : BitVec 32) : (c.wrB n v).sptva = c.sptva := rfl
@[simp] theorem Core.wrB_parked (c : Core) (n : Nat) (v : BitVec 32) : (c.wrB n v).parked = c.parked := rfl
@[simp] theorem Core.wrB_defrec (c : Core) (n : Nat) (v : BitVec 32) : (c.wrB n v).defrec = c.defrec := rfl
@[simp] theorem Core.wrB_pins (c : Core) (n : Nat) (v : BitVec 32) : (c.wrB n v).pins = c.pins := rfl
@[simp] theorem Core.wrB_curve (c : Core) (n : Nat) (v : BitVec 32) : (c.wrB n v).curve = c.curve := rfl
@[simp] theorem Core.wrB_bmap (c : Core) (n : Nat) (v : BitVec 32) : (c.wrB n v).bmap = c.bmap := rfl
@[simp] theorem Core.wrB_cnt (c : Core) (n : Nat) (v : BitVec 32) : (c.wrB n v).cnt = c.cnt := rfl
@[simp] theorem Core.wrB_timer (c : Core) (n : Nat) (v : BitVec 32) : (c.wrB n v).timer = c.timer := rfl
@[simp] theorem Core.wrB_timerAt (c : Core) (n : Nat) (v : BitVec 32) : (c.wrB n v).timerAt = c.timerAt := rfl
@[simp] theorem Core.wrB_waitOn (c : Core) (n : Nat) (v : BitVec 32) : (c.wrB n v).waitOn = c.waitOn := rfl
@[simp] theorem Core.wrB_waitBroken (c : Core) (n : Nat) (v : BitVec 32) : (c.wrB n v).waitBroken = c.waitBroken := rfl
@[simp] theorem Core.wrB_waitDone (c : Core) (n : Nat) (v : BitVec 32) : (c.wrB n v).waitDone = c.waitDone := rfl
@[simp] theorem Core.wrB_waitBar (c : Core) (n : Nat) (v : BitVec 32) : (c.wrB n v).waitBar = c.waitBar := rfl
@[simp] theorem Core.wrB_barMet (c : Core) (n : Nat) (v : BitVec 32) : (c.wrB n v).barMet = c.barMet := rfl
@[simp] theorem Core.wrB_since (c : Core) (n : Nat) (v : BitVec 32) : (c.wrB n v).since = c.since := rfl
@[simp] theorem Core.wrB_paged (c : Core) (n : Nat) (v : BitVec 32) : (c.wrB n v).paged = c.paged := rfl
@[simp] theorem Core.wrB_pw (c : Core) (n : Nat) (v : BitVec 32) : (c.wrB n v).pw = c.pw := rfl
@[simp] theorem Core.wrB_qstall (c : Core) (n : Nat) (v : BitVec 32) : (c.wrB n v).qstall = c.qstall := rfl
@[simp] theorem Core.wrB_sig (c : Core) (n : Nat) (v : BitVec 32) : (c.wrB n v).sig = c.sig := rfl
@[simp] theorem Core.wrB_sigq (c : Core) (n : Nat) (v : BitVec 32) : (c.wrB n v).sigq = c.sigq := rfl

@[simp] theorem Core.wrPhys_num (c : Core) (cl k : Nat) (v : Vec) : (c.wrPhys cl k v).num = c.num := by unfold Core.wrPhys; split <;> rfl
@[simp] theorem Core.wrPhys_run (c : Core) (cl k : Nat) (v : Vec) : (c.wrPhys cl k v).run = c.run := by unfold Core.wrPhys; split <;> rfl
@[simp] theorem Core.wrPhys_fresh (c : Core) (cl k : Nat) (v : Vec) : (c.wrPhys cl k v).fresh = c.fresh := by unfold Core.wrPhys; split <;> rfl
@[simp] theorem Core.wrPhys_pc (c : Core) (cl k : Nat) (v : Vec) : (c.wrPhys cl k v).pc = c.pc := by unfold Core.wrPhys; split <;> rfl
@[simp] theorem Core.wrPhys_made (c : Core) (cl k : Nat) (v : Vec) : (c.wrPhys cl k v).made = c.made := by unfold Core.wrPhys; split <;> rfl
@[simp] theorem Core.wrPhys_owed (c : Core) (cl k : Nat) (v : Vec) : (c.wrPhys cl k v).owed = c.owed := by unfold Core.wrPhys; split <;> rfl
@[simp] theorem Core.wrPhys_cur (c : Core) (cl k : Nat) (v : Vec) : (c.wrPhys cl k v).cur = c.cur := by unfold Core.wrPhys; split <;> rfl
@[simp] theorem Core.wrPhys_jump (c : Core) (cl k : Nat) (v : Vec) : (c.wrPhys cl k v).jump = c.jump := by unfold Core.wrPhys; split <;> rfl
@[simp] theorem Core.wrPhys_after (c : Core) (cl k : Nat) (v : Vec) : (c.wrPhys cl k v).after = c.after := by unfold Core.wrPhys; split <;> rfl
@[simp] theorem Core.wrPhys_xfer (c : Core) (cl k : Nat) (v : Vec) : (c.wrPhys cl k v).xfer = c.xfer := by unfold Core.wrPhys; split <;> rfl
@[simp] theorem Core.wrPhys_loop (c : Core) (cl k : Nat) (v : Vec) : (c.wrPhys cl k v).loop = c.loop := by unfold Core.wrPhys; split <;> rfl
@[simp] theorem Core.wrPhys_latch0 (c : Core) (cl k : Nat) (v : Vec) : (c.wrPhys cl k v).latch0 = c.latch0 := by unfold Core.wrPhys; split <;> rfl
@[simp] theorem Core.wrPhys_latch1 (c : Core) (cl k : Nat) (v : Vec) : (c.wrPhys cl k v).latch1 = c.latch1 := by unfold Core.wrPhys; split <;> rfl
@[simp] theorem Core.wrPhys_s (c : Core) (cl k : Nat) (v : Vec) : (c.wrPhys cl k v).s = c.s := by unfold Core.wrPhys; split <;> rfl
@[simp] theorem Core.wrPhys_pr (c : Core) (cl k : Nat) (v : Vec) : (c.wrPhys cl k v).pr = c.pr := by unfold Core.wrPhys; split <;> rfl
@[simp] theorem Core.wrPhys_br (c : Core) (cl k : Nat) (v : Vec) : (c.wrPhys cl k v).br = c.br := by unfold Core.wrPhys; split <;> rfl
@[simp] theorem Core.wrPhys_a (c : Core) (cl k : Nat) (v : Vec) : (c.wrPhys cl k v).a = c.a := by unfold Core.wrPhys; split <;> rfl
@[simp] theorem Core.wrPhys_step (c : Core) (cl k : Nat) (v : Vec) : (c.wrPhys cl k v).step = c.step := by unfold Core.wrPhys; split <;> rfl
@[simp] theorem Core.wrPhys_lc (c : Core) (cl k : Nat) (v : Vec) : (c.wrPhys cl k v).lc = c.lc := by unfold Core.wrPhys; split <;> rfl
@[simp] theorem Core.wrPhys_muldiv (c : Core) (cl k : Nat) (v : Vec) : (c.wrPhys cl k v).muldiv = c.muldiv := by unfold Core.wrPhys; split <;> rfl
@[simp] theorem Core.wrPhys_pend (c : Core) (cl k : Nat) (v : Vec) : (c.wrPhys cl k v).pend = c.pend := by unfold Core.wrPhys; split <;> rfl
@[simp] theorem Core.wrPhys_bad (c : Core) (cl k : Nat) (v : Vec) : (c.wrPhys cl k v).bad = c.bad := by unfold Core.wrPhys; split <;> rfl
@[simp] theorem Core.wrPhys_vwa (c : Core) (cl k : Nat) (v : Vec) : (c.wrPhys cl k v).vwa = c.vwa := by unfold Core.wrPhys; split <;> rfl
@[simp] theorem Core.wrPhys_vwb (c : Core) (cl k : Nat) (v : Vec) : (c.wrPhys cl k v).vwb = c.vwb := by unfold Core.wrPhys; split <;> rfl
@[simp] theorem Core.wrPhys_q (c : Core) (cl k : Nat) (v : Vec) : (c.wrPhys cl k v).q = c.q := by unfold Core.wrPhys; split <;> rfl
@[simp] theorem Core.wrPhys_vrm (c : Core) (cl k : Nat) (v : Vec) : (c.wrPhys cl k v).vrm = c.vrm := by unfold Core.wrPhys; split <;> rfl
@[simp] theorem Core.wrPhys_vfly (c : Core) (cl k : Nat) (v : Vec) : (c.wrPhys cl k v).vfly = c.vfly := by unfold Core.wrPhys; split <;> rfl
@[simp] theorem Core.wrPhys_seed (c : Core) (cl k : Nat) (v : Vec) : (c.wrPhys cl k v).seed = c.seed := by unfold Core.wrPhys; split <;> rfl
@[simp] theorem Core.wrPhys_srcnt (c : Core) (cl k : Nat) (v : Vec) : (c.wrPhys cl k v).srcnt = c.srcnt := by unfold Core.wrPhys; split <;> rfl
@[simp] theorem Core.wrPhys_d (c : Core) (cl k : Nat) (v : Vec) : (c.wrPhys cl k v).d = c.d := by unfold Core.wrPhys; split <;> rfl
@[simp] theorem Core.wrPhys_lvl (c : Core) (cl k : Nat) (v : Vec) : (c.wrPhys cl k v).lvl = c.lvl := by unfold Core.wrPhys; split <;> rfl
@[simp] theorem Core.wrPhys_clk (c : Core) (cl k : Nat) (v : Vec) : (c.wrPhys cl k v).clk = c.clk := by unfold Core.wrPhys; split <;> rfl
@[simp] theorem Core.wrPhys_cause (c : Core) (cl k : Nat) (v : Vec) : (c.wrPhys cl k v).cause = c.cause := by unfold Core.wrPhys; split <;> rfl
@[simp] theorem Core.wrPhys_tval (c : Core) (cl k : Nat) (v : Vec) : (c.wrPhys cl k v).tval = c.tval := by unfold Core.wrPhys; split <;> rfl
@[simp] theorem Core.wrPhys_tstage (c : Core) (cl k : Nat) (v : Vec) : (c.wrPhys cl k v).tstage = c.tstage := by unfold Core.wrPhys; split <;> rfl
@[simp] theorem Core.wrPhys_tpc (c : Core) (cl k : Nat) (v : Vec) : (c.wrPhys cl k v).tpc = c.tpc := by unfold Core.wrPhys; split <;> rfl
@[simp] theorem Core.wrPhys_thb (c : Core) (cl k : Nat) (v : Vec) : (c.wrPhys cl k v).thb = c.thb := by unfold Core.wrPhys; split <;> rfl
@[simp] theorem Core.wrPhys_qmode (c : Core) (cl k : Nat) (v : Vec) : (c.wrPhys cl k v).qmode = c.qmode := by unfold Core.wrPhys; split <;> rfl
@[simp] theorem Core.wrPhys_rbound (c : Core) (cl k : Nat) (v : Vec) : (c.wrPhys cl k v).rbound = c.rbound := by unfold Core.wrPhys; split <;> rfl
@[simp] theorem Core.wrPhys_chaselim (c : Core) (cl k : Nat) (v : Vec) : (c.wrPhys cl k v).chaselim = c.chaselim := by unfold Core.wrPhys; split <;> rfl
@[simp] theorem Core.wrPhys_group (c : Core) (cl k : Nat) (v : Vec) : (c.wrPhys cl k v).group = c.group := by unfold Core.wrPhys; split <;> rfl
@[simp] theorem Core.wrPhys_gang (c : Core) (cl k : Nat) (v : Vec) : (c.wrPhys cl k v).gang = c.gang := by unfold Core.wrPhys; split <;> rfl
@[simp] theorem Core.wrPhys_node (c : Core) (cl k : Nat) (v : Vec) : (c.wrPhys cl k v).node = c.node := by unfold Core.wrPhys; split <;> rfl
@[simp] theorem Core.wrPhys_args (c : Core) (cl k : Nat) (v : Vec) : (c.wrPhys cl k v).args = c.args := by unfold Core.wrPhys; split <;> rfl
@[simp] theorem Core.wrPhys_rqtag (c : Core) (cl k : Nat) (v : Vec) : (c.wrPhys cl k v).rqtag = c.rqtag := by unfold Core.wrPhys; split <;> rfl
@[simp] theorem Core.wrPhys_part (c : Core) (cl k : Nat) (v : Vec) : (c.wrPhys cl k v).part = c.part := by unfold Core.wrPhys; split <;> rfl
@[simp] theorem Core.wrPhys_cycle (c : Core) (cl k : Nat) (v : Vec) : (c.wrPhys cl k v).cycle = c.cycle := by unfold Core.wrPhys; split <;> rfl
@[simp] theorem Core.wrPhys_retired (c : Core) (cl k : Nat) (v : Vec) : (c.wrPhys cl k v).retired = c.retired := by unfold Core.wrPhys; split <;> rfl
@[simp] theorem Core.wrPhys_tstate (c : Core) (cl k : Nat) (v : Vec) : (c.wrPhys cl k v).tstate = c.tstate := by unfold Core.wrPhys; split <;> rfl
@[simp] theorem Core.wrPhys_held (c : Core) (cl k : Nat) (v : Vec) : (c.wrPhys cl k v).held = c.held := by unfold Core.wrPhys; split <;> rfl
@[simp] theorem Core.wrPhys_rg (c : Core) (cl k : Nat) (v : Vec) : (c.wrPhys cl k v).rg = c.rg := by unfold Core.wrPhys; split <;> rfl
@[simp] theorem Core.wrPhys_textva (c : Core) (cl k : Nat) (v : Vec) : (c.wrPhys cl k v).textva = c.textva := by unfold Core.wrPhys; split <;> rfl
@[simp] theorem Core.wrPhys_imgid (c : Core) (cl k : Nat) (v : Vec) : (c.wrPhys cl k v).imgid = c.imgid := by unfold Core.wrPhys; split <;> rfl
@[simp] theorem Core.wrPhys_plan (c : Core) (cl k : Nat) (v : Vec) : (c.wrPhys cl k v).plan = c.plan := by unfold Core.wrPhys; split <;> rfl
@[simp] theorem Core.wrPhys_s1root (c : Core) (cl k : Nat) (v : Vec) : (c.wrPhys cl k v).s1root = c.s1root := by unfold Core.wrPhys; split <;> rfl
@[simp] theorem Core.wrPhys_sptva (c : Core) (cl k : Nat) (v : Vec) : (c.wrPhys cl k v).sptva = c.sptva := by unfold Core.wrPhys; split <;> rfl
@[simp] theorem Core.wrPhys_parked (c : Core) (cl k : Nat) (v : Vec) : (c.wrPhys cl k v).parked = c.parked := by unfold Core.wrPhys; split <;> rfl
@[simp] theorem Core.wrPhys_defrec (c : Core) (cl k : Nat) (v : Vec) : (c.wrPhys cl k v).defrec = c.defrec := by unfold Core.wrPhys; split <;> rfl
@[simp] theorem Core.wrPhys_pins (c : Core) (cl k : Nat) (v : Vec) : (c.wrPhys cl k v).pins = c.pins := by unfold Core.wrPhys; split <;> rfl
@[simp] theorem Core.wrPhys_curve (c : Core) (cl k : Nat) (v : Vec) : (c.wrPhys cl k v).curve = c.curve := by unfold Core.wrPhys; split <;> rfl
@[simp] theorem Core.wrPhys_bmap (c : Core) (cl k : Nat) (v : Vec) : (c.wrPhys cl k v).bmap = c.bmap := by unfold Core.wrPhys; split <;> rfl
@[simp] theorem Core.wrPhys_cnt (c : Core) (cl k : Nat) (v : Vec) : (c.wrPhys cl k v).cnt = c.cnt := by unfold Core.wrPhys; split <;> rfl
@[simp] theorem Core.wrPhys_timer (c : Core) (cl k : Nat) (v : Vec) : (c.wrPhys cl k v).timer = c.timer := by unfold Core.wrPhys; split <;> rfl
@[simp] theorem Core.wrPhys_timerAt (c : Core) (cl k : Nat) (v : Vec) : (c.wrPhys cl k v).timerAt = c.timerAt := by unfold Core.wrPhys; split <;> rfl
@[simp] theorem Core.wrPhys_waitOn (c : Core) (cl k : Nat) (v : Vec) : (c.wrPhys cl k v).waitOn = c.waitOn := by unfold Core.wrPhys; split <;> rfl
@[simp] theorem Core.wrPhys_waitBroken (c : Core) (cl k : Nat) (v : Vec) : (c.wrPhys cl k v).waitBroken = c.waitBroken := by unfold Core.wrPhys; split <;> rfl
@[simp] theorem Core.wrPhys_waitDone (c : Core) (cl k : Nat) (v : Vec) : (c.wrPhys cl k v).waitDone = c.waitDone := by unfold Core.wrPhys; split <;> rfl
@[simp] theorem Core.wrPhys_waitBar (c : Core) (cl k : Nat) (v : Vec) : (c.wrPhys cl k v).waitBar = c.waitBar := by unfold Core.wrPhys; split <;> rfl
@[simp] theorem Core.wrPhys_barMet (c : Core) (cl k : Nat) (v : Vec) : (c.wrPhys cl k v).barMet = c.barMet := by unfold Core.wrPhys; split <;> rfl
@[simp] theorem Core.wrPhys_since (c : Core) (cl k : Nat) (v : Vec) : (c.wrPhys cl k v).since = c.since := by unfold Core.wrPhys; split <;> rfl
@[simp] theorem Core.wrPhys_paged (c : Core) (cl k : Nat) (v : Vec) : (c.wrPhys cl k v).paged = c.paged := by unfold Core.wrPhys; split <;> rfl
@[simp] theorem Core.wrPhys_pw (c : Core) (cl k : Nat) (v : Vec) : (c.wrPhys cl k v).pw = c.pw := by unfold Core.wrPhys; split <;> rfl
@[simp] theorem Core.wrPhys_qstall (c : Core) (cl k : Nat) (v : Vec) : (c.wrPhys cl k v).qstall = c.qstall := by unfold Core.wrPhys; split <;> rfl
@[simp] theorem Core.wrPhys_sig (c : Core) (cl k : Nat) (v : Vec) : (c.wrPhys cl k v).sig = c.sig := by unfold Core.wrPhys; split <;> rfl
@[simp] theorem Core.wrPhys_sigq (c : Core) (cl k : Nat) (v : Vec) : (c.wrPhys cl k v).sigq = c.sigq := by unfold Core.wrPhys; split <;> rfl

@[simp] theorem Core.wrQ_num (c : Core) (n : Nat) (v : BitVec 64) : (c.wrQ n v).num = c.num := by unfold Core.wrQ; split <;> rfl
@[simp] theorem Core.wrQ_run (c : Core) (n : Nat) (v : BitVec 64) : (c.wrQ n v).run = c.run := by unfold Core.wrQ; split <;> rfl
@[simp] theorem Core.wrQ_fresh (c : Core) (n : Nat) (v : BitVec 64) : (c.wrQ n v).fresh = c.fresh := by unfold Core.wrQ; split <;> rfl
@[simp] theorem Core.wrQ_pc (c : Core) (n : Nat) (v : BitVec 64) : (c.wrQ n v).pc = c.pc := by unfold Core.wrQ; split <;> rfl
@[simp] theorem Core.wrQ_made (c : Core) (n : Nat) (v : BitVec 64) : (c.wrQ n v).made = c.made := by unfold Core.wrQ; split <;> rfl
@[simp] theorem Core.wrQ_owed (c : Core) (n : Nat) (v : BitVec 64) : (c.wrQ n v).owed = c.owed := by unfold Core.wrQ; split <;> rfl
@[simp] theorem Core.wrQ_cur (c : Core) (n : Nat) (v : BitVec 64) : (c.wrQ n v).cur = c.cur := by unfold Core.wrQ; split <;> rfl
@[simp] theorem Core.wrQ_jump (c : Core) (n : Nat) (v : BitVec 64) : (c.wrQ n v).jump = c.jump := by unfold Core.wrQ; split <;> rfl
@[simp] theorem Core.wrQ_after (c : Core) (n : Nat) (v : BitVec 64) : (c.wrQ n v).after = c.after := by unfold Core.wrQ; split <;> rfl
@[simp] theorem Core.wrQ_xfer (c : Core) (n : Nat) (v : BitVec 64) : (c.wrQ n v).xfer = c.xfer := by unfold Core.wrQ; split <;> rfl
@[simp] theorem Core.wrQ_loop (c : Core) (n : Nat) (v : BitVec 64) : (c.wrQ n v).loop = c.loop := by unfold Core.wrQ; split <;> rfl
@[simp] theorem Core.wrQ_latch0 (c : Core) (n : Nat) (v : BitVec 64) : (c.wrQ n v).latch0 = c.latch0 := by unfold Core.wrQ; split <;> rfl
@[simp] theorem Core.wrQ_latch1 (c : Core) (n : Nat) (v : BitVec 64) : (c.wrQ n v).latch1 = c.latch1 := by unfold Core.wrQ; split <;> rfl
@[simp] theorem Core.wrQ_s (c : Core) (n : Nat) (v : BitVec 64) : (c.wrQ n v).s = c.s := by unfold Core.wrQ; split <;> rfl
@[simp] theorem Core.wrQ_pr (c : Core) (n : Nat) (v : BitVec 64) : (c.wrQ n v).pr = c.pr := by unfold Core.wrQ; split <;> rfl
@[simp] theorem Core.wrQ_br (c : Core) (n : Nat) (v : BitVec 64) : (c.wrQ n v).br = c.br := by unfold Core.wrQ; split <;> rfl
@[simp] theorem Core.wrQ_a (c : Core) (n : Nat) (v : BitVec 64) : (c.wrQ n v).a = c.a := by unfold Core.wrQ; split <;> rfl
@[simp] theorem Core.wrQ_step (c : Core) (n : Nat) (v : BitVec 64) : (c.wrQ n v).step = c.step := by unfold Core.wrQ; split <;> rfl
@[simp] theorem Core.wrQ_lc (c : Core) (n : Nat) (v : BitVec 64) : (c.wrQ n v).lc = c.lc := by unfold Core.wrQ; split <;> rfl
@[simp] theorem Core.wrQ_muldiv (c : Core) (n : Nat) (v : BitVec 64) : (c.wrQ n v).muldiv = c.muldiv := by unfold Core.wrQ; split <;> rfl
@[simp] theorem Core.wrQ_pend (c : Core) (n : Nat) (v : BitVec 64) : (c.wrQ n v).pend = c.pend := by unfold Core.wrQ; split <;> rfl
@[simp] theorem Core.wrQ_va (c : Core) (n : Nat) (v : BitVec 64) : (c.wrQ n v).va = c.va := by unfold Core.wrQ; split <;> rfl
@[simp] theorem Core.wrQ_vb (c : Core) (n : Nat) (v : BitVec 64) : (c.wrQ n v).vb = c.vb := by unfold Core.wrQ; split <;> rfl
@[simp] theorem Core.wrQ_bad (c : Core) (n : Nat) (v : BitVec 64) : (c.wrQ n v).bad = c.bad := by unfold Core.wrQ; split <;> rfl
@[simp] theorem Core.wrQ_vwa (c : Core) (n : Nat) (v : BitVec 64) : (c.wrQ n v).vwa = c.vwa := by unfold Core.wrQ; split <;> rfl
@[simp] theorem Core.wrQ_vwb (c : Core) (n : Nat) (v : BitVec 64) : (c.wrQ n v).vwb = c.vwb := by unfold Core.wrQ; split <;> rfl
@[simp] theorem Core.wrQ_vrm (c : Core) (n : Nat) (v : BitVec 64) : (c.wrQ n v).vrm = c.vrm := by unfold Core.wrQ; split <;> rfl
@[simp] theorem Core.wrQ_vfly (c : Core) (n : Nat) (v : BitVec 64) : (c.wrQ n v).vfly = c.vfly := by unfold Core.wrQ; split <;> rfl
@[simp] theorem Core.wrQ_seed (c : Core) (n : Nat) (v : BitVec 64) : (c.wrQ n v).seed = c.seed := by unfold Core.wrQ; split <;> rfl
@[simp] theorem Core.wrQ_srcnt (c : Core) (n : Nat) (v : BitVec 64) : (c.wrQ n v).srcnt = c.srcnt := by unfold Core.wrQ; split <;> rfl
@[simp] theorem Core.wrQ_d (c : Core) (n : Nat) (v : BitVec 64) : (c.wrQ n v).d = c.d := by unfold Core.wrQ; split <;> rfl
@[simp] theorem Core.wrQ_lvl (c : Core) (n : Nat) (v : BitVec 64) : (c.wrQ n v).lvl = c.lvl := by unfold Core.wrQ; split <;> rfl
@[simp] theorem Core.wrQ_clk (c : Core) (n : Nat) (v : BitVec 64) : (c.wrQ n v).clk = c.clk := by unfold Core.wrQ; split <;> rfl
@[simp] theorem Core.wrQ_cause (c : Core) (n : Nat) (v : BitVec 64) : (c.wrQ n v).cause = c.cause := by unfold Core.wrQ; split <;> rfl
@[simp] theorem Core.wrQ_tval (c : Core) (n : Nat) (v : BitVec 64) : (c.wrQ n v).tval = c.tval := by unfold Core.wrQ; split <;> rfl
@[simp] theorem Core.wrQ_tstage (c : Core) (n : Nat) (v : BitVec 64) : (c.wrQ n v).tstage = c.tstage := by unfold Core.wrQ; split <;> rfl
@[simp] theorem Core.wrQ_tpc (c : Core) (n : Nat) (v : BitVec 64) : (c.wrQ n v).tpc = c.tpc := by unfold Core.wrQ; split <;> rfl
@[simp] theorem Core.wrQ_thb (c : Core) (n : Nat) (v : BitVec 64) : (c.wrQ n v).thb = c.thb := by unfold Core.wrQ; split <;> rfl
@[simp] theorem Core.wrQ_qmode (c : Core) (n : Nat) (v : BitVec 64) : (c.wrQ n v).qmode = c.qmode := by unfold Core.wrQ; split <;> rfl
@[simp] theorem Core.wrQ_rbound (c : Core) (n : Nat) (v : BitVec 64) : (c.wrQ n v).rbound = c.rbound := by unfold Core.wrQ; split <;> rfl
@[simp] theorem Core.wrQ_chaselim (c : Core) (n : Nat) (v : BitVec 64) : (c.wrQ n v).chaselim = c.chaselim := by unfold Core.wrQ; split <;> rfl
@[simp] theorem Core.wrQ_group (c : Core) (n : Nat) (v : BitVec 64) : (c.wrQ n v).group = c.group := by unfold Core.wrQ; split <;> rfl
@[simp] theorem Core.wrQ_gang (c : Core) (n : Nat) (v : BitVec 64) : (c.wrQ n v).gang = c.gang := by unfold Core.wrQ; split <;> rfl
@[simp] theorem Core.wrQ_node (c : Core) (n : Nat) (v : BitVec 64) : (c.wrQ n v).node = c.node := by unfold Core.wrQ; split <;> rfl
@[simp] theorem Core.wrQ_args (c : Core) (n : Nat) (v : BitVec 64) : (c.wrQ n v).args = c.args := by unfold Core.wrQ; split <;> rfl
@[simp] theorem Core.wrQ_rqtag (c : Core) (n : Nat) (v : BitVec 64) : (c.wrQ n v).rqtag = c.rqtag := by unfold Core.wrQ; split <;> rfl
@[simp] theorem Core.wrQ_part (c : Core) (n : Nat) (v : BitVec 64) : (c.wrQ n v).part = c.part := by unfold Core.wrQ; split <;> rfl
@[simp] theorem Core.wrQ_cycle (c : Core) (n : Nat) (v : BitVec 64) : (c.wrQ n v).cycle = c.cycle := by unfold Core.wrQ; split <;> rfl
@[simp] theorem Core.wrQ_retired (c : Core) (n : Nat) (v : BitVec 64) : (c.wrQ n v).retired = c.retired := by unfold Core.wrQ; split <;> rfl
@[simp] theorem Core.wrQ_tstate (c : Core) (n : Nat) (v : BitVec 64) : (c.wrQ n v).tstate = c.tstate := by unfold Core.wrQ; split <;> rfl
@[simp] theorem Core.wrQ_held (c : Core) (n : Nat) (v : BitVec 64) : (c.wrQ n v).held = c.held := by unfold Core.wrQ; split <;> rfl
@[simp] theorem Core.wrQ_rg (c : Core) (n : Nat) (v : BitVec 64) : (c.wrQ n v).rg = c.rg := by unfold Core.wrQ; split <;> rfl
@[simp] theorem Core.wrQ_textva (c : Core) (n : Nat) (v : BitVec 64) : (c.wrQ n v).textva = c.textva := by unfold Core.wrQ; split <;> rfl
@[simp] theorem Core.wrQ_imgid (c : Core) (n : Nat) (v : BitVec 64) : (c.wrQ n v).imgid = c.imgid := by unfold Core.wrQ; split <;> rfl
@[simp] theorem Core.wrQ_plan (c : Core) (n : Nat) (v : BitVec 64) : (c.wrQ n v).plan = c.plan := by unfold Core.wrQ; split <;> rfl
@[simp] theorem Core.wrQ_s1root (c : Core) (n : Nat) (v : BitVec 64) : (c.wrQ n v).s1root = c.s1root := by unfold Core.wrQ; split <;> rfl
@[simp] theorem Core.wrQ_sptva (c : Core) (n : Nat) (v : BitVec 64) : (c.wrQ n v).sptva = c.sptva := by unfold Core.wrQ; split <;> rfl
@[simp] theorem Core.wrQ_parked (c : Core) (n : Nat) (v : BitVec 64) : (c.wrQ n v).parked = c.parked := by unfold Core.wrQ; split <;> rfl
@[simp] theorem Core.wrQ_defrec (c : Core) (n : Nat) (v : BitVec 64) : (c.wrQ n v).defrec = c.defrec := by unfold Core.wrQ; split <;> rfl
@[simp] theorem Core.wrQ_pins (c : Core) (n : Nat) (v : BitVec 64) : (c.wrQ n v).pins = c.pins := by unfold Core.wrQ; split <;> rfl
@[simp] theorem Core.wrQ_curve (c : Core) (n : Nat) (v : BitVec 64) : (c.wrQ n v).curve = c.curve := by unfold Core.wrQ; split <;> rfl
@[simp] theorem Core.wrQ_bmap (c : Core) (n : Nat) (v : BitVec 64) : (c.wrQ n v).bmap = c.bmap := by unfold Core.wrQ; split <;> rfl
@[simp] theorem Core.wrQ_cnt (c : Core) (n : Nat) (v : BitVec 64) : (c.wrQ n v).cnt = c.cnt := by unfold Core.wrQ; split <;> rfl
@[simp] theorem Core.wrQ_timer (c : Core) (n : Nat) (v : BitVec 64) : (c.wrQ n v).timer = c.timer := by unfold Core.wrQ; split <;> rfl
@[simp] theorem Core.wrQ_timerAt (c : Core) (n : Nat) (v : BitVec 64) : (c.wrQ n v).timerAt = c.timerAt := by unfold Core.wrQ; split <;> rfl
@[simp] theorem Core.wrQ_waitOn (c : Core) (n : Nat) (v : BitVec 64) : (c.wrQ n v).waitOn = c.waitOn := by unfold Core.wrQ; split <;> rfl
@[simp] theorem Core.wrQ_waitBroken (c : Core) (n : Nat) (v : BitVec 64) : (c.wrQ n v).waitBroken = c.waitBroken := by unfold Core.wrQ; split <;> rfl
@[simp] theorem Core.wrQ_waitDone (c : Core) (n : Nat) (v : BitVec 64) : (c.wrQ n v).waitDone = c.waitDone := by unfold Core.wrQ; split <;> rfl
@[simp] theorem Core.wrQ_waitBar (c : Core) (n : Nat) (v : BitVec 64) : (c.wrQ n v).waitBar = c.waitBar := by unfold Core.wrQ; split <;> rfl
@[simp] theorem Core.wrQ_barMet (c : Core) (n : Nat) (v : BitVec 64) : (c.wrQ n v).barMet = c.barMet := by unfold Core.wrQ; split <;> rfl
@[simp] theorem Core.wrQ_since (c : Core) (n : Nat) (v : BitVec 64) : (c.wrQ n v).since = c.since := by unfold Core.wrQ; split <;> rfl
@[simp] theorem Core.wrQ_paged (c : Core) (n : Nat) (v : BitVec 64) : (c.wrQ n v).paged = c.paged := by unfold Core.wrQ; split <;> rfl
@[simp] theorem Core.wrQ_pw (c : Core) (n : Nat) (v : BitVec 64) : (c.wrQ n v).pw = c.pw := by unfold Core.wrQ; split <;> rfl
@[simp] theorem Core.wrQ_qstall (c : Core) (n : Nat) (v : BitVec 64) : (c.wrQ n v).qstall = c.qstall := by unfold Core.wrQ; split <;> rfl
@[simp] theorem Core.wrQ_sig (c : Core) (n : Nat) (v : BitVec 64) : (c.wrQ n v).sig = c.sig := by unfold Core.wrQ; split <;> rfl
@[simp] theorem Core.wrQ_sigq (c : Core) (n : Nat) (v : BitVec 64) : (c.wrQ n v).sigq = c.sigq := by unfold Core.wrQ; split <;> rfl

@[simp] theorem Core.wrD_num (c : Core) (n : Nat) (v : Desc) : (c.wrD n v).num = c.num := rfl
@[simp] theorem Core.wrD_run (c : Core) (n : Nat) (v : Desc) : (c.wrD n v).run = c.run := rfl
@[simp] theorem Core.wrD_fresh (c : Core) (n : Nat) (v : Desc) : (c.wrD n v).fresh = c.fresh := rfl
@[simp] theorem Core.wrD_pc (c : Core) (n : Nat) (v : Desc) : (c.wrD n v).pc = c.pc := rfl
@[simp] theorem Core.wrD_made (c : Core) (n : Nat) (v : Desc) : (c.wrD n v).made = c.made := rfl
@[simp] theorem Core.wrD_owed (c : Core) (n : Nat) (v : Desc) : (c.wrD n v).owed = c.owed := rfl
@[simp] theorem Core.wrD_cur (c : Core) (n : Nat) (v : Desc) : (c.wrD n v).cur = c.cur := rfl
@[simp] theorem Core.wrD_jump (c : Core) (n : Nat) (v : Desc) : (c.wrD n v).jump = c.jump := rfl
@[simp] theorem Core.wrD_after (c : Core) (n : Nat) (v : Desc) : (c.wrD n v).after = c.after := rfl
@[simp] theorem Core.wrD_xfer (c : Core) (n : Nat) (v : Desc) : (c.wrD n v).xfer = c.xfer := rfl
@[simp] theorem Core.wrD_loop (c : Core) (n : Nat) (v : Desc) : (c.wrD n v).loop = c.loop := rfl
@[simp] theorem Core.wrD_latch0 (c : Core) (n : Nat) (v : Desc) : (c.wrD n v).latch0 = c.latch0 := rfl
@[simp] theorem Core.wrD_latch1 (c : Core) (n : Nat) (v : Desc) : (c.wrD n v).latch1 = c.latch1 := rfl
@[simp] theorem Core.wrD_s (c : Core) (n : Nat) (v : Desc) : (c.wrD n v).s = c.s := rfl
@[simp] theorem Core.wrD_pr (c : Core) (n : Nat) (v : Desc) : (c.wrD n v).pr = c.pr := rfl
@[simp] theorem Core.wrD_br (c : Core) (n : Nat) (v : Desc) : (c.wrD n v).br = c.br := rfl
@[simp] theorem Core.wrD_a (c : Core) (n : Nat) (v : Desc) : (c.wrD n v).a = c.a := rfl
@[simp] theorem Core.wrD_step (c : Core) (n : Nat) (v : Desc) : (c.wrD n v).step = c.step := rfl
@[simp] theorem Core.wrD_lc (c : Core) (n : Nat) (v : Desc) : (c.wrD n v).lc = c.lc := rfl
@[simp] theorem Core.wrD_muldiv (c : Core) (n : Nat) (v : Desc) : (c.wrD n v).muldiv = c.muldiv := rfl
@[simp] theorem Core.wrD_pend (c : Core) (n : Nat) (v : Desc) : (c.wrD n v).pend = c.pend := rfl
@[simp] theorem Core.wrD_va (c : Core) (n : Nat) (v : Desc) : (c.wrD n v).va = c.va := rfl
@[simp] theorem Core.wrD_vb (c : Core) (n : Nat) (v : Desc) : (c.wrD n v).vb = c.vb := rfl
@[simp] theorem Core.wrD_bad (c : Core) (n : Nat) (v : Desc) : (c.wrD n v).bad = c.bad := rfl
@[simp] theorem Core.wrD_vwa (c : Core) (n : Nat) (v : Desc) : (c.wrD n v).vwa = c.vwa := rfl
@[simp] theorem Core.wrD_vwb (c : Core) (n : Nat) (v : Desc) : (c.wrD n v).vwb = c.vwb := rfl
@[simp] theorem Core.wrD_q (c : Core) (n : Nat) (v : Desc) : (c.wrD n v).q = c.q := rfl
@[simp] theorem Core.wrD_vrm (c : Core) (n : Nat) (v : Desc) : (c.wrD n v).vrm = c.vrm := rfl
@[simp] theorem Core.wrD_vfly (c : Core) (n : Nat) (v : Desc) : (c.wrD n v).vfly = c.vfly := rfl
@[simp] theorem Core.wrD_seed (c : Core) (n : Nat) (v : Desc) : (c.wrD n v).seed = c.seed := rfl
@[simp] theorem Core.wrD_srcnt (c : Core) (n : Nat) (v : Desc) : (c.wrD n v).srcnt = c.srcnt := rfl
@[simp] theorem Core.wrD_lvl (c : Core) (n : Nat) (v : Desc) : (c.wrD n v).lvl = c.lvl := rfl
@[simp] theorem Core.wrD_clk (c : Core) (n : Nat) (v : Desc) : (c.wrD n v).clk = c.clk := rfl
@[simp] theorem Core.wrD_cause (c : Core) (n : Nat) (v : Desc) : (c.wrD n v).cause = c.cause := rfl
@[simp] theorem Core.wrD_tval (c : Core) (n : Nat) (v : Desc) : (c.wrD n v).tval = c.tval := rfl
@[simp] theorem Core.wrD_tstage (c : Core) (n : Nat) (v : Desc) : (c.wrD n v).tstage = c.tstage := rfl
@[simp] theorem Core.wrD_tpc (c : Core) (n : Nat) (v : Desc) : (c.wrD n v).tpc = c.tpc := rfl
@[simp] theorem Core.wrD_thb (c : Core) (n : Nat) (v : Desc) : (c.wrD n v).thb = c.thb := rfl
@[simp] theorem Core.wrD_qmode (c : Core) (n : Nat) (v : Desc) : (c.wrD n v).qmode = c.qmode := rfl
@[simp] theorem Core.wrD_rbound (c : Core) (n : Nat) (v : Desc) : (c.wrD n v).rbound = c.rbound := rfl
@[simp] theorem Core.wrD_chaselim (c : Core) (n : Nat) (v : Desc) : (c.wrD n v).chaselim = c.chaselim := rfl
@[simp] theorem Core.wrD_group (c : Core) (n : Nat) (v : Desc) : (c.wrD n v).group = c.group := rfl
@[simp] theorem Core.wrD_gang (c : Core) (n : Nat) (v : Desc) : (c.wrD n v).gang = c.gang := rfl
@[simp] theorem Core.wrD_node (c : Core) (n : Nat) (v : Desc) : (c.wrD n v).node = c.node := rfl
@[simp] theorem Core.wrD_args (c : Core) (n : Nat) (v : Desc) : (c.wrD n v).args = c.args := rfl
@[simp] theorem Core.wrD_rqtag (c : Core) (n : Nat) (v : Desc) : (c.wrD n v).rqtag = c.rqtag := rfl
@[simp] theorem Core.wrD_part (c : Core) (n : Nat) (v : Desc) : (c.wrD n v).part = c.part := rfl
@[simp] theorem Core.wrD_cycle (c : Core) (n : Nat) (v : Desc) : (c.wrD n v).cycle = c.cycle := rfl
@[simp] theorem Core.wrD_retired (c : Core) (n : Nat) (v : Desc) : (c.wrD n v).retired = c.retired := rfl
@[simp] theorem Core.wrD_tstate (c : Core) (n : Nat) (v : Desc) : (c.wrD n v).tstate = c.tstate := rfl
@[simp] theorem Core.wrD_held (c : Core) (n : Nat) (v : Desc) : (c.wrD n v).held = c.held := rfl
@[simp] theorem Core.wrD_rg (c : Core) (n : Nat) (v : Desc) : (c.wrD n v).rg = c.rg := rfl
@[simp] theorem Core.wrD_textva (c : Core) (n : Nat) (v : Desc) : (c.wrD n v).textva = c.textva := rfl
@[simp] theorem Core.wrD_imgid (c : Core) (n : Nat) (v : Desc) : (c.wrD n v).imgid = c.imgid := rfl
@[simp] theorem Core.wrD_plan (c : Core) (n : Nat) (v : Desc) : (c.wrD n v).plan = c.plan := rfl
@[simp] theorem Core.wrD_s1root (c : Core) (n : Nat) (v : Desc) : (c.wrD n v).s1root = c.s1root := rfl
@[simp] theorem Core.wrD_sptva (c : Core) (n : Nat) (v : Desc) : (c.wrD n v).sptva = c.sptva := rfl
@[simp] theorem Core.wrD_parked (c : Core) (n : Nat) (v : Desc) : (c.wrD n v).parked = c.parked := rfl
@[simp] theorem Core.wrD_defrec (c : Core) (n : Nat) (v : Desc) : (c.wrD n v).defrec = c.defrec := rfl
@[simp] theorem Core.wrD_pins (c : Core) (n : Nat) (v : Desc) : (c.wrD n v).pins = c.pins := rfl
@[simp] theorem Core.wrD_curve (c : Core) (n : Nat) (v : Desc) : (c.wrD n v).curve = c.curve := rfl
@[simp] theorem Core.wrD_bmap (c : Core) (n : Nat) (v : Desc) : (c.wrD n v).bmap = c.bmap := rfl
@[simp] theorem Core.wrD_cnt (c : Core) (n : Nat) (v : Desc) : (c.wrD n v).cnt = c.cnt := rfl
@[simp] theorem Core.wrD_timer (c : Core) (n : Nat) (v : Desc) : (c.wrD n v).timer = c.timer := rfl
@[simp] theorem Core.wrD_timerAt (c : Core) (n : Nat) (v : Desc) : (c.wrD n v).timerAt = c.timerAt := rfl
@[simp] theorem Core.wrD_waitOn (c : Core) (n : Nat) (v : Desc) : (c.wrD n v).waitOn = c.waitOn := rfl
@[simp] theorem Core.wrD_waitBroken (c : Core) (n : Nat) (v : Desc) : (c.wrD n v).waitBroken = c.waitBroken := rfl
@[simp] theorem Core.wrD_waitDone (c : Core) (n : Nat) (v : Desc) : (c.wrD n v).waitDone = c.waitDone := rfl
@[simp] theorem Core.wrD_waitBar (c : Core) (n : Nat) (v : Desc) : (c.wrD n v).waitBar = c.waitBar := rfl
@[simp] theorem Core.wrD_barMet (c : Core) (n : Nat) (v : Desc) : (c.wrD n v).barMet = c.barMet := rfl
@[simp] theorem Core.wrD_since (c : Core) (n : Nat) (v : Desc) : (c.wrD n v).since = c.since := rfl
@[simp] theorem Core.wrD_paged (c : Core) (n : Nat) (v : Desc) : (c.wrD n v).paged = c.paged := rfl
@[simp] theorem Core.wrD_pw (c : Core) (n : Nat) (v : Desc) : (c.wrD n v).pw = c.pw := rfl
@[simp] theorem Core.wrD_qstall (c : Core) (n : Nat) (v : Desc) : (c.wrD n v).qstall = c.qstall := rfl
@[simp] theorem Core.wrD_sig (c : Core) (n : Nat) (v : Desc) : (c.wrD n v).sig = c.sig := rfl
@[simp] theorem Core.wrD_sigq (c : Core) (n : Nat) (v : Desc) : (c.wrD n v).sigq = c.sigq := rfl

@[simp] theorem Core.bump_num (c : Core) (k n : Nat) : (c.bump k n).num = c.num := rfl
@[simp] theorem Core.bump_run (c : Core) (k n : Nat) : (c.bump k n).run = c.run := rfl
@[simp] theorem Core.bump_fresh (c : Core) (k n : Nat) : (c.bump k n).fresh = c.fresh := rfl
@[simp] theorem Core.bump_pc (c : Core) (k n : Nat) : (c.bump k n).pc = c.pc := rfl
@[simp] theorem Core.bump_made (c : Core) (k n : Nat) : (c.bump k n).made = c.made := rfl
@[simp] theorem Core.bump_owed (c : Core) (k n : Nat) : (c.bump k n).owed = c.owed := rfl
@[simp] theorem Core.bump_cur (c : Core) (k n : Nat) : (c.bump k n).cur = c.cur := rfl
@[simp] theorem Core.bump_jump (c : Core) (k n : Nat) : (c.bump k n).jump = c.jump := rfl
@[simp] theorem Core.bump_after (c : Core) (k n : Nat) : (c.bump k n).after = c.after := rfl
@[simp] theorem Core.bump_xfer (c : Core) (k n : Nat) : (c.bump k n).xfer = c.xfer := rfl
@[simp] theorem Core.bump_loop (c : Core) (k n : Nat) : (c.bump k n).loop = c.loop := rfl
@[simp] theorem Core.bump_latch0 (c : Core) (k n : Nat) : (c.bump k n).latch0 = c.latch0 := rfl
@[simp] theorem Core.bump_latch1 (c : Core) (k n : Nat) : (c.bump k n).latch1 = c.latch1 := rfl
@[simp] theorem Core.bump_s (c : Core) (k n : Nat) : (c.bump k n).s = c.s := rfl
@[simp] theorem Core.bump_pr (c : Core) (k n : Nat) : (c.bump k n).pr = c.pr := rfl
@[simp] theorem Core.bump_br (c : Core) (k n : Nat) : (c.bump k n).br = c.br := rfl
@[simp] theorem Core.bump_a (c : Core) (k n : Nat) : (c.bump k n).a = c.a := rfl
@[simp] theorem Core.bump_step (c : Core) (k n : Nat) : (c.bump k n).step = c.step := rfl
@[simp] theorem Core.bump_lc (c : Core) (k n : Nat) : (c.bump k n).lc = c.lc := rfl
@[simp] theorem Core.bump_muldiv (c : Core) (k n : Nat) : (c.bump k n).muldiv = c.muldiv := rfl
@[simp] theorem Core.bump_pend (c : Core) (k n : Nat) : (c.bump k n).pend = c.pend := rfl
@[simp] theorem Core.bump_va (c : Core) (k n : Nat) : (c.bump k n).va = c.va := rfl
@[simp] theorem Core.bump_vb (c : Core) (k n : Nat) : (c.bump k n).vb = c.vb := rfl
@[simp] theorem Core.bump_bad (c : Core) (k n : Nat) : (c.bump k n).bad = c.bad := rfl
@[simp] theorem Core.bump_vwa (c : Core) (k n : Nat) : (c.bump k n).vwa = c.vwa := rfl
@[simp] theorem Core.bump_vwb (c : Core) (k n : Nat) : (c.bump k n).vwb = c.vwb := rfl
@[simp] theorem Core.bump_q (c : Core) (k n : Nat) : (c.bump k n).q = c.q := rfl
@[simp] theorem Core.bump_vrm (c : Core) (k n : Nat) : (c.bump k n).vrm = c.vrm := rfl
@[simp] theorem Core.bump_vfly (c : Core) (k n : Nat) : (c.bump k n).vfly = c.vfly := rfl
@[simp] theorem Core.bump_seed (c : Core) (k n : Nat) : (c.bump k n).seed = c.seed := rfl
@[simp] theorem Core.bump_srcnt (c : Core) (k n : Nat) : (c.bump k n).srcnt = c.srcnt := rfl
@[simp] theorem Core.bump_d (c : Core) (k n : Nat) : (c.bump k n).d = c.d := rfl
@[simp] theorem Core.bump_lvl (c : Core) (k n : Nat) : (c.bump k n).lvl = c.lvl := rfl
@[simp] theorem Core.bump_clk (c : Core) (k n : Nat) : (c.bump k n).clk = c.clk := rfl
@[simp] theorem Core.bump_cause (c : Core) (k n : Nat) : (c.bump k n).cause = c.cause := rfl
@[simp] theorem Core.bump_tval (c : Core) (k n : Nat) : (c.bump k n).tval = c.tval := rfl
@[simp] theorem Core.bump_tstage (c : Core) (k n : Nat) : (c.bump k n).tstage = c.tstage := rfl
@[simp] theorem Core.bump_tpc (c : Core) (k n : Nat) : (c.bump k n).tpc = c.tpc := rfl
@[simp] theorem Core.bump_thb (c : Core) (k n : Nat) : (c.bump k n).thb = c.thb := rfl
@[simp] theorem Core.bump_qmode (c : Core) (k n : Nat) : (c.bump k n).qmode = c.qmode := rfl
@[simp] theorem Core.bump_rbound (c : Core) (k n : Nat) : (c.bump k n).rbound = c.rbound := rfl
@[simp] theorem Core.bump_chaselim (c : Core) (k n : Nat) : (c.bump k n).chaselim = c.chaselim := rfl
@[simp] theorem Core.bump_group (c : Core) (k n : Nat) : (c.bump k n).group = c.group := rfl
@[simp] theorem Core.bump_gang (c : Core) (k n : Nat) : (c.bump k n).gang = c.gang := rfl
@[simp] theorem Core.bump_node (c : Core) (k n : Nat) : (c.bump k n).node = c.node := rfl
@[simp] theorem Core.bump_args (c : Core) (k n : Nat) : (c.bump k n).args = c.args := rfl
@[simp] theorem Core.bump_rqtag (c : Core) (k n : Nat) : (c.bump k n).rqtag = c.rqtag := rfl
@[simp] theorem Core.bump_part (c : Core) (k n : Nat) : (c.bump k n).part = c.part := rfl
@[simp] theorem Core.bump_cycle (c : Core) (k n : Nat) : (c.bump k n).cycle = c.cycle := rfl
@[simp] theorem Core.bump_retired (c : Core) (k n : Nat) : (c.bump k n).retired = c.retired := rfl
@[simp] theorem Core.bump_tstate (c : Core) (k n : Nat) : (c.bump k n).tstate = c.tstate := rfl
@[simp] theorem Core.bump_held (c : Core) (k n : Nat) : (c.bump k n).held = c.held := rfl
@[simp] theorem Core.bump_rg (c : Core) (k n : Nat) : (c.bump k n).rg = c.rg := rfl
@[simp] theorem Core.bump_textva (c : Core) (k n : Nat) : (c.bump k n).textva = c.textva := rfl
@[simp] theorem Core.bump_imgid (c : Core) (k n : Nat) : (c.bump k n).imgid = c.imgid := rfl
@[simp] theorem Core.bump_plan (c : Core) (k n : Nat) : (c.bump k n).plan = c.plan := rfl
@[simp] theorem Core.bump_s1root (c : Core) (k n : Nat) : (c.bump k n).s1root = c.s1root := rfl
@[simp] theorem Core.bump_sptva (c : Core) (k n : Nat) : (c.bump k n).sptva = c.sptva := rfl
@[simp] theorem Core.bump_parked (c : Core) (k n : Nat) : (c.bump k n).parked = c.parked := rfl
@[simp] theorem Core.bump_defrec (c : Core) (k n : Nat) : (c.bump k n).defrec = c.defrec := rfl
@[simp] theorem Core.bump_pins (c : Core) (k n : Nat) : (c.bump k n).pins = c.pins := rfl
@[simp] theorem Core.bump_curve (c : Core) (k n : Nat) : (c.bump k n).curve = c.curve := rfl
@[simp] theorem Core.bump_bmap (c : Core) (k n : Nat) : (c.bump k n).bmap = c.bmap := rfl
@[simp] theorem Core.bump_timer (c : Core) (k n : Nat) : (c.bump k n).timer = c.timer := rfl
@[simp] theorem Core.bump_timerAt (c : Core) (k n : Nat) : (c.bump k n).timerAt = c.timerAt := rfl
@[simp] theorem Core.bump_waitOn (c : Core) (k n : Nat) : (c.bump k n).waitOn = c.waitOn := rfl
@[simp] theorem Core.bump_waitBroken (c : Core) (k n : Nat) : (c.bump k n).waitBroken = c.waitBroken := rfl
@[simp] theorem Core.bump_waitDone (c : Core) (k n : Nat) : (c.bump k n).waitDone = c.waitDone := rfl
@[simp] theorem Core.bump_waitBar (c : Core) (k n : Nat) : (c.bump k n).waitBar = c.waitBar := rfl
@[simp] theorem Core.bump_barMet (c : Core) (k n : Nat) : (c.bump k n).barMet = c.barMet := rfl
@[simp] theorem Core.bump_since (c : Core) (k n : Nat) : (c.bump k n).since = c.since := rfl
@[simp] theorem Core.bump_paged (c : Core) (k n : Nat) : (c.bump k n).paged = c.paged := rfl
@[simp] theorem Core.bump_pw (c : Core) (k n : Nat) : (c.bump k n).pw = c.pw := rfl
@[simp] theorem Core.bump_qstall (c : Core) (k n : Nat) : (c.bump k n).qstall = c.qstall := rfl
@[simp] theorem Core.bump_sig (c : Core) (k n : Nat) : (c.bump k n).sig = c.sig := rfl
@[simp] theorem Core.bump_sigq (c : Core) (k n : Nat) : (c.bump k n).sigq = c.sigq := rfl

theorem Core.wrIdx_zero (c : Core) (v : BitVec 64) : c.wrIdx 0 v = c := rfl
theorem Core.wrIdx_s (c : Core) {k : Nat} (v : BitVec 64) (h : k ≠ 0) : (c.wrIdx k v).s = sset 0 c.s k v := by
  unfold Core.wrIdx; rw [if_neg h]
theorem Core.wrA_a (c : Core) (n : Nat) (v : BitVec 32) : (c.wrA n v).a = sset 0 c.a n v := rfl
theorem Core.wrStep_step (c : Core) (n l : Nat) (v : BitVec 32) : (c.wrStep n l v).step = sset 0 c.step (n * 6 + l) v := rfl
theorem Core.wrLc_lc (c : Core) (n : Nat) (v : BitVec 32) : (c.wrLc n v).lc = sset 0 c.lc n v := rfl
theorem Core.wrB_br (c : Core) (n : Nat) (v : BitVec 32) : (c.wrB n v).br = sset none c.br n (some v) := rfl
theorem Core.wrD_d (c : Core) (n : Nat) (v : Desc) : (c.wrD n v).d = sset {} c.d n v := rfl

end Sys2Proof.Machine
end

