-- ==== Sys2Proof/Laws/Registers.lean ====
section
/-! SUPPORT. Reading a register after writing one: the scalar, predicate, address, step, loop-count, branch, vector-mask and
descriptor registers of the core. -/

namespace Sys2Proof.Machine

/-! ### Scalar registers (R68, R69) -/

@[simp] theorem Core.rdS_zero (c : Core) : c.rdS 0 = 0 := rfl
@[simp] theorem Core.wrS_zero (c : Core) (v : BitVec 64) : c.wrS 0 v = c := by simp [Core.wrS, Core.sIdx, Core.wrIdx]
/-- Within one level, different names of scalar registers are different registers of the file. -/
theorem Core.sIdx_inj (c : Core) (m n : Nat) (hm : m < 64) (hn : n < 64) : c.sIdx m = c.sIdx n ↔ m = n := by
  unfold Core.sIdx; split <;> split <;> simp_all <;> omega
/-- A scalar register after a write to one, s0 included. -/
theorem Core.rdS_wrS (c : Core) (m n : Nat) (v : BitVec 64) (hm : m < 64) (hn : n < 64) :
    (c.wrS m v).rdS n = if n = m ∧ n ≠ 0 then v else c.rdS n := by
  by_cases h0 : m = 0
  · subst h0; by_cases hn0 : n = 0 <;> simp [hn0]
  · have hk : c.sIdx m ≠ 0 := by unfold Core.sIdx; split <;> omega
    have hi : (c.wrS m v).sIdx n = c.sIdx n := by unfold Core.wrS Core.wrIdx; rw [if_neg hk]; rfl
    by_cases hn0 : n = 0
    · subst hn0; simp
    · simp only [Core.rdS, hn0, if_false, hi, ne_eq, not_false_eq_true, and_true]
      rw [Core.wrS, Core.wrIdx, if_neg hk]
      show sget 0 (sset 0 c.s (c.sIdx m) v) (c.sIdx n) = _
      simp only [sget_sset, Core.sIdx_inj c n m hn hm]

/-! ### Predicates: p0 reads true -/

@[simp] theorem Core.rdP_zero (c : Core) : c.rdP 0 = true := rfl
@[simp] theorem Core.wrP_zero (c : Core) (v : Bool) : c.wrP 0 v = c := rfl
/-- A predicate after a write to one, p0 included. -/
theorem Core.rdP_wrP (c : Core) (m n : Nat) (v : Bool) (hm : m < 16) (hn : n < 16) :
    (c.wrP m v).rdP n = if n = m ∧ n ≠ 0 then v else c.rdP n := by
  by_cases h0 : m = 0
  · subst h0; by_cases hn0 : n = 0 <;> simp [hn0]
  · by_cases hn0 : n = 0
    · subst hn0; simp
    · have e : (n == 0) = false := by simp [hn0]
      simp only [Core.rdP, Core.wrP, h0, if_false, e, Bool.false_or]
      by_cases hnm : n = m
      · subst hnm; cases v <;> simp [hn, hn0]
      · have hs : (1#16 <<< m).getLsbD n = false := by
          simp only [BitVec.getLsbD_shiftLeft, BitVec.getLsbD_one, Bool.and_eq_false_iff, decide_eq_false_iff_not,
            decide_eq_true_eq, Bool.not_eq_eq_eq_not, Bool.not_false]
          omega
        cases v
        · simp only [Bool.false_eq_true, if_false, BitVec.getLsbD_and, BitVec.getLsbD_not, hs, hn, hnm, false_and, decide_true, Bool.not_false,
            Bool.and_true]
        · simp only [if_true, BitVec.getLsbD_or, hs, hnm, false_and, if_false, Bool.or_false]

/-! ### The other files -/

theorem Core.rdA_wrA (c : Core) (m n : Nat) (v : BitVec 32) : (c.wrA m v).rdA n = if n = m then v else c.rdA n := sget_sset 0 c.a m n v
theorem Core.rdLc_wrLc (c : Core) (m n : Nat) (v : BitVec 32) : (c.wrLc m v).rdLc n = if n = m then v else c.rdLc n := sget_sset 0 c.lc m n v
theorem Core.rdD_wrD (c : Core) (m n : Nat) (v : Desc) : (c.wrD m v).rdD n = if n = m then v else c.rdD n := sget_sset ({} : Desc) c.d m n v
theorem Core.rdStep_wrStep (c : Core) (m n i j : Nat) (v : BitVec 32) (hi : i < 6) (hj : j < 6) :
    (c.wrStep m i v).rdStep n j = if n = m ∧ j = i then v else c.rdStep n j := by
  unfold Core.rdStep Core.wrStep
  rw [sget_sset]
  by_cases h : n = m ∧ j = i
  · simp [h.1, h.2]
  · rw [if_neg h, if_neg (by omega)]
theorem Core.rdB_wrB (c : Core) (m n : Nat) (v : BitVec 32) : (c.wrB m v).rdB n = if n = m then v else c.rdB n := by
  unfold Core.rdB Core.wrB
  rw [sget_sset]
  split <;> rfl
@[simp] theorem Core.rdQ_zero (c : Core) : c.rdQ 0 = BitVec.allOnes 64 := rfl
/-- A vector mask after a write to one: q0 keeps reading all ones. -/
theorem Core.rdQ_wrQ (c : Core) (m n : Nat) (v : BitVec 64) :
    (c.wrQ m v).rdQ n = if n = m ∧ n ≠ 0 then v else c.rdQ n := by
  by_cases hn0 : n = 0
  · subst hn0; simp
  · by_cases h0 : m = 0
    · simp [Core.wrQ, h0, hn0]
    · simp only [Core.rdQ, Core.wrQ, hn0, h0, if_false, ne_eq, not_false_eq_true, and_true]
      exact sget_sset 0 c.q m n v

/-! ### Partitions and windows -/

theorem State.part_setPart (s : State) (p q : Nat) (v : Part) : (s.setPart p v).part q = if q = p then v else s.part q :=
  sget_sset ({} : Part) s.sys.parts p q v
theorem State.vf_setVf (s : State) (p q : Nat) (v : Vf) : (s.setVf p v).vf q = if q = p then v else s.vf q :=
  sget_sset ({} : Vf) s.sys.vfs p q v

end Sys2Proof.Machine
end

