-- ==== Sys2Proof/Laws/Traps.lean ====
section
/-! SUPPORT. What taking an exception and returning from one do (R155, R156, R162). -/

namespace Sys2Proof.Machine

/-- Landing results writes scalar registers and their deferred records, nothing else. -/
theorem Core.foldl_form {β : Type} (f : Core → β → Core) (hf : ∀ c b, ∃ x y, f c b = { c with s := x, defrec := y }) (l : List β) :
    ∀ c : Core, ∃ x y, l.foldl f c = { c with s := x, defrec := y } := by
  induction l with
  | nil => exact fun c => ⟨_, _, rfl⟩
  | cons b r ih =>
    intro c
    obtain ⟨x, y, h⟩ := hf c b
    obtain ⟨x', y', h'⟩ := ih (f c b)
    exact ⟨x', y', by rw [List.foldl_cons, h', h]⟩
/-- Freeze: the outstanding scalar results land, the pins end, and waiting stores wait no more. -/
theorem Core.freeze_form (c : Core) : ∃ x y, c.freeze = { c with
    s := x, defrec := y, muldiv := [], pend := [], pins := [], paged := none, parked := c.parked.map fun p => { p with waits := none } } := by
  unfold Core.freeze Core.landAll Core.landMulDiv
  obtain ⟨x, y, e⟩ := Core.foldl_form (fun (c : Core) (m : MulDiv) => c.wrIdx m.dest m.value)
    (fun c m => by unfold Core.wrIdx; split <;> exact ⟨_, _, rfl⟩) c.muldiv { c with muldiv := [] }
  obtain ⟨x', y', e'⟩ := Core.foldl_form (fun (c : Core) (p : SPend) => c.land p)
    (fun c p => by unfold Core.land; split <;> exact ⟨_, _, rfl⟩) c.pend { c with muldiv := [], s := x, defrec := y, pend := [] }
  simp only [e]
  rw [e']
  exact ⟨_, _, rfl⟩

/-- A trap that is not the consumption of poison, at group level with a handler: the core freezes and enters the handler, and waits on nothing more. -/
theorem State.takeTrap_enters (s : State) (cause : Nat) (tval : BitVec 64) (stage : Stage) (async : Bool) (hl : s.core.lvl = false)
    (ht : s.core.thbOff = false) (h0 : cause ≠ 0x30) (h1 : cause ≠ 0x31) :
    s.takeTrap cause tval stage async
      = (s.setWaiting none).onCore fun c => c.freeze.enterTrap cause tval stage async := by
  obtain ⟨x, y, e⟩ := Core.freeze_form s.core
  have ho : s.core.freeze.lvl = false ∧ s.core.freeze.thbOff = false := by rw [e]; exact ⟨hl, ht⟩
  have hn : s.core.freeze.num = s.core.num := by rw [e]
  simp only [State.takeTrap, hl, h0, h1, State.onCore, State.setWaiting, State.onSys, ho.1, ho.2, hn, Bool.false_and, Bool.or_false, decide_false,
    Bool.false_eq_true, if_false]
/-- An asynchronous cause at handler level is held (R173). -/
theorem State.takeTrap_held (s : State) (cause : Nat) (tval : BitVec 64) (stage : Stage) (hl : s.core.lvl = true)
    (ht : s.core.thbOff = false) : s.takeTrap cause tval stage true = s.onCore fun c => c.raise ⟨cause, tval, stage⟩ := by
  simp [State.takeTrap, hl, ht]
/-- A trap at handler level, or without a handler, is a nested stop (R158). -/
theorem State.takeTrap_nested (s : State) (cause : Nat) (tval : BitVec 64) (stage : Stage) (h : s.core.lvl = true ∨ s.core.thbOff = true)
    (h0 : cause ≠ 0x30) (h1 : cause ≠ 0x31) :
    s.takeTrap cause tval stage false = ((s.onCore Core.freeze).setWaiting none).nestedStop cause tval stage false := by
  obtain ⟨x, y, e⟩ := Core.freeze_form s.core
  have ho : (s.core.freeze.lvl || s.core.freeze.thbOff) = true := by
    rw [e]; show (s.core.lvl || s.core.thbOff) = true; rcases h with h | h <;> simp [h]
  simp only [State.takeTrap, h0, h1, State.onCore, State.setWaiting, State.onSys, ho, Bool.and_false, Bool.or_false, decide_false, Bool.false_eq_true,
    if_false, if_true]
  rfl

/-! ### The handler's entry and its end -/

variable (c : Core) (cause : Nat) (tval : BitVec 64) (stage : Stage) (async : Bool)

@[simp] theorem Core.enterTrap_tpc : (c.enterTrap cause tval stage async).tpc = c.pc := rfl
@[simp] theorem Core.enterTrap_pc : (c.enterTrap cause tval stage async).pc = c.thbBase := rfl
@[simp] theorem Core.enterTrap_lvl : (c.enterTrap cause tval stage async).lvl = true := rfl
@[simp] theorem Core.enterTrap_clk : (c.enterTrap cause tval stage async).clk = true := rfl
@[simp] theorem Core.enterTrap_cause : (c.enterTrap cause tval stage async).cause = causeWord cause 0 async := rfl
@[simp] theorem Core.enterTrap_tval : (c.enterTrap cause tval stage async).tval = tval := rfl
@[simp] theorem Core.enterTrap_tstage : (c.enterTrap cause tval stage async).tstage = stage.word := rfl
@[simp] theorem Core.enterTrap_tstate : (c.enterTrap cause tval stage async).tstate = some c.saveTrap := rfl
@[simp] theorem Core.enterTrap_s : (c.enterTrap cause tval stage async).s = c.s := rfl
@[simp] theorem Core.enterTrap_pr : (c.enterTrap cause tval stage async).pr = c.pr := rfl
@[simp] theorem Core.enterTrap_a : (c.enterTrap cause tval stage async).a = c.a := rfl
@[simp] theorem Core.enterTrap_vwa : (c.enterTrap cause tval stage async).vwa = c.vwa := rfl
@[simp] theorem Core.enterTrap_vwb : (c.enterTrap cause tval stage async).vwb = c.vwb := rfl
@[simp] theorem Core.enterTrap_vrm : (c.enterTrap cause tval stage async).vrm = c.vrm := rfl
@[simp] theorem Core.enterTrap_thb : (c.enterTrap cause tval stage async).thb = c.thb := rfl
@[simp] theorem Core.leaveTrap_lvl : c.leaveTrap.lvl = false := by unfold Core.leaveTrap; split <;> rfl
@[simp] theorem Core.leaveTrap_clk : c.leaveTrap.clk = false := by unfold Core.leaveTrap; split <;> rfl
@[simp] theorem Core.leaveTrap_pc : c.leaveTrap.pc = c.tpc := by unfold Core.leaveTrap; split <;> rfl
@[simp] theorem Core.leaveTrap_s : c.leaveTrap.s = c.s := by unfold Core.leaveTrap; split <;> rfl
@[simp] theorem Core.leaveTrap_cause : c.leaveTrap.cause = c.cause := by unfold Core.leaveTrap; split <;> rfl

/-- What a trap saves and RTE gives back, with the loop to be read again at the next boundary (R85, R162). -/
theorem Core.leaveTrap_saved (t : TrapSt) (h : c.tstate = some t) :
    c.leaveTrap.owed = t.owed ∧ c.leaveTrap.xfer = t.xfer ∧ c.leaveTrap.vwa = t.vwa ∧ c.leaveTrap.vwb = t.vwb
      ∧ c.leaveTrap.srcnt = t.srcnt ∧ c.leaveTrap.vfly = t.records := by
  simp [Core.leaveTrap, h]

end Sys2Proof.Machine
end

