-- ==== Sys2Proof/Laws/Walks.lean ====
section
/-! SUPPORT. What a walk of the memory-side tables can change (R299, R305, R306, R308): machine memory's bytes and what goes with
them, the translation cache, and a partition's dirty log; and that memory keeps its canonical form. -/

namespace Sys2Proof.Machine

/-- The memory `m` but for its bytes, the stacks' image, the poison marks, the translation cache, the pages' keys and what says that a pin is in
the way. -/
def Mem.Like (m n : Mem) : Prop :=
  ∃ b st po tc bl sd rt ks, n = { m with bytes := b, stale := st, poison := po, tcache := tc, keys := ks, blocked := bl, stood := sd, retry := rt }

theorem Mem.Like.rfl (m : Mem) : m.Like m := ⟨m.bytes, m.stale, m.poison, m.tcache, m.blocked, m.stood, m.retry, m.keys, Eq.refl _⟩
theorem Mem.Like.trans {a b c : Mem} (h : a.Like b) (k : b.Like c) : a.Like c := by
  obtain ⟨_, _, _, _, _, _, _, _, e⟩ := h
  obtain ⟨b, st, po, tc, bl, sd, rt, ks, f⟩ := k
  exact ⟨b, st, po, tc, bl, sd, rt, ks, by rw [f, e]⟩
theorem Mem.like_foldl {β : Type} (f : Mem → β → Mem) (hf : ∀ (m : Mem) (x : β), m.Like (f m x)) (l : List β) : ∀ m : Mem, m.Like (l.foldl f m) := by
  induction l with
  | nil => exact fun m => Mem.Like.rfl m
  | cons x l ih => exact fun m => (hf m x).trans (ih _)
theorem Mem.like_wr (m : Mem) (a : Nat) (v : BitVec 8) : m.Like (m.wr a v) := ⟨_, _, _, _, _, _, _, _, rfl⟩
theorem Mem.like_wrAll (bs : List (BitVec 8)) : ∀ (m : Mem) (a : Nat), m.Like (m.wrAll a bs) := by
  induction bs with
  | nil => exact fun m _ => Mem.Like.rfl m
  | cons b bs ih => exact fun m a => (Mem.like_wr m a b).trans (ih _ _)
theorem Mem.like_wrN (m : Mem) (a : Nat) (bs : List (BitVec 8)) : m.Like (m.wrN a bs) :=
  (Mem.like_wrAll bs m a).trans ⟨_, _, _, _, _, _, _, _, rfl⟩
theorem Mem.like_wr64 (m : Mem) (a : Nat) (v : BitVec 64) : m.Like (m.wr64 a v) := Mem.like_wrN m a _
theorem Mem.like_copyPage (m : Mem) (a b : Nat) : m.Like (copyPage m a b) := by
  unfold copyPage
  exact Mem.Like.trans ⟨_, _, _, _, _, _, _, _, rfl⟩ (Mem.like_foldl _ (fun m x => Mem.like_wr m _ _) _ _)

/-- Landing a leaf writes memory and keeps its form. -/
theorem landLeaf_like {m n : Mem} {r2 : BitVec 64} {v : Moved} {f r : Nat} (h : landLeaf m r2 v f r = .landed n) :
    m.Like n ∧ (Memory.wf m.bytes = true → Memory.wf n.bytes = true) := by
  unfold landLeaf at h
  dsimp only at h
  split at h
  · exact absurd h (by simp)
  · split at h
    · exact absurd h (by simp)
    · split at h
      · rw [← Landing.landed.inj h]
        refine ⟨((((Mem.like_copyPage _ _ _).trans (Mem.like_wr64 _ _ _)).trans (Mem.like_wr64 _ _ _)).trans (Mem.like_wr64 _ _ _)).trans
          (Mem.like_wr64 _ _ _), fun w => ?_⟩
        exact Memory.wf_wr64 _ _ _ (Memory.wf_wr64 _ _ _ (Memory.wf_wr64 _ _ _ (Memory.wf_wr64 _ _ _ (Memory.wf_copyPage _ _ _ w))))
      all_goals exact absurd h (by simp)

/-- The state `s` but for what a walk can change, memory's canonical form kept. -/
def State.Walked (s t : State) : Prop :=
  (∃ m ps f, t = { s with mem := m, sys := { s.sys with parts := ps }, free := f } ∧ s.mem.Like m)
    ∧ (Memory.wf s.mem.bytes = true → Memory.wf t.mem.bytes = true)

theorem State.Walked.rfl (s : State) : s.Walked s := ⟨⟨s.mem, s.sys.parts, s.free, Eq.refl _, Mem.Like.rfl _⟩, id⟩
theorem State.Walked.trans {a b c : State} (h : a.Walked b) (k : b.Walked c) : a.Walked c := by
  obtain ⟨⟨_, _, _, e, l⟩, w⟩ := h
  obtain ⟨⟨_, _, _, f, l'⟩, w'⟩ := k
  subst e
  exact ⟨⟨_, _, _, f, l.trans l'⟩, w' ∘ w⟩
theorem State.walked_mem {s : State} {m : Mem} (h : s.mem.Like m) (w : Memory.wf s.mem.bytes = true → Memory.wf m.bytes = true) :
    s.Walked { s with mem := m } := ⟨⟨_, _, _, Eq.refl _, h⟩, w⟩

theorem State.walked_landTwo {s t : State} {p : Nat} {v : Moved} (h : s.landTwo p v = some t) : s.Walked t := by
  unfold State.landTwo at h
  split at h
  · rename_i m hm
    rw [← Option.some.inj h]
    exact State.walked_mem (landLeaf_like hm).1 (landLeaf_like hm).2
  · exact absurd h (by simp)
theorem State.walked_landWalk (r : BitVec 64) (ia n : Nat) : ∀ s : State, s.Walked (s.landWalk r ia n).2 := by
  induction n with
  | zero => exact State.Walked.rfl
  | succ n ih =>
    intro s
    unfold State.landWalk
    dsimp only
    split
    · split
      · exact State.Walked.rfl s
      · split
        · rename_i m hm
          have h := landLeaf_like hm
          exact (State.walked_mem h.1 h.2).trans (ih _)
        · exact State.Walked.rfl s
        · exact State.Walked.rfl s
        · split
          · rename_i t ht; exact (State.walked_landTwo ht).trans (ih _)
          · exact State.Walked.rfl s
    · exact State.Walked.rfl s
theorem State.walked_wr64 (s : State) (a : Nat) (v : BitVec 64) : s.Walked { s with mem := s.mem.wr64 a v } :=
  State.walked_mem (Mem.like_wr64 _ _ _) (Memory.wf_wr64 _ _ _)
theorem State.walked_markDirty (s : State) (p g : Nat) : s.Walked (s.markDirty p g) := by
  unfold State.markDirty
  dsimp only
  split
  · exact State.Walked.rfl s
  · split
    · exact ⟨⟨_, _, _, Eq.refl _, Mem.Like.rfl _⟩, id⟩
    · exact State.walked_wr64 _ _ _
theorem State.walked_grant (s : State) (p : Nat) (need : Perm) (g : Nat) (l1 : Option Leaf) (l2 : Leaf) :
    s.Walked (s.grant p need g l1 l2).2 := by
  unfold State.grant
  have hput : ∀ s : State, s.Walked (if grantWord l2.entry.word need false = l2.entry.word then s
      else { s with mem := s.mem.wr64 l2.entry.pa (grantWord l2.entry.word need false) }) := by
    intro s; split
    · exact State.Walked.rfl s
    · exact State.walked_wr64 _ _ _
  have hlog : ∀ s : State, s.Walked (if Perm.within needW need then s.markDirty p (g / 65536) else s) := by
    intro s; split
    · exact State.walked_markDirty _ _ _
    · exact State.Walked.rfl s
  cases l1 with
  | none => exact (hput s).trans (hlog _)
  | some l =>
    dsimp only [Option.map]
    split
    · exact (hput s).trans (hlog _)
    · split
      · exact ((State.walked_wr64 _ _ _).trans (hput _)).trans (hlog _)
      · exact State.Walked.rfl s
theorem State.walked_read (s : State) (as : List Nat) : s.Walked (s.walked as) := by
  unfold State.walked
  dsimp only
  split
  · exact State.walked_mem ⟨_, _, _, _, _, _, _, _, rfl⟩ id
  · exact State.Walked.rfl s
theorem State.walked_view (s : State) (pa k : Nat) : s.Walked (s.onMem fun m => m.view pa k) := by
  refine State.walked_mem ?_ (Memory.wf_view _ _ _)
  unfold Mem.view
  dsimp only
  split
  · exact Mem.Like.rfl _
  · exact ⟨_, _, _, _, _, _, _, _, rfl⟩
theorem State.walked_enter (s : State) (t : TEntry) : s.Walked (s.enter t) := by
  unfold State.enter
  dsimp only
  split
  · exact State.walked_mem ⟨_, _, _, _, _, _, _, _, rfl⟩ id
  · exact ⟨⟨_, _, _, rfl, _, _, _, _, _, _, _, _, rfl⟩, id⟩
/-- A walk changes no more than machine memory's bytes, the translation caches and the partitions' dirty logs. -/
theorem State.walked_walk (s : State) (r : BitVec 64) (ia : Nat) (need : Perm) (cache : Bool) : s.Walked (s.walk r ia need cache).2 := by
  unfold State.walk
  dsimp only
  split
  · split
    · exact (State.walked_markDirty _ _ _).trans (State.walked_view _ _ _)
    · exact State.walked_view _ _ _
  · have hl := State.walked_landWalk r ia 7 s
    split
    · rename_i h; rw [h] at hl; exact hl
    · rename_i h; rw [h] at hl; exact hl
    · rename_i h
      rw [h] at hl
      split
      · exact hl
      · split
        · exact hl
        · rename_i g p1 l1 l2 u _ _
          have hr := State.walked_read u (l2.entry.via ++ [l2.entry.pa] ++ (l1.map fun l => l.entry.via ++ [l.entry.pa]).getD [])
          have hg := State.walked_grant (u.walked (l2.entry.via ++ [l2.entry.pa] ++ (l1.map fun l => l.entry.via ++ [l.entry.pa]).getD []))
            (partOfIa ia) need g l1 l2
          split
          · rename_i e; rw [e] at hg; exact (hl.trans hr).trans hg
          · rename_i e
            rw [e] at hg
            refine ((hl.trans hr).trans hg).trans ?_
            split
            · exact (State.walked_enter _ _).trans (State.walked_view _ _ _)
            · exact State.walked_view _ _ _

/-! ### What a walk leaves -/

variable (s : State) (r : BitVec 64) (ia : Nat) (need : Perm) (cache : Bool)

@[simp] theorem State.walk_core : (s.walk r ia need cache).2.core = s.core := by
  obtain ⟨⟨_, _, _, e, _⟩, _⟩ := s.walked_walk r ia need cache; rw [e]
@[simp] theorem State.walk_spad : (s.walk r ia need cache).2.spad = s.spad := by
  obtain ⟨⟨_, _, _, e, _⟩, _⟩ := s.walked_walk r ia need cache; rw [e]
@[simp] theorem State.walk_eng : (s.walk r ia need cache).2.eng = s.eng := by
  obtain ⟨⟨_, _, _, e, _⟩, _⟩ := s.walked_walk r ia need cache; rw [e]
@[simp] theorem State.walk_others : (s.walk r ia need cache).2.others = s.others := by
  obtain ⟨⟨_, _, _, e, _⟩, _⟩ := s.walked_walk r ia need cache; rw [e]
@[simp] theorem State.walk_agenda : (s.walk r ia need cache).2.agenda = s.agenda := by
  obtain ⟨⟨_, _, _, e, _⟩, _⟩ := s.walked_walk r ia need cache; rw [e]
@[simp] theorem State.walk_lines : (s.walk r ia need cache).2.mem.lines = s.mem.lines := by
  obtain ⟨⟨_, _, _, e, _, _, _, _, _, _, _, _, l⟩, _⟩ := s.walked_walk r ia need cache; rw [e, l]
@[simp] theorem State.walk_l1 : (s.walk r ia need cache).2.mem.l1 = s.mem.l1 := by
  obtain ⟨⟨_, _, _, e, _, _, _, _, _, _, _, _, l⟩, _⟩ := s.walked_walk r ia need cache; rw [e, l]
@[simp] theorem State.walk_recs : (s.walk r ia need cache).2.sys.recs = s.sys.recs := by
  obtain ⟨⟨_, _, _, e, _⟩, _⟩ := s.walked_walk r ia need cache; rw [e]
@[simp] theorem State.walk_nodes : (s.walk r ia need cache).2.sys.nodes = s.sys.nodes := by
  obtain ⟨⟨_, _, _, e, _⟩, _⟩ := s.walked_walk r ia need cache; rw [e]
theorem State.walk_wf (h : Memory.wf s.mem.bytes = true) : Memory.wf (s.walk r ia need cache).2.mem.bytes = true :=
  (s.walked_walk r ia need cache).2 h

end Sys2Proof.Machine
end

