-- ==== Sys2Proof/Tests/Slice0.lean ====
section
/-! SUPPORT. Tests: what the checks of well-formedness refuse, words written out from the encodings, single steps on small states, and
states and operands that meet the hypotheses of the statements. -/

namespace Sys2Proof.Tests

-- The kernel checks these theorems one after the other; elaborating them in parallel only keeps threads waiting.
set_option Elab.async false

open Sys2Proof Sys2Proof.Machine Sys2Proof.Safety Sys2Proof.Claim

/-! ### States and hypotheses -/

/-- A running group at group level with a handler, nothing in flight; s1 to s4 hold values. -/
def run : State :=
  { core := { run := .running, fresh := false, thb := 0x1000, pc := 0x200
              s := [(1, 5), (2, 0xFFFFFFFFFFFFFFFD), (3, 0x8000000000000000), (4, 0x100000)] } }
/-- The same at handler level. -/
def handler : State := run.onCore fun c => { c with lvl := true, clk := true, cause := 0x05, tval := 7 }

theorem rdy {s : State} {p : BitVec 4} {rs ws : List Nat} (h : s.core.rdP p.toNat = true) (hp : s.core.pend = [])
    (hm : s.core.muldiv = []) (hv : s.core.vfly = []) (hd : s.core.defrec = []) : Ready s p rs ws := by
  refine ⟨h, fun n _ _ => ?_, fun n _ _ => by rw [hd]; rfl⟩
  simp [Core.pending, hp, hm, hv]

theorem witness_binary : ∀ e ∈ binary, ∃ (w : RForm) (s : State), (e.1 w).wf = true ∧ RdyS s w.p [w.a, w.b] [w.d] := by
  intro e he
  refine ⟨⟨0, 63, 1, 2, 0⟩, run, ?_, rdy rfl rfl rfl rfl rfl⟩
  revert e; decide

theorem witness_UnaryArithmetic : ∀ e ∈ unary, ∃ (w : RForm) (s : State), (e.1 w).wf = true ∧ RdyS s w.p [w.a] [w.d] := by
  intro e he
  refine ⟨⟨0, 63, 3, 0, 0⟩, run, ?_, rdy rfl rfl rfl rfl rfl⟩
  revert e; decide

theorem witness_ImmediateArithmetic :
    (∀ e ∈ immediate, ∃ (w : IForm) (s : State), (e.1 w).wf = true ∧ w.x = 1 ∧ RdyS s w.p [w.a] [w.d])
    ∧ (∃ (w : IForm) (s : State), (Instr.li w).wf = true ∧ RdyS s w.p [] [w.d])
    ∧ (∃ w : BitVec 32, 0x24 ≤ opcode w ∧ opcode w ≤ 0x26 ∧ bits w 24 1 = 0 ∧ 64 ≤ bits w 0 8)
    ∧ (∃ w e : BitVec 32, 0x24 ≤ opcode w ∧ opcode w ≤ 0x26 ∧ bits w 24 1 = 1 ∧ 64 ≤ e.toNat)
    ∧ (∃ w : BitVec 32, opcode w = 0x27 ∧ bits w 8 6 ≠ 0)
    ∧ ∃ w : BitVec 32, 0x20 ≤ opcode w ∧ opcode w ≤ 0x28 ∧ bits w 24 1 = 1 ∧ bits w 0 8 ≠ 0 := by
  refine ⟨?_, ⟨⟨0, 8, 0, 0, 0x80, 0⟩, run, by decide, rdy rfl rfl rfl rfl rfl⟩, ⟨0x48000040, by decide⟩,
    ⟨0x4D000000, 64, by decide⟩, ⟨0x4E000100, by decide⟩, ⟨0x51000001, by decide⟩⟩
  intro e he
  refine ⟨⟨0, 63, 1, 1, 0, 63⟩, run, ?_, rfl, rdy rfl rfl rfl rfl rfl⟩
  revert e; decide

/-- One divide in progress. -/
def dividing : State := run.onCore fun c => { c with muldiv := [⟨9, true, 3⟩] }

theorem witness_MultiplyDivideSelect :
    (∀ e ∈ muldiv, ∃ (w : RForm) (s : State), (e.1 w).wf = true ∧ RdyS s w.p [w.a, w.b] [w.d]
      ∧ (e.2.1 = true → ∀ m ∈ s.core.muldiv, m.divide = false))
    ∧ (∃ (s : State) (k : Nat) (m : MulDiv), s.core.muldiv[k]? = some m)
    ∧ (∃ e ∈ muldiv, ∃ (w : RForm) (s : State), e.2.1 = true ∧ RdyS s w.p [w.a, w.b] [w.d] ∧ ∃ m ∈ s.core.muldiv, m.divide = true)
    ∧ (∃ (w : XForm) (s : State), (Instr.sel w).wf = true ∧ RdyS s w.p [w.a, w.b] [w.d])
    ∧ (∃ (w : XForm) (s : State), s.core.rdP w.p.toNat = false) := by
  refine ⟨?_, ⟨dividing, 0, _, rfl⟩, ⟨_, List.mem_cons_of_mem _ (List.mem_cons_of_mem _ (List.mem_cons_of_mem _ List.mem_cons_self)),
    ⟨0, 5, 1, 2, 0⟩, dividing, rfl, ⟨rfl, ?_, ?_⟩, _, List.mem_cons_self, rfl⟩,
    ⟨⟨0, 5, 1, 2, 0, 0x1F⟩, run, by decide, rdy rfl rfl rfl rfl rfl⟩, ⟨⟨1, 5, 1, 2, 0, 0⟩, run, by decide⟩⟩
  · intro e he
    refine ⟨⟨0, 0, 3, 2, 0⟩, run, ?_, rdy rfl rfl rfl rfl rfl, fun _ m hm => by cases hm⟩
    revert e; decide
  · decide
  · intro n _ _; rfl

theorem witness_Predicates :
    (∃ (w : PForm) (s : State), (Instr.cmp w).wf = true ∧ w.c = 11 ∧ RdyS s w.p [w.a, w.i] [])
    ∧ (∃ (w : PForm) (s : State), (Instr.cmpi w).wf = true ∧ w.x = 1 ∧ RdyS s w.p [w.a] [])
    ∧ (∃ (w : PLogForm) (s : State), RdyS s w.p [] []) :=
  ⟨⟨⟨0, 15, 11, 1, 0, 2, 0⟩, run, by decide, rfl, rdy rfl rfl rfl rfl rfl⟩,
    ⟨⟨0, 0, 0, 1, 1, 0, 0x80000000⟩, run, by decide, rfl, rdy rfl rfl rfl rfl rfl⟩,
    ⟨⟨0, 1, 1, 2, 1, 3⟩, run, rdy rfl rfl rfl rfl rfl⟩⟩

theorem witness_AddressRegisters :
    (∃ (w : IForm) (s : State), (Instr.aadd w).wf = true ∧ RdyS s w.p [] [])
    ∧ (∀ f : BitVec 2, ∃ (w : RForm) (s : State), w.f = f ∧ RdyS s w.p [w.a] [w.d])
    ∧ (∃ (w : IForm) (s : State), (Instr.astep w).wf = true ∧ w.a = 5 ∧ RdyS s w.p [] [])
    ∧ ∃ (w : IForm) (s : State), (Instr.lcset w).wf = true ∧ w.d = 5 ∧ RdyS s w.p [w.a] [] :=
  ⟨⟨⟨0, 31, 31, 0, 0x80, 0⟩, run, by decide, rdy rfl rfl rfl rfl rfl⟩,
    fun f => ⟨⟨0, 31, 31, 0, f⟩, run, rfl, rdy rfl rfl rfl rfl rfl⟩,
    ⟨⟨0, 31, 5, 1, 0, 0x80000000⟩, run, by decide, rfl, rdy rfl rfl rfl rfl rfl⟩,
    ⟨⟨0, 5, 2, 0, 0x7F, 0⟩, run, by decide, rfl, rdy rfl rfl rfl rfl rfl⟩⟩

theorem witness_ScalarRegisterFile : ∃ (c : Core) (n k : Nat), n < 64 ∧ k < 64 ∧ 48 ≤ n ∧ c.lvl = true :=
  ⟨handler.core, 63, 48, by decide⟩

/-- s9 pends on a load; a delay bundle is left; a loop of one bundle and one level is at its last pass. -/
def pending : State := run.onCore fun c => { c with pend := [⟨9, 7, none, none, false⟩] }

theorem witness_FalseGuard :
    (∃ (i : Instr) (p : BitVec 4) (s : State), guardOf i = some p ∧ s.core.rdP p.toNat = false ∧ s.core.after = none)
    ∧ (∃ b : Bundle, b.v0 = some 0 ∧ b.v1 = some 0) ∧ ∃ w : BitVec 32, opcode w = 0 ∧ w ≠ 0 :=
  ⟨⟨.add ⟨1, 9, 9, 9, 0⟩, 1, pending, by decide⟩, ⟨⟨0, none, none, some 0, some 0, none, none, none⟩, rfl, rfl⟩, 1, by decide⟩

theorem witness_RegisterFrame :
    (∃ (i : Instr) (p : BitVec 4) (rs : List (BitVec 6)) (d : BitVec 6) (s t : State), scalarOp i = some (p, rs, d) ∧ RdyS s p rs [d]
      ∧ exec i s = .next t)
    ∧ ∃ (i : Instr) (p : BitVec 4) (rs : List (BitVec 6)) (s t : State), sideOp i = some (p, rs) ∧ RdyS s p rs []
      ∧ exec i s = .next t :=
  ⟨⟨.add ⟨0, 5, 1, 2, 0⟩, _, _, _, run, _, rfl, rdy rfl rfl rfl rfl rfl, rfl⟩,
    ⟨.aadd ⟨0, 5, 1, 0, 4, 0⟩, _, _, run, _, rfl, rdy rfl rfl rfl rfl rfl, rfl⟩⟩

/-- Text of empty bundles at VA 0, in the instruction cache; ranges that grant everything below 16 MiB. -/
def texted : State :=
  { run with
    core := { run.core with rg := [(0, ⟨true, 0, 0xFFFFFF, true, true, true, 0⟩)], lc := [(0, 2), (1, 1)] }
    mem := { run.mem with ic := [(8, (0, List.replicate 64 0))] } }
/-- Its handler. -/
def saved : TrapSt := ⟨0, none, none, 0, 0, 767, 767, 0, [], 0⟩

theorem witness_BranchTargets :
    (∃ (w : BForm) (s : State), (Instr.prep w).wf = true ∧ w.x = 1 ∧ RdyS s w.p [] [])
    ∧ (∃ (w : BForm) (s : State), (Instr.prepr w).wf = true ∧ RdyS s w.p [w.i.extractLsb' 10 6] []
      ∧ (S s (w.i.extractLsb' 10 6)).toNat % 4 = 0 ∧ (S s (w.i.extractLsb' 10 6)).toNat < 2 ^ 32)
    ∧ ∃ (w : BForm) (s : State), (Instr.prepr w).wf = true ∧ RdyS s w.p [w.i.extractLsb' 10 6] []
      ∧ 2 ^ 32 ≤ (S s (w.i.extractLsb' 10 6)).toNat :=
  ⟨⟨⟨0, 0, 7, 1, 0, 0x80000000⟩, run, by decide, rfl, rdy rfl rfl rfl rfl rfl⟩,
    ⟨⟨0, 0, 7, 0, 0x1000, 0⟩, run, by decide, rdy rfl rfl rfl rfl rfl, by decide, by decide⟩,
    ⟨⟨0, 0, 7, 0, 0x0C00, 0⟩, run, by decide, rdy rfl rfl rfl rfl rfl, by decide⟩⟩

theorem witness_Branches :
    (∃ (s u : State) (t : BitVec 32), s.core.pending (s.core.sIdx 63) = false ∧ s.skipBundles s.core.pc 3 = .ok (t, u))
    ∧ (∃ (c : Core) (x : Xfer), c.xfer = some x ∧ x.left = 2) ∧ ∃ (c : Core) (x : Xfer), c.xfer = some x ∧ x.left = 1 :=
  ⟨⟨texted, texted, 0x20C, rfl, rfl⟩, ⟨{ xfer := some ⟨true, 0, 2⟩ }, _, rfl, rfl⟩, ⟨{ xfer := some ⟨false, 0, 1⟩ }, _, rfl, rfl⟩⟩

theorem witness_Loops :
    (∃ (w : XForm) (s : State), (Instr.loop w).wf = true ∧ RdyS s w.p [] [] ∧ ∀ k, k < w.a.toNat → s.core.rdLc k ≠ 0)
    ∧ (∃ (w : XForm) (s u : State) (t : BitVec 32), (Instr.loop w).wf = true ∧ RdyS s w.p [] []
      ∧ (∃ k, k < w.a.toNat ∧ s.core.rdLc k = 0) ∧ s.skipBundles (s.core.pc + 12) (w.d.toNat + 1) = .ok (t, u))
    ∧ (∃ (c : Core) (l : LoopSt), l.pos + 1 = l.len ∧ l.depth ≤ 6 ∧ l.idx.length = l.depth
      ∧ ∀ k, k < l.depth → (c.rdLc k).toNat ≤ l.idx.getD k 0 + 1)
    ∧ ∃ (c : Core) (l : LoopSt) (k : Nat), l.pos + 1 = l.len ∧ l.depth ≤ 6 ∧ l.idx.length = l.depth ∧ k < l.depth
      ∧ (∀ j, j < k → (c.rdLc j).toNat ≤ l.idx.getD j 0 + 1) ∧ l.idx.getD k 0 + 1 < (c.rdLc k).toNat :=
  ⟨⟨⟨0, 0, 2, 0, 0, 1⟩, texted, by decide, rdy rfl rfl rfl rfl rfl, by decide⟩,
    ⟨⟨0, 0, 6, 0, 0, 1⟩, texted, texted, 0x210, by decide, rdy rfl rfl rfl rfl rfl, ⟨5, by decide⟩, rfl⟩,
    ⟨texted.core, ⟨0, 1, 2, 1, [1, 0], 0, [], false⟩, by decide⟩,
    ⟨texted.core, ⟨0, 1, 1, 1, [0], 0, [], false⟩, 0, by decide⟩⟩

theorem witness_Windows :
    (∃ (w : RForm) (s : State), (Instr.wset w).wf = true ∧ w.f = 1 ∧ RdyS s w.p [w.a] [])
    ∧ ∃ (w : RForm) (s : State), (Instr.wrot w).wf = true ∧ w.f = 0 ∧ RdyS s w.p [] [] :=
  ⟨⟨⟨0, 0, 2, 0, 1⟩, run, by decide, rfl, rdy rfl rfl rfl rfl rfl⟩, ⟨⟨0, 0, 0, 63, 0⟩, run, by decide, rfl, rdy rfl rfl rfl rfl rfl⟩⟩

/-- A bundle of one TRAP with immediate 7 is at hand. -/
def trapping : State := run.onCore fun c => { c with cur := some ⟨0x80000000, some 0xE0000007, none, none, none, none, none, none⟩ }

theorem witness_TrapEntry :
    (∃ (s : State) (cause : Nat), Traps s ∧ cause < 256 ∧ cause ≠ 0x30 ∧ cause ≠ 0x31)
    ∧ (∃ (w : IForm) (s : State), (Instr.trap w).wf = true ∧ RdyS s w.p [] [] ∧ s.core.after = none ∧ Traps s)
    ∧ (∃ (w : IForm) (s : State) (b : Bundle) (x : Slotted), s.core.run = .running ∧ s.core.cur = some b ∧ s.core.slotted b = [x]
      ∧ x.ins = .ok (.trap w) ∧ s.core.bundleFate b [x] = none ∧ s.core.acquiring = false ∧ (Instr.trap w).wf = true
      ∧ RdyS s w.p [] [] ∧ Traps s ∧ b.hdr.rep = 0 ∧ s.core.owed = 0 ∧ s.core.made = 0 ∧ s.core.xfer = none ∧ s.core.loop = none
      ∧ s.core.after = none ∧ s.core.jump = none)
    ∧ ∃ (w : IForm) (s : State), (Instr.trap w).wf = true ∧ RdyS s w.p [] [] ∧ s.core.after = none ∧ s.core.lvl = true :=
  ⟨⟨run, 255, ⟨rfl, rfl⟩, by decide⟩, ⟨⟨0, 0, 0, 0, 0x80, 0⟩, run, by decide, rdy rfl rfl rfl rfl rfl, rfl, rfl, rfl⟩,
    ⟨⟨0, 0, 0, 0, 7, 0⟩, trapping, _, _, rfl, rfl, rfl, rfl, rfl, rfl, by decide, rdy rfl rfl rfl rfl rfl, ⟨rfl, rfl⟩, rfl, rfl, rfl, rfl,
      rfl, rfl, rfl⟩,
    ⟨⟨0, 0, 0, 0, 0x80, 0⟩, handler, by decide, rdy rfl rfl rfl rfl rfl, rfl, rfl⟩⟩

theorem witness_ReturnFromTrap : ∃ (w : RForm) (s : State) (ts : TrapSt), RdyS s w.p [] [] ∧ s.core.after = none ∧ s.core.lvl = true
    ∧ s.core.vfly = [] ∧ s.core.tstate = some ts ∧ s.core.muldiv = [] ∧ s.core.parked = [] ∧ s.core.defrec = [] :=
  ⟨⟨0, 0, 0, 0, 0⟩, handler.onCore fun c => { c with tstate := some saved }, saved, rdy rfl rfl rfl rfl rfl, rfl, rfl, rfl, rfl, rfl, rfl,
    rfl⟩

theorem witness_NestedStop :
    (∃ s : State, s.core.thb.getLsbD 0 = true ∧ s.core.lvl = false ∧ s.core.clk = false) ∧ ∃ s : State, s.core.lvl = true ∧ s.core.clk = true
      ∧ (s.takeTrap 0x02 0 noStage false).core.run = .stopped :=
  ⟨⟨State.reset, by decide⟩, handler, by decide⟩

theorem witness_AsynchronousTraps :
    (∃ s : State, s.core.lvl = true ∧ s.core.thb.getLsbD 0 = false)
    ∧ ∃ (s : State) (h : Async) (r : List Async), s.core.run = .running ∧ Traps s ∧ s.dropHeld = s ∧ s.core.held = h :: r
      ∧ h.cause < 256 ∧ h.cause ≠ 0x30 ∧ h.cause ≠ 0x31 :=
  ⟨⟨handler, by decide⟩, run.onCore fun c => { c with held := [⟨0x18, 0, {}⟩] }, _, _, rfl, ⟨rfl, rfl⟩, rfl, rfl, by decide⟩

theorem witness_Privilege : ∃ (s : State) (w : RForm), s.core.lvl = false ∧ s.core.rdP w.p.toNat = true ∧ 0x30 ≤ w.a.toNat
    ∧ 0x30 ≤ w.d.toNat :=
  ⟨run, ⟨0, 0x30, 0x3F, 0, 0⟩, by decide⟩

theorem witness_GroupEnd :
    (∃ (w : RForm) (s : State), RdyS s w.p [] [] ∧ s.core.after = none ∧ s.core.parkedReal = [] ∧ ∀ r ∈ s.core.vfly, r.rem ≤ 14)
    ∧ ∃ (w : RForm) (s : State) (p : Parked) (r : List Parked), RdyS s w.p [] [] ∧ s.core.parkedReal = p :: r :=
  ⟨⟨⟨0, 0, 0, 0, 0⟩, run, rdy rfl rfl rfl rfl rfl, rfl, rfl, by decide⟩,
    ⟨⟨0, 0, 0, 0, 0⟩, run.onCore fun c => { c with parked := [⟨0, 8, 0, .store, 0x13, {}, none, 0, false, 0⟩] }, _, _, rdy rfl rfl rfl rfl rfl, rfl⟩⟩

theorem witness_ControlRegisters :
    (∃ (w : RForm) (s : State) (v : BitVec 64), RdyS s w.p [] [w.d] ∧ control w.a.toNat s.core = some v)
    ∧ (∃ (w : RForm) (s : State), RdyS s w.p [] [w.d] ∧ w.a.toNat = 0)
    ∧ (∃ (w : RForm) (s : State), RdyS s w.p [w.a] [w.d] ∧ s.core.lvl = true ∧ 0x30 ≤ w.a.toNat ∧ 0x30 ≤ w.d.toNat)
    ∧ (∃ (w : RForm) (s : State), s.core.rdP w.p.toNat = true ∧ s.core.lvl = false)
    ∧ (∃ (w : RForm) (s : State), RdyS s w.p [] [w.d] ∧ w.a.toNat = 8)
    ∧ (∀ e ∈ controlWrites, ∃ (w : RForm) (s : State), RdyS s w.p [w.a] [] ∧ w.d.toNat = e.1)
    ∧ (∃ (w : RForm) (s : State), RdyS s w.p [w.a] [] ∧ w.d.toNat = 0x14)
    ∧ (∃ (w : RForm) (s : State), RdyS s w.p [w.a] [] ∧ w.d.toNat = 0x04 ∧ s.core.lvl = false)
    ∧ ∃ (w : RForm) (s : State), RdyS s w.p [w.a] [] ∧ w.d.toNat = 0x04 ∧ s.core.lvl = true ∧ (S s w.a).toNat % 4 = 0 := by
  refine ⟨⟨⟨0, 5, 0x13, 0, 0⟩, run, _, rdy rfl rfl rfl rfl rfl, rfl⟩, ⟨⟨0, 5, 0, 0, 0⟩, run, rdy rfl rfl rfl rfl rfl, rfl⟩,
    ⟨⟨0, 0x3F, 0x30, 0, 0⟩, handler, rdy rfl rfl rfl rfl rfl, by decide⟩, ⟨⟨0, 48, 0, 0, 0⟩, run, by decide⟩,
    ⟨⟨0, 5, 8, 0, 0⟩, run, rdy rfl rfl rfl rfl rfl, rfl⟩, fun e he => ⟨⟨0, BitVec.ofNat 6 e.1, 1, 0, 0⟩, run,
      rdy rfl rfl rfl rfl rfl, ?_⟩,
    ⟨⟨0, 0x14, 1, 0, 0⟩, run, rdy rfl rfl rfl rfl rfl, rfl⟩, ⟨⟨0, 4, 1, 0, 0⟩, run, rdy rfl rfl rfl rfl rfl, by decide⟩,
    ⟨⟨0, 4, 4, 0, 0⟩, handler, rdy rfl rfl rfl rfl rfl, by decide⟩⟩
  revert e; decide

/-! ### Memory -/

/-- A group with a range over the first 16 MiB and die 0 holding the line of VA 0x100000 whole, at the same machine address; s4 is that
VA. Own pages 0 and 1 are resident in physical pages 0 and 1, page 2 is mapped only; a4 to a8 are SVAs in them: a span block at 0 of
four FP32 elements at 0x1000, a barrier that expects 4 at 0x1000 (a5) and an empty one at 0x1010 (a6), a curve at 0x1040 (a7), a
branch map at 0x1400 (a8). Fronts 1 to 4 run, have completed, broken and halted. -/
def memd : State :=
  { texted with
    core := { texted.core with
      a := [(5, 0x1000), (6, 0x1010), (7, 0x1040), (8, 0x1400), (9, 0x2000)], plan := [⟨0, 16, none, 0⟩]
      s := [(1, 5), (2, 0xFFFFFFFFFFFFFFFD), (3, 0x8000000000000000), (4, 0x100000), (6, 4), (7, 0x2000), (8, 9)] }
    mem := { texted.mem with
      lines := [(0x1000, { pa := 0x100000, dies := [(0, { tokens := 16, owner := true, data := true, wp := true })], homeTok := 0, homeOwner := false })]
      bytes := [(0x100000, 0x81), (0x100001, 0x80)] }
    spad := {
      spt := [(0, 0xC400000000000000), (1, 0xC400040000000001), (2, 0x8400000000000002)]
      phys := [(1, 0x10), (9, 2), (10, 4), (40, 4), (4096, 4), (4166, 0x80), (4167, 0x3F), (5123, 0x80)] }
    eng := { fc := [(1, { state := .running, value := 3, limit := 9, gen := 1 }), (2, { state := .complete, gen := 1 }),
      (3, { state := .broken, cause := 9, gen := 1 }), (4, { state := .halted, value := 3, limit := 9, gen := 1 })] } }

/-- Translate and the grant of the memory side, each evaluated by itself. -/
theorem reaches {s : State} {va ia a : Nat} {n : Perm} (h : s.core.translate va n = .ia ia)
    (hr : (s.reach s.core.s1root s.core.die ia n).1 = .pa a) : Reaches s va n ia a (s.reach s.core.s1root s.core.die ia n).2 :=
  ⟨h, Prod.ext hr rfl⟩

theorem quiet {s : State} (h : s.core.parked = []) (hd : s.core.defrec = []) (hp : s.core.pend = []) : Quiet s :=
  ⟨h, hd, fun p hm => by rw [hp] at hm; cases hm⟩

theorem witness_Loads :
    (∃ (w : MForm) (s u : State) (ia a : Nat), (Instr.ld w).wf = true ∧ RdyS s w.p [w.a] [w.d] ∧ Quiet s
      ∧ Reaches s (vaOf s w) needR ia a u)
    ∧ ∃ (w : MForm) (s u : State) (ia a : Nat), (Instr.ldc w).wf = true ∧ RdyS s w.p [w.a] [w.d] ∧ Reaches s (vaOf s w) needC ia a u
      ∧ s.ccLine ia = none :=
  ⟨⟨⟨0, 5, 4, 3, 0, 4, 1, 1, 0xFF⟩, memd, _, 0x1000F8, 0x1000F8, by decide, rdy rfl rfl rfl rfl rfl, quiet rfl rfl rfl,
      reaches (by decide +kernel) (by decide +kernel)⟩,
    ⟨⟨0, 0, 4, 1, 1, 0, 0, 0, 0⟩, memd, _, 0x100000, 0x100000, by decide, rdy rfl rfl rfl rfl rfl,
      reaches (by decide +kernel) (by decide +kernel), rfl⟩⟩

theorem witness_DeferredFaults :
    (∃ (w : MForm) (s : State) (c : Nat), (Instr.ld w).wf = true ∧ RdyS s w.p [w.a] [w.d] ∧ Quiet s
      ∧ s.core.translate (vaOf s w) needR = .cause c)
    ∧ (∃ (s : State) (k : Nat) (p : SPend), s.core.pend[k]? = some p ∧ p.waits = none ∧ p.dest ≠ 0)
    ∧ (∃ (i : Instr) (p : BitVec 4) (n d : BitVec 6) (s : State) (x : DefRec) (c : Nat), scalarOp i = some (p, [n], d)
      ∧ s.core.rdP p.toNat = true ∧ n ≠ 0 ∧ s.core.pending (s.core.sIdx n.toNat) = false
      ∧ (d ≠ 0 → s.core.pending (s.core.sIdx d.toNat) = false) ∧ sget none s.core.defrec (s.core.sIdx n.toNat) = some x
      ∧ x.cause = some c)
    ∧ ∃ n : Nat, n ≠ 0 :=
  ⟨⟨⟨0, 5, 3, 0, 0, 0, 0, 0, 0⟩, memd, 0x10, by decide, rdy rfl rfl rfl rfl rfl, quiet rfl rfl rfl, rfl⟩, ⟨pending, 0, _, rfl, rfl, by decide⟩,
    ⟨.addi ⟨0, 5, 9, 0, 1, 0⟩, _, _, _,
      run.onCore fun c => { c with defrec := [(9, some ⟨.load 0 8 false, 0, some 0x13, {}, 0, false, false⟩)] }, _, _, rfl, rfl, by decide, rfl,
      fun _ => rfl, rfl, rfl⟩, 63, by decide⟩

theorem witness_Stores : ∃ (w : MForm) (s u : State) (ia a : Nat), (Instr.st w).wf = true ∧ RdyS s w.p [w.a, w.d] [] ∧ Quiet s
    ∧ Reaches (s.sign 0 (vaOf s w) (leBytes (size w.s) (S s w.d).toNat)) (vaOf s w) needW ia a u :=
  ⟨⟨0, 2, 4, 3, 0, 0, 0, 1, 0xF8⟩, memd, _, 0x1000F8, 0x1000F8, by decide, rdy rfl rfl rfl rfl rfl, quiet rfl rfl rfl,
    reaches (by decide +kernel) (by decide +kernel)⟩

theorem witness_Atomics : ∃ (w : XForm) (s u : State) (ia a : Nat), (Instr.amo w).wf = true
    ∧ RdyS s w.p ([w.a, w.b] ++ if w.aop = 10 then [w.asc] else []) [w.d] ∧ Quiet s
    ∧ s.mem.reduceKey (lineOf ia) = none
    ∧ Reaches s ((S s w.a + BitVec.ofInt 64 w.adisp.toInt).toNat / size w.asize * size w.asize) needRW ia a u :=
  ⟨⟨0, 5, 4, 2, 0, 0x58000000⟩, memd, _, 0x100000, 0x100000, by decide, rdy rfl rfl rfl rfl rfl, quiet rfl rfl rfl, rfl,
    reaches (by decide +kernel) (by decide +kernel)⟩

theorem witness_PrefetchAndInvalidate :
    (∃ (w : MForm) (s : State) (c : Nat), RdyS s w.p [w.a] [] ∧ s.core.translate (vaOf s w) needR = .cause c)
    ∧ (∃ (w : MForm) (s u : State) (ia a : Nat), RdyS s w.p [w.a] [] ∧ Reaches s (vaOf s w) needR ia a u)
    ∧ (∃ (w : RForm) (s : State), RdyS s w.p [w.a] [] ∧ w.f = 0)
    ∧ ∃ (w : RForm) (s : State) (ia : Nat), RdyS s w.p [w.a] [] ∧ w.f = 1 ∧ s.core.translate (S s w.a).toNat 0 = .ia ia :=
  ⟨⟨⟨0, 0, 3, 0, 0, 0, 0, 0, 0⟩, memd, 0x10, rdy rfl rfl rfl rfl rfl, rfl⟩,
    ⟨⟨0, 0, 4, 0, 0, 0, 0, 0, 0⟩, memd, _, 0x100000, 0x100000, rdy rfl rfl rfl rfl rfl, reaches (by decide +kernel) (by decide +kernel)⟩,
    ⟨⟨0, 0, 0, 0, 0⟩, memd, rdy rfl rfl rfl rfl rfl, rfl⟩, ⟨⟨0, 0, 4, 0, 1⟩, memd, _, rdy rfl rfl rfl rfl rfl, rfl, rfl⟩⟩

/-- A load waits at the memory side. -/
def waiting : State := run.onCore fun c => { c with pend := [⟨9, 7, none, some 0, false⟩] }

/-- The first issue of the bundle at hand is made; one command of an earlier bundle, or of its own, is queued. -/
def queued (stamp : Nat) : State :=
  { run with core := { run.core with made := 1, since := 5 }, eng := { mq := [{ ins := .nop, word := 0, stamp := stamp }] } }

theorem witness_FencesAndWaits :
    (∃ (w : RForm) (s : State), RdyS s w.p [] [] ∧ Quiet s ∧ (∀ c ∈ s.eng.mq ++ s.eng.c0q ++ s.eng.c1q, ¬OfEarlier s c))
    ∧ (∃ (w : RForm) (s : State), RdyS s w.p [] [] ∧ Quiet s ∧ ∃ c ∈ s.eng.mq ++ s.eng.c0q ++ s.eng.c1q, OfEarlier s c)
    ∧ (∃ (w : RForm) (s : State) (p : Parked) (r : List Parked), RdyS s w.p [] [] ∧ s.core.parkedReal = p :: r)
    ∧ (∃ (w : RForm) (s : State), RdyS s w.p [] [] ∧ s.core.parkedReal = [] ∧ s.core.cancelled = false
      ∧ ∃ p ∈ s.core.pend, p.waits ≠ none)
    ∧ (∃ (w : RForm) (s : State), RdyS s w.p [] [] ∧ s.eng.mq ≠ [] ∧ ∀ c ∈ s.eng.mq, ¬OfEarlier s c)
    ∧ (∃ (w : RForm) (s : State), RdyS s w.p [] [] ∧ ∃ c ∈ s.eng.mq, OfEarlier s c)
    ∧ (∃ (w : RForm) (s : State), (Instr.cwait w).wf = true ∧ RdyS s w.p [] [] ∧ w.f = 2 ∧ (∀ c ∈ s.eng.c0q, ¬OfEarlier s c)
      ∧ ∀ c ∈ s.eng.c1q, ¬OfEarlier s c)
    ∧ ∃ (w : RForm) (s : State), (Instr.cwait w).wf = true ∧ RdyS s w.p [] [] ∧ w.f ≠ 1 ∧ ∃ c ∈ s.eng.c0q, OfEarlier s c :=
  ⟨⟨⟨0, 0, 0, 32, 0⟩, queued 5, rdy rfl rfl rfl rfl rfl, quiet rfl rfl rfl, by unfold OfEarlier; decide⟩,
    ⟨⟨0, 0, 0, 32, 0⟩, queued 4, rdy rfl rfl rfl rfl rfl, quiet rfl rfl rfl, _, List.mem_cons_self, .inr (by decide)⟩,
    ⟨⟨0, 0, 0, 0, 0⟩, run.onCore fun c => { c with parked := [⟨0, 8, 0, .store, 0x13, {}, none, 0, false, 0⟩] }, _, _,
      rdy rfl rfl rfl rfl rfl, rfl⟩,
    ⟨⟨0, 0, 0, 0, 0⟩, waiting, ⟨rfl, fun _ h => absurd h List.not_mem_nil, fun _ h => absurd h List.not_mem_nil⟩, rfl, rfl, _,
      List.mem_cons_self, by decide⟩,
    ⟨⟨0, 0, 0, 0, 0⟩, queued 5, rdy rfl rfl rfl rfl rfl, by decide, by unfold OfEarlier; decide⟩,
    ⟨⟨0, 0, 0, 0, 0⟩, queued 4, rdy rfl rfl rfl rfl rfl, _, List.mem_cons_self, .inr (by decide)⟩,
    ⟨⟨0, 0, 0, 0, 2⟩, run, by decide, rdy rfl rfl rfl rfl rfl, rfl, fun _ h => absurd h List.not_mem_nil,
      fun _ h => absurd h List.not_mem_nil⟩,
    ⟨⟨0, 0, 0, 0, 2⟩, { run with eng := { c0q := [{ ins := .nop, word := 0 }] } }, by decide, rdy rfl rfl rfl rfl rfl, by decide, _,
      List.mem_cons_self, .inl ⟨rfl, rfl⟩⟩⟩

theorem witness_CacheFlush : ∀ f : BitVec 2, f ≠ 3 → ∃ (w : RForm) (s u : State) (ia a : Nat), w.f = f ∧ (Instr.cflush w).wf = true
    ∧ RdyS s w.p [w.a] [] ∧ Quiet s ∧ Reaches s (S s w.a).toNat needR ia a u ∧ (u.mem.line (lineOf ia)).reduceKey = none
    ∧ ∀ m ∈ u.mem.msgs, m.line ≠ lineOf ia := by
  intro f hf
  have h : f = 0 ∨ f = 1 ∨ f = 2 := by revert f; decide
  rcases h with rfl | rfl | rfl
  · exact ⟨⟨0, 0, 4, 0, 0⟩, memd, _, 0x100000, 0x100000, rfl, by decide, rdy rfl rfl rfl rfl rfl, quiet rfl rfl rfl,
      reaches (by decide +kernel) (by decide +kernel), by decide +kernel, by decide +kernel⟩
  · exact ⟨⟨0, 0, 4, 0, 1⟩, memd, _, 0x100000, 0x100000, rfl, by decide, rdy rfl rfl rfl rfl rfl, quiet rfl rfl rfl,
      reaches (by decide +kernel) (by decide +kernel), by decide +kernel, by decide +kernel⟩
  · exact ⟨⟨0, 0, 4, 0, 2⟩, memd, _, 0x100000, 0x100000, rfl, by decide, rdy rfl rfl rfl rfl rfl, quiet rfl rfl rfl,
      reaches (by decide +kernel) (by decide +kernel), by decide +kernel, by decide +kernel⟩

/-! ### The scratchpad -/

/-- Own page 0 is under front n. -/
def chased (n : Nat) : State := memd.onSpad fun sp => sp.setEntry 0 (BitVec.ofNat 64 (0xC600000000000000 + n * 2 ^ 51))

/-- Front 1 with a span of nine FP32 elements at 0, of which three are there. -/
def fronted : State :=
  let s := chased 1
  { s with eng := { s.eng with fc := sset {} s.eng.fc 1 { state := .running, value := 3, limit := 9, gen := 1, walk := [0]
                                                          span := some { valid := true, rank := 1, strides := [4], extents := [9] } } } }

theorem witness_ScratchpadLoads :
    (∃ (w : MForm) (s : State) (p : Place), Unbroken s ∧ s.chase (svaOf s w) (size w.s) = .pass ∧ (Instr.lds w).wf = true ∧ (Instr.ldsRaw w).wf = true
      ∧ RdyS s w.p [] [w.d] ∧ Quiet s ∧ s.touch (svaOf s w) false = .at p)
    ∧ (∃ (w : MForm) (s : State) (p : Place) (o : Owner) (n r : Nat) (b : Bool), RdyS s w.p [] [w.d] ∧ s.touch (svaOf s w) false = .at p
      ∧ (s.chase (svaOf s w) (size w.s)).lost s = false ∧ Unbroken s ∧ s.chase (svaOf s w) (size w.s) = .wait o n r b)
    ∧ (∃ (w : MForm) (s : State) (p : Place) (o : Owner) (n : Nat), RdyS s w.p [] [w.d] ∧ s.touch (svaOf s w) false = .at p
      ∧ (s.chase (svaOf s w) (size w.s)).lost s = false ∧ s.core.waitBroken = true ∧ s.core.waitOn = some (o, n))
    ∧ ∃ (w : MForm) (p : Place), RdyS (chased 0) w.p [] [w.d] ∧ RdyS (chased 3) w.p [] [w.d] ∧ RdyS (chased 5) w.p [] [w.d]
      ∧ (chased 3).touch (svaOf (chased 3) w) false = .at p ∧ (chased 5).touch (svaOf (chased 5) w) false = .at p
      ∧ ((chased 3).chase (svaOf (chased 3) w) (size w.s)).lost (chased 3) = false
      ∧ ((chased 5).chase (svaOf (chased 5) w) (size w.s)).lost (chased 5) = false
      ∧ (chased 3).chase (svaOf (chased 3) w) (size w.s) = .broken none 3
      ∧ (chased 5).chase (svaOf (chased 5) w) (size w.s) = .unbound none 5 :=
  ⟨⟨⟨0, 5, 0, 3, 0, 0, 0, 1, 0xFFF⟩, memd, _, .inr rfl, by decide, by decide, by decide, rdy rfl rfl rfl rfl rfl, quiet rfl rfl rfl, rfl⟩,
    ⟨⟨0, 5, 0, 3, 0, 0, 0, 1, 8⟩, fronted, _, none, 1, 4, true, rdy rfl rfl rfl rfl rfl, rfl, rfl, .inr rfl, by decide +kernel⟩,
    ⟨⟨0, 5, 0, 3, 0, 0, 0, 0, 0⟩, memd.onCore fun c => { c with waitOn := some (none, 1), waitBroken := true }, _, none, 1,
      rdy rfl rfl rfl rfl rfl, rfl, rfl, rfl, rfl⟩,
    ⟨⟨0, 5, 0, 3, 0, 0, 0, 0, 0⟩, _, rdy rfl rfl rfl rfl rfl, rdy rfl rfl rfl rfl rfl, rdy rfl rfl rfl rfl rfl, rfl, rfl, by decide,
      by decide, by decide, by decide⟩⟩

theorem witness_ScratchpadStores :
    (∃ (w : MForm) (s : State) (p : Place), (Instr.sts w).wf = true ∧ RdyS s w.p [w.d] [] ∧ Quiet s ∧ s.touch (svaOf s w) true = .at p)
    ∧ ∃ (w : XForm) (s : State) (p : Place) (a : Nat), (Instr.amos w).wf = true
      ∧ RdyS s w.p ([w.b] ++ if w.aop = 10 then [w.asc] else []) [w.d] ∧ Quiet s
      ∧ a = (s.core.rdA w.a.toNat + BitVec.ofInt 32 w.adisp.toInt).toNat / size w.asize * size w.asize
      ∧ s.touch a true = .at p ∧ Unbroken s ∧ s.chase a (size w.asize) = .pass :=
  ⟨⟨⟨0, 1, 0, 3, 0, 0, 0, 1, 0xFF8⟩, memd, _, by decide, rdy rfl rfl rfl rfl rfl, quiet rfl rfl rfl, rfl⟩,
    ⟨⟨0, 5, 5, 2, 0, 0x58000000⟩, memd, _, _, by decide, rdy rfl rfl rfl rfl rfl, quiet rfl rfl rfl, rfl, rfl, .inr rfl, by decide⟩⟩

/-- Own page 2 is a stash page over VA 0x100000: resident with its first line dirty, and not resident; 448 pages are pinned. -/
def stashed : State :=
  memd.onSpad fun sp => { sp.setEntry 2 0xD400080000000100 with line := [(128, 3)] }
def unfetched : State := memd.onSpad fun sp => sp.setEntry 2 0x9400000000000100
def pinnedFull : State :=
  { memd with spad := { spt := (2, 0x8400000000000002) :: (List.range 448).map fun k => (k + 16, 0xE400000000000000) } }

/-- A stash page with a free physical page arrives. -/
theorem arrived {s : State} {pg : Nat} (p : Nat) (hr : sptRes (s.spad.entry pg) = false) (hs : sptStash (s.spad.entry pg) = true)
    (hp : s.spad.freePage = some p) : ∃ t, s.pageIn none pg = .done t := by
  simp [State.pageIn, State.spadOf, hr, hs, hp]

theorem witness_Pages :
    (∃ (w : RForm) (s : State), OwnPage s w.a ∧ (s.spad.entry (pageOf s w.a)).getLsbD 63 = true ∧ RdyS s w.p [] [w.d]
      ∧ (s.spad.entry (pageOf s w.a)).getLsbD 62 = true ∧ s.spad.pinned < 448)
    ∧ (∃ (w : RForm) (s : State) (ia : Nat), (Instr.spmap w).wf = true ∧ RdyS s w.p [w.b] [] ∧ OwnPage s w.a
      ∧ (S s w.b).toNat % 4096 = 0 ∧ s.pinnedPage none (pageOf s w.a) = false
      ∧ (∀ a ∈ rangeCuts s.core.rg (S s w.b).toNat 4096, ∃ x, s.core.translate a needRW = .ia x)
      ∧ s.core.translate (S s w.b).toNat needRW = .ia ia ∧ (s.spad.entry (pageOf s w.a)).getLsbD 63 = false)
    ∧ (∃ (w : RForm) (s : State), (Instr.spunmap w).wf = true ∧ RdyS s w.p [] [] ∧ OwnPage s w.a
      ∧ (s.spad.entry (pageOf s w.a)).getLsbD 63 = true ∧ s.pinnedPage none (pageOf s w.a) = false
      ∧ (s.spad.entry (pageOf s w.a)).getLsbD 62 = false)
    ∧ (∃ (w : RForm) (s : State), (Instr.spevict w).wf = true ∧ RdyS s w.p [] [w.d] ∧ OwnPage s w.a
      ∧ (s.spad.entry (pageOf s w.a)).getLsbD 63 = true ∧ (s.spad.entry (pageOf s w.a)).getLsbD 62 = true
      ∧ (s.spad.entry (pageOf s w.a)).getLsbD 61 = false ∧ (s.spad.entry (pageOf s w.a)).getLsbD 60 = false
      ∧ (s.spad.entry (pageOf s w.a)).getLsbD 59 = false ∧ s.pinnedPage none (pageOf s w.a) = false)
    ∧ (∃ (w : RForm) (s : State), (Instr.stflush w).wf = true ∧ RdyS s w.p [] [] ∧ w.f = 0 ∧ OwnPage s w.a
      ∧ (s.spad.entry (pageOf s w.a)).getLsbD 63 = true ∧ (s.spad.entry (pageOf s w.a)).getLsbD 60 = false)
    ∧ (∃ (w : RForm) (s u : State), (Instr.stflush w).wf = true ∧ RdyS s w.p [] [] ∧ w.f = 0 ∧ OwnPage s w.a
      ∧ (s.spad.entry (pageOf s w.a)).getLsbD 63 = true ∧ (s.spad.entry (pageOf s w.a)).getLsbD 60 = true
      ∧ (s.spad.entry (pageOf s w.a)).getLsbD 62 = true ∧ s.writePage none (pageOf s w.a) = (none, u))
    ∧ (∃ (w : RForm) (s u : State) (pg : Nat), (Instr.stflush w).wf = true ∧ RdyS s w.p [] [] ∧ w.f = 1 ∧ s.spad.stashPages = [pg]
      ∧ s.writePage none pg = (none, u))
    ∧ (∃ (w : RForm) (s : State), (Instr.stflush w).wf = true ∧ RdyS s w.p [] [] ∧ w.f = 1 ∧ s.spad.stashPages = [])
    ∧ (∃ (w : RForm) (s : State), RdyS s w.p [] [w.d] ∧ OwnPage s w.a ∧ (s.spad.entry (pageOf s w.a)).getLsbD 63 = true
      ∧ (s.spad.entry (pageOf s w.a)).getLsbD 61 = false ∧ 448 ≤ s.spad.pinned)
    ∧ (∃ (w : RForm) (s t : State) (p : Nat), w.f = 1 ∧ (Instr.spfetch w).wf = true ∧ RdyS s w.p [] [] ∧ OwnPage s w.a
      ∧ (s.spad.entry (pageOf s w.a)).getLsbD 63 = true ∧ (s.spad.entry (pageOf s w.a)).getLsbD 62 = false
      ∧ (s.spad.entry (pageOf s w.a)).getLsbD 60 = true ∧ s.spad.freePage = some p ∧ s.pageIn none (pageOf s w.a) = .done t)
    ∧ (∃ (w : RForm) (s t u : State) (q : PageWait), w.f = 0 ∧ RdyS s w.p [] [] ∧ OwnPage s w.a
      ∧ (s.spad.entry (pageOf s w.a)).getLsbD 63 = true ∧ (s.spad.entry (pageOf s w.a)).getLsbD 62 = false
      ∧ s.waitPage none (pageOf s w.a) = (q, u) ∧ u.pageTurn q = true ∧ u.pageIn none (pageOf s w.a) = .done t)
    ∧ ∃ (w : RForm) (s : State), (Instr.spunmap w).wf = true ∧ RdyS s w.p [] [] ∧ OwnPage s w.a
      ∧ (s.spad.entry (pageOf s w.a)).getLsbD 63 = true ∧ s.pinnedPage none (pageOf s w.a) = false ∧ w.f = 1
      ∧ (s.spad.entry (pageOf s w.a)).getLsbD 62 = true ∧ (s.spad.entry (pageOf s w.a)).getLsbD 60 = true
      ∧ dirtyLines s.spad (s.spad.entry (pageOf s w.a)) ≠ [] ∧ ∀ ia ∈ dirtyLines s.spad (s.spad.entry (pageOf s w.a)), Held s ia := by
  refine ⟨⟨⟨0, 5, 5, 0, 0⟩, memd, by unfold OwnPage; decide, by decide, rdy rfl rfl rfl rfl rfl, by decide, by decide⟩,
    ⟨⟨0, 0, 9, 7, 1⟩, memd.onSpad fun sp => sp.setEntry 2 0, _, by decide, rdy rfl rfl rfl rfl rfl, by unfold OwnPage; decide, by decide,
      by decide, ?_, rfl, by decide⟩,
    ⟨⟨0, 0, 9, 0, 0⟩, memd, by decide, rdy rfl rfl rfl rfl rfl, by unfold OwnPage; decide, by decide, by decide, by decide⟩,
    ⟨⟨0, 5, 5, 0, 0⟩, memd, by decide, rdy rfl rfl rfl rfl rfl, by unfold OwnPage; decide, by decide, by decide, by decide, by decide,
      by decide, by decide⟩,
    ⟨⟨0, 0, 5, 0, 0⟩, memd, by decide, rdy rfl rfl rfl rfl rfl, rfl, by unfold OwnPage; decide, by decide, by decide⟩,
    ⟨⟨0, 0, 9, 0, 0⟩, stashed, _, by decide, rdy rfl rfl rfl rfl rfl, rfl, by unfold OwnPage; decide, by decide, by decide, by decide,
      Prod.ext (by decide +kernel) rfl⟩,
    ⟨⟨0, 0, 0, 0, 1⟩, stashed, _, 2, by decide, rdy rfl rfl rfl rfl rfl, rfl, by decide +kernel, Prod.ext (by decide +kernel) rfl⟩,
    ⟨⟨0, 0, 0, 0, 1⟩, memd, by decide, rdy rfl rfl rfl rfl rfl, rfl, by decide +kernel⟩,
    ⟨⟨0, 5, 9, 0, 0⟩, pinnedFull, rdy rfl rfl rfl rfl rfl, by unfold OwnPage; decide, by decide +kernel, by decide +kernel,
      by decide +kernel⟩,
    ⟨⟨0, 0, 9, 0, 1⟩, unfetched, _, 2, rfl, by decide, rdy rfl rfl rfl rfl rfl, by unfold OwnPage; decide, by decide, by decide, by decide,
      by decide +kernel, (arrived 2 (by decide) (by decide) (by decide +kernel)).choose_spec⟩,
    ⟨⟨0, 0, 9, 0, 0⟩, unfetched, _, _, _, rfl, rdy rfl rfl rfl rfl rfl, by unfold OwnPage; decide, by decide, by decide, rfl,
      by decide +kernel, (arrived 2 (by decide +kernel) (by decide +kernel) (by decide +kernel)).choose_spec⟩,
    ⟨⟨0, 0, 9, 0, 1⟩, stashed, by decide, rdy rfl rfl rfl rfl rfl, by unfold OwnPage; decide, by decide, by decide, rfl, by decide, by decide,
      by decide +kernel, by unfold Held; decide +kernel⟩⟩
  intro a ha
  have h : rangeCuts (memd.onSpad fun sp => sp.setEntry 2 0).core.rg (S (memd.onSpad fun sp => sp.setEntry 2 0) 7).toNat 4096
      = [0x2000] := by decide
  rw [h] at ha
  exact ⟨0x2000, by rw [List.mem_singleton.mp ha]; decide⟩

/-- A block that lies in one resident page, line by line. -/
theorem there {s : State} {sva n : Nat} (h : s.core.waitOn = none)
    (ht : ∀ k, k < n → s.touch (sva + 64 * k) false = .at (match s.touch (sva + 64 * k) false with | .at p => p | _ => ⟨none, 0, 0, 0, false, 0⟩))
    (hc : ∀ k, k < n → s.chase (sva + 64 * k) 64 = .pass) :
    BlockThere s sva n (fun k => match s.touch (sva + 64 * k) false with | .at p => p | _ => ⟨none, 0, 0, 0, false, 0⟩) :=
  ⟨.inr h, fun k hk => ⟨ht k hk, hc k hk⟩⟩

/-- The curve at 0x1040 with INVW 0, and with a zero field set; the branch map at 0x1400 with V of branch 0 clear. -/
def unfit : State := memd.onSpad fun sp => { sp with phys := sset 0 (sset 0 sp.phys 4166 0) 4167 0 }
def stray : State := memd.onSpad fun sp => { sp with phys := sset 0 sp.phys 4176 1 }
def mapless : State := memd.onSpad fun sp => { sp with phys := sset 0 sp.phys 5123 0 }

theorem witness_BlockLoads :
    (∃ (w : RForm) (s : State) (place : Nat → Place) (bs : List (BitVec 8)) (rp wp : Bool), RdyS s w.p [] []
      ∧ (s.core.rdA w.a.toNat).toNat % 64 = 0 ∧ BlockThere s (s.core.rdA w.a.toNat).toNat 1 place ∧ blockOf s place 1 = bs
      ∧ s.core.spanReason bs (parseSpan bs) = none ∧ s.core.spanBounds (parseSpan bs) = some (rp, wp))
    ∧ (∃ (w : RForm) (s : State) (place : Nat → Place) (bs : List (BitVec 8)) (k : Nat), RdyS s w.p [] []
      ∧ (s.core.rdA w.a.toNat).toNat % 64 = 0 ∧ BlockThere s (s.core.rdA w.a.toNat).toNat 1 place ∧ blockOf s place 1 = bs
      ∧ s.core.spanReason bs (parseSpan bs) = some k)
    ∧ (∃ (w : RForm) (s : State) (place : Nat → Place) (bs : List (BitVec 8)), RdyS s w.p [] [] ∧ (s.core.rdA w.a.toNat).toNat % 64 = 0
      ∧ s.eng.curveBusy w.d.toNat = false ∧ BlockThere s (s.core.rdA w.a.toNat).toNat 9 place ∧ blockOf s place 9 = bs
      ∧ ¬CurveUnfit bs ∧ ¬CurveStray bs)
    ∧ (∃ (w : RForm) (s : State) (place : Nat → Place), RdyS s w.p [] [] ∧ (s.core.rdA w.a.toNat).toNat % 64 = 0
      ∧ s.eng.curveBusy w.d.toNat = false ∧ BlockThere s (s.core.rdA w.a.toNat).toNat 9 place ∧ CurveUnfit (blockOf s place 9))
    ∧ (∃ (w : RForm) (s : State) (place : Nat → Place), RdyS s w.p [] [] ∧ (s.core.rdA w.a.toNat).toNat % 64 = 0
      ∧ s.eng.curveBusy w.d.toNat = false ∧ BlockThere s (s.core.rdA w.a.toNat).toNat 9 place ∧ ¬CurveUnfit (blockOf s place 9)
      ∧ CurveStray (blockOf s place 9))
    ∧ (∃ (w : RForm) (s : State), RdyS s w.p [] [] ∧ s.eng.curveBusy w.d.toNat = true)
    ∧ (∃ (w : RForm) (s : State) (place : Nat → Place) (n : Nat), RdyS s w.p [] [] ∧ (s.core.rdA w.a.toNat).toNat % 64 = 0
      ∧ BlockThere s (s.core.rdA w.a.toNat).toNat 1 place ∧ MapFit (blockOf s place 1) n)
    ∧ (∃ (w : RForm) (s : State) (place : Nat → Place), RdyS s w.p [] [] ∧ (s.core.rdA w.a.toNat).toNat % 64 = 0
      ∧ BlockThere s (s.core.rdA w.a.toNat).toNat 1 place ∧ MapUnfit (blockOf s place 1))
    ∧ ∃ (w : RForm) (s : State), RdyS s w.p [] [] ∧ (s.core.rdA w.a.toNat).toNat % 64 ≠ 0 ∧ s.eng.curveBusy w.d.toNat = false :=
  ⟨⟨⟨0, 5, 0, 0, 0⟩, memd, _, _, true, true, rdy rfl rfl rfl rfl rfl, by decide, there rfl (by decide) (by decide), rfl, by decide +kernel,
      by decide +kernel⟩,
    ⟨⟨0, 5, 5, 0, 0⟩, memd, _, _, 3, rdy rfl rfl rfl rfl rfl, by decide, there rfl (by decide) (by decide), rfl, by decide +kernel⟩,
    ⟨⟨0, 5, 7, 0, 0⟩, memd, _, _, rdy rfl rfl rfl rfl rfl, by decide, by decide, there rfl (by decide) (by decide), rfl,
      by unfold CurveUnfit; decide +kernel, by unfold CurveStray; decide +kernel⟩,
    ⟨⟨0, 5, 7, 0, 0⟩, unfit, _, rdy rfl rfl rfl rfl rfl, by decide, by decide, there rfl (by decide) (by decide),
      by unfold CurveUnfit; decide +kernel⟩,
    ⟨⟨0, 5, 7, 0, 0⟩, stray, _, rdy rfl rfl rfl rfl rfl, by decide, by decide, there rfl (by decide) (by decide),
      by unfold CurveUnfit; decide +kernel, by unfold CurveStray; decide +kernel⟩,
    ⟨⟨0, 5, 7, 0, 0⟩, { memd with eng := { mq := [{ ins := .nop, word := 0, bmap := [0x80500000#32] }] } },
      rdy rfl rfl rfl rfl rfl, by decide +kernel⟩,
    ⟨⟨0, 3, 8, 0, 0⟩, memd, _, 1, rdy rfl rfl rfl rfl rfl, by decide, there rfl (by decide) (by decide), by decide +kernel,
      by decide +kernel, by unfold mapZeros; decide +kernel, by omega, by decide +kernel⟩,
    ⟨⟨0, 3, 8, 0, 0⟩, mapless, _, rdy rfl rfl rfl rfl rfl, by decide, there rfl (by decide) (by decide), .inl (by decide +kernel)⟩,
    ⟨⟨0, 3, 6, 0, 0⟩, memd, rdy rfl rfl rfl rfl rfl, by decide, by decide⟩⟩

theorem witness_Fronts :
    Unbroken memd ∧ (∀ n : Nat, n ∈ [1, 2, 3, 4, 5] → ∃ (w : RForm) (f : Front), RdyS memd w.p [w.b] [] ∧ w.a = 0 ∧ w.d.toNat = n
      ∧ memd.front w.d.toNat = f ∧ ((f.state = .running ∨ f.state = .halted) → f.value < (S memd w.b).toNat))
    ∧ (∃ (w : RForm) (f : Front), RdyS memd w.p [w.b] [] ∧ w.a = 0 ∧ memd.front w.d.toNat = f ∧ f.state = .halted
      ∧ (S memd w.b).toNat ≤ f.value)
    ∧ (∀ b d : Bool, ∃ (w : RForm) (s : State), RdyS s w.p [w.b] [] ∧ w.a = 0 ∧ s.core.waitOn = some (none, w.d.toNat)
      ∧ s.core.waitBroken = b ∧ s.core.waitDone = d)
    ∧ (∃ (w : XForm) (s u : State) (ia a : Nat) (x : BitVec 64), RdyS s w.p [w.a, w.b] [w.d] ∧ (S s w.a).toNat % 8 = 0
      ∧ s.core.parked = [] ∧ Reaches s (S s w.a).toNat needR ia a u ∧ ¬Poisoned u ia a ∧ u.mem.rd64 a = x
      ∧ (S s w.b).toNat ≤ x.toNat % 2 ^ 48)
    ∧ (∃ (w : RForm) (s : State), RdyS s w.p [] [w.d])
    ∧ (∃ (w : XForm) (s : State) (f : Front), RdyS s w.p [w.b] [w.d] ∧ s.front (w.ext.toNat % 64) = f ∧ f.state = .complete)
    ∧ (∃ (w : RForm) (s : State) (f : Front), RdyS s w.p [] [w.d] ∧ (Instr.fstat w).wf = true ∧ w.a = 0 ∧ s.front w.b.toNat = f
      ∧ f.value < 2 ^ 48 ∧ f.limit < 2 ^ 48)
    ∧ (∃ (w : XForm) (s : State), RdyS s w.p [] [] ∧ w.ext.getLsbD 0 = true)
    ∧ (∃ (w : XForm) (s u : State) (ia a : Nat), RdyS s w.p [w.a] [] ∧ w.ext.getLsbD 0 = false ∧ (S s w.a).toNat % 8 = 0
      ∧ (s.front w.d.toNat).state = .running ∧ (s.front w.d.toNat).mwait = none ∧ Reaches (s.setFront w.d.toNat (published s w)) (S s w.a).toNat needW ia a u
      ∧ u.mirrorBad w.d.toNat = false)
    ∧ (∃ (w : XForm) (s : State) (ia : Nat), RdyS s w.p [w.a] [] ∧ w.ext.getLsbD 0 = false ∧ (S s w.a).toNat % 8 = 0
      ∧ s.core.translate (S s w.a).toNat needW = .ia ia ∧ (s.front w.d.toNat).state = .idle)
    ∧ ∃ (w : RForm) (s : State), RdyS s w.p [] [] := by
  refine ⟨.inr rfl, ?_, ⟨⟨0, 4, 0, 0, 0⟩, _, rdy rfl rfl rfl rfl rfl, rfl, rfl, by decide, by decide⟩,
    fun b d => ⟨⟨0, 1, 0, 1, 0⟩, memd.onCore fun c => { c with waitOn := some (none, 1), waitBroken := b, waitDone := d },
      rdy rfl rfl rfl rfl rfl, rfl, rfl, rfl, rfl⟩,
    ⟨⟨0, 5, 4, 0, 0, 0⟩, memd, _, 0x100000, 0x100000, _, rdy rfl rfl rfl rfl rfl, by decide, rfl,
      reaches (by decide +kernel) (by decide +kernel), by unfold Poisoned; decide +kernel, rfl, by decide⟩,
    ⟨⟨0, 5, 31, 0, 0⟩, memd, rdy rfl rfl rfl rfl rfl⟩, ⟨⟨0, 5, 0, 1, 0, 2⟩, memd, _, rdy rfl rfl rfl rfl rfl, rfl, rfl⟩,
    ⟨⟨0, 5, 0, 1, 2⟩, memd, _, rdy rfl rfl rfl rfl rfl, by decide, rfl, rfl, by decide, by decide⟩,
    ⟨⟨0, 1, 0, 0, 0, 1⟩, memd, rdy rfl rfl rfl rfl rfl, rfl⟩,
    ⟨⟨0, 1, 4, 0, 0, 0x60⟩, memd, _, 0x100000, 0x100000, rdy rfl rfl rfl rfl rfl, rfl, by decide, rfl, rfl,
      reaches (by decide +kernel) (by decide +kernel), by decide +kernel⟩,
    ⟨⟨0, 5, 4, 0, 0, 0x60⟩, memd, 0x100000, rdy rfl rfl rfl rfl rfl, rfl, by decide, by decide +kernel, rfl⟩,
    ⟨⟨0, 1, 0, 0, 0⟩, memd, rdy rfl rfl rfl rfl rfl⟩⟩
  intro n hn
  refine ⟨⟨0, BitVec.ofNat 6 n, 0, 1, 0⟩, _, rdy rfl rfl rfl rfl rfl, rfl, ?_, rfl, fun _ => ?_⟩ <;> revert n <;> decide

theorem witness_Barriers :
    (∃ (w : RForm) (p : Place), w.f = 0 ∧ (memd.core.rdA w.a.toNat).toNat % 16 = 0 ∧ Quiet memd ∧ RdyS memd w.p [w.b] [w.d]
      ∧ memd.touch (memd.core.rdA w.a.toNat).toNat true = .at p
      ∧ leAt (memd.placeRd p 16).1 8 8 + (S memd w.b).toNat = leAt (memd.placeRd p 16).1 0 8)
    ∧ (∃ (w : RForm) (p : Place), RdyS memd w.p [w.b] [w.d] ∧ memd.touch (memd.core.rdA w.a.toNat).toNat true = .at p
      ∧ leAt (memd.placeRd p 16).1 0 8 + 1 = leAt (memd.placeRd p 16).1 8 8 + (S memd w.b).toNat)
    ∧ (∃ (w : RForm) (p : Place), RdyS memd w.p [] [] ∧ memd.touch (memd.core.rdA w.a.toNat).toNat false = .at p
      ∧ leAt (memd.placeRd p 16).1 0 8 = leAt (memd.placeRd p 16).1 8 8)
    ∧ (∃ (w : RForm) (s : State) (p : Place), RdyS s w.p [] [] ∧ Quiet s ∧ s.touch (s.core.rdA w.a.toNat).toNat false = .at p
      ∧ s.core.barMet = true)
    ∧ ∃ (w : RForm) (p : Place), RdyS memd w.p [] [] ∧ memd.touch (memd.core.rdA w.a.toNat).toNat false = .at p
      ∧ leAt (memd.placeRd p 16).1 0 8 ≠ leAt (memd.placeRd p 16).1 8 8 :=
  ⟨⟨⟨0, 5, 5, 6, 0⟩, _, rfl, by decide, quiet rfl rfl rfl, rdy rfl rfl rfl rfl rfl, rfl, by decide⟩,
    ⟨⟨0, 5, 5, 1, 0⟩, _, rdy rfl rfl rfl rfl rfl, rfl, by decide⟩,
    ⟨⟨0, 0, 6, 0, 0⟩, _, rdy rfl rfl rfl rfl rfl, rfl, by decide⟩,
    ⟨⟨0, 0, 6, 0, 0⟩, memd.onCore fun c => { c with barMet := true }, _, rdy rfl rfl rfl rfl rfl, quiet rfl rfl rfl, rfl, rfl⟩,
    ⟨⟨0, 0, 5, 0, 0⟩, _, rdy rfl rfl rfl rfl rfl, rfl, by decide⟩⟩

/-! ### The control die -/

/-- Partition 0 with cluster 0 and an identity map below 512 MiB. The group's node is at 0x4000, killed (STATE 4) or admitted; the block
at 0x100000 names it as its parent; the event at 0x2000 is set. Queue 0 holds one entry, and its overflow another. -/
def kept (state : BitVec 8) : State :=
  let s := memd.placeProgram []
  { s with
    core := { s.core with node := 0x4000, num := 5 }
    mem := { s.mem with bytes := sset 0 (sset 0 (sset 0 s.mem.bytes 0x4002 state) 0x100009 0x40) 0x2008 1 }
    sys := { s.sys with queues := [(0, [⟨3, 7, 9, 0x4000⟩])], overflow := [(0, [⟨3, 8, 1, 0x4000⟩])] } }

theorem witness_TaskQueues :
    (∃ (w : RForm) (s : State) (q : Nat), RdyS s w.p [w.a, w.b] [] ∧ q = (S s w.a).toNat / 2 ^ 56 % 128 ∧ Quiet s
      ∧ (s.part s.core.partNo).clusters.contains q = true ∧ (sget [] s.sys.queues q).length < 2048)
    ∧ (∃ (w : RForm) (s : State) (q : Nat) (x : Task), (Instr.qtake w).wf = true ∧ RdyS s w.p [w.a] [w.d, w.b]
      ∧ q = (S s w.a).toNat % 128 ∧ (s.part s.core.partNo).clusters.contains q = true ∧ sget [] s.sys.queues q = [x]
      ∧ sget [] s.sys.overflow q ≠ [])
    ∧ (∃ (w : RForm) (s : State) (q : Nat), w.f = 1 ∧ RdyS s w.p [w.a] [w.d, w.b] ∧ q = (S s w.a).toNat % 128
      ∧ (s.part s.core.partNo).clusters.contains q = true ∧ sget [] s.sys.queues q = [])
    ∧ (∃ (w : RForm) (s : State) (q : Nat), w.f = 0 ∧ RdyS s w.p [w.a] [w.d, w.b] ∧ q = (S s w.a).toNat % 128
      ∧ (s.part s.core.partNo).clusters.contains q = true ∧ sget [] s.sys.queues q = [])
    ∧ ∃ (w : RForm) (s : State), RdyS s w.p [w.a, w.b] []
      ∧ (s.part s.core.partNo).clusters.contains ((S s w.a).toNat / 2 ^ 56 % 128) = false :=
  ⟨⟨⟨0, 0, 1, 2, 0⟩, kept 2, 0, rdy rfl rfl rfl rfl rfl, by decide, quiet rfl rfl rfl, by decide, by decide⟩,
    ⟨⟨0, 9, 7, 10, 0⟩, kept 2, 0, _, by decide, rdy rfl rfl rfl rfl rfl, by decide, by decide, rfl, by decide⟩,
    ⟨⟨0, 9, 7, 10, 1⟩, { kept 2 with sys := { (kept 2).sys with queues := [] } }, 0, rfl, rdy rfl rfl rfl rfl rfl, by decide,
      by decide, rfl⟩,
    ⟨⟨0, 9, 7, 10, 0⟩, { kept 2 with sys := { (kept 2).sys with queues := [] } }, 0, rfl, rdy rfl rfl rfl rfl rfl, by decide,
      by decide, rfl⟩,
    ⟨⟨0, 0, 2, 2, 0⟩, kept 2, rdy rfl rfl rfl rfl rfl, by decide⟩⟩

/-- The event at 0x100000 has COUNT 2 and no interrupt; the node of the group is at 0x4000, and the event at 0x2000 has STATE 0 or 1. -/
theorem witness_Signal : ∃ (w : RForm) (s u : State) (ia a : Nat), (Instr.signal w).wf = true
    ∧ RdyS s w.p (if w.f = 1 then [w.a, w.b] else [w.a]) [] ∧ Quiet s
    ∧ Reaches (s.onCore fun c => { c with pins := [] }) ((S s w.a).toNat / 64 * 64) needW ia a u
    ∧ (u.mem.line (lineOf ia)).reduceKey = none ∧ (∀ m ∈ u.mem.msgs, m.line ≠ lineOf ia) ∧ (u.mem.rd64 a).toNat ≠ 0
    ∧ (u.mem.rd64 (a + 0x30)).getLsbD 63 = false :=
  ⟨⟨0, 0, 4, 2, 1⟩, kept 2, _, 0x100000, 0x100000, by decide, rdy rfl rfl rfl rfl rfl, quiet rfl rfl rfl,
    reaches (by decide +kernel) (by decide +kernel), by decide +kernel, by decide +kernel, by decide +kernel, by decide +kernel⟩
theorem witness_EvWait : ∀ n : BitVec 8, n = 0 ∨ n = 1 → ∃ (w : RForm) (s u : State) (ia a : Nat), RdyS s w.p [w.a] [w.d]
    ∧ Reaches s ((S s w.a).toNat / 64 * 64) needR ia a u ∧ (u.mem.rd64 (a + 8)).toNat % 4 = n.toNat ∧ u.mem.rd64 a ≠ 0 := by
  intro n hn
  rcases hn with rfl | rfl
  · exact ⟨⟨0, 5, 7, 0, 0⟩, (kept 2).onMem fun m => { m with bytes := sset 0 (sset 0 m.bytes 0x2000 3) 0x2008 0 }, _, 0x2000, 0x2000,
      rdy rfl rfl rfl rfl rfl, reaches (by decide +kernel) (by decide +kernel), by decide +kernel, by decide +kernel⟩
  · exact ⟨⟨0, 5, 7, 0, 0⟩, (kept 2).onMem fun m => { m with bytes := sset 0 m.bytes 0x2000 3 }, _, 0x2000, 0x2000,
      rdy rfl rfl rfl rfl rfl, reaches (by decide +kernel) (by decide +kernel), by decide +kernel, by decide +kernel⟩
theorem witness_SpawnInKilled : ∃ (w : RForm) (s u : State) (ia a : Nat), RdyS s w.p [w.a] [w.d] ∧ Quiet s
    ∧ Reaches s (S s w.a).toNat needRW ia a u
    ∧ (u.onCore fun c => { c with pins := [] }).nodeState s.core.partNo s.core.node.toNat = 4 :=
  ⟨⟨0, 5, 4, 0, 0⟩, kept 4, _, 0x100000, 0x100000, rdy rfl rfl rfl rfl rfl, quiet rfl rfl rfl,
    reaches (by decide +kernel) (by decide +kernel), by decide +kernel⟩
theorem witness_SpawnMisaligned : ∃ (w : RForm) (s u : State) (ia a : Nat), RdyS s w.p [w.a] [w.d] ∧ Quiet s
    ∧ Reaches s (S s w.a).toNat needRW ia a u ∧ (S s w.a).toNat % 256 ≠ 0 :=
  ⟨⟨0, 5, 1, 0, 0⟩, (kept 2).onCore fun c => { c with s := sset 0 c.s 1 0x100080 }, _, 0x100080, 0x100080, rdy rfl rfl rfl rfl rfl,
    quiet rfl rfl rfl, reaches (by decide +kernel) (by decide +kernel), by decide⟩
theorem witness_Spawn : ∃ (w : RForm) (s u v : State) (ia a pa : Nat), RdyS s w.p [w.a] [w.d] ∧ Quiet s
    ∧ Reaches s (S s w.a).toNat needRW ia a u ∧ (u.onCore fun c => { c with pins := [] }).nodeState s.core.partNo s.core.node.toNat ≠ 4
    ∧ (u.mem.rd64 (a + 8)).toNat % 2 ^ 56 = s.core.node.toNat ∧ (S s w.a).toNat % 256 = 0
    ∧ (u.onCore fun c => { c with pins := [] }).ctlPa s.core.partNo (s.core.node.toNat + 0x10) needRW = (some pa, v) :=
  ⟨⟨0, 5, 4, 0, 0⟩, kept 2, _, _, 0x100000, 0x100000, 0x4010, rdy rfl rfl rfl rfl rfl, quiet rfl rfl rfl,
    reaches (by decide +kernel) (by decide +kernel), by decide +kernel, by decide +kernel, by decide, Prod.ext (by decide +kernel) rfl⟩
theorem witness_Yield : ∃ (w : RForm) (s : State), RdyS s w.p [] [w.d] ∧ s.core.after = none
    ∧ (s.onCore fun c => { c with pins := [] }).yieldsTo = false :=
  ⟨⟨0, 5, 0, 0, 0⟩, run, rdy rfl rfl rfl rfl rfl, rfl, by decide +kernel⟩

/-! ### The V slots -/

theorem noBad {s : State} (h : s.core.bad = []) (v : BitVec 1) (pick : Nat → Bool) (names : List (BitVec 6)) : NoBad s v pick names := by
  intro n _ l _ _
  rw [h]
  rfl

/-- Lane 63 of register 5 of cluster B fails its parity check. -/
def tainted : State := run.onCore fun c => { c with bad := [(badIdx 1 5 63, true)], q := [(7, 0x8000000000000001)] }

theorem witness_VectorArithmetic :
    (∀ e ∈ floatRows, ∃ (w : VForm) (s : State), (e.build w).wf = true ∧ e.types w.t = true
      ∧ NoBad s w.v (fun l => (s.core.rdQ w.m.toNat).getLsbD l) (e.reads w))
    ∧ (∀ e ∈ integerRows, ∃ (w : VForm) (s : State), (e.build w).wf = true ∧ e.types w.t = true
      ∧ NoBad s w.v (fun l => (s.core.rdQ w.m.toNat).getLsbD l) (e.reads w))
    ∧ ∃ (w : VForm) (s : State) (l : Nat), l < 64 ∧ (Instr.vadd w).wf = true ∧ (s.core.rdQ w.m.toNat).getLsbD l = true ∧ Traps s
      ∧ s.core.run = .running ∧ sget false s.core.bad (badIdx w.v.toNat (s.core.vPhys w.v w.a) l) = true
      ∧ ∀ k, k < l → (s.core.rdQ w.m.toNat).getLsbD k = true →
        sget false s.core.bad (badIdx w.v.toNat (s.core.vPhys w.v w.a) k) = false := by
  refine ⟨fun e he => ⟨⟨1, 0, 63, 5, 0, 7, 0⟩, run, ?_, ?_, noBad rfl _ _ _⟩,
    fun e he => ⟨⟨1, 7, 63, 5, 0, 7, 0⟩, run, ?_, ?_, noBad rfl _ _ _⟩,
    ⟨1, 5, 0, 5, 0, 7, 0⟩, tainted, 63, by decide, by decide, by decide, ⟨rfl, rfl⟩, rfl, by decide, by decide⟩ <;>
  · revert e; decide

theorem witness_VectorMoves :
    (∀ e ∈ moveRows, ∃ (w : VForm) (s : State), (e.build w).wf = true ∧ NoBad s w.v (fun _ => true) (e.reads w))
    ∧ (∃ (w : VForm) (s : State), (Instr.vdup w).wf = true ∧ Ready s 0 [w.a.toNat] [])
    ∧ (∃ w : VForm, (Instr.viota w).wf = true ∧ w.u = 1)
    ∧ ∃ w : VForm, (Instr.vacc w).wf = true ∧ w.a.toNat / 16 * 64 + w.b.toNat = 255 := by
  refine ⟨fun e he => ⟨⟨1, 0, 63, 5, 0, 7, 0⟩, run, ?_, noBad rfl _ _ _⟩, ⟨⟨0, 5, 0, 1, 0, 0, 0⟩, run, by decide, rdy rfl rfl rfl rfl rfl⟩,
    ⟨⟨0, 5, 0, 0, 0, 7, 1⟩, by decide⟩, ⟨0, 5, 0, 48, 63, 0, 0⟩, by decide⟩
  revert e; decide

theorem witness_VectorReductions :
    (∃ (w : VForm) (s : State), (Instr.vcmp w).wf = true ∧ NoBad s w.v (fun l => (s.core.rdQ w.m.toNat).getLsbD l) [w.a, w.b])
    ∧ (∃ (w : VForm) (s : State), (Instr.vcvt w).wf = true ∧ NoBad s w.v (fun l => (s.core.rdQ w.m.toNat).getLsbD l) [w.a])
    ∧ (∃ (w : VForm) (s : State), (Instr.vpack w).wf = true ∧ vWidth w.t = 8 ∧ w.u = 1 ∧ NoBad s w.v (fun _ => true) [w.a, w.b, w.d])
    ∧ (∃ (w : VForm) (s : State), (Instr.vunpk w).wf = true ∧ w.b = 3 ∧ NoBad s w.v (fun l => l * (32 / vWidth w.t) / 64 = w.b.toNat) [w.a])
    ∧ (∀ i : VForm → Instr, i ∈ [Instr.vrsum, .vrmax, .vrmin, .vramax] → ∃ (w : VForm) (s : State), (i w).wf = true
      ∧ isFType w.t = true ∧ NoBad s w.v (fun l => (s.core.rdQ w.m.toNat).getLsbD l) [w.a])
    ∧ (∀ i : VForm → Instr, i ∈ [Instr.vrsum, .vrmax, .vrmin] → ∀ u : BitVec 1, ∃ (w : VForm) (s : State), (i w).wf = true
      ∧ isFType w.t = false ∧ w.u = u ∧ NoBad s w.v (fun l => (s.core.rdQ w.m.toNat).getLsbD l) [w.a])
    ∧ ∃ (w : VForm) (s : State), (Instr.vext w).wf = true ∧ Ready s 0 [] [w.d.toNat] ∧ NoBad s w.v (fun l => l = w.b.toNat) [w.a] := by
  refine ⟨⟨⟨1, 7, 0x3D, 5, 5, 7, 1⟩, run, by decide, noBad rfl _ _ _⟩, ⟨⟨1, 3, 5, 5, 5, 7, 1⟩, run, by decide, noBad rfl _ _ _⟩,
    ⟨⟨0, 7, 5, 6, 7, 0, 1⟩, run, by decide, rfl, rfl, noBad rfl _ _ _⟩, ⟨⟨0, 7, 5, 6, 3, 0, 0⟩, run, by decide, rfl, noBad rfl _ _ _⟩,
    fun i hi => ⟨⟨0, 0, 5, 6, 0, 7, 0⟩, run, ?_, rfl, noBad rfl _ _ _⟩,
    fun i hi u => ⟨⟨0, 7, 5, 6, 0, 7, u⟩, run, ?_, rfl, rfl, noBad rfl _ _ _⟩,
    ⟨⟨0, 7, 9, 6, 63, 0, 0⟩, run, by decide, rdy rfl rfl rfl rfl rfl, noBad rfl _ _ _⟩⟩
  · revert i; decide
  · revert i u; decide

/-- The place of an SVA that `memd` lets through. -/
def placeOf (sva : Nat) (write : Bool) : Place :=
  match memd.touch sva write with
  | .at p => p
  | _ => ⟨none, 0, 0, 0, false, 0⟩

theorem on_of {P : Nat → Prop} {s : State} {w : VMem} (h : ∀ l, l < 64 → P l) : ∀ l, On s w l → P l := fun l hl => h l hl.1

theorem witness_VectorLoads : ∀ e ∈ vectorLoads, ∃ (w : VMem) (place : Nat → Place), (e.1 w).wf = true
    ∧ NoBad memd w.v (fun l => (memd.core.rdQ w.m.toNat).getLsbD l) (e.2.2.2.2 w)
    ∧ (∀ l, On memd w l → memd.touch (e.2.2.2.1 memd w l) false = .at (place l))
    ∧ (e.2.1 = true → Unbroken memd ∧ ∀ l, On memd w l → memd.chase (e.2.2.2.1 memd w l) (wide w) = .pass) := by
  intro e he
  refine ⟨⟨1, 5, 3, 5, 15, 0, 0⟩, fun l => placeOf (e.2.2.2.1 memd ⟨1, 5, 3, 5, 15, 0, 0⟩ l) false, ?_, noBad rfl _ _ _, on_of ?_,
    fun _ => ⟨.inr rfl, on_of ?_⟩⟩ <;>
  · revert e; decide +kernel

theorem witness_VectorStores : ∀ e ∈ vectorStores, ∃ (w : VMem) (place : Nat → Place), (e.1 w).wf = true
    ∧ NoBad memd w.v (fun l => (memd.core.rdQ w.m.toNat).getLsbD l) (e.2.2 w)
    ∧ ∀ l, On memd w l → memd.touch (e.2.1 memd w l) true = .at (place l) := by
  intro e he
  refine ⟨⟨1, 5, 3, 5, 15, 0, 0⟩, fun l => placeOf (e.2.1 memd ⟨1, 5, 3, 5, 15, 0, 0⟩ l) true, ?_, noBad rfl _ _ _, on_of ?_⟩ <;>
  · revert e; decide +kernel

/-- A result that is due: every lane gets 7, and lane 63 is inexact. -/
def due : VRec :=
  ⟨.vec, 1, 1, 767, BitVec.allOnes 64, List.replicate 64 7, 0, (List.replicate 63 0) ++ [16], 0, 0, none, 0⟩

theorem witness_VectorLanding :
    (∃ (s : State) (r : VRec), s.core.vfly.filter (fun x => x.rem == 0) = [r] ∧ r.acc = none ∧ (r.kind = .vec → r.dest < 768)
      ∧ ∀ l k, l < 64 → k < 5 → trapsOn s.core r l k = false)
    ∧ (∃ (s : State) (r : VRec) (l : Nat) (en : BitVec 5), s.core.vfly.filter (fun x => x.rem == 0) = [r] ∧ r.acc = none
      ∧ (r.kind = .vec → r.dest < 768) ∧ l < 64 ∧ (∃ k, k < 5 ∧ trapsOn s.core r l k = true)
      ∧ (∀ m, m < l → ∀ k, k < 5 → trapsOn s.core r m k = false)
      ∧ ∀ k, k < 5 → en.getLsbD k = (raises r k && s.core.vrm.getLsbD (8 + k)))
    ∧ (∃ s : State, ∀ r ∈ s.core.vfly, r.rem ≠ 0)
    ∧ ∃ (s : State) (r q : VRec), s.core.vfly = [r, q] ∧ r.rem = 0 ∧ q.rem = 0 ∧ r.kind = .vec ∧ q.kind = .vec ∧ r.acc = none
      ∧ q.acc = none ∧ r.dest = q.dest ∧ r.cl = q.cl
      ∧ ∀ l, l < 64 → ∀ k, k < 5 → trapsOn s.core r l k = false ∧ trapsOn s.core q l k = false := by
  refine ⟨⟨run.onCore fun c => { c with vfly := [due] }, due, by decide, rfl, by decide, ?_⟩,
    ⟨run.onCore fun c => { c with vfly := [due], vrm := 0x1000 }, due, 63, 16, by decide, rfl, by decide, by decide, ⟨4, by decide⟩,
      by decide +kernel, by decide +kernel⟩,
    ⟨run, by decide⟩,
    ⟨run.onCore fun c => { c with vfly := [due, due] }, due, due, rfl, rfl, rfl, rfl, rfl, rfl, rfl, rfl, rfl, by decide +kernel⟩⟩
  have h : ∀ l, l < 64 → ∀ k, k < 5 → trapsOn run.core due l k = false := by decide +kernel
  exact fun l k hl hk => h l hl k hk

/-! ### The M slot and the C slots -/

/-- A span in the own space. -/
def spanOf (etype : BitVec 4) (base : Nat) (strides : List Int) (extents : List Nat) (space : Nat := 0) : Desc :=
  { valid := true, inj := true, rp := true, wp := true, base := base, etype := etype, rank := extents.length, space := space,
    strides := strides, extents := extents }
/-- Descriptors: A (K 4, M 2), B (N 3), a drain's destination, a tap, vectors, a peer's span, rows, a table and its index list. Partition
0 owns a port; map 0 has one branch over K 0 to 3; s5 of the group is 0. -/
def working : State :=
  { memd with
    core := { memd.core with
      d := [(0, spanOf 1 0x1000 [2, 8] [4, 2]), (1, spanOf 1 0x1100 [2, 6] [3, 4]), (2, spanOf 0 0x1200 [4, 8] [2, 2]),
        (3, spanOf 0 0x1300 [4, 12, 24] [3, 2, 1]), (4, spanOf 0 0x1400 [4] [4]), (5, spanOf 0 0x1500 [4] [4]),
        (6, spanOf 0 0x1600 [4] [4] 3), (8, spanOf 0 0x1000 [4, 8] [2, 3]), (10, spanOf 0 0x1100 [4, 8] [2, 4]), (11, spanOf 8 0x1200 [4] [3])]
      bmap := [(0, some [0x80000003])] }
    sys := { memd.sys with parts := [(0, { live := true, clusters := [0], ports := 1 })] } }
/-- MMA, MMAR or MMAD of d0 and d1. -/
def product (tap : BitVec 2) : MmaForm := ⟨0, 0, 1, 0, 0, 0, 0, 0, 0, 0, 0, 0, 0, 0, 0, 0, tap⟩
/-- The latch that MMAR meets. -/
def resident : Latch := ⟨1, false, 3, 4, false, 16, [], false, []⟩
/-- MDRAIN. -/
def drain (dst : BitVec 1) (fen : BitVec 1) : MdrainForm := ⟨0, 0, dst, 0, 0, 5, 0, fen, 5, 0, 0, 0, 0, 2, 0, 1, 767⟩
/-- Queues full of commands that wait. -/
def full : State :=
  { working with eng := { working.eng with
    mq := List.replicate 8 { ins := .nop, word := 0 }, c0q := List.replicate 16 { ins := .nop, word := 0 } } }

theorem witness_MatrixCommands :
    (∃ (w : MmaForm) (s : State) (n : Nat), s.core.rdP w.p.toNat = true ∧ s.eng.mq.length < 8 ∧ w.chm ≠ 1
      ∧ abOk s.core w (s.core.rdD w.da.toNat) (s.core.rdD w.db.toNat) ((spans s w).getD 2 {}) ((spans s w).getD 3 {}) = some n)
    ∧ (∃ (w : MmaForm) (s : State), chaseM s w ∧ w.chm = 1)
    ∧ (∃ (w : MmaForm) (s : State) (r : Latch), s.core.rdP w.p.toNat = true ∧ s.eng.mq.length < 8 ∧ w.chm ≠ 1
      ∧ s.eng.latchLeft = some r ∧ aOk s.core w (s.core.rdD w.da.toNat) ((spans s w).getD 2 {}) = true
      ∧ latchOk (s.core.rdD w.da.toNat) r = true)
    ∧ (∃ (w : MmaForm) (s : State) (map : List (BitVec 32)) (n f : Nat) (d : Desc), s.core.rdP w.p.toNat = true ∧ s.eng.mq.length < 8
      ∧ w.chm ≠ 1 ∧ w.tap ≠ 0 ∧ mmFloat (s.core.rdD w.da.toNat).etype = true
      ∧ abOk s.core w (s.core.rdD w.da.toNat) (s.core.rdD w.db.toNat) ((spans s w).getD 2 {}) ((spans s w).getD 3 {}) = some n
      ∧ sget none s.core.bmap w.bm.toNat = some map
      ∧ mapCovers map (s.core.rdD w.da.toNat).depth
        (chunkDepth (s.core.rdD w.da.toNat).etype (s.core.rdD w.db.toNat).etype / 4) = true
      ∧ s.eng.tap = some (d, f) ∧ d.dims = [n, (s.core.rdD w.da.toNat).rows, (branchesFrom 0 map).length] ∧ s.frontFree f = true)
    ∧ (∃ (w : MdrainForm) (s : State), s.core.rdP w.p.toNat = true ∧ s.eng.mq.length < 8 ∧ w.dst ≠ 0 ∧ w.fen = 0)
    ∧ (∃ (w : MdrainForm) (s : State) (n m : Nat), s.core.rdP w.p.toNat = true ∧ s.eng.mq.length < 8 ∧ w.dst = 0
      ∧ drainShape w.lay.toNat (s.core.rdD w.dd.toNat).dims = some (n, m) ∧ 1 ≤ n ∧ n ≤ 64 ∧ 1 ≤ m ∧ m ≤ 64
      ∧ (s.core.rdD w.dd.toNat).valid = true ∧ (s.core.rdD w.dd.toNat).space ≤ 1 ∧ (s.core.rdD w.dd.toNat).etype = w.ot
      ∧ (w.lay = 4 → scaleOk (s.core.rdD w.ds.toNat) n (blkOf w.blk) m = true)
      ∧ (w.fen = 1 → (s.core.rdD w.dd.toNat).inj = true ∧ s.frontFree w.fc.toNat = true))
    ∧ (∃ (w : MsetForm) (s : State), s.core.rdP w.p.toNat = true ∧ (s.core.rdD w.dt.toNat).valid = true
      ∧ (s.core.rdD w.dt.toNat).etype = 0 ∧ (s.core.rdD w.dt.toNat).rank = 3 ∧ (s.core.rdD w.dt.toNat).space ≤ 1
      ∧ (s.core.rdD w.dt.toNat).inj = true)
    ∧ (∃ (w : MsetForm) (s : State), s.core.rdP w.p.toNat = true ∧ (s.core.rdD w.dt.toNat).valid = false)
    ∧ (∃ (i : Instr) (p : BitVec 4) (s : State), guardM i = some p ∧ s.core.rdP p.toNat = true ∧ 8 ≤ s.eng.mq.length)
    ∧ ∃ (w : MmaForm) (s : State), s.core.rdP w.p.toNat = true ∧ s.eng.mq.length < 8 ∧ w.chm ≠ 1
      ∧ (s.core.rdD w.da.toNat).valid = false := by
  refine ⟨⟨product 0, working, 3, by decide⟩, ⟨{ product 0 with chm := 1, chf := 1 }, working, .inr (by decide), rfl⟩,
    ⟨product 0, { working with eng := { working.eng with latch := some resident } }, resident, by decide⟩,
    ⟨product 1, { working with eng := { working.eng with tap := some (spanOf 0 0x1300 [4, 12, 24] [3, 2, 1], 2) } }, [0x80000003], 3, 2, _,
      by decide, by decide, by decide, by decide, by decide, by decide, by decide, by decide, rfl, by decide, by decide⟩,
    ⟨drain 1 0, working, by decide⟩, ⟨drain 0 1, working, 2, 2, by decide⟩, ⟨⟨0, 0, 5, 3⟩, working, by decide⟩,
    ⟨⟨0, 0, 5, 31⟩, working, by decide⟩, ⟨.mclr ⟨0, 15⟩, 0, full, by decide⟩, ⟨{ product 0 with da := 31 }, working, by decide⟩⟩

/-- Each C command with operands that its checks pass. -/
def copyWords : List ((CForm → Instr) × CForm) :=
  [(.cpy, ⟨0, 0, 4, 5, 0, 1, 6, 0, 0, 0⟩), (.cgath, ⟨1, 0, 8, 10, 1, 0, 0, 0, 0, 0⟩), (.cscat, ⟨0, 0, 10, 8, 1, 0, 0, 0, 0, 0⟩),
    (.cred, ⟨0, 0, 4, 5, 0, 0, 0, 0, 0, 4⟩), (.cfill, ⟨0, 0, 4, 1, 0, 0, 0, 0, 0, 0⟩), (.mcast, ⟨0, 0, 4, 5, 0, 1, 6, 0, 0, 0⟩),
    (.crem, ⟨0, 0, 6, 5, 0, 0, 0, 0, 0, 0⟩)]

theorem witness_CopyCommands :
    copyWords.map Prod.fst = copies
    ∧ (∀ e ∈ copyWords, working.core.rdP e.2.p.toNat = true ∧ (working.eng.queue (cEngine e.2.e)).length < 16 ∧ e.2.wait.toNat = 0
      ∧ (e.2.fen = 1 → working.frontFree e.2.fc.toNat = true ∧ (working.core.rdD e.2.dd.toNat).inj = true
        ∧ (working.core.rdD e.2.dd.toNat).count < 2 ^ 48)
      ∧ copyOk (e.1 e.2) e.2 (spansC (e.1 e.2) working e.2).1 (spansC (e.1 e.2) working e.2).2.1 (spansC (e.1 e.2) working e.2).2.2
        ((working.part working.core.partNo).ports != 0) = true
      ∧ e.2.walk.toNat < fact (if e.1 e.2 = .cscat e.2 then (spansC (e.1 e.2) working e.2).2.1 else (spansC (e.1 e.2) working e.2).1).rank)
    ∧ (∀ e ∈ copyWords, Ready working e.2.p [e.2.ds.toNat] []) ∧ working.core.muldiv = [] ∧ working.core.pend = []
    ∧ 16 ≤ (full.eng.queue (cEngine 0)).length ∧ (working.core.rdD 31).valid = false
    ∧ (∀ e ∈ copyWords, walkFits (e.1 e.2) working e.2) ∧ ¬walkFits (.cpy ⟨0, 0, 4, 5, 1, 0, 0, 0, 0, 0⟩) working ⟨0, 0, 4, 5, 1, 0, 0, 0, 0, 0⟩ := by
  refine ⟨rfl, by decide, fun e he => rdy ?_ rfl rfl rfl rfl, rfl, rfl, by decide, rfl, ?_, by unfold walkFits; decide⟩
  · revert e; decide
  · intro e he
    simp only [copyWords, List.mem_cons, List.not_mem_nil, or_false] at he
    rcases he with rfl | rfl | rfl | rfl | rfl | rfl | rfl <;> unfold walkFits <;> decide

/-! ### The engines at work -/

/-- `working` with a command at the head of an engine's queue. -/
def headed (g : Engine) (c : Cmd) : State := working.onEng fun e => e.setQueue g [c]
/-- A started command with its descriptors. -/
def begun (i : Instr) (ds : List Nat) : Cmd := { ins := i, word := 0, descs := ds.map fun n => working.core.rdD n, started := true }
/-- `working` with a product at work and the chunk in the staging latch. -/
def multiplying : State :=
  (headed .matrix (begun (.mma (product 0)) [0, 1])).onEng fun e => { e with staging := some resident }

theorem witness_MatrixEngine :
    (∃ (s : State) (c : Cmd) (w : MclrForm), headOf s .matrix = some c ∧ c.ins = .mclr w ∧ c.started = false ∧ c.susp = none
      ∧ s.core.run = .running)
    ∧ (∃ (s : State) (c : Cmd) (w : MmaForm) (r : Latch) (row scales : Sparse (BitVec 32)) (bad : Bool), Moves s .matrix c
      ∧ c.ins = .mma w ∧ c.phase = 0 ∧ s.eng.staging = some r
      ∧ s.readRow c w c.row (c.chunk * c.chunkLen) (Nat.min (c.descs.getD 0 {}).depth (c.chunk * c.chunkLen + c.chunkLen))
        = .ok ((row, scales, bad), s) ∧ r.n ≤ 64 ∧ c.row < 64)
    ∧ (∃ (s : State) (c : Cmd) (w : MdrainForm), Moves s .matrix c ∧ c.ins = .mdrain w ∧ c.phase = 0 ∧ w.dst ≠ 0 ∧ w.aen = 0
      ∧ c.pos % 64 = 0 ∧ c.pos < 4096 ∧ c.front = none)
    ∧ (∃ (s : State) (c : Cmd) (w : MmaForm) (n : Nat), Moves s .matrix c ∧ c.ins = .mmad w ∧ c.phase = 1 ∧ c.tap = none
      ∧ c.front = none ∧ c.pos = 0 ∧ c.treeDone = false ∧ c.row + 1 < c.mmM ∧ c.row < 64 ∧ n = c.mmN s.eng ∧ n ≤ 64
      ∧ (w.acc.toNat = 0 ∨ w.acc.toNat = 2))
    ∧ (∃ (s : State) (c : Cmd), headOf s .matrix = some c ∧ c.phase = 2)
    ∧ ∃ (s : State) (c : Cmd) (x : Susp), headOf s .matrix = some c ∧ c.susp = some x ∧ s.resolved c x = false :=
  ⟨⟨headed .matrix { ins := .mclr ⟨0, 9⟩, word := 0 }, _, _, rfl, rfl, rfl, rfl, rfl⟩,
    ⟨multiplying, _, _, _, _, _, _, ⟨rfl, rfl, rfl, rfl⟩, rfl, rfl, rfl, rfl, by decide, by decide⟩,
    ⟨headed .matrix { begun (.mdrain (drain 1 0)) [] with pos := 4032 }, _, _, ⟨rfl, rfl, rfl, rfl⟩, rfl, rfl, by decide, rfl, rfl,
      by decide, rfl⟩,
    ⟨headed .matrix { begun (.mmad (product 0)) [0, 1] with phase := 1, bmap := [0x80000003] }, _, _, 3, ⟨rfl, rfl, rfl, rfl⟩, rfl, rfl,
      rfl, rfl, rfl, rfl, by decide, by decide, rfl, by decide, .inl rfl⟩,
    ⟨headed .matrix { begun (.mclr ⟨0, 9⟩) [] with phase := 2 }, _, rfl, rfl⟩,
    ⟨headed .matrix { begun (.mclr ⟨0, 9⟩) [] with susp := some (suspAt 6 0 none true false) }, _, _, rfl, rfl, rfl⟩⟩

/-- CPY of d5 to d4, and CFILL of d4. -/
def copyWord : CForm := ⟨0, 0, 4, 5, 0, 0, 0, 0, 0, 0⟩
def copying : State := headed .copy0 (begun (.cpy copyWord) [4, 5])
def remoteWord : CForm := ⟨0, 0, 6, 5, 0, 0, 0, 0, 0, 0⟩

theorem witness_CopyEngine :
    (∃ (s : State) (e : BitVec 1) (c : Cmd), headOf s (cEngine e) = some c ∧ c.arming = .no ∧ c.started = false ∧ c.susp = none
      ∧ s.core.run = .running ∧ ∀ w, c.ins = .mcast w → ∃ k ∈ c.recv, k ∉ c.acked)
    ∧ (∃ (s : State) (e : BitVec 1) (c : Cmd) (n : Nat) (ws : List Wrote) (u : State), Moves s (cEngine e) c
      ∧ (∀ w, c.ins ≠ .mcast w ∧ c.ins ≠ .crem w) ∧ c.pos < c.walked.count ∧ n = beatLen c.walked c.walkList c.pos
      ∧ s.copyElems (cEngine e) c (fromTo c.pos (c.pos + n)) 0 [] = (none, n, ws, u) ∧ headOf u (cEngine e) = some c
      ∧ c.front = none)
    ∧ (∃ (c : Cmd) (w : CForm), c.ins = .cfill w)
    ∧ (∃ (s u : State) (e : BitVec 1) (c : Cmd) (w : CForm) (k v : Nat) (bad : Bool), c.ins = .cpy w
      ∧ (c.descs.getD 1 {}).etype = (c.descs.getD 0 {}).etype
      ∧ s.readElem (cEngine e) c (c.descs.getD 1 {}) (coordsOf c.walkList c.walked.dims k) = .ok ((v, bad), u))
    ∧ ∃ (s : State) (e : BitVec 1) (c : Cmd), headOf s (cEngine e) = some c ∧ c.started = false ∧ c.susp = none :=
  ⟨⟨headed .copy0 { begun (.cpy copyWord) [4, 5] with started := false }, 0, _, rfl, rfl, rfl, rfl, rfl, nofun⟩,
    ⟨copying, 0, _, 4, _, _, ⟨rfl, rfl, rfl, rfl⟩, fun w => ⟨nofun, nofun⟩, by decide, by decide, rfl, rfl, rfl⟩,
    ⟨begun (.cfill copyWord) [4], _, rfl⟩, ⟨copying, _, 0, begun (.cpy copyWord) [4, 5], copyWord, 3, _, _, rfl, rfl, rfl⟩,
    ⟨headed .copy1 { begun (.cpy copyWord) [4, 5] with started := false }, 1, _, rfl, rfl, rfl⟩⟩

/-- Two more groups of the node: index 1 on core 8, retired, and index 2 on core 9. -/
def peers : List Other :=
  [{ ctx := { memd.core with run := .retired, num := 8, group := 1 } }, { ctx := { memd.core with num := 9, group := 2 } }]
/-- Own page 3 is a stash page that is not resident, page 4 one that is, over the line that the die holds. -/
def stashing : State := memd.onSpad fun sp => (sp.setEntry 3 0x9400000000000100).setEntry 4 0xD400080000000100
/-- Partition 0 admits elements of peer 1 on port 0. -/
def linked : State :=
  { kept 2 with sys := { (kept 2).sys with
    parts := [(0, { (kept 2).part 0 with ports := 1, peers := [(0, (0xE000000000000000, 0x0100000000FFFFFF))] })] } }
/-- Two copy commands that wait on each other's fronts, the older at CHASELIM. -/
def circle : State :=
  working.onEng fun e =>
    { (e.setQueue .copy0 [{ begun (.cpy copyWord) [4, 5] with front := some 6, waitOn := some (none, 7), waitNeed := 1, timer := 65536 }]).setQueue .copy1
        [{ begun (.cpy copyWord) [4, 5] with front := some 7, waitOn := some (none, 6), waitNeed := 1, stamp := 1 }] with
      fc := [(6, { state := .running, prod := 1 }), (7, { state := .running, prod := 2 })] }

theorem witness_PageIn : ∃ (s t : State) (sva pg : Nat) (o : Owner) (win : Bool), (s.part s.core.partNo).mode modePaging = false
    ∧ s.touch sva false = .page o pg win
    ∧ (∀ x w, s.pageSusp (s.pageWaiter 4096 sva) = some x → x.pw = some w → s.pageTurn w = true)
    ∧ s.pageIn o pg (s.neededPages o (((s.pageSusp (s.pageWaiter 4096 sva)).map (·.need)).getD [])) = .done t ∧ t.core.held = [] := by
  refine ⟨stashing, (match stashing.pageIn none 3 [] with | .done t => t | _ => stashing), 0x3000, 3, none, false, rfl, rfl, ?_, ?_, ?_⟩
  · have h : stashing.pageSusp (stashing.pageWaiter 4096 0x3000) = none := by decide +kernel
    simp [h]
  all_goals
  · have hf : (stashing.spadOf none).freePage = some 3 := by decide +kernel
    unfold State.pageIn
    simp only [hf]
    rfl

theorem witness_EngineEvents :
    (∃ (s : State) (e : BitVec 1) (c : Cmd) (w : CForm) (k : Nat), headOf s (cEngine e) = some c ∧ c.ins = .crem w ∧ c.front = none
      ∧ sget 0 s.eng.crem (engProd (cEngine e)) = k + 1 ∧ c.susp = none)
    ∧ (∃ (s : State) (e : BitVec 1) (idx : Nat) (c : Cmd) (w : CForm), headOf s (cEngine e) = some c ∧ c.ins = .mcast w ∧ c.front = none
      ∧ s.recvAt idx = .gone ∧ idx ∈ c.recv ∧ idx ∉ c.acked ∧ ∃ r ∈ c.recv, r ≠ idx ∧ r ∉ c.acked)
    ∧ (∃ (s : State) (e : BitVec 1) (idx k : Nat) (c : Cmd) (w : CForm), headOf s (cEngine e) = some c ∧ c.ins = .mcast w
      ∧ c.front = none ∧ s.recvAt idx = .here k ∧ s.recvLost k = false ∧ c.pos = c.walked.count
      ∧ (∀ x ∈ s.eng.flight, ¬(x.1 = engProd (cEngine e) ∧ x.2.group = idx)) ∧ idx ∈ c.recv ∧ idx ∉ c.acked
      ∧ ∃ r ∈ c.recv, r ≠ idx ∧ r ∉ c.acked)
    ∧ (∃ (s : State) (f : BitVec 6) (c : Cmd) (x : Susp), headOf s .matrix = some c ∧ s.eng.c0q = [] ∧ s.eng.c1q = []
      ∧ s.core.run = .running ∧ c.front = some f.toNat ∧ c.susp = some x ∧ s.resolved c x = true ∧ (s.front f.toNat).state = .halted
      ∧ (s.front f.toNat).pub = false)
    ∧ (∃ (s t : State) (sva : Nat) (write : Bool) (p : Place), s.touch sva write = .line p ∧ s.fillLine p write = (none, t))
    ∧ (∃ (s : State) (sva : Nat) (write : Bool) (p : Place), s.touch sva write = .at p)
    ∧ (∃ (s : State) (g : Engine) (c : Cmd) (o : Owner) (n : Nat), headOf s g = some c ∧ c.waitOn = some (o, n)
      ∧ c.timer < s.core.chaselim.toNat)
    ∧ (∃ (s : State) (line : Nat), line ∈ s.mem.retry)
    ∧ (∃ (s : State) (line : Nat), line ∉ s.mem.retry)
    ∧ (∃ (s : State) (g : Engine) (c : Cmd) (o : Owner) (n : Nat), headOf s g = some c ∧ c.waitOn = some (o, n) ∧ c.susp = none
      ∧ (s.frontOf o n).state = .running ∧ (s.frontOf o n).value < c.waitNeed ∧ s.core.chaselim.toNat ≤ c.timer ∧ s.cycleFrom o n [(none, g)] 8 = [])
    ∧ (∃ (s : State) (c d : Cmd) (n m : Nat), headOf s .copy0 = some c ∧ headOf s .copy1 = some d ∧ c.waitOn = some (none, n)
      ∧ d.waitOn = some (none, m) ∧ c.front = some m ∧ d.front = some n ∧ (s.front n).prod = 2 ∧ (s.front m).prod = 1
      ∧ (s.front n).state = .running ∧ (s.front m).state = .running ∧ (s.front n).value < c.waitNeed ∧ (s.front m).value < d.waitNeed
      ∧ c.susp = none ∧ d.susp = none ∧ c.stamp < d.stamp
      ∧ s.core.chaselim.toNat ≤ c.timer ∧ s.core.held = [])
    ∧ (∃ (s : State) (d : Delivery) (p : Place), s.ownTouch d.sva = .at p ∧ d.bar = none ∧ p.stash = false
      ∧ (∀ m ∈ d.mask, m = 0xFF#8) ∧ d.mask.length = d.bytes.length)
    ∧ (∃ (s : State) (m : KretanElem), s.peerPart m = none)
    ∧ ∃ (s u : State) (m : KretanElem) (p a : Nat), s.peerPart m = some p ∧ s.ctlPa p m.va needW = (some a, u) ∧ m.red = none ∧ m.poison = false :=
  ⟨⟨(headed .copy0 (begun (.crem remoteWord) [6, 5])).onEng fun e => { e with crem := [(1, 1)] }, 0, _, _, 0, rfl, rfl, rfl, rfl, rfl⟩,
    ⟨{ headed .copy0 { begun (.mcast copyWord) [4, 5] with recv := [1, 2] } with others := peers }, 0, 1, _, _, rfl, rfl, rfl,
      by decide +kernel, by decide, by decide, 2, by decide⟩,
    ⟨{ headed .copy0 { begun (.mcast copyWord) [4, 5] with recv := [1, 2], pos := 4 } with others := peers }, 0, 2, 1, _, _, rfl, rfl, rfl,
      by decide +kernel, by decide +kernel, by decide, by decide, by decide, by decide, 1, by decide⟩,
    ⟨headed .matrix { begun (.mma (product 0)) [0, 1] with front := some 4, susp := some (suspAt 1 0x1000 none false false) }, 4, _, _, rfl, rfl,
      rfl, rfl, rfl, rfl, rfl, rfl, rfl⟩,
    ⟨stashing, _, 0x4000, true, _, rfl, rfl⟩, ⟨stashing, 0x1FFF, true, _, rfl⟩,
    ⟨headed .copy0 { begun (.cpy copyWord) [4, 5] with waitOn := some (none, 1), timer := 65535 }, .copy0, _, none, 1, rfl, rfl, by decide⟩,
    ⟨run.onMem fun m => { m with retry := [1] }, 1, by decide⟩, ⟨run, 1, by decide⟩,
    ⟨headed .copy0 { begun (.cpy copyWord) [4, 5] with waitOn := some (none, 1), waitNeed := 9999, timer := 65536 }, .copy0, _, none, 1, rfl, rfl, rfl, rfl,
      by decide, by decide, by decide⟩,
    ⟨circle, _, _, 7, 6, rfl, rfl, rfl, rfl, rfl, rfl, rfl, rfl, rfl, rfl, by decide, by decide, rfl, rfl, by decide, by decide, rfl⟩,
    ⟨memd, ⟨0, 0x1100, [1, 2], [0xFF, 0xFF], 0, none⟩, _, rfl, rfl, rfl, by decide, rfl⟩,
    ⟨run, ⟨0, 1, 0, 0, 0, 0, false, none⟩, rfl⟩,
    ⟨linked, (linked.ctlPa 0 0x3000 needW).2, ⟨0, 1, 0x3000, 0, 0, 0x12345678, false, none⟩, 0, 0x3000, by decide +kernel,
      Prod.ext (by decide +kernel) rfl, rfl, rfl⟩⟩

/-! ### Coherence and links -/

/-- Line 0x30 with the given state. -/
def lined (x : Line) : State := { run with mem := { run.mem with lines := [(0x30, x)] } }
/-- A line of which die 1 holds everything. -/
def dieHeld (x : DieLine) : Line := { dies := [(1, { x with tokens := 16, owner := true })], homeTok := 0, homeOwner := false }
/-- A line of which the core's own die holds everything. -/
def ownDie : Line := { dies := [(0, { tokens := 16, owner := true })], homeTok := 0, homeOwner := false }
/-- That line in a partition with tables. -/
def mapped : State := { kept 2 with mem := { (kept 2).mem with lines := [(0x30, ownDie)] } }
/-- The same state with no line in a die. -/
def fresh : State := { kept 2 with mem := { (kept 2).mem with lines := [] } }

theorem linesOk {x : Line} (h : swf {} none x.dies = true) (h2 : swf {} none [(0x30, x)] = true) : LinesOk (lined x) := by
  refine ⟨h2, fun l => ?_⟩
  show swf {} none (if 0x30 = l then x else {}).dies = true
  split
  · exact h
  · rfl

/-- Where the core itself is the only one of the partition on the die, the request is its own. -/
theorem asker_one {s : State} {d ia : Nat} (ho : s.others = []) (hc : (s.core.live && s.core.die == d && s.core.partNo == partOfIa ia) = true) :
    s.asker d ia = (some s.core, s) := by
  simp only [State.asker, ho, List.map_nil, List.filter, hc]
  simp [Nat.mod_one]

theorem witness_TokenConservation : ∃ (i : Instr) (s t : State) (l : Nat), movesTokens i = true ∧ LinesOk s ∧ exec i s = .next t
    ∧ s.mem.owners l = 1 :=
  ⟨.eviction 1 0x30, lined (dieHeld {}), _, 0x30, rfl, linesOk (by decide) (by decide), rfl, by decide⟩

/-- A message of a token for die 2, which waits for it, on its way, resent, or both. -/
def token : TokMsg := { line := 0x30, dst := .die 2, tokens := 1, owner := false, data := true, dirty := 0, reduce := none }
def sending (ms rs : List TokMsg) : State :=
  { run with mem := { run.mem with lines := [(0x30, { dies := [(2, { trans := .is })], homeTok := 15 })], msgs := ms, resent := rs } }
/-- Die 1 is lost with the tokens that it held. -/
def lostHeld : State := (lined (dieHeld {})).onMem fun m => { m with lost := [1] }
/-- IA 0x20000000 has a MOVED leaf to 0x50000; partition 0 has a free ring of one frame, 0x60000, and a return ring. -/
def moving : State :=
  let s := kept 2
  { s with
    mem := { s.mem with
      lines := []
      bytes := putWords s.mem.bytes [(homeRoot + 0x10008, mapPtr (homeRoot + 0x20000)), (homeRoot + 0x20000, 0x5005F),
        (homeRoot + 0x40000, 1), (homeRoot + 0x40010, 1), (homeRoot + 0x40040, 0x60000), (homeRoot + 0x50010, 1)] }
    sys := { s.sys with parts := [(0, { s.part 0 with free2 := homeRoot + 0x40000, ret2 := homeRoot + 0x50000 })] } }
theorem landed_of {x : Landing} (m : Mem) (h : (match x with | .landed _ => true | _ => false) = true) :
    x = .landed (match x with | .landed n => n | _ => m) := by
  cases x <;> first | rfl | cases h
theorem not_moved {x : WRes} (h : (match x with | .moved _ => true | _ => false) = false) (w : Moved) : x ≠ .moved w := by
  rintro rfl; cases h

theorem witness_Coherence :
    (∃ (s v u : State) (c : Core) (l d a : Nat), d < 8 ∧ s.mem.waitsRebuild l = false ∧ ((ln s l).die d).tokens = 0
      ∧ ((ln s l).die d).trans = .none ∧ (s.waitsAt l d false).asker d (l * 256) = (some c, v)
      ∧ v.walk c.s1root (l * 256) needR = (.pa a, u) ∧ (ln u l).homeOwner = true ∧ 2 ≤ (ln u l).homeTok ∧ u.mem.reduceKey l = none)
    ∧ (∃ (s : State) (l : Nat), s.mem.waitsRebuild l = true)
    ∧ (∃ (s : State) (l d h : Nat), d < 8 ∧ h ≠ d ∧ s.mem.waitsRebuild l = false ∧ ((ln s l).die h).tokens ≠ 0
      ∧ ((ln s l).die h).trans = .none ∧ ((ln s l).die h).recalls true = [] ∧ s.pinned h l = false)
    ∧ (∃ (s : State) (l d h : Nat), d < 8 ∧ h ≠ d ∧ s.mem.waitsRebuild l = false ∧ ((ln s l).die h).tokens ≠ 0
      ∧ ((ln s l).die h).trans = .none ∧ ((ln s l).die h).recalls true ≠ []
      ∧ (Ask.write, d) ∉ ((ln s l).die h).heldReq)
    ∧ (∃ (s : State) (l d : Nat), d < 8 ∧ s.mem.waitsRebuild l = false ∧ (s.mem.reduceKey l).isSome = true ∧ 2 ≤ (ln s l).homeTok)
    ∧ (∃ (s : State) (l d h : Nat), d < 8 ∧ s.mem.waitsRebuild l = false ∧ (s.mem.reduceKey l).isSome = true ∧ h ≠ d
      ∧ ((ln s l).die h).trans = .none ∧ s.pinned h l = false ∧ 2 ≤ ((ln s l).die h).tokens)
    ∧ (∃ (s : State) (i l d : Nat) (m : TokMsg), s.mem.msgs[i]? = some m ∧ m.line = l ∧ m.dst = .die d
      ∧ ((ln s l).die d).activeFor = none ∧ ((ln s l).die d).trans = .is ∧ m.tokens ≠ 0 ∧ m.data = true)
    ∧ (∃ (s : State) (k : Nat) (m : TokMsg), s.mem.resent[k]? = some m ∧ ∀ x ∈ s.mem.msgs, ¬(x.seq = m.seq ∧ x.src = m.src))
    ∧ (∃ (s : State) (k j : Nat) (m : TokMsg), s.mem.resent[k]? = some m
      ∧ (s.mem.msgs.findIdx? fun x => x.seq == m.seq && x.src == m.src) = some j ∧ j < s.mem.msgs.length)
    ∧ (∃ (s v u : State) (c : Core) (l d a : Nat), ((ln s l).die d).tokens ≠ 0 ∧ ((ln s l).die d).wp = false
      ∧ s.asker d (l * 256) = (some c, v) ∧ v.walk c.s1root (l * 256) needW = (.pa a, u))
    ∧ (∃ (s v u : State) (c : Core) (l d : Nat) (f : WFault), ((ln s l).die d).tokens ≠ 0 ∧ ((ln s l).die d).wp = false
      ∧ s.asker d (l * 256) = (some c, v) ∧ v.walk c.s1root (l * 256) needW = (.fault f, u))
    ∧ (∃ (s : State) (d l : Nat), ((ln s l).die d).tokens = 0 ∨ ((ln s l).die d).wp = true)
    ∧ (∃ (d c l n : Nat), clusterOf n = d * 16 + c ∧ l < 2 ^ 44)
    ∧ (∃ (s : State) (d c k l : Nat), ((ln s l).die d).trans = .rc ∧ k ∈ ((ln s l).die d).awaits ∧ k ≠ c)
    ∧ (∃ (s : State) (d c l r : Nat), r < 8 ∧ r ≠ d ∧ ((ln s l).die d).trans = .rc ∧ c ∈ ((ln s l).die d).awaits
      ∧ (∀ k ∈ ((ln s l).die d).awaits, k = c) ∧ s.pinned d l = false ∧ ((ln s l).die d).heldReq = [(Ask.write, r)]
      ∧ ((ln s l).die d).prev = .none ∧ ((ln s l).die d).tokens ≠ 0
      ∧ (∀ b, b < 16 → ((ln s l).die d).sharers.getLsbD b = true → b = c) ∧ ((ln s l).die d).writer = none)
    ∧ (∃ (s : State) (d l : Nat), (ln s l).haw = none ∧ d ∉ (ln s l).hawQ ∧ ((ln s l).die d).trans = .is)
    ∧ (∃ (s : State) (d r l : Nat), (ln s l).haw = some r ∧ r ≠ d ∧ d ∉ (ln s l).hawQ ∧ (ln s l).hawQ.length < 2304)
    ∧ (∃ (s : State) (r l : Nat), r < 8 ∧ (ln s l).haw = some r ∧ (ln s l).homeTok ≠ 0)
    ∧ (∃ (s : State) (r l : Nat), r < 8 ∧ (ln s l).haw = some r ∧ ((ln s l).die r).trans = .none ∧ (ln s l).hawQ = [])
    ∧ (∃ (s : State) (r l n : Nat) (q : List Nat), r < 8 ∧ (ln s l).haw = some r ∧ ((ln s l).die r).trans = .none ∧ (ln s l).hawQ = n :: q)
    ∧ (∃ (s : State) (d l : Nat), ((ln s l).die d).tokens ≠ 0 ∧ ((ln s l).die d).trans = .none ∧ s.pinned d l = false
      ∧ (ln s l).partialOf d = none)
    ∧ (∃ (s : State) (d l : Nat), ((ln s l).die d).owner = true ∧ ((ln s l).die d).dirty ≠ 0 ∧ ((ln s l).die d).trans = .none
      ∧ ((ln s l).die d).reduce = none ∧ s.pinned d l = false)
    ∧ (∃ (s : State) (d l : Nat), sget 0 (ln s l).wbs d ≠ 0 ∧ ((ln s l).die d).trans = .wb ∧ ((ln s l).die d).activeFor = none)
    ∧ (∃ s : State, s.liveCores = []) ∧ (∃ (s : State) (ia : Nat), s.liveCores = [s.core.num] ∧ s.core.partNo ≠ partOfIa ia)
    ∧ ∃ (s u : State) (ia : Nat), s.liveCores = [s.core.num] ∧ s.core.partNo = partOfIa ia ∧ (s.landWalk s.core.s1root ia 7).2 = u
      ∧ ∀ g, s.landWaiter ia g = none :=
  ⟨⟨fresh, fresh.waitsAt 0x30 0 false, ((fresh.waitsAt 0x30 0 false).walk fresh.core.s1root 0x3000 needR).2, fresh.core, 0x30, 0, 0x3000,
      by decide, by decide, by decide, by decide, asker_one (by rfl) (by decide), Prod.ext (by decide +kernel) rfl, by decide +kernel, by decide +kernel,
      by decide +kernel⟩,
    ⟨lostHeld, 0x30, by decide⟩,
    ⟨lined (dieHeld {}), 0x30, 0, 1, by decide⟩, ⟨lined (dieHeld { sharers := 0x8000 }), 0x30, 0, 1, by decide⟩,
    ⟨lined { homeReduce := some ⟨0, 8, false⟩, homeTok := 2 }, 0x30, 3, by decide⟩,
    ⟨lined (dieHeld { reduce := some ⟨0, 8, false⟩ }), 0x30, 3, 1, by decide⟩,
    ⟨sending [token] [], 0, 0x30, 2, token, rfl, by decide⟩, ⟨sending [] [token], 0, token, rfl, by decide⟩,
    ⟨sending [token] [token], 0, 0, token, rfl, by decide⟩,
    ⟨mapped, mapped, (mapped.walk mapped.core.s1root 0x3000 needW).2, mapped.core, 0x30, 0, 0x3000, by decide, by decide, asker_one (by rfl) (by decide),
      Prod.ext (by decide +kernel) rfl⟩,
    ⟨lined ownDie, lined ownDie, _, run.core, 0x30, 0, _, by decide, by decide, asker_one (by rfl) (by decide), rfl⟩, ⟨run, 0, 0, by decide⟩, ⟨0, 0, 0x30, 5, by decide⟩,
    ⟨lined (dieHeld { trans := .rc, awaits := [3, 15] }), 1, 15, 3, 0x30, by decide⟩,
    ⟨lined (dieHeld { trans := .rc, awaits := [15], heldReq := [(Ask.write, 0)], sharers := 0x8000 }), 1, 15, 0x30, 0, by decide⟩,
    ⟨lined { dies := [(2, { trans := .is })] }, 2, 0x30, by decide⟩, ⟨lined { haw := some 0, hawQ := [3] }, 2, 0, 0x30, by decide⟩,
    ⟨lined { haw := some 7 }, 7, 0x30, by decide⟩, ⟨lined { haw := some 7 }, 7, 0x30, by decide⟩,
    ⟨lined { haw := some 7, hawQ := [3] }, 7, 0x30, 3, [], by decide⟩, ⟨lined (dieHeld {}), 1, 0x30, by decide⟩,
    ⟨lined (dieHeld { dirty := 8 }), 1, 0x30, by decide⟩,
    ⟨lined { dieHeld { trans := .wb, dirty := 9 } with wbs := [(1, 1)] }, 1, 0x30, by decide⟩,
    ⟨State.reset, by decide⟩, ⟨run, 2 ^ 47, by decide⟩,
    ⟨run, _, 0x3000, by decide, by decide, rfl, fun g => by cases g <;> rfl⟩⟩

theorem witness_Landing : ∃ (s : State) (ia : Nat) (v : Moved) (m : Mem), s.liveCores = [s.core.num] ∧ s.core.partNo = partOfIa ia
    ∧ findLeaves s.mem s.core.s1root (s.part (partOfIa ia)).s2root ia = .moved v ∧ v.leaf.entry.wok = true
    ∧ landLeaf s.mem (s.part (partOfIa ia)).s2root v (s.ringsOf (partOfIa ia) v.stage).1 (s.ringsOf (partOfIa ia) v.stage).2 = .landed m
    ∧ (∀ w, findLeaves m s.core.s1root (s.part (partOfIa ia)).s2root ia ≠ .moved w) ∧ ∀ g c, headOf s g = some c → c.susp = none :=
  ⟨moving, 0x20000000, ⟨3, ⟨0x50000, { pa := homeRoot + 0x20000, word := 0x5005F, via := [homeRoot, homeRoot + 0x10008] }, false⟩, false, 0x20000000⟩, _, by decide, by decide,
    by decide +kernel, rfl, landed_of moving.mem (by decide +kernel), fun w => not_moved (by decide +kernel) w,
    fun g c h => by cases g <;> cases h⟩

/-- Link end k in the given state. -/
def wired (k : Nat) (x : Link) : State := { run with mem := { run.mem with links := [(k, x)] } }

theorem witness_Links :
    (∃ (s : State) (k seq : Nat) (e : Nat × Nat), linkFar k = some e ∧ sget 0 (s.wire k).replays seq < 8)
    ∧ (∃ (s : State) (k seq : Nat) (e : Nat × Nat), linkFar k = some e ∧ 8 ≤ sget 0 (s.wire k).replays seq)
    ∧ (∃ (s : State) (k : Nat), ∀ e ∈ (s.wire k).replays, e.2 < 8)
    ∧ (∃ (s : State) (k : Nat) (e : Nat × Nat), linkFar k = some e ∧ (s.wire k).power = .active)
    ∧ (∃ (s : State) (k : Nat) (e : Nat × Nat), linkFar k = some e ∧ (s.wire k).power = .dozing)
    ∧ (∃ (s : State) (k : Nat) (e : Nat × Nat), linkFar k = some e ∧ (s.wire k).power = .retraining ∧ (s.wire k).trains < 3)
    ∧ (∃ (s : State) (k i : Nat) (e x : Nat × Nat), linkFar k = some e ∧ (s.wire k).power = .sleeping ∧ 3 ≤ (s.wire k).trains
      ∧ e.1 ∉ s.mem.lost ∧ linkEnd e.1 i = some x ∧ i < 7 ∧ e.1 * 64 + i ≠ e.2 ∧ e.1 * 64 + i ≠ k
      ∧ (s.wire (e.1 * 64 + i)).power ≠ .failed)
    ∧ (∃ (s : State) (k : Nat) (e : Nat × Nat), linkFar k = some e ∧ (s.wire k).power = .retraining ∧ 3 ≤ (s.wire k).trains
      ∧ ∀ i x, linkEnd e.1 i = some x → e.1 * 64 + i ≠ e.2 → (s.wire (e.1 * 64 + i)).power = .failed)
    ∧ (∃ (s : State) (d : Nat), d ∈ s.mem.lost) ∧ ∃ (s : State) (d : Nat), d ∉ s.mem.lost := by
  refine ⟨⟨wired 4 { replays := [(3, 7)] }, 4, 3, (9, 576), by decide⟩, ⟨wired 4 { replays := [(3, 8)] }, 4, 3, (9, 576), by decide⟩,
    ⟨wired 0 { replays := [(3, 7)] }, 0, by decide⟩, ⟨run, 6, (8, 512), by decide⟩,
    ⟨wired 0 { power := .dozing }, 0, (1, 65), by decide⟩, ⟨wired 2 { power := .retraining, trains := 2 }, 2, (4, 258), by decide⟩,
    ⟨wired 576 { power := .sleeping, trains := 3 }, 576, 0, (0, 4), (1, 1), by decide⟩,
    ⟨wired 4 { power := .retraining, trains := 3 }, 4, (9, 576), by decide, by decide, by decide, ?_⟩,
    ⟨run.onMem fun m => { m with lost := [3] }, 3, by decide⟩, ⟨run, 7, by decide⟩⟩
  intro i x h hn
  cases i with
  | zero => exact absurd rfl hn
  | succ n => cases n <;> cases h

/-! ### The scheduler and the host -/

/-- The node at 0x4000 is admitted with one gang, placed on core 5, the core that acts; its run-time record is `n`. -/
def scheduled (n : NodeRt) (part : Part → Part) : State :=
  { kept 2 with sys := { (kept 2).sys with
    boot := .up, parts := [(0, part ((kept 2).part 0))], nodes := [(0x80000, n)], placed := [⟨5, 0x4000, 0, 0, 0, none, 0⟩] } }
/-- Its usual record. -/
def launched : NodeRt := { launch := true, count := 1, lim1 := 1000, lim2 := 1000 }
/-- The same with the group not on a core. -/
def unplaced (n : NodeRt) : State := let s := scheduled n id; { s with sys := { s.sys with placed := [] } }

/-- Its gang is replayed on core 13. -/
def replayed : State :=
  let s := scheduled { launched with auditing := [0] } id
  { s with sys := { s.sys with replays := [⟨13, 0x80000, 0, 0, 1⟩] } }

theorem witness_Placement : ∃ s : State, s.sys.placed ≠ [] ∧ (s.sys.placed.map fun q => q.core).Nodup :=
  ⟨scheduled launched id, by decide, by decide⟩

theorem witness_Scheduler :
    (∃ (s : State) (p node g : Nat), ((s.node? p node).todo.find? fun g => decide (64 ≤ sget 0 (s.node? p node).unplaced g)) = some g
      ∧ (s.part p).reserve = none ∧ (s.node? p node).wants = true ∧ (s.part p).clusters ≠ [])
    ∧ (∃ (s : State) (key gang : Nat), ∀ x ∈ (nd s key).leaving, x.1 ≠ gang)
    ∧ (∃ (s : State) (key gang : Nat), (∃ x ∈ (nd s key).leaving, x.1 = gang)
      ∧ s.allMembers (s.gangOf (key % 32) (key / 32) gang) (fun t => t.quiet gangMax) = false)
    ∧ (∃ (s : State) (key gang : Nat), (∃ x ∈ (nd s key).leaving, x.1 = gang)
      ∧ s.allMembers (s.gangOf (key % 32) (key / 32) gang) (fun t => t.quiet gangMax) = true
      ∧ s.allMembers (s.gangOf (key % 32) (key / 32) gang) (fun t => (dirtyPages t.spad).isEmpty) = true)
    ∧ (∃ (s : State) (d cl : Nat),
      s.allMembers (s.gangOf s.core.partNo s.core.node.toNat (s.core.index / s.core.gsize))
        (fun t => (t.core.run == .running || t.core.run == .ended) && t.quiet gangMax) = true
      ∧ s.allMembers (s.gangOf s.core.partNo s.core.node.toNat (s.core.index / s.core.gsize)) (fun t => t.leftDirty.isEmpty) = true
      ∧ d * 16 + cl ∈ (s.part s.core.partNo).clusters ∧ s.core.num / 8 ≠ d * 16 + cl
      ∧ (∀ x ∈ (s.node? s.core.partNo s.core.node.toNat).leaving, x.1 ≠ s.core.index / s.core.gsize)
      ∧ s.core.num ∈ (s.gangOf s.core.partNo s.core.node.toNat (s.core.index / s.core.gsize)).map (fun p => p.core)
      ∧ (s.gangOf s.core.partNo s.core.node.toNat (s.core.index / s.core.gsize)).length ≤ (s.freeCores (d * 16 + cl)).length)
    ∧ (∃ (s : State) (key : Nat), (nd s key).launch = true ∧ (nd s key).done = false
      ∧ s.nodeState (key % 32) (key / 32) = stAdmitted ∧ (nd s key).saving = false ∧ (nd s key).halted = false
      ∧ s.placedOf (key % 32) (key / 32) ≠ [] ∧ (nd s key).svc = false)
    ∧ (∃ (s : State) (key : Nat), (nd s key).stuckMs * 1000 < (nd s key).lim1)
    ∧ (∃ (s : State) (key : Nat), (nd s key).launch = true ∧ (nd s key).done = false ∧ (nd s key).stuckMs ≠ 0
      ∧ (nd s key).lim1 ≤ (nd s key).stuckMs * 1000 ∧ (nd s key).saving = true)
    ∧ (∃ (s : State) (key : Nat), (nd s key).launch = true ∧ (nd s key).done = false ∧ (nd s key).stuckMs ≠ 0
      ∧ (nd s key).lim1 ≤ (nd s key).stuckMs * 1000 ∧ (nd s key).saving = false ∧ (nd s key).strikeLim = 0)
    ∧ (∃ (s : State) (key : Nat), (nd s key).forced = true ∧ (nd s key).done = false ∧ (nd s key).saving = true)
    ∧ (∃ (s : State) (key : Nat), (nd s key).forced = true ∧ (nd s key).done = false ∧ (nd s key).saving = false
      ∧ (nd s key).leaving = [])
    ∧ (∃ (s : State) (key : Nat), (nd s key).forced = true ∧ (nd s key).done = false ∧ (nd s key).saving = false
      ∧ (nd s key).leaving ≠ [])
    ∧ (∃ s : State, s.core.run = .ended ∧ s.core.pend = [] ∧ s.core.muldiv = [] ∧ s.core.vfly = [] ∧ s.core.parked = []
      ∧ s.eng.mq = [] ∧ s.eng.c0q = [] ∧ s.eng.c1q = [] ∧ s.stashDirty = [])
    ∧ (∃ (s : State) (core : Nat), core = s.core.num ∧ s.core.run ≠ .ended)
    ∧ (∃ (s : State) (core : Nat), core ≠ s.core.num ∧ s.otherOn core = none)
    ∧ (∃ (s : State) (key gang core : Nat), gang ∈ (nd s key).auditing ∧ ∃ r ∈ s.sys.replays, r.node = key ∧ r.gang = gang ∧ r.core = core)
    ∧ (∃ (s : State) (key gang : Nat), gang ∈ (nd s key).auditing ∧ ∀ r ∈ s.sys.replays, ¬(r.node = key ∧ r.gang = gang))
    ∧ ∃ (s : State) (pa : Nat), ∃ p ∈ s.usersOf (pa, 1), (s.part p).mode modeTriage = true :=
  ⟨⟨unplaced { launched with todo := [0], unplaced := [(0, 64)] }, 0, 0x4000, 0, by decide⟩, ⟨scheduled launched id, 0x80000, 0, by decide⟩,
    ⟨(scheduled { launched with leaving := [(0, false)] } id).onEng fun e => { e with crem := [(1, 1)] }, 0x80000, 0, by decide +kernel⟩,
    ⟨scheduled { launched with leaving := [(0, false)] } id, 0x80000, 0, by decide +kernel⟩,
    ⟨scheduled launched fun p => { p with clusters := [0, 1] }, 0, 1, by decide +kernel⟩,
    ⟨scheduled launched id, 0x80000, by decide +kernel⟩, ⟨scheduled launched id, 0x80000, by decide⟩,
    ⟨scheduled { launched with stuckMs := 1, saving := true } id, 0x80000, by decide⟩,
    ⟨scheduled { launched with stuckMs := 1 } id, 0x80000, by decide⟩,
    ⟨scheduled { launched with forced := true, saving := true } id, 0x80000, by decide⟩,
    ⟨scheduled { launched with forced := true } id, 0x80000, by decide⟩,
    ⟨scheduled { launched with forced := true, leaving := [(0, false)] } id, 0x80000, by decide⟩,
    ⟨run.onCore fun c => { c with run := .ended }, by decide⟩, ⟨run, 0, by decide⟩, ⟨run, 1, by decide⟩,
    ⟨replayed, 0x80000, 0, 13, by decide, ⟨13, 0x80000, 0, 0, 1⟩, by decide⟩,
    ⟨scheduled { launched with auditing := [0] } id, 0x80000, 0, by decide⟩,
    ⟨scheduled launched fun p => { p with funcmode := 0x20 }, homeRoot, 0, by decide +kernel⟩⟩


/-- A block for the slot of partition 0 with its three arguments. -/
def blk (node arg arg2 : BitVec 64) : Mgmt := ⟨0, 0, node, arg, arg2⟩
/-- A fault record of partition 0 on another core, in the physical function's queue. -/
def record0 : FRec := ⟨0, 0, 5, true, 0xFFFF, 0x11, 0, {}, false, false, 0, 0, 9, 0, .other, false, false⟩
/-- The module in use: partition 0 has its root node, a dirty log, slot 1 is busy with a SAVE. -/
def managed (n : NodeRt) : State :=
  let s := unplaced n
  { s with
    sys := { s.sys with
      parts := [(0, { s.part 0 with rootUp := true, armed := true, logBase := 0x10000, logPages := 64, funcmode := 0x40 })]
      recs := [record0], slots := [(1, ⟨0x102, 0x9000, 0, 0, 1⟩)] } }
/-- The table of sections of a header at 16 MiB, from its third entry on (R345, R346). -/
def table : Sparse (BitVec 8) :=
  [(0x100004F, 0x2), (0x1000051, 0x4), (0x1000054, 0x13), (0x1000057, 0x3), (0x1000059, 0x3C), (0x100005C, 0x17),
   (0x100005F, 0x4), (0x1000061, 0x8), (0x1000064, 0x53), (0x1000067, 0x5), (0x1000069, 0x2), (0x100006C, 0x5B),
   (0x100006F, 0x6), (0x1000071, 0x10), (0x1000074, 0x5D), (0x1000077, 0x7), (0x1000079, 0xA), (0x100007C, 0x6D),
   (0x100007F, 0x8), (0x1000081, 0x21), (0x1000084, 0x77)]
  ++ [(0x1000087, 0x9), (0x1000089, 0x30), (0x100008A, 0x1), (0x100008C, 0x98), (0x100008F, 0xA), (0x1000091, 0x26),
    (0x1000094, 0xC8), (0x1000095, 0x1), (0x1000097, 0xB), (0x1000099, 0x1), (0x100009A, 0x6), (0x100009C, 0xEE),
    (0x100009D, 0x1), (0x100009F, 0xC), (0x10000A1, 0x10), (0x10000A4, 0xEF), (0x10000A5, 0x7), (0x10000A7, 0xD),
    (0x10000A9, 0x10), (0x10000AC, 0xFF), (0x10000AD, 0x7), (0x10000AF, 0xE)]
/-- The same with a complete image in the node's one slot: its flags, the bytes of its CRC, the mark of section 2, and section 1. -/
def stored (flags : BitVec 8) (crc mark body : Sparse (BitVec 8)) : State :=
  (managed launched).onMem fun m =>
    { m with bytes := [(0x2008, 1), (0x4002, 2), (0x4083, 1), (0x100000, 0x81), (0x100001, 0x80), (0x100009, 0x40),
      (0x1000000, 0x46), (0x1000001, 0x52), (0x1000002, 0x59), (0x1000003, 0x46), (0x1000004, 1), (0x1000006, 1), (0x1000008, flags),
      (0x1000013, 1), (0x1000018, 1)] ++ crc ++ [(0x1000030, 0xE), (0x1000041, 0x10), (0x1000044, 0x1), (0x1000047, 0x1), (0x1000049, 0x2), (0x100004C, 0x11)] ++ mark ++ table ++ body
      ++ [(0x2000000000, 1), (0x2000000002, 1), (0x2000000004, 0x20), (0x2000010000, 0x1F)] }
/-- A fresh one, which is a header alone. -/
def imaged : State := stored 0x21 [] [] []
/-- One that is not, with section 2 poisoned: eight bytes of ones and then zeros, of which the CRC is all ones. -/
def spoilt : State :=
  stored 1 [(0x1000028, 0xFF), (0x1000029, 0xFF), (0x100002A, 0xFF), (0x100002B, 0xFF), (0x100002C, 0xFF), (0x100002D, 0xFF),
      (0x100002E, 0xFF), (0x100002F, 0xFF)] [(0x100004E, 1)]
    [(0x1000100, 0xFF), (0x1000101, 0xFF), (0x1000102, 0xFF), (0x1000103, 0xFF), (0x1000104, 0xFF), (0x1000105, 0xFF),
      (0x1000106, 0xFF), (0x1000107, 0xFF)]

theorem sgetN_add {α : Type} (d : α) (m : Sparse α) (j : Nat) : ∀ (i k : Nat), sgetN d m k (i + j) = sgetN d m k i ++ sgetN d m (k + i) j
  | 0, k => by simp [sgetN]
  | i + 1, k => by
    rw [show i + 1 + j = (i + j) + 1 by omega, sgetN, sgetN, sgetN_add d m j i (k + 1), show k + 1 + i = k + (i + 1) by omega]
    rfl
theorem sget_none {α : Type} (d : α) (k : Nat) : ∀ m : Sparse α, (∀ e ∈ m, e.1 ≠ k) → sget d m k = d
  | [], _ => rfl
  | e :: m, h => by
    rw [sget, if_neg (h e (by simp)), sget_none d k m fun x hx => h x (by simp [hx])]
theorem sgetN_none {α : Type} (d : α) (m : Sparse α) : ∀ (n k : Nat), (∀ e ∈ m, e.1 < k ∨ k + n ≤ e.1) → sgetN d m k n = List.replicate n d
  | 0, _, _ => rfl
  | n + 1, k, h => by
    rw [sgetN, List.replicate_succ, sget_none d k m fun e he => by have := h e he; omega,
      sgetN_none d m n (k + 1) fun e he => by have := h e he; omega]

theorem no_units (l : List Nat) : l.filter (fun _ => false) = [] := by simp
/-- From a VA of the save area on, n bytes are granted, none is listed, and no unit is poisoned. -/
def blank (s : State) (part node : Nat) : Nat → Nat → Nat → Bool
  | 0, _, n => n == 0
  | f + 1, va, n =>
    let k := Nat.min n (65536 - va % 65536)
    match (s.savePa part node va needR).1 with
    | none => false
    | some a => s.mem.bytes.all (fun e => decide (e.1 < a) || decide (a + k ≤ e.1)) && s.mem.poison.isEmpty
        && (decide (n ≤ k) || blank s part node f (va + k) (n - k))
theorem blank_reads (s : State) (part node : Nat) : ∀ (f va n : Nat), blank s part node f va n = true →
    s.saveRead part node f va n = some (List.replicate n 0, [])
  | 0, _, n, h => by
    have : n = 0 := by simpa [blank] using h
    subst this; rfl
  | f + 1, va, n, h => by
    rw [blank] at h
    rw [State.saveRead]
    split at h
    · cases h
    · rename_i a ha
      simp only [ha, Bool.and_eq_true, Bool.or_eq_true, decide_eq_true_eq, List.all_eq_true] at h ⊢
      have hk : Nat.min n (65536 - va % 65536) ≤ n := Nat.min_le_left ..
      have hp : s.mem.poison = [] := List.isEmpty_iff.1 h.1.2
      have hb : ∀ x, s.mem.bad x = false := fun x => by rw [Mem.bad, hp]; rfl
      simp only [hb, no_units, List.map_nil, List.nil_append]
      rw [Mem.rdN, sgetN_none 0 s.mem.bytes _ a h.1.1]
      by_cases hn : n ≤ Nat.min n (65536 - va % 65536)
      · rw [if_pos hn, show Nat.min n (65536 - va % 65536) = n by omega]
      · rw [if_neg hn, blank_reads s part node f _ _ (h.2.resolve_left hn), Option.map_some, List.replicate_append_replicate]
        congr 3; omega

theorem crc_zeros : ∀ n : Nat, crcBytes 0 (List.replicate n 0) = 0
  | 0 => rfl
  | n + 1 => by
    rw [List.replicate_succ, crcBytes, List.foldl_cons, show crcByte 0 0 = 0 by decide]
    exact crc_zeros n
theorem crc_ones (n : Nat) : crc64 (List.replicate 8 0xFF ++ List.replicate n 0) = BitVec.allOnes 64 := by
  rw [crc64, crcBytes, List.foldl_append, show List.foldl crcByte (BitVec.allOnes 64) (List.replicate 8 0xFF) = 0 by decide +kernel]
  rw [show List.foldl crcByte 0 (List.replicate n 0) = 0 from crc_zeros n]
  decide

/-- The slot of a stored image: 272 bytes that are listed, and zeros. -/
theorem slot_reads {s : State} {hd : List (BitVec 8)} (hp : (s.savePa 0 0x4000 0x1000000 needR).1 = some 0x1000000)
    (hh : sgetN 0 s.mem.bytes 0x1000000 0x110 = hd) (hz : s.mem.bytes.all (fun e => decide (e.1 < 0x1000110) || decide (0x1010000 ≤ e.1)) = true)
    (hr : blank s 0 0x4000 15 0x1010000 (0x80F00 - 0x10000) = true) (hq : s.mem.poison = []) :
    s.saveRead 0 0x4000 16 0x1000000 0x80F00 = some (hd ++ List.replicate (0x80F00 - 0x110) 0, []) := by
  have hb : ∀ x, s.mem.bad x = false := fun x => by rw [Mem.bad, hq]; rfl
  have hz' : sgetN 0 s.mem.bytes 0x1000110 (0x10000 - 0x110) = List.replicate (0x10000 - 0x110) 0 :=
    sgetN_none _ _ _ _ fun e he => by
      have := List.all_eq_true.1 hz e he
      simp only [Bool.or_eq_true, decide_eq_true_eq] at this
      omega
  rw [State.saveRead, hp]
  dsimp only
  simp only [hb, no_units, List.map_nil, List.nil_append]
  rw [if_neg (by decide), show Nat.min 0x80F00 (65536 - 0x1000000 % 65536) = 0x110 + (0x10000 - 0x110) by decide, Mem.rdN, sgetN_add, hh,
    show 0x1000000 + 0x110 = 0x1000110 by decide, hz', show 0x1000000 + (0x110 + (0x10000 - 0x110)) = 0x1010000 by decide,
    show 0x80F00 - (0x110 + (0x10000 - 0x110)) = 0x80F00 - 0x10000 by decide, blank_reads _ _ _ _ _ _ hr, Option.map_some, List.append_assoc,
    List.replicate_append_replicate]
/-- The listed bytes of a stored image. -/
def slotHead (s : State) : List (BitVec 8) := sgetN 0 s.mem.bytes 0x1000000 0x110
/-- What is read of a slot. -/
theorem slot_read {s : State} {hd : List (BitVec 8)} {ws : List (BitVec 64)} (hs : s.slotVa 0 0x4000 0 = 0x1000000)
    (h : s.saveRead 0 0x4000 16 0x1000000 0x80F00 = some (hd ++ List.replicate (0x80F00 - 0x110) 0, []))
    (hw : ((List.range 32).map (word64At (hd ++ List.replicate (0x80F00 - 0x110) 0))) = ws)
    (h1 : (word64At (hd ++ List.replicate (0x80F00 - 0x110) 0) 1).getLsbD 1 = false) :
    s.readSlot 0 0x4000 0 = some (ws, (hd ++ List.replicate (0x80F00 - 0x110) 0).drop headerBytes, []) := by
  unfold State.readSlot
  dsimp only
  rw [hs, show imageBytes = 0x80F00 from rfl, h, Option.map_some]
  dsimp only
  rw [hw, h1]
  rfl
/-- The header of an image in that slot. -/
def storedHeader (fresh : Bool) (crc : BitVec 64) : List (BitVec 64) :=
  ({ complete := true, fresh := fresh, groupw := 0x1000000, gangw := 1, crc := crc } : Image).header
/-- The header of the spoilt image. -/
def spoiltHeader : List (BitVec 64) :=
  let h := storedHeader false (BitVec.allOnes 64)
  h.set 9 (h.getD 9 0 ||| 0x1000000000000)
theorem spoilt_read : spoilt.readSlot 0 0x4000 0
    = some (spoiltHeader, (slotHead spoilt ++ List.replicate (0x80F00 - 0x110) 0).drop headerBytes, []) :=
  slot_read (by decide +kernel) (slot_reads (by decide +kernel) rfl (by decide +kernel) (by decide +kernel) rfl) (by decide +kernel)
    (by decide +kernel)
theorem imaged_read : imaged.readSlot 0 0x4000 0
    = some (storedHeader true 0, (slotHead imaged ++ List.replicate (0x80F00 - 0x110) 0).drop headerBytes, []) :=
  slot_read (by decide +kernel) (slot_reads (by decide +kernel) rfl (by decide +kernel) (by decide +kernel) rfl) (by decide +kernel)
    (by decide +kernel)
theorem spoilt_body : (slotHead spoilt ++ List.replicate (0x80F00 - 0x110) 0).drop headerBytes
    = List.replicate 8 0xFF ++ List.replicate (0x80E00 - 8) 0 := by
  rw [List.drop_append_of_le_length (by decide +kernel), show (slotHead spoilt).drop headerBytes = List.replicate 8 0xFF ++ List.replicate 8 0
    by decide +kernel, List.append_assoc, List.replicate_append_replicate]
theorem spoilt_checks : (spoilt.checkImage 0 0x4000 0).isSome = true := by
  unfold State.checkImage
  rw [spoilt_read]
  dsimp only
  rw [spoilt_body, show (spoiltHeader.getD 1 0).getLsbD 5 = false by decide +kernel]
  simp only [Bool.false_eq_true, if_false]
  rw [crc_ones, if_neg (by decide +kernel)]
  rfl
theorem spoilt_spoiled : spoilt.spoiled 0 0x4000 0 = true := by
  unfold State.spoiled
  rw [spoilt_read]
  decide +kernel
theorem imaged_checks : (imaged.checkImage 0 0x4000 0).isSome = true := by
  unfold State.checkImage
  rw [imaged_read]
  dsimp only
  rw [show ((storedHeader true 0).getD 1 0).getLsbD 5 = true by decide +kernel]
  simp only [if_true]
  rw [if_neg (by decide +kernel)]
  rfl
theorem imaged_whole : imaged.spoiled 0 0x4000 0 = false := by
  unfold State.spoiled
  rw [imaged_read]
  decide +kernel

/-- Every block of partition 0's slot is taken. -/
theorem acc (n : NodeRt) (c : Mgmt) (h0 : c.slot = 0) (h1 : c.part = 0) (h2 : c.ok = true) : Accepts (managed n) c := by
  refine ⟨by omega, rfl, ?_, h2, .inr ?_⟩
  · rw [h0]; show (0 : Nat) ≠ 1; decide
  · rw [h1]; rfl

/-- A RESTORE of the node that the table's premises let through. -/
abbrev Restores (c : Mgmt) (s : State) (va : Nat) : Prop :=
  Accepts s (c.withOp 0x03) ∧ s.nodeAt (c.withOp 0x03).part c.node.toNat = some va ∧ (s.node? (c.withOp 0x03).part va).halted = false
    ∧ (s.node? (c.withOp 0x03).part va).done = false ∧ s.nodeState (c.withOp 0x03).part va = stAdmitted
    ∧ (s.node? (c.withOp 0x03).part va).retired = [] ∧ s.placedOf (c.withOp 0x03).part va = []
    ∧ (s.node? (c.withOp 0x03).part va).leaving = []
/-- A state in which such a record waits for partition 0, of this waiter and code; the core's one load waits on it. -/
def forwarding (code core : Nat) (w : FWaiter) : State :=
  let s := managed launched
  { s with
    core := { s.core with pend := [⟨4, 0, some ⟨.load 0 4 false, 0, none, {}, 0, false, false⟩, some 0, false⟩] }
    sys := { s.sys with recs := [{ record0 with code := code, core := core, waiter := w }] } }

theorem fwd (code core : Nat) (w : FWaiter) : Accepts (forwarding code core w) ((blk 0 5 0).withOp 0x1B) :=
  ⟨by decide, rfl, by show (0 : Nat) ≠ 1; decide, by decide, .inr rfl⟩

theorem witness_ManagementCommands :
    (∃ (c : Mgmt) (s : State), Accepts s (c.withOp 0x08) ∧ c.arg.toNat % 4096 = 0 ∧ c.arg2.toNat % 64 = 0)
    ∧ (∃ (c : Mgmt) (s : State), Accepts s (c.withOp 0x0B)) ∧ (∃ (c : Mgmt) (s : State), Accepts s (c.withOp 0x15) ∧ c.arg.getLsbD modeTree = false)
    ∧ (∃ (c : Mgmt) (s : State), Accepts s (c.withOp 0x15) ∧ c.arg.getLsbD modeTree = true)
    ∧ (∃ (c : Mgmt) (s : State), Accepts s (c.withOp 0x16) ∧ (∀ e ∈ s.sys.parts, e.2.live = true → e.1 ≠ (c.withOp 0x16).part →
      e.2.ports &&& c.arg.extractLsb' 0 18 = 0) ∧ ∀ u ∈ s.sys.withdrawn, u.utype = 11 → u.die = ctlDie →
      (c.arg.extractLsb' 0 18).getLsbD u.uindex = false)
    ∧ (∃ (c : Mgmt) (s : State), Accepts s (c.withOp 0x17) ∧ c.arg.toNat = 16)
    ∧ (∃ (c : Mgmt) (s : State), Accepts s (c.withOp 0x18) ∧ c.arg ≠ 0) ∧ (∃ (c : Mgmt) (s : State), Accepts s (c.withOp 0x19) ∧ fieldOf c.arg 56 5 < 20)
    ∧ (∃ (c : Mgmt) (s : State), Accepts s (c.withOp 0x1A) ∧ c.arg.toNat % 64 = 0 ∧ c.arg2.toNat % 64 = 0)
    ∧ (∃ (i : Instr) (c : Mgmt) (op : Nat) (s : State), commandOf i = some (c, op) ∧ c.slot < 20 ∧ s.busyWith (c.withOp op) = false
      ∧ s.sys.boot = .recovery)
    ∧ (∃ (i : Instr) (c : Mgmt) (op : Nat) (s : State), commandOf i = some (c, op) ∧ c.slot < 20 ∧ s.busyWith (c.withOp op) = false
      ∧ s.sys.boot = .up ∧ (s.slot c.slot).status ≠ 1 ∧ (c.withOp op).ok = false)
    ∧ (∃ (c : Mgmt) (s : State), Accepts s (c.withOp 0x10) ∧ (s.part (c.withOp 0x10).part).live = false ∧ maskClusters c.arg c.arg2 ≠ []
      ∧ c.node.toNat % 0x8000 = 0
      ∧ ∀ e ∈ s.sys.parts, e.2.live = true → ∀ k ∈ maskClusters c.arg c.arg2, k ∉ e.2.clusters)
    ∧ (∃ (c : Mgmt) (s : State), Accepts s (c.withOp 0x11))
    ∧ (∃ (c : Mgmt) (s : State), Accepts s (c.withOp 0x12) ∧ (s.part (c.withOp 0x12).part).rootUp = true
      ∧ ∀ a ∈ treePages s.mem c.arg false, ∀ e ∈ s.sys.parts, e.2.live = true → e.1 ≠ (c.withOp 0x12).part →
        ∀ b ∈ treePages s.mem e.2.s2root true, meets a b = false)
    ∧ (∃ (c : Mgmt) (s : State), Accepts s (c.withOp 0x13) ∧ c.arg.toNat + c.arg2.toNat * 65536 ≤ 2 ^ 52 ∧ c.arg.toNat % 65536 = 0
      ∧ c.arg2 ≠ 0)
    ∧ (∃ (c : Mgmt) (s : State), Accepts s (c.withOp 0x14) ∧ 1 ≤ c.node.toNat ∧ c.node.toNat ≤ 64 ∧ (s.vf c.node.toNat).part = none
      ∧ (s.part (c.withOp 0x14).part).rootUp = true
      ∧ (s.ctlPut (c.withOp 0x14).part ((s.part (c.withOp 0x14).part).rootva + 0x100 * c.node.toNat)
        (rootBlock (s.part (c.withOp 0x14).part).rootva
          (s.nodeWord (c.withOp 0x14).part (s.part (c.withOp 0x14).part).rootva 0x10 |> fun w => w.toNat % 2 ^ 56)
          0xC 0 0 0 0 c.node.toNat (0xFF00 + c.node.toNat))).1 = true)
    ∧ (∃ (c : Mgmt) (s : State) (va : Nat), Accepts s (c.withOp 0x04) ∧ s.nodeAt (c.withOp 0x04).part c.node.toNat = some va
      ∧ (s.node? (c.withOp 0x04).part va).halted = true ∧ (s.node? (c.withOp 0x04).part va).done = false)
    ∧ (∃ (c : Mgmt) (s : State) (va : Nat), Accepts s (c.withOp 0x01) ∧ s.nodeAt (c.withOp 0x01).part c.node.toNat = some va
      ∧ (s.node? (c.withOp 0x01).part va).halted = false ∧ (s.node? (c.withOp 0x01).part va).done = false
      ∧ s.nodeState (c.withOp 0x01).part va = stAdmitted ∧ s.busyWith (c.withOp 0x01) = false)
    ∧ (∃ (c : Mgmt) (s : State) (va : Nat), Accepts s (c.withOp 0x02) ∧ s.nodeAt (c.withOp 0x02).part c.node.toNat = some va
      ∧ (s.node? (c.withOp 0x02).part va).halted = true ∧ (s.node? (c.withOp 0x02).part va).saving = false
      ∧ (s.node? (c.withOp 0x02).part va).done = false ∧ s.haltDone (c.withOp 0x02).part va = true
      ∧ s.nodeState (c.withOp 0x02).part va = stAdmitted ∧ s.busyWith (c.withOp 0x02) = false)
    ∧ (∃ (c : Mgmt) (s : State) (va g : Nat), Restores c s va ∧ g < (s.node? (c.withOp 0x03).part va).count
      ∧ s.checkImage (c.withOp 0x03).part va g = none)
    ∧ (∃ (c : Mgmt) (s : State) (va : Nat), Restores c s va
      ∧ (∀ k, k < (s.node? (c.withOp 0x03).part va).count → (s.checkImage (c.withOp 0x03).part va k).isSome = true)
      ∧ ∀ k, k < (s.node? (c.withOp 0x03).part va).count → s.spoiled (c.withOp 0x03).part va k = false)
    ∧ (∃ (c : Mgmt) (s : State) (va g : Nat), Restores c s va
      ∧ (∀ k, k < (s.node? (c.withOp 0x03).part va).count → (s.checkImage (c.withOp 0x03).part va k).isSome = true)
      ∧ g < (s.node? (c.withOp 0x03).part va).count ∧ s.spoiled (c.withOp 0x03).part va g = true)
    ∧ (∃ (k : Nat) (s : State), (s.slot k).status = 1 ∧ ((s.slot k).block k).op = 0x02)
    ∧ (∃ (c : Mgmt) (s : State) (r : FRec), Accepts s (c.withOp 0x1B) ∧ s.findRec 0 c.arg.toNat = some r
      ∧ r.part = (c.withOp 0x1B).part ∧ r.code = 0x3F)
    ∧ (∃ (c : Mgmt) (s : State) (r : FRec), Accepts s (c.withOp 0x1B) ∧ s.findRec 0 c.arg.toNat = some r
      ∧ r.part = (c.withOp 0x1B).part ∧ r.code ≠ 0x3F ∧ r.waiter = .gone)
    ∧ (∃ (c : Mgmt) (s : State) (r : FRec), Accepts s (c.withOp 0x1B) ∧ s.findRec 0 c.arg.toNat = some r
      ∧ r.part = (c.withOp 0x1B).part ∧ r.code ≠ 0x3F ∧ r.waiter = .fetch)
    ∧ (∃ (c : Mgmt) (s : State) (r : FRec) (p : SPend) (x : DefRec), Accepts s (c.withOp 0x1B) ∧ s.findRec 0 c.arg.toNat = some r
      ∧ r.part = (c.withOp 0x1B).part ∧ r.code ≠ 0x3F ∧ r.waiter = .store ∧ r.core = s.core.num ∧ s.core.pend = [p] ∧ s.core.parked = []
      ∧ p.waits = some r.id ∧ p.record = some x)
    ∧ (∃ (c : Mgmt) (s : State) (r : FRec) (p : SPend) (x : DefRec) (d : Nat), Accepts s (c.withOp 0x1B)
      ∧ s.findRec 0 c.arg.toNat = some r ∧ r.part = (c.withOp 0x1B).part ∧ r.code ≠ 0x3F ∧ r.waiter = .scalar d ∧ r.core = s.core.num
      ∧ s.core.pend = [p] ∧ s.core.parked = [] ∧ p.waits = some r.id ∧ p.record = some x)
    ∧ (∃ (c : Mgmt) (s : State), Accepts s (c.withOp 0x1C) ∧ (s.node? (c.withOp 0x1C).part c.node.toNat).launch = true
      ∧ (s.node? (c.withOp 0x1C).part c.node.toNat).done = false ∧ s.nodeState (c.withOp 0x1C).part c.node.toNat = stAdmitted)
    ∧ (∃ (c : Mgmt) (s : State) (d k : Nat), Accepts s (c.withOp 0x1D) ∧ d < 256 ∧ k < 64
      ∧ c.arg = BitVec.ofNat 64 (d * 2 ^ 56 + 9 * 2 ^ 32 + k) ∧ linkEnd d k = none)
    ∧ (∃ (c : Mgmt) (s : State) (d k : Nat) (e : Nat × Nat), Accepts s (c.withOp 0x1D) ∧ d < 256 ∧ k < 64
      ∧ c.arg = BitVec.ofNat 64 (d * 2 ^ 56 + 9 * 2 ^ 32 + k) ∧ linkEnd d k = some e)
    ∧ (∃ (c : Mgmt) (s : State), Accepts s (c.withOp 0x1E) ∧ c.arg.toNat ∈ (s.part (c.withOp 0x1E).part).tokWait)
    ∧ (∃ (c : Mgmt) (s : State), Accepts s (c.withOp 0x1E) ∧ c.arg.toNat ∉ (s.part (c.withOp 0x1E).part).tokWait)
    ∧ (∃ (c : Mgmt) (s : State), MemoryOk s ∧ Accepts s (c.withOp 0x0A) ∧ (s.part (c.withOp 0x0A).part).armed = true
      ∧ c.arg.toNat % 8 = 0 ∧ (s.part (c.withOp 0x0A).part).logBase + (s.part (c.withOp 0x0A).part).logPages / 8 = c.arg.toNat)
    ∧ ∃ (c : Mgmt) (s : State), MemoryOk s ∧ Accepts s (c.withOp 0x09) ∧ (s.part (c.withOp 0x09).part).armed = true
      ∧ c.arg.toNat % 8 = 0
      ∧ c.arg.toNat + (s.part (c.withOp 0x09).part).logPages / 8 + 8 = (s.part (c.withOp 0x09).part).logBase := by
  refine ⟨⟨blk 0 0x1000 64, managed launched, acc _ _ rfl rfl (by decide), by decide⟩,
    ⟨blk 0 0 0, managed launched, acc _ _ rfl rfl (by decide)⟩, ⟨blk 0 0x77 0, managed launched, acc _ _ rfl rfl (by decide), by decide⟩,
    ⟨blk 0 0x7F 0, managed launched, acc _ _ rfl rfl (by decide), by decide⟩,
    ⟨blk 0 0x3FFFF 0, managed launched, acc _ _ rfl rfl (by decide), by decide⟩,
    ⟨blk 0 16 0, managed launched, acc _ _ rfl rfl (by decide), by decide⟩,
    ⟨blk 0 255 0, managed launched, acc _ _ rfl rfl (by decide), by decide⟩,
    ⟨blk 15 1 1, managed launched, acc _ _ rfl rfl (by decide), by decide⟩,
    ⟨blk 0 64 64, managed launched, acc _ _ rfl rfl (by decide), by decide⟩,
    ⟨.halt (blk 0 0 0), _, _, { run with sys := { boot := .recovery } }, rfl, by decide⟩,
    ⟨.halt (blk 0 1 0), _, _, managed launched, rfl, by decide⟩,
    ⟨⟨2, 0x200, 0x8000, 2, 0⟩, managed launched, ⟨by decide, rfl, by decide, by decide, .inl (by decide)⟩, by decide, by decide, by decide,
      by decide⟩,
    ⟨blk 0 0 0, managed launched, acc _ _ rfl rfl (by decide)⟩,
    ⟨blk 0 0 0, managed launched, acc _ _ rfl rfl (by decide), rfl, fun a ha => by cases ha⟩,
    ⟨blk 0 (2 ^ 52 - 65536) 1, managed launched, acc _ _ rfl rfl (by decide), by decide⟩,
    ⟨blk 64 0 0, managed launched, acc _ _ rfl rfl (by decide), by decide, by decide, rfl, rfl, by decide +kernel⟩,
    ⟨blk 0x4000 0 0, managed { launched with halted := true }, 0x4000, acc _ _ rfl rfl (by decide), by decide +kernel, rfl, rfl⟩,
    ⟨blk 0x4000 0 0, managed launched, 0x4000, acc _ _ rfl rfl (by decide), by decide +kernel, rfl, rfl, by decide +kernel, by decide⟩,
    ⟨blk 0x4000 0 0, managed { launched with halted := true }, 0x4000, acc _ _ rfl rfl (by decide), by decide +kernel, rfl, rfl, rfl, rfl,
      by decide +kernel, by decide⟩,
    ⟨blk 0x4000 0 0, managed launched, 0x4000, 0, ⟨acc _ _ rfl rfl (by decide), by decide +kernel, rfl, rfl, by decide +kernel, rfl, rfl,
      rfl⟩, by decide, by decide +kernel⟩,
    ⟨blk 0x4000 0 0, imaged, 0x4000, ⟨⟨by decide, rfl, by decide, by decide, .inr rfl⟩, by decide +kernel⟩,
      fun k hk => by rw [show k = 0 from Nat.lt_one_iff.1 hk]; exact imaged_checks,
      fun k hk => by rw [show k = 0 from Nat.lt_one_iff.1 hk]; exact imaged_whole⟩,
    ⟨blk 0x4000 0 0, spoilt, 0x4000, 0, ⟨⟨by decide, rfl, by decide, by decide, .inr rfl⟩, by decide +kernel⟩,
      fun k hk => by rw [show k = 0 from Nat.lt_one_iff.1 hk]; exact spoilt_checks, by decide, spoilt_spoiled⟩,
    ⟨1, managed launched, rfl, by decide⟩,
    ⟨blk 0 5 0, forwarding 0x3F 5 .gone, _, fwd .., rfl, rfl, rfl⟩, ⟨blk 0 5 0, forwarding 0x11 5 .gone, _, fwd .., rfl, rfl, by decide, rfl⟩,
    ⟨blk 0 5 0, forwarding 0x11 5 .fetch, _, fwd .., rfl, rfl, by decide, rfl⟩,
    ⟨blk 0 5 0, forwarding 0x11 5 .store, _, _, _, fwd .., rfl, rfl, by decide, rfl, rfl, rfl, rfl, rfl, rfl⟩,
    ⟨blk 0 5 0, forwarding 0x11 5 (.scalar 4), _, _, _, 4, fwd .., rfl, rfl, by decide, rfl, rfl, rfl, rfl, rfl, rfl⟩,
    ⟨blk 0x4000 0 0, managed launched, acc _ _ rfl rfl (by decide), rfl, rfl, by decide +kernel⟩,
    ⟨blk 0 (24 * 2 ^ 56 + 9 * 2 ^ 32 + 63) 0, managed launched, 24, 63, acc _ _ rfl rfl (by decide +kernel), by decide +kernel⟩,
    ⟨blk 0 (9 * 2 ^ 32 + 0) 0, managed launched, 0, 0, (1, 1), acc _ _ rfl rfl (by decide +kernel), by decide +kernel⟩,
    ⟨blk 0 3 0, (managed launched).setPart 0 { (managed launched).part 0 with tokWait := [3] },
      ⟨by decide, rfl, by decide, by decide, .inr rfl⟩, by decide⟩,
    ⟨blk 0 3 0, managed launched, acc _ _ rfl rfl (by decide), by decide⟩,
    ⟨blk 0 0x10008 0, managed launched, by unfold MemoryOk; decide +kernel, acc _ _ rfl rfl (by decide), by decide⟩,
    ⟨blk 0 0xFFF0 0, managed launched, by unfold MemoryOk; decide +kernel, acc _ _ rfl rfl (by decide), by decide⟩⟩

/-- The module up, with virtual function 3 bound to partition 0, a clean window and record 5 in the physical function's queue. -/
def bound : State :=
  { run with sys := { run.sys with boot := .up, parts := [(0, { live := true })], vfs := [(3, { part := some 0, iapages := 1 })], recs := [record0] } }
/-- What boot finds on a module in order. -/
def found : BootFind := { slot1 := [true, false], slot2 := [true, true], config1 := true, config2 := false, revisions := [[1], [], [1, 2]], health := [(0, 3, 7)], measures := [1, 2] }

theorem witness_HostAccesses :
    (∃ (s : State) (pa : Nat) (bs : List (BitVec 8)), s.aperture pa bs.length = true)
    ∧ (∃ (s : State) (pa n : Nat), s.aperture pa n = true)
    ∧ (∃ (s : State) (pa : Nat), s.aperture pa 8 = true ∧ s.aperture pa 4 = true ∧ pa % 8 = 0 ∧ pa % 4 = 0 ∧ s.mem.lines = []
      ∧ s.plain pa 8 = s ∧ s.plain pa 4 = s)
    ∧ (∃ (s : State) (v p : Nat), (s.vf v).part = some p ∧ s.winUp v = true ∧ (s.part p).live = true)
    ∧ (∃ (s : State) (v p : Nat), (s.vf v).part = some p ∧ s.winUp v = true
      ∧ 2 ^ 47 < (s.vf v).iabase + (s.vf v).iapages * 65536)
    ∧ (∃ (s : State) (v p : Nat), (s.vf v).part = some p ∧ s.winUp v = true
      ∧ (s.vf v).iabase + (s.vf v).iapages * 65536 ≤ 2 ^ 47)
    ∧ (∃ (s : State) (q : Nat) (seq : BitVec 24), s.winUp q = true ∧ s.findRec q seq.toNat = none)
    ∧ (∃ (s : State) (q : Nat) (seq : BitVec 24) (r : FRec), s.winUp q = true ∧ s.findRec q seq.toNat = some r
      ∧ r.core = s.core.num)
    ∧ (∃ (s : State) (v : Nat), v ≠ 0 ∧ s.winUp v = true) ∧ (∃ (s : State) (k : Nat), k < 20 ∧ (s.slot k).status ≠ 1)
    ∧ (∃ (s : State) (v p : Nat), v ≠ 0 ∧ (s.vf v).part = some p ∧ s.winUp v = true)
    ∧ (∃ (s : State) (v : Nat), (s.vf v).part = none)
    ∧ (∃ (s : State) (v p : Nat), v ≠ 0 ∧ (s.vf v).part = some p ∧ (s.part p).live = true ∧ (s.vf v).down = false)
    ∧ (∃ (s : State) (v p : Nat), v ≠ 0 ∧ (s.vf v).part = some p ∧ (s.part p).live = true ∧ (s.vf v).down = true)
    ∧ (∃ (s : State) (b : BootFind), s.sys.boot = .off ∧ (∀ x ∈ b.slot1.zip b.slot2, x.1 = true ∨ x.2 = true)
      ∧ (b.config1 = true ∨ b.config2 = true) ∧ (∃ u, u ∈ s.sys.health) ∧ (∃ u, u ∈ b.health)
      ∧ sharedRev b 1 ctlDie = none ∧ sharedRev b 24 ctlDie = none)
    ∧ (∃ (s : State) (b : BootFind), s.sys.boot = .off ∧ b.config1 = false ∧ b.config2 = false)
    ∧ (∃ (s : State) (b : BootFind), s.sys.boot ≠ .off ∧ b = found)
    ∧ ∃ (s : State) (q r : SpdmReq), s.sys.boot = .up ∧ q.version = 0x12 ∧ r.version = 0x13 :=
  ⟨⟨bound, hostBase - 1, [7], by decide⟩, ⟨bound, 0, 3, by decide⟩, ⟨bound, 0x1000, by decide, by decide, rfl, rfl, rfl, rfl, rfl⟩, ⟨bound, 3, 0, by decide⟩,
    ⟨bound.setVf 3 { part := some 0, iabase := 2 ^ 47, iapages := 1 }, 3, 0, by decide⟩, ⟨bound, 3, 0, by decide⟩,
    ⟨bound, 0, 6, by decide⟩, ⟨bound.onCore fun c => { c with num := 9 }, 0, 5, record0, by decide⟩, ⟨bound, 3, by decide⟩, ⟨bound, 19, by decide⟩, ⟨bound, 3, 0, by decide⟩, ⟨bound, 64, by decide⟩,
    ⟨bound, 3, 0, by decide⟩, ⟨bound.setVf 3 { bound.vf 3 with down := true }, 3, 0, by decide⟩, ⟨State.reset.onSys fun y => { y with health := [⟨9, 1, 0⟩] }, found, by decide, by decide, by decide, ⟨_, .head _⟩, ⟨_, .head _⟩, by decide, by decide⟩, ⟨State.reset, { found with config1 := false }, by decide⟩, ⟨bound, found, by decide⟩,
    ⟨bound, ⟨0x12, true⟩, ⟨0x13, false⟩, rfl, rfl, rfl⟩⟩

/-! ### Steps and encodings -/

/-- Reset with ADD.i64.sat p0, s5, s6, s7 where the next step fetches. -/
def atAdd : State := State.reset.withFetchWord 32 0x0201461D
/-- Reset with a word of a reserved opcode there. -/
def atBad : State := State.reset.placeProgram (bundleBytes (oneSlotBundle (.word .s 0xFE000000 none)))
/-- Reset with the same ADD in a bundle whose header has a bit set that must be zero. -/
def atHead : State := State.reset.placeProgram (bundleBytes { oneSlotBundle (.word .s 0x0201461D none) with header := oneSlotHeader .s ||| 1 })
/-- The same states with the bundle brought to hand. -/
def hand (s : State) : State := match s.fetchCur with | .ok u => u | .error _ => s

theorem witness_Steps :
    (∃ (s t : State) (i : Instr) (r : List Instr), s.agenda = i :: r ∧ exec i { s with agenda := r } = .next t ∧ t.mem.blocked = false)
    ∧ (∃ (s t : State) (i : Instr) (r : List Instr), s.agenda = i :: r ∧ exec i { s with agenda := r } = .next t ∧ t.mem.blocked = true)
    ∧ (∃ (s u v t : State) (b : Bundle) (x : Slotted) (i : Instr), AtBoundary s ∧ s.fetchCur = .ok u ∧ u.core.cur = some b
      ∧ u.core.slotted b = [x] ∧ u.startWait [x] = v ∧ x.ins = .ok i ∧ v.core.bundleFate b [x] = none ∧ u.core.acquiring = false
      ∧ u.core.cancelledAcq = false ∧ u.core.paged = none ∧ slotRes i v [] v = .ok t ∧ (x.place < 3 ∨ t.core.a = v.core.a)
      ∧ (State.afterIssue v t b).tickEngines.mem.blocked = false)
    ∧ (∃ (x : Slotted) (i : Instr), x.ins = .ok i ∧ ∀ w, i ≠ .barwait w)
    ∧ (∃ (s u v : State) (b : Bundle) (x : Slotted) (cause : Nat) (tval : BitVec 64), AtBoundary s ∧ s.fetchCur = .ok u
      ∧ u.core.cur = some b ∧ u.core.slotted b = [x] ∧ u.core.cancelledAcq = false ∧ u.startWait [x] = v
      ∧ v.core.bundleFate b [x] = some (cause, tval) ∧ (v.takeTrap cause tval noStage false).mem.blocked = false)
    ∧ (∃ (s u v : State) (b : Bundle) (x : Slotted), AtBoundary s ∧ s.fetchCur = .ok u
      ∧ u.core.cur = some b ∧ u.core.slotted b = [x] ∧ u.core.cancelledAcq = false ∧ u.startWait [x] = v
      ∧ v.core.bundleFate b [x] = none ∧ (∃ e, x.ins = .error e) ∧ (v.takeTrap 0x02 x.word noStage false).mem.blocked = false)
    ∧ (∃ (s u : State) (b : Bundle), s.core.cur = none ∧ s.core.loop = none ∧ s.fetchBundle s.core.pc = .ok (b, u)
      ∧ s.core.run = .running)
    ∧ (∃ s : State, s.core.run ≠ .running)
    ∧ (∃ (s u : State) (b : Bundle), s.core.run = .running ∧ s.core.cur = some b ∧ s.fetchCur = .ok u)
    ∧ ∃ (s v t : State) (b : Bundle) (x : Slotted) (i : Instr), s.core.run = .running ∧ s.core.cur = some b
      ∧ s.core.slotted b = [x] ∧ s.startWait [x] = v ∧ x.ins = .ok i ∧ v.core.bundleFate b [x] = none ∧ s.core.acquiring = false
      ∧ s.core.cancelledAcq = false ∧ s.core.paged = none ∧ slotRes i v [] v = .ok t ∧ (x.place < 3 ∨ t.core.a = v.core.a) := by
  refine ⟨⟨{ run with agenda := [.bundleFetch] }, _, _, _, rfl, rfl, rfl⟩,
    ⟨{ State.reset.onMem (fun m => { m with blocked := true }) with agenda := [.bundleFetch] }, _, _, _, rfl, rfl, rfl⟩,
    ⟨atAdd, hand atAdd, _, _, _, _, _, ?_, rfl, rfl, rfl, rfl, rfl, rfl, rfl, rfl, rfl, rfl, .inl ?_, rfl⟩,
    ⟨⟨0, 0, .ok .nop⟩, _, rfl, nofun⟩,
    ⟨atHead, hand atHead, _, _, _, _, _, ?_, rfl, rfl, rfl, rfl, rfl, rfl, rfl⟩,
    ⟨atBad, hand atBad, _, oneSlotBundle (.word .s 0xFE000000 none), ⟨0, 0xFE000000, .error .reservedOpcode⟩, ?_, rfl, rfl, rfl, rfl, rfl, ?_,
      ⟨_, rfl⟩, rfl⟩,
    ⟨atAdd, _, _, rfl, rfl, rfl, rfl⟩, ⟨State.reset, ?_⟩, ⟨hand atAdd, _, _, rfl, rfl, rfl⟩,
    ⟨hand atAdd, _, _, _, _, _, rfl, rfl, rfl, rfl, rfl, rfl, rfl, rfl, rfl, rfl, .inl ?_⟩⟩
  · unfold AtBoundary; decide +kernel
  · decide
  · unfold AtBoundary; decide +kernel
  · unfold AtBoundary; decide +kernel
  · rfl
  · decide
  · decide

theorem witness_DecodeOfEncode : ∃ (i : Instr) (ws : SlotWords), i.wf = true ∧ encode i = some ws :=
  ⟨.addi ⟨0, 5, 6, 9, 0, 0⟩, _, by decide, rfl⟩
theorem witness_EncodeOfDecode : ∃ (ws : SlotWords) (i : Instr), decodeWords ws = .ok i := ⟨.word .s 0x0201461D none, _, rfl⟩
theorem witness_MemoryInvariant : ∃ s t : State, MemoryOk s ∧ step s = .next t :=
  ⟨{ State.reset with agenda := [.doorbell 0] }, _, by unfold MemoryOk; decide, rfl⟩

/-! ### Ill-formed terms

One term for each check of an entry's fields: it meets the other checks, and the one named is broken. -/

def r0 : RForm := ⟨0, 0, 0, 0, 0⟩
def i0 : IForm := ⟨0, 0, 0, 0, 0, 0⟩
def p0 : PForm := ⟨0, 0, 0, 0, 0, 0, 0⟩
def b0 : BForm := ⟨0, 0, 0, 0, 0, 0⟩
def m0 : MForm := ⟨0, 0, 0, 0, 0, 0, 0, 0, 0⟩
def x0 : XForm := ⟨0, 0, 0, 0, 0, 0⟩
/-- An AMO word with ADD, SIZE .w. -/
def amo0 : XForm := { x0 with ext := 0x08000000 }
def v0 : VForm := ⟨0, 0, 0, 0, 0, 0, 0⟩
/-- The same with TYPE i32. -/
def vi0 : VForm := { v0 with t := 5 }
def mma0 : MmaForm := ⟨0, 0, 0, 0, 0, 0, 0, 0, 0, 0, 0, 0, 0, 0, 0, 0, 0⟩
def dr0 : MdrainForm := ⟨0, 0, 0, 0, 0, 0, 0, 0, 0, 0, 0, 0, 0, 0, 0, 0, 0⟩
def c0 : CForm := ⟨0, 0, 0, 0, 0, 0, 0, 0, 0, 0⟩
/-- A legal MCAST word: completion front 0, WALK of any length 0. -/
def mc0 : CForm := { c0 with fen := 1 }

theorem test_legal_bases :
    ([.add r0, .addi i0, .cmpi p0, .prep b0, .ld m0, .sel x0, .amo amo0, .vadd v0, .vand vi0, .mma mma0, .mdrain dr0, .cpy c0,
      .mcast mc0] : List Instr).all Instr.wf = true := by decide

theorem test_illFormed_scalar :
    ([.add { r0 with f := 3 }, .div { r0 with f := 1 }, .clz { r0 with b := 1 }, .clz { r0 with f := 1 },
      .sext { r0 with b := 1 }, .sext { r0 with f := 3 }, .sel { x0 with f := 1 }, .sel { x0 with ext := 0x20 },
      .addi { i0 with ext := 1 }, .addi { i0 with x := 1, i := 1 }, .shli { i0 with i := 64 }, .shli { i0 with i := 0xFF },
      .shli { i0 with ext := 1 }, .li { i0 with a := 1 }, .cmp { p0 with x := 1 }, .cmp { p0 with ext := 1 },
      .cmp { p0 with c := 12 }, .cmpi { p0 with c := 12 }, .cmpi { p0 with ext := 1 }, .pnot ⟨0, 0, 0, 0, 1, 0⟩,
      .pnot ⟨0, 0, 0, 0, 0, 1⟩, .aadd { i0 with d := 32 }, .aadd { i0 with a := 32 }, .aadd { i0 with ext := 1 },
      .amov { r0 with b := 1 }, .amov { r0 with f := 3 }, .amov { r0 with f := 1, d := 32 }, .amov { r0 with f := 2, a := 32 },
      .astep { i0 with a := 6 }, .astep { i0 with d := 32 }, .lcset { i0 with d := 6 }] : List Instr).all (fun i => !i.wf) = true := by
  decide
theorem test_illFormed_flow :
    ([.loop { x0 with a := 0 }, .loop { x0 with a := 7 }, .loop { x0 with a := 1, d := 16 }, .loop { x0 with a := 1, b := 1 },
      .loop { x0 with a := 1, f := 1 }, .prep { b0 with n := 1 }, .prep { b0 with ext := 1 }, .prepr { b0 with i := 1 },
      .prepr { b0 with n := 1 }, .prepr { b0 with x := 1 }, .prepr { b0 with ext := 1 }, .go { b0 with x := 1 },
      .go { b0 with ext := 1 }, .go { b0 with i := 1 }, .rte { r0 with d := 1 }, .rte { r0 with a := 1 }, .rte { r0 with b := 1 },
      .rte { r0 with f := 1 }, .wset { r0 with d := 1 }, .wset { r0 with b := 1 }, .wset { r0 with f := 2 },
      .wrot { r0 with a := 1 }, .wrot { r0 with f := 2 }, .trap { i0 with d := 1 }, .trap { i0 with a := 1 },
      .trap { i0 with ext := 1 }, .rdcause { r0 with a := 1 }, .rdctl { r0 with a := 0x16 }, .rdctl { r0 with b := 1 },
      .wrctl { r0 with d := 0x2F }, .wrctl { r0 with f := 1 }, .rdcnt { r0 with a := 9 }, .amaxrd { r0 with a := 8 },
      .amaxrdFront { x0 with a := 1 }, .amaxrdFront { x0 with f := 1, ext := 64 }, .yield { r0 with a := 1 },
      .cwait { r0 with f := 3 }, .cwait { r0 with d := 1 }] : List Instr).all (fun i => !i.wf) = true := by decide
theorem test_illFormed_memory :
    ([.ld { m0 with ext := 1 }, .ld { m0 with s := 3, n := 1 }, .ld { m0 with c := 5, o := 1 }, .ld { m0 with o := 2 },
      .ld { m0 with c := 1 }, .st { m0 with n := 1 }, .st { m0 with o := 1 }, .st { m0 with c := 1 }, .ldPf { m0 with d := 1 },
      .ldPf { m0 with c := 1 }, .ldPf { m0 with s := 1 }, .ldc { m0 with o := 1 }, .cinv { r0 with a := 1 }, .cinv { r0 with f := 2 },
      .cinv { r0 with d := 1 }, .lds { m0 with a := 32 }, .lds { m0 with c := 2 }, .lds { m0 with o := 2 }, .sts { m0 with o := 1 },
      .sts { m0 with a := 32 }, .ldsRaw { m0 with c := 1 }, .amo { amo0 with f := 1 }, .amo { amo0 with ext := 0xB8000000 },
      .amo { amo0 with ext := 0x04000000 }, .amo { amo0 with ext := 0x1C000000 }, .amo { amo0 with ext := 0x08008000 },
      .amo { amo0 with ext := 0x0A800000 }, .amos { amo0 with ext := 0x09000000 }, .amos { amo0 with a := 32 },
      .fence { r0 with b := 1 }, .fence { r0 with b := 0x28 }, .fence { r0 with f := 1 }, .fenceE { r0 with f := 0 },
      .cflush { r0 with f := 3 }, .stflush { r0 with a := 32 }, .stflush { r0 with f := 1, a := 1 }] : List Instr).all
      (fun i => !i.wf) = true := by decide
theorem test_illFormed_pages_fronts :
    ([.spmap { r0 with a := 32 }, .spmap { r0 with f := 2 }, .spunmap { r0 with b := 1 }, .sppin { r0 with a := 32 },
      .sppin { r0 with f := 1 }, .spunpin { r0 with d := 1 }, .span { r0 with d := 32 }, .curveld { r0 with d := 16 },
      .bmapld { r0 with d := 4 }, .fwait { r0 with a := 1 }, .fwait { r0 with f := 1 }, .fwaitMemory x0,
      .fwaitMemory { x0 with f := 1, ext := 5 }, .fstat { r0 with f := 3 }, .fstat { r0 with a := 7 }, .fpub { x0 with ext := 0x100 },
      .fpub { x0 with ext := 0xA0 }, .fpub { x0 with ext := 0x21 }, .fpub { x0 with b := 1 }, .freset { r0 with a := 1 },
      .barinit { r0 with d := 1 }, .barinit { r0 with f := 2 }, .baradd { r0 with a := 32 }, .barwait { r0 with b := 1 },
      .qpost { r0 with d := 1 }, .qtake { r0 with b := 0, d := 1 }, .qtake { r0 with b := 1, d := 1 }, .qtake { r0 with b := 1, f := 2 },
      .spawn { r0 with b := 1 }, .signal { r0 with b := 1 }, .signal { r0 with f := 2 }] : List Instr).all
      (fun i => !i.wf) = true := by decide
theorem test_illFormed_vector :
    ([.vadd { v0 with t := 3 }, .vadd { vi0 with u := 1 }, .vfma vi0, .vabs { v0 with b := 1 }, .vmin { v0 with u := 1 }, .vdiv vi0,
      .vsqrt { v0 with b := 1 }, .vcurve { v0 with t := 1 }, .vcurve { v0 with b := 0x10 }, .vadds v0, .vand v0, .vand { vi0 with u := 1 },
      .vnot { vi0 with b := 1 }, .vshl v0, .vshl { vi0 with u := 1, b := 32 }, .vcmp { vi0 with d := 0 }, .vcmp { vi0 with d := 0xF },
      .vcmp { vi0 with d := 0xE }, .vsel { v0 with t := 1 }, .vcvt { v0 with b := 6 }, .vpack v0, .vpack { v0 with t := 1, u := 1 },
      .vunpk { v0 with t := 1, b := 2 }, .vrsum { v0 with b := 1 }, .vramax vi0, .vbcast { v0 with u := 1 }, .vdup { v0 with b := 1 },
      .viota v0, .viota { vi0 with a := 1 }, .vxmov { v0 with b := 1 }, .vext { v0 with m := 1 }, .vext { v0 with u := 1 },
      .vgath ⟨0, 0, 0, 0, 0, 0, 1⟩, .vscat ⟨0, 0, 0, 0, 0, 0, 1⟩, .vacc { v0 with t := 1 }, .vacc { v0 with a := 1 }] : List Instr).all
      (fun i => !i.wf) = true := by decide
theorem test_illFormed_engines :
    ([.mma { mma0 with chm := 3 }, .mma { mma0 with chf := 1 }, .mma { mma0 with chm := 1, chp := 1 }, .mma { mma0 with blka := 1 },
      .mma { mma0 with dsb := 1 }, .mma { mma0 with bm := 1 }, .mma { mma0 with tap := 1 }, .mmar { mma0 with db := 1 },
      .mmar { mma0 with west := 1 }, .mmad { mma0 with tap := 3 }, .mmad { mma0 with acc := 1 }, .mclr ⟨0, 0⟩,
      .mdrain { dr0 with lay := 5 }, .mdrain { dr0 with ot := 12 }, .mdrain { dr0 with rm := 6 }, .mdrain { dr0 with lay := 4 },
      .mdrain { dr0 with fc := 1 }, .mdrain { dr0 with amx := 1 }, .mdrain { dr0 with aen := 1, ot := 8 }, .mdrain { dr0 with blk := 1 },
      .mdrain { dr0 with dst := 1, dd := 1 }, .mdrain { dr0 with dst := 1, vbase := 768 }, .mdrain { dr0 with vbase := 1 },
      .msetRbound ⟨0, 0, 1, 0⟩, .msetTap ⟨0, 1, 0, 0⟩, .msetNotap ⟨0, 0, 0, 1⟩] : List Instr).all (fun i => !i.wf) = true := by decide
theorem test_illFormed_copy :
    ([.cpy { c0 with warg := 1 }, .cpy { c0 with wait := 1, warg := 1 }, .cpy { c0 with wait := 3, warg := 0x40 },
      .cpy { c0 with wait := 2, warg := 1 }, .cpy { c0 with fc := 1 }, .cpy { c0 with xo := 0xC }, .cgath { c0 with xo := 1 },
      .cscat mc0, .cscat { c0 with xo := 1 }, .cred { c0 with xo := 1 }, .cfill { c0 with xo := 1 }, .mcast c0,
      .mcast { mc0 with xo := 0xC }, .mcast { mc0 with xo := 1 }, .mcast { mc0 with walk := 1 }, .mcast { mc0 with walk := 0x20 },
      .crem { c0 with xo := 1 }, .crem { c0 with xo := 2 }, .cstop ⟨0, 0, 2, 0⟩, .cstop ⟨0, 0, 0, 1⟩] : List Instr).all
      (fun i => !i.wf) = true := by decide


/-! ### Words written out from the encodings -/

/-- ADD.i64.sat p3 s5 s6 s7: opcode 0x01, P 3, SD 5, SA 6, SB 7, FN 01 (R29, R30, R78). -/
theorem test_word_arithmetic : decodeWords (.word .s 0x0231461D none) = .ok (.add ⟨3, 5, 6, 7, 1⟩) := rfl
/-- SRAI s2 s9 3 (R78). -/
theorem test_word_immediate : decodeWords (.word .s 0x4C008903 none) = .ok (.srai ⟨0, 2, 9, 0, 3, 0⟩) := rfl
/-- LI s8 with the extension word 0x1000 (R78). -/
theorem test_word_extended : decodeWords (.word .s 0x4F020000 (some 0x1000)) = .ok (.li ⟨0, 8, 0, 1, 0, 0x1000⟩) := rfl
/-- CMPI.lt p2 s4 10 (R79). -/
theorem test_word_predicate : decodeWords (.word .s 0x5402210A none) = .ok (.cmpi ⟨0, 2, 2, 4, 0, 10, 0⟩) := rfl
/-- GO b1 with p2 (R88). -/
theorem test_word_branch : decodeWords (.word .s 0x64210000 none) = .ok (.go ⟨2, 0, 1, 0, 0, 0⟩) := rfl
/-- TRAP 7, RTE and RDCAUSE s48 (R161 to R163). -/
theorem test_word_traps :
    decodeWords (.word .s 0xE0000007 none) = .ok (.trap ⟨0, 0, 0, 0, 7, 0⟩)
    ∧ decodeWords (.word .s 0xE2000000 none) = .ok (.rte ⟨0, 0, 0, 0, 0⟩)
    ∧ decodeWords (.word .s 0xE40C0000 none) = .ok (.rdcause ⟨0, 48, 0, 0, 0⟩) := ⟨rfl, rfl, rfl⟩
/-- RDCTL s5 CYCLE, WRCTL QMODE s7 and RDCNT s9 5 (R164, R165). -/
theorem test_word_control :
    decodeWords (.word .s 0xE6015300 none) = .ok (.rdctl ⟨0, 5, 0x13, 0, 0⟩)
    ∧ decodeWords (.word .s 0xE8028700 none) = .ok (.wrctl ⟨0, 10, 7, 0, 0⟩)
    ∧ decodeWords (.word .s 0xDE024500 none) = .ok (.rdcnt ⟨0, 9, 5, 0, 0⟩) := ⟨rfl, rfl, rfl⟩
/-- AMOS.add.w.clus and AMO.cas.d.dev.acq s5 (s4 + 0) s6 s7 (R183, R204). -/
theorem test_word_atomics :
    decodeWords (.word .s 0x93010218 (some 0x08800000)) = .ok (.amos ⟨0, 4, 2, 6, 0, 0x08800000⟩)
    ∧ decodeWords (.word .s 0x91014418 (some 0xADA38000)) = .ok (.amo ⟨0, 5, 4, 6, 0, 0xADA38000⟩) := ⟨rfl, rfl⟩
/-- FPUB.dev, FSTAT s9 fc1 and FRESET fc3 (R331, R334, R335). -/
theorem test_word_fronts :
    decodeWords (.word .s 0xC5008600 (some 0x60)) = .ok (.fpub ⟨0, 2, 6, 0, 0, 0x60⟩)
    ∧ decodeWords (.word .s 0xC2024004 none) = .ok (.fstat ⟨0, 9, 0, 1, 0⟩)
    ∧ decodeWords (.word .s 0xC600C000 none) = .ok (.freset ⟨0, 3, 0, 0, 0⟩) := ⟨rfl, rfl, rfl⟩
/-- BARINIT, BARADD and BARWAIT of a barrier in the scratchpad (R337). -/
theorem test_word_barriers :
    decodeWords (.word .s 0xC8000314 none) = .ok (.barinit ⟨0, 0, 3, 5, 0⟩)
    ∧ decodeWords (.word .s 0xCA010314 none) = .ok (.baradd ⟨0, 4, 3, 5, 0⟩)
    ∧ decodeWords (.word .s 0xCC000300 none) = .ok (.barwait ⟨0, 0, 3, 0, 0⟩) := ⟨rfl, rfl, rfl⟩
/-- SPMAP.stash a2 s7, SPPIN s9 a3, CINV s4, CFLUSH.mem s3 and YIELD s5. -/
theorem test_word_pages_and_work :
    decodeWords (.word .s 0xA000021D none) = .ok (.spmap ⟨0, 0, 2, 7, 1⟩)
    ∧ decodeWords (.word .s 0xA4024300 none) = .ok (.sppin ⟨0, 9, 3, 0, 0⟩)
    ∧ decodeWords (.word .s 0x88000401 none) = .ok (.cinv ⟨0, 0, 4, 0, 1⟩)
    ∧ decodeWords (.word .s 0x96000302 none) = .ok (.cflush ⟨0, 0, 3, 0, 2⟩)
    ∧ decodeWords (.word .s 0xD8014000 none) = .ok (.yield ⟨0, 5, 0, 0, 0⟩) := ⟨rfl, rfl, rfl, rfl, rfl⟩
/-- LD.w s5 (s3 + 8), ST.d.rel.dev s6 (s2 + 0), LDS.w s5 (a3 + 8) and STFLUSH a5 (R198, R200, R181, R185). -/
theorem test_word_memory :
    decodeWords (.word .s 0x81014380 (some 8)) = .ok (.ld ⟨0, 5, 3, 2, 0, 0, 0, 1, 8⟩)
    ∧ decodeWords (.word .s 0x820182CE none) = .ok (.st ⟨0, 6, 2, 3, 0, 3, 2, 0, 0⟩)
    ∧ decodeWords (.word .s 0x8B014380 (some 8)) = .ok (.lds ⟨0, 5, 3, 2, 0, 0, 0, 1, 8⟩)
    ∧ decodeWords (.word .s 0x98000500 none) = .ok (.stflush ⟨0, 0, 5, 0, 0⟩)
    ∧ decodeWords (.word .s 0x94000060 none) = .ok (.fence ⟨0, 0, 0, 0x18, 0⟩) := ⟨rfl, rfl, rfl, rfl, rfl⟩
/-- QPOST s4 s5, QTAKE s6 s4 s7, SPAWN s9 s8, SIGNAL s3, EVWAIT s2 s3 (R283 to R289). -/
theorem test_word_work :
    decodeWords (.word .s 0xCE000414 none) = .ok (.qpost ⟨0, 0, 4, 5, 0⟩)
    ∧ decodeWords (.word .s 0xD001841C none) = .ok (.qtake ⟨0, 6, 4, 7, 0⟩)
    ∧ decodeWords (.word .s 0xD2024800 none) = .ok (.spawn ⟨0, 9, 8, 0, 0⟩)
    ∧ decodeWords (.word .s 0xD4000300 none) = .ok (.signal ⟨0, 0, 3, 0, 0⟩)
    ∧ decodeWords (.word .s 0xD6008300 none) = .ok (.evwait ⟨0, 2, 3, 0, 0⟩) := ⟨rfl, rfl, rfl, rfl, rfl⟩
/-- FWAIT fc1 s5, FWAIT g3.fc5 s7, FWAIT.dev s8 (s6) s7, CURVELD c2 (a5), BMAPLD bm1 (a4), AMAXRD s5 amax2 without and with a front,
CWAIT all. -/
theorem test_word_waits_and_tables :
    decodeWords (.word .s 0xC0004014 none) = .ok (.fwait ⟨0, 1, 0, 5, 0⟩)
    ∧ decodeWords (.word .s 0xC0014B1C none) = .ok (.fwait ⟨0, 5, 11, 7, 0⟩)
    ∧ decodeWords (.word .s 0xC102061D (some 3)) = .ok (.fwaitMemory ⟨0, 8, 6, 7, 1, 3⟩)
    ∧ decodeWords (.word .s 0xAE008500 none) = .ok (.curveld ⟨0, 2, 5, 0, 0⟩)
    ∧ decodeWords (.word .s 0xB0004400 none) = .ok (.bmapld ⟨0, 1, 4, 0, 0⟩)
    ∧ decodeWords (.word .s 0xEA014200 none) = .ok (.amaxrd ⟨0, 5, 2, 0, 0⟩)
    ∧ decodeWords (.word .s 0xEB014219 (some 4)) = .ok (.amaxrdFront ⟨0, 5, 2, 6, 1, 4⟩)
    ∧ decodeWords (.word .s 0xDC000002 none) = .ok (.cwait ⟨0, 0, 0, 0, 2⟩) := ⟨rfl, rfl, rfl, rfl, rfl, rfl, rfl, rfl⟩
/-- The examples of the V slots: VFMA.f32 va4 va1 va2 q3, VCMP.lt.f32 q2 va1 va2, VCVT.f16.f32.rne va2 va1 in V0, and
VLD.f16 va8 (a2 + 256) with step 128. -/
theorem test_word_vector :
    decodeWords (.word .v0 0x08040426 none) = .ok (.vfma ⟨0, 0, 4, 1, 2, 3, 0⟩)
    ∧ decodeWords (.word .v0 0x34120420 none) = .ok (.vcmp ⟨0, 0, 18, 1, 2, 0, 0⟩)
    ∧ decodeWords (.word .v0 0x38820400 none) = .ok (.vcvt ⟨0, 2, 2, 1, 0, 0, 0⟩)
    ∧ decodeWords (.word .v1 0x60881011 none) = .ok (.vld ⟨1, 2, 8, 2, 1, 0, 1⟩) := ⟨rfl, rfl, rfl, rfl⟩
/-- The MMA of R130's example, the CPY of R246's and CSTOP fc5 (R259). -/
theorem test_word_engines :
    decodeWords (.long .m 0x02021A00D4C74100) = .ok (.mma ⟨0, 2, 3, 1, 0, 0, 1, 1, 1, 1, 6, 7, 1, 1, 0, 0, 0⟩)
    ∧ decodeWords (.long .c1 0x020208010400000A) = .ok (.cpy ⟨1, 0, 2, 1, 0, 1, 1, 0, 0, 10⟩)
    ∧ decodeWords (.long .c0 0x1008A00000000000) = .ok (.cstop ⟨0, 0, 1, 5⟩) := ⟨rfl, rfl, rfl⟩
/-- Reserved opcodes are refused (R42 to R44). -/
theorem test_word_reserved :
    decodeWords (.word .s 0x34000000 none) = .error .reservedOpcode
    ∧ decodeWords (.word .v0 0x3E000000 none) = .error .reservedOpcode
    ∧ decodeWords (.long .m 0x0E00000000000000) = .error .reservedOpcode
    ∧ decodeWords (.long .c0 0x1200000000000000) = .error .reservedOpcode := ⟨rfl, rfl, rfl, rfl⟩

/-! ### Single steps -/

/-- The state after an instruction. -/
def after (i : Instr) (s : State) : State := match exec i s with | .next t => t | _ => s

/-- −2^63 + −2^63 wraps to 0 and saturates to −2^63 (R75, R76). -/
theorem test_add_wraps : (after (.add ⟨0, 5, 3, 3, 0⟩) run).core.rdS 5 = 0 := by decide
theorem test_add_saturates : (after (.add ⟨0, 5, 3, 3, 1⟩) run).core.rdS 5 = 0x8000000000000000 := by decide
/-- 5 − (−3) = 8, into a source (R75). -/
theorem test_sub_over_source : (after (.sub ⟨0, 1, 1, 2, 0⟩) run).core.rdS 1 = 8 := by decide
/-- SRA uses y[5:0]: −2^63 >> (−3 and 63 = 61) = −4 (R75). -/
theorem test_sra_low_bits : (after (.sra ⟨0, 5, 3, 2, 0⟩) run).core.rdS 5 = 0xFFFFFFFFFFFFFFFC := by decide
/-- CLZ of 0 is 64, and a write to s0 is discarded (R68, R75). -/
theorem test_clz_zero : (after (.clz ⟨0, 5, 0, 0, 0⟩) run).core.rdS 5 = 64 := by decide
theorem test_s0_discards : (after (.clz ⟨0, 0, 1, 0, 0⟩) run).core.rdS 0 = 0 := by decide
/-- A shift of the last bit: SHLI by 63 of 5 (R78). -/
theorem test_shli : (after (.shli ⟨0, 5, 1, 0, 63, 0⟩) run).core.rdS 5 = 0x8000000000000000 := by decide
/-- LIH puts the immediate above the low half (R78). -/
theorem test_lih : (after (.lih ⟨0, 5, 2, 0, 1, 0⟩) run).core.rdS 5 = 0x1FFFFFFFD := by decide
/-- −3 < 10 signed, not unsigned (R79). -/
theorem test_cmpi : (after (.cmpi ⟨0, 2, 2, 2, 0, 10, 0⟩) run).core.rdP 2 = true
    ∧ (after (.cmpi ⟨0, 2, 4, 2, 0, 10, 0⟩) run).core.rdP 2 = false := by decide
/-- A false guard writes nothing (R27). -/
theorem test_false_guard : (after (.addi ⟨1, 1, 1, 0, 1, 0⟩) run).core.rdS 1 = 5 := by decide
/-- RDCAUSE reads CAUSE and clears CLK (R163). -/
theorem test_rdcause : (after (.rdcause ⟨0, 48, 0, 0, 0⟩) handler).core.rdS 48 = 5
    ∧ (after (.rdcause ⟨0, 48, 0, 0, 0⟩) handler).core.clk = false := by decide
/-- A store writes its bytes and leaves the next (R200). -/
theorem test_store : (after (.st ⟨0, 1, 4, 0, 0, 0, 0, 0, 0⟩) memd).mem.rd 0x100000 = 5
    ∧ (after (.st ⟨0, 1, 4, 0, 0, 0, 0, 0, 0⟩) memd).mem.rd 0x100001 = 0x80 := by decide +kernel
/-- 1.5 × 2^0 in FP32, FP16 and E4M3 (R53, R54). -/
theorem test_values : (fp32.val 0x3FC00000).eqv (fp16.val 0x3E00) = true ∧ (fp16.val 0x3E00).eqv (e4m3.val 0x3C) = true := by decide
/-- Half way between two FP16 numbers: 2049 rounds to the even 2048, and 65520 overflows to infinity (R56, R57). -/
theorem test_rounds : (fp16.round (Val.ofInt 2049) rne).1 = 0x6800 ∧ (fp16.round (Val.ofInt 65520) rne).1 = 0x7C00 := by decide
/-- The worked table of E4M3: 300 lies between 288 (0x79) and 320; 470 has no E4M3 value under .rne (R57). -/
theorem test_e4m3 : (e4m3.round (Val.ofInt 300) rne).1 = 0x79 ∧ (e4m3.round (Val.ofInt 470) rne).1 = 0x7F := by decide

end Sys2Proof.Tests
end

section
/-! PROOFS. Guards and frames (R27, R28, R31, R33): what an instruction does under a false guard, what an issue counts and latches, and
the words of opcode 0. -/

namespace Sys2Proof.Machine

open Sys2Proof.Claim

/-! ### An instruction by itself under a false guard -/

/-- With nothing left to do once it has issued, an instruction leaves its state. -/
theorem finishAfter_ok {s : State} (ha : s.core.after = none) : finishAfter (.ok s) = .next s := by
  simp [finishAfter, State.actAfter, ha]

section FalseGuard

variable {s : State} {p : BitVec 4} (h : s.core.rdP p.toNat = false)
include h

/-- An S instruction whose only test before its registers is the guard. -/
theorem finish_sSlot_false (reads writes : List Nat) (body : State → Res) : finish (sSlot p reads writes s body) = .next s :=
  congrArg finish (sSlot_false reads writes h body)

/-- The same of one that leaves work for the end of its issue, where none was left before. -/
theorem finishAfter_sSlot_false (ha : s.core.after = none) (reads writes : List Nat) (body : State → Res) :
    finishAfter (sSlot p reads writes s body) = .next s :=
  (congrArg finishAfter (sSlot_false reads writes h body)).trans (finishAfter_ok ha)

/-- A privileged form checks its level under a true guard only. -/
theorem privileged_sSlot_false (priv : Bool) (stop : Res) (reads writes : List Nat) (body : State → Res) :
    (if s.core.rdP p.toNat && priv then stop else sSlot p reads writes s body) = .ok s := by
  rw [sSlot_false reads writes h, h]
  rfl

/-- A form that names a peer looks for it under a true guard only. -/
theorem finish_peerChecked_sSlot_false (word : BitVec 32) (chp : Nat) (reads writes : List Nat) (body : State → Res) :
    finish (s.peerChecked p word chp (sSlot p reads writes s body)) = .next s := by
  simp [State.peerChecked, sSlot_false reads writes h, h]

/-- An engine's command is looked at under a true guard only. -/
theorem finish_engine_false (run : Res) : finish (if !s.core.rdP p.toNat then .ok s else run) = .next s := by simp [h]
/-- The same of MSET. -/
theorem finish_mset_false (run : Res) : finish (if s.core.rdP p.toNat then run else .ok s) = .next s := by simp [h]

end FalseGuard

/-! The shapes of the register-only S instructions. -/

theorem finish_runR_false {w : RForm} {s : State} (h : s.core.rdP w.p.toNat = false) (f : BitVec 64 → BitVec 64 → BitVec 64) :
    finish (runR w f s) = .next s := finish_sSlot_false h _ _ _
theorem finish_runR1_false {w : RForm} {s : State} (h : s.core.rdP w.p.toNat = false) (f : BitVec 64 → BitVec 64) :
    finish (runR1 w f s) = .next s := finish_sSlot_false h _ _ _
theorem finish_runI_false {w : IForm} {s : State} (h : s.core.rdP w.p.toNat = false) (f : BitVec 64 → BitVec 64 → BitVec 64) :
    finish (runI w f s) = .next s := finish_sSlot_false h _ _ _
theorem finish_runMd_false {w : RForm} {s : State} (h : s.core.rdP w.p.toNat = false) (divide : Bool)
    (f : BitVec 64 → BitVec 64 → BitVec 64) : finish (runMd w divide f s) = .next s := finish_sSlot_false h _ _ _
theorem finish_runL_false {w : PLogForm} {s : State} (h : s.core.rdP w.p.toNat = false) (f : Bool → Bool → Bool) :
    finish (runL w f s) = .next s := finish_sSlot_false h _ _ _

/-- By the place where each instruction tests its guard: AMOV by FN, the forms that name a peer, the privileged forms, the forms that
leave work for the end of the issue, the engines' commands, and the rest, which test nothing before it. -/
theorem exec_false_guard {i : Instr} {p : BitVec 4} {s : State} (hi : guardOf i = some p) (hp : s.core.rdP p.toNat = false)
    (ha : s.core.after = none) : exec i s = .next s := by
  have h : ∀ q, guardOf i = some q → s.core.rdP q.toNat = false := fun q hq => Option.some.inj (hi.symm.trans hq) ▸ hp
  cases i with
  | amov w =>
    show finish (runAmov w s) = .next s
    unfold runAmov
    split
    · exact finish_sSlot_false (h _ rfl) _ _ _
    · exact finish_sSlot_false (h _ rfl) _ _ _
    · exact finish_sSlot_false (h _ rfl) _ _ _
  | fwait w | fstat w => exact finish_peerChecked_sSlot_false (h _ rfl) _ _ _ _ _
  | rdctl w | wrctl w | rdcause w => exact congrArg finish (privileged_sSlot_false (h _ rfl) _ _ _ _ _)
  | rte w => exact (congrArg finishAfter (privileged_sSlot_false (h _ rfl) _ _ _ _ _)).trans (finishAfter_ok ha)
  | trap w | endGroup w | yield w => exact finishAfter_sSlot_false (h _ rfl) ha _ _ _
  | mma w | mmar w | mmad w | mclr w | mdrain w | cpy w | cgath w | cscat w | cred w | cfill w | mcast w | crem w | cstop w =>
    exact finish_engine_false (h _ rfl) _
  | msetRbound w | msetTap w | msetNotap w => exact finish_mset_false (h _ rfl) _
  | add w | sub w | and w | or w | xor w | shl w | shr w | sra w | min w | max w | minn w | maxn w =>
    exact finish_runR_false (h _ rfl) _
  | mul w | mulh w | mulhn w | div w | divn w | rem w | remn w => exact finish_runMd_false (h _ rfl) _ _
  | clz w | ctz w | popc w | sext w | zext w => exact finish_runR1_false (h _ rfl) _
  | addi w | andi w | ori w | xori w | shli w | shri w | srai w | lih w => exact finish_runI_false (h _ rfl) _
  | pand w | por w | pxor w | pnot w | pmov w => exact finish_runL_false (h _ rfl) _
  | sel w | li w | cmp w | cmpi w | aadd w | astep w | lcset w | loop w | prep w | prepr w | wset w | wrot w | ld w | st w | ldPf w
  | ldc w | cinv w | lds w | sts w | ldsRaw w | amo w | amos w | fence w | fenceE w | cflush w | stflush w | spmap w | spunmap w
  | sppin w | spunpin w | spevict w | spfetch w | span w | curveld w | bmapld w | fwaitMemory w | fpub w | freset w | barinit w
  | baradd w | barwait w | qpost w | qtake w | spawn w | signal w | evwait w | mwait w | cwait w | rdcnt w | amaxrd w
  | amaxrdFront w => exact finish_sSlot_false (h _ rfl) _ _ _
  | _ => cases hi

/-! ### NOP and VNOP, and what their issue counts and latches -/

theorem exec_nop (s : State) : exec .nop s = .next s := rfl
theorem exec_vnop (v : BitVec 1) (s : State) : exec (.vnop v) s = .next s := rfl

theorem Core.issued_retired (c : Core) (b : Bundle) : (c.issued b).retired = c.retired + 1 := rfl
theorem Core.issued_latch0 (c : Core) (b : Bundle) : (c.issued b).latch0 = latchAfter b.hdr b.v0 c.latch0 := rfl
theorem Core.issued_latch1 (c : Core) (b : Bundle) : (c.issued b).latch1 = latchAfter b.hdr b.v1 c.latch1 := rfl
@[simp] theorem latchAfter_some (hd : Header) (w old : BitVec 32) : latchAfter hd (some w) old = w := rfl

end Sys2Proof.Machine

namespace Sys2Proof.Claim

open Sys2Proof Sys2Proof.Machine

/-! ### The words of opcode 0 -/

theorem opOf_toNat (w : BitVec 32) : (opOf w).toNat = opcode w := by
  simp only [opOf, opcode, BitVec.extractLsb'_toNat, Nat.shiftRight_eq_div_pow]
  omega

variable {w : BitVec 32} (ho : opcode w = 0) (hw : w ≠ 0)
include ho hw

/-- In the S slot only NOP's word has opcode 0 (R27). -/
theorem decodeS_opcode_zero (e : BitVec 32) : decodeS w e = .error .field := by
  simpa [decodeS, opOf_toNat, ho] using hw
/-- In a V slot only VNOP's (R28). -/
theorem decodeV_opcode_zero (v : BitVec 1) : decodeV v w = .error .field := by
  simpa [decodeV, opOf_toNat, ho] using hw

/-- With an extension word or without one, whatever X says of it. -/
theorem refused_opcode_zero (e : Option (BitVec 32)) : Refused w e := by
  by_cases hx : ((xOf w == 1) == e.isSome) = true
  · exact ⟨.field, (if_pos hx).trans (decodeS_opcode_zero ho hw _)⟩
  · exact ⟨.extension, if_neg hx⟩

end Sys2Proof.Claim

section

open Sys2Proof Sys2Proof.Machine Sys2Proof.Claim

/-- Settles O8, by the place where each instruction tests its guard, and by the decoder's branch of opcode 0. -/
theorem falseGuard : Obligations.FalseGuard := by
  unfold Obligations.FalseGuard
  refine ⟨fun _ _ _ hi h ha => exec_false_guard hi h ha, fun v s => ⟨exec_nop s, exec_vnop v s⟩,
    fun c b => ⟨c.issued_retired b, fun h0 => ?_, fun h1 => ?_⟩, rfl, rfl, rfl,
    fun w e ho hw => ⟨refused_opcode_zero ho hw e, ⟨_, decodeV_opcode_zero ho hw 0⟩, ⟨_, decodeV_opcode_zero ho hw 1⟩⟩⟩
  · rw [Core.issued_latch0, h0, latchAfter_some]
  · rw [Core.issued_latch1, h1, latchAfter_some]

end
end

section
/-! PROOFS. The registers of the S slot and the window bases (R72 to R83, R89): what a ready instruction does, by its shape, and the
values of its arithmetic. -/

namespace Sys2Proof.Machine

open Sys2Proof.Safety Sys2Proof.Claim

/-! ### A ready S instruction by itself, by its shape -/

theorem finish_sSlot_ready {s : State} {p : BitVec 4} {reads writes : List Nat} (h : Ready s p reads writes) (body : State → Res) :
    finish (sSlot p reads writes s body) = finish (body s) := congrArg finish (sSlot_ready h body)

/-- When it changes the core alone: two spellings of the core after it give one state. -/
theorem finish_sSlot_onCore {s : State} {p : BitVec 4} {reads writes : List Nat} (h : Ready s p reads writes) {f g : Core → Core}
    (hfg : f s.core = g s.core) : finish (sSlot p reads writes s fun s => .ok (s.onCore f)) = .next (s.onCore g) := by
  rw [finish_sSlot_ready h, finish_ok, State.onCore, State.onCore, hfg]

theorem finish_runI_ready {w : IForm} {s : State} (h : RdyS s w.p [w.a] [w.d]) (f : BitVec 64 → BitVec 64 → BitVec 64) :
    finish (runI w f s) = .next (put s w.d (f (S s w.a) w.imm64)) := finish_sSlot_ready h _

theorem finish_runL_ready {w : PLogForm} {s : State} (h : RdyS s w.p [] []) (f : Bool → Bool → Bool) :
    finish (runL w f s) = .next (s.onCore fun c => c.wrP w.d.toNat
      (f (xor (s.core.rdP w.a.toNat) (w.na == 1)) (xor (s.core.rdP w.b.toNat) (w.nb == 1)))) := finish_sSlot_ready h _

/-- With no divide in progress, or as a multiply, an operation joins those of the unit (R72). -/
theorem finish_runMd_ready {w : RForm} {s : State} (h : RdyS s w.p [w.a, w.b] [w.d]) {divide : Bool}
    (hd : divide = true → ∀ m ∈ s.core.muldiv, m.divide = false) (f : BitVec 64 → BitVec 64 → BitVec 64) :
    finish (runMd w divide f s) = .next (s.onCore fun c => { c with
      muldiv := c.muldiv ++ [⟨if w.d = 0 then 0 else c.sIdx w.d.toNat, divide, f (S s w.a) (S s w.b)⟩] }) := by
  have hfree : (divide && s.core.muldiv.any (·.divide)) = false := by
    cases divide with
    | false => rfl
    | true => simpa using hd rfl
  refine (finish_sSlot_ready h _).trans ?_
  rw [hfree]
  rfl

/-- A divide waits for the one in progress (R72). -/
theorem finish_runMd_busy {w : RForm} {s : State} (h : RdyS s w.p [w.a, w.b] [w.d]) (hd : ∃ m ∈ s.core.muldiv, m.divide = true)
    (f : BitVec 64 → BitVec 64 → BitVec 64) : finish (runMd w true f s) = .next (s.stallTick .scoreboard) := by
  have hbusy : (true && s.core.muldiv.any (·.divide)) = true := by simpa using hd
  refine (finish_sSlot_ready h _).trans ?_
  rw [hbusy]
  rfl

theorem exec_muldivComplete_of_getElem? {s : State} {k : Nat} {m : MulDiv} (h : s.core.muldiv[k]? = some m) :
    exec (.muldivComplete k) s = .next (s.onCore fun c => { c.wrIdx m.dest m.value with muldiv := c.muldiv.eraseIdx k }) := by
  show done (s.landMul k) = _
  rw [done_eq, State.landMul, h]

/-! ### Sat and the operations by FN (R58, R76) -/

theorem satInt_eq_clamp (signed : Bool) (n : Nat) (i : Int) : satInt signed n i = clamp (intMin signed n) (intMax signed n) i := by
  have h : intMin signed n ≤ intMax signed n := by
    have h1 : 1 ≤ 2 ^ (n - 1) := Nat.one_le_two_pow
    have h2 : 1 ≤ 2 ^ n := Nat.one_le_two_pow
    cases signed <;> simp only [intMin, intMax, if_true, Bool.false_eq_true, if_false] <;> omega
  unfold satInt clamp
  split
  · omega
  · split <;> omega

theorem satInt_i64 (i : Int) : satInt true 64 i = clamp (-2 ^ 63) (2 ^ 63 - 1) i := satInt_eq_clamp true 64 i
theorem satInt_n64 (i : Int) : satInt false 64 i = clamp 0 (2 ^ 64 - 1) i := satInt_eq_clamp false 64 i
theorem satInt_n32 (i : Int) : satInt false 32 i = clamp 0 (2 ^ 32 - 1) i := satInt_eq_clamp false 32 i

theorem fnInt_eq {f : BitVec 2} (hf : f ≠ 3) (op : Int → Int → Int) (x y : BitVec 64) :
    fnInt f op x y =
      if f = 0 then BitVec.ofInt 64 (op x.toInt y.toInt)
      else if f = 1 then BitVec.ofInt 64 (clamp (-2 ^ 63) (2 ^ 63 - 1) (op x.toInt y.toInt))
      else BitVec.ofInt 64 (clamp 0 (2 ^ 64 - 1) (op x.toNat y.toNat)) := by
  have hfn : f = 0 ∨ f = 1 ∨ f = 2 := by revert f; decide
  rcases hfn with rfl | rfl | rfl
  · rfl
  · exact congrArg (BitVec.ofInt 64) (satInt_i64 (op x.toInt y.toInt))
  · exact congrArg (BitVec.ofInt 64) (satInt_n64 (op x.toNat y.toNat))

theorem fnInt_mul {f : BitVec 2} (hf : f ≠ 3) (x y : BitVec 64) :
    fnInt f (· * ·) x y =
      if f = 0 then x * y
      else if f = 1 then BitVec.ofInt 64 (clamp (-2 ^ 63) (2 ^ 63 - 1) (x.toInt * y.toInt))
      else BitVec.ofInt 64 (clamp 0 (2 ^ 64 - 1) ((x.toNat : Int) * y.toNat)) := by
  rw [fnInt_eq hf, BitVec.ofInt_mul, BitVec.ofInt_toInt, BitVec.ofInt_toInt]

/-! ### Quotients and remainders (R77) -/

theorem divS_eq (x y : BitVec 64) :
    divS x y = if y = 0 then BitVec.allOnes 64
      else if x.toInt = -2 ^ 63 ∧ y.toInt = -1 then BitVec.ofInt 64 (-2 ^ 63) else BitVec.ofInt 64 (x.toInt.tdiv y.toInt) := by
  unfold divS
  split
  · rfl
  · split
    next h => rw [h.1, h.2]; rfl
    · rfl

theorem remS_eq (x y : BitVec 64) :
    remS x y = if y = 0 then x
      else if x.toInt = -2 ^ 63 ∧ y.toInt = -1 then 0 else BitVec.ofInt 64 (x.toInt - y.toInt * x.toInt.tdiv y.toInt) := by
  unfold remS
  split
  · rfl
  · split
    next h => rw [h.1, h.2]; rfl
    · rw [Int.tmod_def]

theorem remN_eq (x y : BitVec 64) :
    remN x y = if y = 0 then x else BitVec.ofNat 64 (x.toNat - y.toNat * (x.toNat / y.toNat)) := by
  rw [remN, Nat.mod_eq_sub_mul_div]

/-! ### The multiply-divide unit (R72, R76, R77) -/

/-- The form of each multiply and divide, with its value. -/
theorem exec_muldiv_form {r : (RForm → Instr) × Bool × (BitVec 2 → BitVec 64 → BitVec 64 → BitVec 64)} (hr : r ∈ muldiv) (w : RForm) :
    ∃ f, (∀ s, exec (r.1 w) s = finish (runMd w r.2.1 f s)) ∧ ((r.1 w).wf = true → ∀ x y, f x y = r.2.2 w.f x y) := by
  simp only [muldiv, List.mem_cons, List.not_mem_nil, or_false] at hr
  rcases hr with rfl | rfl | rfl | rfl | rfl | rfl | rfl
  · exact ⟨fnInt w.f (· * ·), fun _ => rfl, fun hwf => fnInt_mul (bne_iff_ne.mp hwf)⟩
  · exact ⟨_, fun _ => rfl, fun _ _ _ => rfl⟩
  · exact ⟨_, fun _ => rfl, fun _ _ _ => rfl⟩
  · exact ⟨divS, fun _ => rfl, fun _ => divS_eq⟩
  · exact ⟨divN, fun _ => rfl, fun _ _ _ => rfl⟩
  · exact ⟨remS, fun _ => rfl, fun _ => remS_eq⟩
  · exact ⟨remN, fun _ => rfl, fun _ => remN_eq⟩

section MulDiv

variable {r : (RForm → Instr) × Bool × (BitVec 2 → BitVec 64 → BitVec 64 → BitVec 64)} (hr : r ∈ muldiv) {w : RForm} {s : State}
  (h : RdyS s w.p [w.a, w.b] [w.d])
include hr h

theorem exec_muldiv_ready (hwf : (r.1 w).wf = true) (hd : r.2.1 = true → ∀ m ∈ s.core.muldiv, m.divide = false) :
    exec (r.1 w) s = .next (s.onCore fun c => { c with
      muldiv := c.muldiv ++ [⟨if w.d = 0 then 0 else c.sIdx w.d.toNat, r.2.1, r.2.2 w.f (S s w.a) (S s w.b)⟩] }) := by
  obtain ⟨f, he, hf⟩ := exec_muldiv_form hr w
  rw [he, finish_runMd_ready h hd, hf hwf]

theorem exec_muldiv_busy (hdiv : r.2.1 = true) (hd : ∃ m ∈ s.core.muldiv, m.divide = true) :
    exec (r.1 w) s = .next (s.stallTick .scoreboard) := by
  obtain ⟨f, he, -⟩ := exec_muldiv_form hr w
  rw [he, hdiv, finish_runMd_busy h hd]

end MulDiv

/-! ### Immediates (R78) -/

theorem iform_imm_eq (w : IForm) : w.imm = if w.x = 1 then w.ext.toInt else w.i.toInt := by simp [IForm.imm]
theorem iform_imm64_eq (w : IForm) : w.imm64 = BitVec.ofInt 64 (if w.x = 1 then w.ext.toInt else w.i.toInt) := by rw [IForm.imm64, iform_imm_eq]
theorem pform_imm64_eq (w : PForm) : w.imm64 = BitVec.ofInt 64 (if w.x = 1 then w.ext.toInt else w.i.toInt) := by
  simp [PForm.imm64, PForm.imm]

/-- A shift's immediate is the number of places. -/
theorem imm64_toNat_of_shiftOk {w : IForm} (h : w.shiftOk = true) :
    w.imm64.toNat = (if w.x = 1 then w.ext.toInt else w.i.toInt).toNat := by
  have hr : 0 ≤ w.imm ∧ w.imm ≤ 63 := of_decide_eq_true (Bool.and_eq_true_iff.mp h).2
  rw [← iform_imm_eq, IForm.imm64, BitVec.toNat_ofInt]
  omega

/-- Bits [31:0] and no others. -/
theorem getLsbD_low_mask (k : Nat) : (0xFFFFFFFF#64).getLsbD k = decide (k < 32) := by
  show ((BitVec.allOnes 32).setWidth 64).getLsbD k = _
  rw [BitVec.getLsbD_setWidth, BitVec.getLsbD_allOnes]
  simp; omega

/-- LIH's value: the low half of one operand above the low half of the other. -/
theorem append_low_halves (i x : BitVec 64) :
    i.extractLsb' 0 32 ++ x.extractLsb' 0 32 = (i <<< 32) ||| (x &&& 0xFFFFFFFF#64) := by
  refine BitVec.eq_of_getLsbD_eq fun k hk => ?_
  rw [BitVec.getLsbD_append, BitVec.getLsbD_or, BitVec.getLsbD_and, getLsbD_low_mask, BitVec.getLsbD_shiftLeft]
  by_cases h : k < 32
  · simp [h]
  · have hk' : k - 32 < 32 := by omega
    simp [h, hk, hk']

theorem extractLsb'_ofInt_toInt (v : BitVec 32) : (BitVec.ofInt 64 v.toInt).extractLsb' 0 32 = v := by
  refine BitVec.eq_of_getLsbD_eq fun k hk => ?_
  show ((v.signExtend 64).extractLsb' 0 32).getLsbD k = _
  simp [BitVec.getLsbD_signExtend, hk]
  omega

/-- LI and LIH build every constant: the halves are its own. -/
theorem halves_build (v : BitVec 64) :
    (BitVec.ofInt 64 (v.extractLsb' 32 32).toInt <<< 32) ||| (BitVec.ofInt 64 (v.extractLsb' 0 32).toInt &&& 0xFFFFFFFF#64) = v := by
  rw [← append_low_halves, extractLsb'_ofInt_toInt, extractLsb'_ofInt_toInt]
  exact (BitVec.extractLsb'_append_extractLsb'_eq_extractLsb' rfl).trans BitVec.extractLsb'_eq_self

/-- The form of each immediate instruction, with its value. -/
theorem exec_immediate_form {r : (IForm → Instr) × (BitVec 64 → Int → BitVec 64)} (hr : r ∈ immediate) (w : IForm) :
    ∃ f, (∀ s, exec (r.1 w) s = finish (runI w f s)) ∧ ((r.1 w).wf = true → ∀ x, f x w.imm64 = r.2 x (immOf w)) := by
  simp only [immediate, List.mem_cons, List.not_mem_nil, or_false] at hr
  rcases hr with rfl | rfl | rfl | rfl | rfl | rfl | rfl | rfl
  · exact ⟨_, fun _ => rfl, fun _ x => congrArg (x + ·) (iform_imm64_eq w)⟩
  · exact ⟨_, fun _ => rfl, fun _ x => congrArg (x &&& ·) (iform_imm64_eq w)⟩
  · exact ⟨_, fun _ => rfl, fun _ x => congrArg (x ||| ·) (iform_imm64_eq w)⟩
  · exact ⟨_, fun _ => rfl, fun _ x => congrArg (x ^^^ ·) (iform_imm64_eq w)⟩
  · exact ⟨_, fun _ => rfl, fun hwf x => congrArg (x <<< ·) (imm64_toNat_of_shiftOk hwf)⟩
  · exact ⟨_, fun _ => rfl, fun hwf x => congrArg (x >>> ·) (imm64_toNat_of_shiftOk hwf)⟩
  · exact ⟨_, fun _ => rfl, fun hwf x => congrArg x.sshiftRight (imm64_toNat_of_shiftOk hwf)⟩
  · exact ⟨_, fun _ => rfl, fun _ x => (append_low_halves _ x).trans
      (congrArg (fun i : BitVec 64 => (i <<< 32) ||| (x &&& 0xFFFFFFFF#64)) (iform_imm64_eq w))⟩

theorem exec_immediate_ready {r : (IForm → Instr) × (BitVec 64 → Int → BitVec 64)} (hr : r ∈ immediate) {w : IForm} {s : State}
    (h : RdyS s w.p [w.a] [w.d]) (hwf : (r.1 w).wf = true) : exec (r.1 w) s = .next (put s w.d (r.2 (S s w.a) (immOf w))) := by
  obtain ⟨f, he, hf⟩ := exec_immediate_form hr w
  rw [he, finish_runI_ready h, hf hwf]

/-! ### Conditions and predicate logic (R79, R80) -/

theorem not_slt_iff (x y : BitVec 64) : (!x.slt y) = true ↔ y.toInt ≤ x.toInt := by
  rw [Bool.not_eq_true', ← Bool.not_eq_true, BitVec.slt_iff_toInt_lt, Int.not_lt]
theorem not_ult_iff (x y : BitVec 64) : (!x.ult y) = true ↔ y.toNat ≤ x.toNat := by
  rw [Bool.not_eq_true', ← Bool.not_eq_true, BitVec.ult_iff_toNat_lt, Nat.not_lt]

theorem cmpCond_iff (c : BitVec 4) (x y : BitVec 64) : cmpCond c x y = true ↔ condition c x y := by
  unfold cmpCond condition
  generalize c.toNat = n
  match n with
  | 0 => exact beq_iff_eq
  | 1 => exact bne_iff_ne
  | 2 => exact BitVec.slt_iff_toInt_lt
  | 3 => exact not_slt_iff x y
  | 4 => exact BitVec.ult_iff_toNat_lt
  | 5 => exact not_ult_iff x y
  | 6 => exact not_slt_iff y x
  | 7 => exact BitVec.slt_iff_toInt_lt
  | 8 => exact not_ult_iff y x
  | 9 => exact BitVec.ult_iff_toNat_lt
  | 10 => exact bne_iff_ne
  | _ + 11 => exact beq_iff_eq

theorem exec_predicate_ready {r : (PLogForm → Instr) × (Bool → Bool → Bool)} (hr : r ∈ predicate) {w : PLogForm} {s : State}
    (h : RdyS s w.p [] []) : exec (r.1 w) s = .next (s.onCore fun c => c.wrP w.d.toNat
      (r.2 (xor (s.core.rdP w.a.toNat) (w.na == 1)) (xor (s.core.rdP w.b.toNat) (w.nb == 1)))) := by
  simp only [predicate, List.mem_cons, List.not_mem_nil, or_false] at hr
  rcases hr with rfl | rfl | rfl | rfl | rfl <;> exact finish_runL_ready h _

theorem Core.rdP_of_ge (c : Core) {n : Nat} (h : 16 ≤ n) : c.rdP n = false := by
  have h0 : (n == 0) = false := by simp; omega
  rw [Core.rdP, h0, BitVec.getLsbD_of_ge _ _ h]
  rfl

/-- A predicate of any number after a write to one. -/
theorem Core.rdP_wrP_any (c : Core) (n k : Nat) (b : Bool) (hn : n < 16) :
    (c.wrP n b).rdP k = if k = 0 then true else if k = n then b else c.rdP k := by
  by_cases hk : k < 16
  · rw [Core.rdP_wrP c n k b hn hk]
    by_cases h0 : k = 0 <;> simp [h0]
  · rw [Core.rdP_of_ge _ (by omega), if_neg (by omega), if_neg (by omega), Core.rdP_of_ge _ (by omega)]

/-! ### AMOV by FN, and LCSET (R81, R83) -/

theorem exec_amov_address {w : RForm} {s : State} (hf : w.f = 0) (h : RdyS s w.p [] []) :
    exec (.amov w) s = .next (s.onCore fun c => c.wrA w.d.toNat (c.rdA w.a.toNat)) := by
  show finish (runAmov w s) = _
  rw [runAmov, hf]
  exact finish_sSlot_ready h _

theorem exec_amov_from_scalar {w : RForm} {s : State} (hf : w.f = 1) (h : RdyS s w.p [w.a] []) :
    exec (.amov w) s = .next (s.onCore fun c => c.wrA w.d.toNat ((S s w.a).setWidth 32)) := by
  show finish (runAmov w s) = _
  rw [runAmov, hf, BitVec.setWidth_eq_extractLsb' (by decide)]
  exact finish_sSlot_ready h _

theorem exec_amov_to_scalar {w : RForm} {s : State} (hf : w.f = 2) (h : RdyS s w.p [] [w.d]) :
    exec (.amov w) s = .next (put s w.d ((s.core.rdA w.a.toNat).setWidth 64)) := by
  show finish (runAmov w s) = _
  rw [runAmov, hf]
  exact finish_sSlot_ready h _

theorem exec_lcset_ready {w : IForm} {s : State} (h : RdyS s w.p [w.a] []) :
    exec (.lcset w) s = .next (s.onCore fun c => c.wrLc w.d.toNat
      (BitVec.ofInt 32 (clamp 0 (2 ^ 32 - 1) ((S s w.a).toInt + w.imm)))) :=
  finish_sSlot_onCore h (congrArg (fun v => s.core.wrLc w.d.toNat (BitVec.ofInt 32 v)) (satInt_n32 _))

/-! ### Windows (R89) -/

theorem toNat_eq_zero_iff (f : BitVec 2) : f.toNat = 0 ↔ f = 0 := BitVec.toNat_inj (y := 0)

theorem Core.setBase_toNat (c : Core) (f : BitVec 2) (v : Nat) :
    c.setBase f.toNat v = if f = 0 then { c with vwa := v % 768 } else { c with vwb := v % 768 } := by
  simp only [Core.setBase, toNat_eq_zero_iff]

theorem Core.base_toNat (c : Core) (f : BitVec 2) : c.base f.toNat = if f = 0 then c.vwa else c.vwb := by
  simp only [Core.base, toNat_eq_zero_iff]

theorem exec_wset_ready {w : RForm} {s : State} (h : RdyS s w.p [w.a] []) :
    exec (.wset w) s = .next (s.onCore fun c =>
      if w.f = 0 then { c with vwa := (S s w.a).toNat % 768 } else { c with vwb := (S s w.a).toNat % 768 }) :=
  finish_sSlot_onCore h (s.core.setBase_toNat w.f _)

theorem exec_wrot_ready {w : RForm} {s : State} (h : RdyS s w.p [] []) :
    exec (.wrot w) s = .next (s.onCore fun c =>
      if w.f = 0 then { c with vwa := (c.vwa + w.b.toNat) % 768 } else { c with vwb := (c.vwb + w.b.toNat) % 768 }) := by
  refine finish_sSlot_onCore h ?_
  rw [Core.setBase_toNat, Core.base_toNat]
  split <;> rfl

theorem Core.issued_vwa (c : Core) (b : Bundle) : (c.issued b).vwa = (c.vwa + b.hdr.rota.toNat) % 768 := rfl
theorem Core.issued_vwb (c : Core) (b : Bundle) : (c.issued b).vwb = (c.vwb + b.hdr.rotb.toNat) % 768 := rfl

end Sys2Proof.Machine
end

section
/-! PROOFS. The words of the registers' instructions that the decoder refuses (R30, R77 to R83, R89). -/

namespace Sys2Proof.Claim

open Sys2Proof Sys2Proof.Machine

/-! ### What the decoder answers for a word -/

/-- The decoder does not take the word. -/
def Rejected (r : Except DecErr Instr) : Prop := ∃ x, r = .error x

theorem rejected_error (x : DecErr) : Rejected (.error x) := ⟨x, rfl⟩
theorem rejected_checked {i : Instr} (h : i.wf = false) : Rejected (checked i) := ⟨.field, by rw [checked, h]; rfl⟩
theorem rejected_noX {w : BitVec 32} {i : Instr} (h : xOf w = 1 ∨ i.wf = false) : Rejected (noX w i) := by
  unfold noX
  split
  next hx => exact rejected_checked (h.resolve_left fun h1 => by simp [h1] at hx)
  · exact rejected_error _
theorem rejected_needX {w : BitVec 32} {i : Instr} (h : xOf w = 0 ∨ i.wf = false) : Rejected (needX w i) := by
  unfold needX
  split
  next hx => exact rejected_checked (h.resolve_left fun h0 => by simp [h0] at hx)
  · exact rejected_error _

/-- An S word is refused when the S slot's decoder rejects it, and when X and the extension word disagree. -/
theorem refused_of_rejected {w : BitVec 32} {e : Option (BitVec 32)} (h : Rejected (decodeS w (e.getD 0))) : Refused w e := by
  by_cases hx : ((xOf w == 1) == e.isSome) = true
  · exact h.imp fun _ hd => (if_pos hx).trans hd
  · exact ⟨.extension, if_neg hx⟩

/-- The extension word that the decoder of the S slot reads beside a word: 0 when X is 0. -/
def extRead (w e : BitVec 32) : BitVec 32 := if xOf w == 1 then e else 0

/-! ### Fields -/

theorem field_toNat (w : BitVec 32) (lo n : Nat) : (w.extractLsb' lo n).toNat = bits w lo n := by
  rw [BitVec.extractLsb'_toNat, Nat.shiftRight_eq_div_pow]
theorem field_eq_iff (w : BitVec 32) (lo n : Nat) (v : BitVec n) : w.extractLsb' lo n = v ↔ bits w lo n = v.toNat := by
  rw [← field_toNat, BitVec.toNat_inj]
theorem field_ne_zero {w : BitVec 32} {lo n : Nat} (h : bits w lo n ≠ 0) : (w.extractLsb' lo n == 0) = false := by
  rw [beq_eq_false_iff_ne, Ne, field_eq_iff]
  simpa using h
theorem field_not_lt {w : BitVec 32} {lo n m : Nat} (h : m ≤ bits w lo n) : ¬(w.extractLsb' lo n).toNat < m := by
  rw [field_toNat]
  exact Nat.not_lt.mpr h
theorem xOf_eq_one {w : BitVec 32} (h : bits w 24 1 = 1) : xOf w = 1 := (field_eq_iff w 24 1 1).mpr h
theorem xOf_eq_zero {w : BitVec 32} (h : bits w 24 1 = 0) : xOf w = 0 := (field_eq_iff w 24 1 0).mpr h
/-- Bit [5] of SD set: no address register. -/
theorem isAddrReg_d {w : BitVec 32} (h : bits w 19 1 = 1) : isAddrReg (w.extractLsb' 14 6) = false := by
  rw [isAddrReg, field_toNat, decide_eq_false_iff_not]
  unfold bits at h ⊢
  omega
/-- Bit [5] of SA set. -/
theorem isAddrReg_a {w : BitVec 32} (h : bits w 13 1 = 1) : isAddrReg (w.extractLsb' 8 6) = false := by
  rw [isAddrReg, field_toNat, decide_eq_false_iff_not]
  unfold bits at h ⊢
  omega

theorem getLsbD_of_bits {w : BitVec 32} {k : Nat} (h : bits w k 1 = 1) : w.getLsbD k = true := by
  rw [← BitVec.testBit_toNat, Nat.testBit_eq_decide_div_mod_eq]
  exact decide_eq_true h
/-- A signed number that is no shift's places (R78). -/
theorem toInt_not_places {n : Nat} {v : BitVec n} (h : 64 ≤ v.toNat) : ¬(0 ≤ v.toInt ∧ v.toInt ≤ 63) := by
  have hv := v.isLt
  rw [BitVec.toInt_eq_toNat_cond]
  split <;> omega

section Refusals

variable {w e : BitVec 32}

theorem extRead_of_x (h : bits w 24 1 = 1) : extRead w e = e := by rw [extRead, xOf_eq_one h]; rfl

/-! ### SEL and the immediate forms (R77, R78) -/

theorem decodeS_sel (ho : opcode w = 0x19) : decodeS w e = needX w (.sel (parseX w (extRead w e))) := by
  rw [decodeS, opOf_toNat, ho]; rfl

theorem rejected_sel_of_no_extension (ho : opcode w = 0x19) (hx : bits w 24 1 = 0) : Rejected (decodeS w e) := by
  rw [decodeS_sel ho]
  exact rejected_needX (.inl (xOf_eq_zero hx))

theorem rejected_sel_of_high_bits (ho : opcode w = 0x19) (hx : bits w 24 1 = 1) (he : 32 ≤ e.toNat) : Rejected (decodeS w e) := by
  have hz : bits e 5 27 ≠ 0 := by unfold bits; omega
  rw [decodeS_sel ho, extRead_of_x hx]
  refine rejected_needX (.inr ?_)
  simp only [Instr.wf, parseX, field_ne_zero hz, Bool.and_false]

theorem decodeS_li (ho : opcode w = 0x27) : decodeS w e = checked (.li (parseI w (extRead w e))) := by
  rw [decodeS, opOf_toNat, ho]; rfl

theorem shiftOk_of_not_extOk {v : IForm} (h : v.extOk = false) : v.shiftOk = false := by rw [IForm.shiftOk, h, Bool.false_and]

/-- The immediate forms have opcodes 0x20 to 0x28; all of them keep format I's rule of the extension word. -/
theorem decodeS_immediate (h1 : 0x20 ≤ opcode w) (h2 : opcode w ≤ 0x28) :
    ∃ i, decodeS w e = checked i ∧ ((parseI w (extRead w e)).extOk = false → i.wf = false) := by
  have ho : opcode w = 0x20 ∨ opcode w = 0x21 ∨ opcode w = 0x22 ∨ opcode w = 0x23 ∨ opcode w = 0x24 ∨ opcode w = 0x25
      ∨ opcode w = 0x26 ∨ opcode w = 0x27 ∨ opcode w = 0x28 := by omega
  rcases ho with h | h | h | h | h | h | h | h | h
  · exact ⟨.addi _, by rw [decodeS, opOf_toNat, h]; rfl, id⟩
  · exact ⟨.andi _, by rw [decodeS, opOf_toNat, h]; rfl, id⟩
  · exact ⟨.ori _, by rw [decodeS, opOf_toNat, h]; rfl, id⟩
  · exact ⟨.xori _, by rw [decodeS, opOf_toNat, h]; rfl, id⟩
  · exact ⟨.shli _, by rw [decodeS, opOf_toNat, h]; rfl, shiftOk_of_not_extOk⟩
  · exact ⟨.shri _, by rw [decodeS, opOf_toNat, h]; rfl, shiftOk_of_not_extOk⟩
  · exact ⟨.srai _, by rw [decodeS, opOf_toNat, h]; rfl, shiftOk_of_not_extOk⟩
  · exact ⟨.li _, decodeS_li h, fun hf => by rw [Instr.wf, hf, Bool.false_and]⟩
  · exact ⟨.lih _, by rw [decodeS, opOf_toNat, h]; rfl, id⟩

/-- The shifts among them. -/
theorem decodeS_shift (h1 : 0x24 ≤ opcode w) (h2 : opcode w ≤ 0x26) :
    ∃ i, decodeS w e = checked i ∧ i.wf = (parseI w (extRead w e)).shiftOk := by
  have ho : opcode w = 0x24 ∨ opcode w = 0x25 ∨ opcode w = 0x26 := by omega
  rcases ho with h | h | h
  · exact ⟨.shli _, by rw [decodeS, opOf_toNat, h]; rfl, rfl⟩
  · exact ⟨.shri _, by rw [decodeS, opOf_toNat, h]; rfl, rfl⟩
  · exact ⟨.srai _, by rw [decodeS, opOf_toNat, h]; rfl, rfl⟩

theorem rejected_shift (h1 : 0x24 ≤ opcode w) (h2 : opcode w ≤ 0x26)
    (hi : ¬(0 ≤ (parseI w (extRead w e)).imm ∧ (parseI w (extRead w e)).imm ≤ 63)) : Rejected (decodeS w e) := by
  obtain ⟨i, hd, hwf⟩ := decodeS_shift (e := e) h1 h2
  rw [hd]
  exact rejected_checked (hwf.trans (by rw [IForm.shiftOk, decide_eq_false hi, Bool.and_false]))

theorem rejected_shift_of_short (h1 : 0x24 ≤ opcode w) (h2 : opcode w ≤ 0x26) (hx : bits w 24 1 = 0) (hi : 64 ≤ bits w 0 8) :
    Rejected (decodeS w e) := by
  refine rejected_shift h1 h2 ?_
  have hx0 : (parseI w (extRead w e)).x ≠ 1 := by simp [parseI, xOf_eq_zero hx]
  rw [iform_imm_eq, if_neg hx0]
  exact toInt_not_places (Nat.le_trans hi (Nat.le_of_eq (field_toNat w 0 8).symm))

theorem rejected_shift_of_extension (h1 : 0x24 ≤ opcode w) (h2 : opcode w ≤ 0x26) (hx : bits w 24 1 = 1) (he : 64 ≤ e.toNat) :
    Rejected (decodeS w e) := by
  refine rejected_shift h1 h2 ?_
  rw [iform_imm_eq, extRead_of_x hx, if_pos (show (parseI w e).x = 1 from xOf_eq_one hx)]
  exact toInt_not_places he

theorem rejected_li_of_a (ho : opcode w = 0x27) (ha : bits w 8 6 ≠ 0) : Rejected (decodeS w e) := by
  rw [decodeS_li ho]
  refine rejected_checked ?_
  simp only [Instr.wf, parseI, field_ne_zero ha, Bool.and_false]

theorem rejected_immediate_of_both (h1 : 0x20 ≤ opcode w) (h2 : opcode w ≤ 0x28) (hx : bits w 24 1 = 1) (hi : bits w 0 8 ≠ 0) :
    Rejected (decodeS w e) := by
  obtain ⟨i, hd, hwf⟩ := decodeS_immediate (e := e) h1 h2
  rw [hd]
  refine rejected_checked (hwf ?_)
  simp only [IForm.extOk, parseI, xOf_eq_one hx, field_ne_zero hi, beq_self_eq_true, if_true]

/-! ### Compares and predicate logic (R79, R80) -/

theorem decodeS_cmp (ho : opcode w = 0x29) : decodeS w e = checked (.cmp (parseP w (extRead w e))) := by
  rw [decodeS, opOf_toNat, ho]; rfl
theorem decodeS_cmpi (ho : opcode w = 0x2A) : decodeS w e = checked (.cmpi (parseP w (extRead w e))) := by
  rw [decodeS, opOf_toNat, ho]; rfl
theorem decodeS_plog (ho : opcode w = 0x2B) : decodeS w e = decodePLog w := by
  rw [decodeS, opOf_toNat, ho]; rfl

theorem rejected_cmp (ho : opcode w = 0x29) (h : bits w 24 1 = 1 ∨ 12 ≤ bits w 12 4) : Rejected (decodeS w e) := by
  rw [decodeS_cmp ho]
  refine rejected_checked ?_
  rcases h with hx | hc
  · simp only [Instr.wf, parseP, xOf_eq_one hx]; rfl
  · simp only [Instr.wf, parseP, field_not_lt hc, decide_false, Bool.and_false]

theorem rejected_cmpi (ho : opcode w = 0x2A) (h : 12 ≤ bits w 12 4 ∨ (bits w 24 1 = 1 ∧ bits w 0 6 ≠ 0)) : Rejected (decodeS w e) := by
  rw [decodeS_cmpi ho]
  refine rejected_checked ?_
  rcases h with hc | ⟨hx, hi⟩
  · simp only [Instr.wf, parseP, field_not_lt hc, decide_false, Bool.and_false]
  · simp only [Instr.wf, PForm.extOk, parseP, xOf_eq_one hx, field_ne_zero hi, beq_self_eq_true, if_true, Bool.false_and]

theorem rejected_plog_of_bits (h : bits w 10 1 = 1 ∨ bits w 4 1 = 1) : Rejected (decodePLog w) := by
  have hb : (w.getLsbD 10 || w.getLsbD 4) = true := by
    rcases h with h | h <;> simp [getLsbD_of_bits h]
  rw [decodePLog, if_pos hb]
  exact rejected_error _

/-- Of PNOT and PMOV, [5:0] is unused. -/
theorem rejected_plog_of_second (hc : bits w 12 4 = 3 ∨ bits w 12 4 = 4) (hz : bits w 0 6 ≠ 0) : Rejected (decodePLog w) := by
  by_cases h4 : bits w 4 1 = 1
  · exact rejected_plog_of_bits (.inr h4)
  · have hs : bits w 5 1 ≠ 0 ∨ bits w 0 4 ≠ 0 := by unfold bits at hz h4 ⊢; omega
    have hwf : ((parseL w).nb == 0 && (parseL w).b == 0) = false := by
      rcases hs with h | h <;> simp only [parseL, field_ne_zero h, Bool.false_and, Bool.and_false]
    unfold decodePLog
    split
    · exact rejected_error _
    · rw [field_toNat]
      rcases hc with hc | hc
      · rw [hc]; exact rejected_noX (.inr hwf)
      · rw [hc]; exact rejected_noX (.inr hwf)

theorem rejected_plog_of_x (hx : bits w 24 1 = 1) : Rejected (decodePLog w) := by
  have hno : ∀ i, Rejected (noX w i) := fun _ => rejected_noX (.inl (xOf_eq_one hx))
  unfold decodePLog
  split
  · exact rejected_error _
  · split
    · exact hno _
    · exact hno _
    · exact hno _
    · exact hno _
    · exact hno _
    · exact rejected_error _

theorem rejected_plog_of_condition (hc : 5 ≤ bits w 12 4) : Rejected (decodePLog w) := by
  unfold decodePLog
  split
  · exact rejected_error _
  · obtain ⟨n, hn⟩ := Nat.exists_eq_add_of_le' hc
    rw [field_toNat, hn]
    exact rejected_error _

theorem rejected_plog (h : bits w 24 1 = 1 ∨ 5 ≤ bits w 12 4 ∨ bits w 10 1 = 1 ∨ bits w 4 1 = 1
    ∨ ((bits w 12 4 = 3 ∨ bits w 12 4 = 4) ∧ bits w 0 6 ≠ 0)) : Rejected (decodePLog w) := by
  rcases h with hx | hc | h10 | h4 | ⟨hc, hz⟩
  · exact rejected_plog_of_x hx
  · exact rejected_plog_of_condition hc
  · exact rejected_plog_of_bits (.inl h10)
  · exact rejected_plog_of_bits (.inr h4)
  · exact rejected_plog_of_second hc hz

/-! ### Address registers, steps and loop counts (R81 to R83) -/

theorem decodeS_aadd (ho : opcode w = 0x2C) : decodeS w e = checked (.aadd (parseI w (extRead w e))) := by
  rw [decodeS, opOf_toNat, ho]; rfl
theorem decodeS_amov (ho : opcode w = 0x2D) : decodeS w e = noX w (.amov (parseR w)) := by
  rw [decodeS, opOf_toNat, ho]; rfl
theorem decodeS_astep (ho : opcode w = 0x2E) : decodeS w e = checked (.astep (parseI w (extRead w e))) := by
  rw [decodeS, opOf_toNat, ho]; rfl
theorem decodeS_lcset (ho : opcode w = 0x2F) : decodeS w e = checked (.lcset (parseI w (extRead w e))) := by
  rw [decodeS, opOf_toNat, ho]; rfl

theorem rejected_aadd (ho : opcode w = 0x2C) (h : bits w 19 1 = 1 ∨ bits w 13 1 = 1) : Rejected (decodeS w e) := by
  rw [decodeS_aadd ho]
  refine rejected_checked ?_
  rcases h with hd | ha
  · simp only [Instr.wf, parseI, isAddrReg_d hd, Bool.false_and, Bool.and_false]
  · simp only [Instr.wf, parseI, isAddrReg_a ha, Bool.and_false]

theorem rejected_amov (ho : opcode w = 0x2D) (h : bits w 0 2 = 3 ∨ bits w 2 6 ≠ 0 ∨ (bits w 0 2 < 2 ∧ bits w 19 1 = 1)
    ∨ ((bits w 0 2 = 0 ∨ bits w 0 2 = 2) ∧ bits w 13 1 = 1)) : Rejected (decodeS w e) := by
  rw [decodeS_amov ho]
  refine rejected_noX (.inr ?_)
  simp only [Instr.wf, RForm.zb, parseR, field_toNat]
  rcases h with hf | hb | ⟨hf, hd⟩ | ⟨hf | hf, ha⟩
  · simp [hf]
  · simp only [field_ne_zero hb, Bool.false_and]
  · have hf' : bits w 0 2 = 0 ∨ bits w 0 2 = 1 := by omega
    rcases hf' with hf | hf <;> simp [hf, isAddrReg_d hd]
  · simp [hf, isAddrReg_a ha]
  · simp [hf, isAddrReg_a ha]

theorem rejected_astep (ho : opcode w = 0x2E) (h : bits w 19 1 = 1 ∨ 6 ≤ bits w 8 6) : Rejected (decodeS w e) := by
  rw [decodeS_astep ho]
  refine rejected_checked ?_
  rcases h with hd | hl
  · simp only [Instr.wf, parseI, isAddrReg_d hd, Bool.false_and, Bool.and_false]
  · simp only [Instr.wf, parseI, field_not_lt hl, decide_false, Bool.and_false]

theorem rejected_lcset (ho : opcode w = 0x2F) (h : 6 ≤ bits w 14 6) : Rejected (decodeS w e) := by
  rw [decodeS_lcset ho]
  exact rejected_checked (by simp only [Instr.wf, parseI, field_not_lt h, decide_false, Bool.and_false])

/-! ### Windows (R89) -/

theorem decodeS_wset (ho : opcode w = 0x36) : decodeS w e = noX w (.wset (parseR w)) := by
  rw [decodeS, opOf_toNat, ho]; rfl
theorem decodeS_wrot (ho : opcode w = 0x37) : decodeS w e = noX w (.wrot (parseR w)) := by
  rw [decodeS, opOf_toNat, ho]; rfl

theorem rejected_wset (ho : opcode w = 0x36) (h : 2 ≤ bits w 0 2 ∨ bits w 14 6 ≠ 0 ∨ bits w 2 6 ≠ 0) : Rejected (decodeS w e) := by
  rw [decodeS_wset ho]
  refine rejected_noX (.inr ?_)
  rcases h with hf | hd | hb
  · simp only [Instr.wf, parseR, field_not_lt hf, decide_false, Bool.and_false]
  · simp only [Instr.wf, RForm.zd, parseR, field_ne_zero hd, Bool.false_and]
  · simp only [Instr.wf, RForm.zb, parseR, field_ne_zero hb, Bool.false_and, Bool.and_false]

theorem rejected_wrot (ho : opcode w = 0x37) (h : 2 ≤ bits w 0 2 ∨ bits w 14 6 ≠ 0 ∨ bits w 8 6 ≠ 0) : Rejected (decodeS w e) := by
  rw [decodeS_wrot ho]
  refine rejected_noX (.inr ?_)
  rcases h with hf | hd | ha
  · simp only [Instr.wf, parseR, field_not_lt hf, decide_false, Bool.and_false]
  · simp only [Instr.wf, RForm.zd, parseR, field_ne_zero hd, Bool.false_and]
  · simp only [Instr.wf, RForm.za, parseR, field_ne_zero ha, Bool.false_and, Bool.and_false]

end Refusals

end Sys2Proof.Claim
end

section

open Sys2Proof Sys2Proof.Machine Sys2Proof.Safety Sys2Proof.Claim

/-- Settles O4, by what the unit does with an operation of a ready instruction and the values of R76 and R77. -/
theorem multiplyDivideSelect : Obligations.MultiplyDivideSelect := by
  unfold Obligations.MultiplyDivideSelect
  refine ⟨fun c hc w s hwf h hd => exec_muldiv_ready hc h hwf hd, fun s k m hk => exec_muldivComplete_of_getElem? hk,
    fun c hc w s hdiv h hd => exec_muldiv_busy hc h hdiv hd, fun w s _ h => finish_sSlot_ready h _,
    fun w s h => finish_sSlot_false h _ _ _, fun w e ho => ⟨fun hx => ?_, fun hx he => ?_⟩⟩
  · exact refused_of_rejected (rejected_sel_of_no_extension ho hx)
  · exact refused_of_rejected (rejected_sel_of_high_bits ho hx he)

/-- Settles O3, by the value of each immediate form and the decoder's limits on the immediate. -/
theorem immediateArithmetic : Obligations.ImmediateArithmetic := by
  unfold Obligations.ImmediateArithmetic
  refine ⟨fun c hc w s hwf h => exec_immediate_ready hc h hwf, fun w s _ h => ?_,
    fun w h1 h2 hx hi => refused_of_rejected (rejected_shift_of_short h1 h2 hx hi),
    fun w e h1 h2 hx he => refused_of_rejected (rejected_shift_of_extension h1 h2 hx he),
    fun w e ho ha => refused_of_rejected (rejected_li_of_a ho ha),
    fun w e h1 h2 hx hi => refused_of_rejected (rejected_immediate_of_both h1 h2 hx hi),
    fun v => ⟨v.extractLsb' 0 32, v.extractLsb' 32 32, halves_build v⟩, rfl, rfl, rfl⟩
  rw [← iform_imm64_eq]
  exact finish_sSlot_ready h _

/-- Settles O5: a ready compare writes the truth of its condition, predicate logic its value, and p0 keeps reading true. -/
theorem predicates : Obligations.Predicates := by
  unfold Obligations.Predicates
  refine ⟨fun w s _ h => ⟨_, cmpCond_iff _ _ _, finish_sSlot_ready h _⟩, fun w s _ h => ⟨_, cmpCond_iff _ _ _, ?_⟩,
    fun c hc w s h => exec_predicate_ready hc h, Core.rdP_wrP_any,
    fun w e => ⟨fun ho h => refused_of_rejected (rejected_cmp ho h), fun ho h => refused_of_rejected (rejected_cmpi ho h),
      fun ho h => refused_of_rejected ((decodeS_plog ho).symm ▸ rejected_plog h)⟩, rfl⟩
  rw [← pform_imm64_eq]
  exact finish_sSlot_ready h _

/-- Settles O6, by the body of each ready instruction and the reads of the files after their writes. -/
theorem addressRegisters : Obligations.AddressRegisters := by
  unfold Obligations.AddressRegisters
  refine ⟨fun w s _ h => ?_, fun w s hf h => ?_, fun w s hf h => ?_, fun w s hf h => ?_, fun w s _ h => ?_, fun w s _ h => ?_,
    fun c n k m j v hk hj => ⟨c.rdA_wrA n m v, c.rdStep_wrStep n m k j v hk hj, rfl, c.rdLc_wrLc k j v⟩,
    fun w e => ⟨fun ho h => refused_of_rejected (rejected_aadd ho h), fun ho h => refused_of_rejected (rejected_amov ho h),
      fun ho h => refused_of_rejected (rejected_astep ho h), fun ho h => refused_of_rejected (rejected_lcset ho h)⟩⟩
  · rw [← iform_imm_eq]
    exact finish_sSlot_ready h _
  · exact exec_amov_address hf h
  · exact exec_amov_from_scalar hf h
  · exact exec_amov_to_scalar hf h
  · rw [← iform_imm_eq]
    exact finish_sSlot_ready h _
  · rw [← iform_imm_eq]
    exact exec_lcset_ready h

/-- Settles O13, by the window base that a ready instruction sets and the rotation that an issue adds. -/
theorem windows : Obligations.Windows := by
  unfold Obligations.Windows
  refine ⟨fun w s => ⟨fun _ h => exec_wset_ready h, fun _ h => exec_wrot_ready h⟩,
    fun w s h => ⟨finish_sSlot_false h _ _ _, finish_sSlot_false h _ _ _⟩,
    fun c b => ⟨c.issued_vwa b, c.issued_vwb b⟩, fun c n => ⟨rfl, rfl⟩,
    fun w e => ⟨fun ho h => refused_of_rejected (rejected_wset ho h), fun ho h => refused_of_rejected (rejected_wrot ho h)⟩⟩

end

section
/-! PROOFS. Moves of whole lanes (R107, R111, R112, R114): what a result that joins those in flight holds, and the lanes of each move. -/

namespace Sys2Proof.Machine

open Sys2Proof.Safety Sys2Proof.Claim

/-! ### Reads of lanes whose parity holds (R119) -/

theorem vReadBy_ok {s : State} {v : BitVec 1} {reads : BitVec 6 → Nat → Bool} {names : List (BitVec 6)}
    (h : ∀ n ∈ names, ∀ l, l < 64 → reads n l = true → sget false s.core.bad (badIdx v.toNat (s.core.vPhys v n) l) = false) :
    s.vReadBy v reads names = .ok () := by
  unfold State.vReadBy
  split
  · rfl
  · dsimp only
    rw [List.findSome?_eq_none_iff.mpr fun l hl => ?_]
    rw [Option.map_eq_none_iff, List.find?_eq_none]
    intro n hn hbad
    obtain ⟨hread, hmark⟩ := Bool.and_eq_true_iff.mp hbad
    rw [h n hn l (List.mem_range.mp hl) hread] at hmark
    cases hmark

/-- A read of fewer lanes of fewer registers than those that hold. -/
theorem vRead_ok {s : State} {v : BitVec 1} {pick lanes : Nat → Bool} {held names : List (BitVec 6)} (h : NoBad s v pick held)
    (hn : ∀ n ∈ names, n ∈ held) (hl : ∀ l, lanes l = true → pick l = true) : s.vRead v lanes names = .ok () :=
  vReadBy_ok fun n hmem l hlt hread => h n (hn n hmem) l hlt (hl l hread)

/-! ### A result that joins those in flight (R97) -/

theorem getD_map_lanes {α : Type} (f : Nat → α) (d : α) {l : Nat} (hl : l < 64) : (lanes.map f).getD l d = f l := by
  simp [lanes, List.getD_eq_getElem?_getD, hl]

/-- A lane out of range reads as the image of its default. -/
theorem getD_map_default {α β : Type} (f : α → β) (x : List α) (l : Nat) (d : α) : (x.map f).getD l (f d) = f (x.getD l d) := by
  rw [List.getD_eq_getElem?_getD, List.getElem?_map, Option.getD_map, List.getD_eq_getElem?_getD]

/-- A source lane as it stands, without flags. -/
theorem getD_map_toNat (x : Vec) (l : Nat) : (x.map fun e => (e.toNat, (0 : Fl))).getD l (0, 0) = ((x.getD l 0).toNat, 0) :=
  getD_map_default (fun e : BitVec 32 => (e.toNat, (0 : Fl))) x l 0

/-- The data of a result, by its lanes. -/
theorem getD_map_data (rs : List LaneR) (l : Nat) :
    (rs.map fun r => BitVec.ofNat 32 r.1).getD l 0 = BitVec.ofNat 32 (rs.getD l (0, 0)).1 :=
  getD_map_default (fun r : LaneR => BitVec.ofNat 32 r.1) rs l (0, 0)
/-- And its flags. -/
theorem getD_map_flags (rs : List LaneR) (l : Nat) : (rs.map (·.2)).getD l 0 = (rs.getD l (0, 0)).2 :=
  getD_map_default (fun r : LaneR => r.2) rs l (0, 0)

@[simp] theorem fly_vfly (s : State) (r : VRec) : (s.fly r).core.vfly = s.core.vfly ++ [r] := rfl
@[simp] theorem fly_srcnt (s : State) (r : VRec) : (s.fly r).core.srcnt = s.core.srcnt := rfl
theorem fly_onlyFlight (s : State) (r : VRec) : OnlyFlight s (s.fly r) := rfl

theorem flies_vecRec {s : State} {i : Instr} {v cl : BitVec 1} {dest lat : Nat} {mask : BitVec 64} {rs : List LaneR}
    {lane : Nat → Nat × Fl} (hi : encode i = some (.word (vSlot v) (vWord i) none))
    (hrs : ∀ l, l < 64 → mask.getLsbD l = true → rs.getD l (0, 0) = lane l) :
    Flies s (s.fly (vecRec v cl dest mask rs lat (vWord i))) i v cl dest mask lat lane := by
  refine ⟨_, fly_vfly s _, rfl, rfl, rfl, rfl, rfl, rfl, hi, rfl, rfl, fun l hl hm => ?_⟩
  rw [← hrs l hl hm]
  exact ⟨getD_map_data rs l, getD_map_flags rs l⟩

/-- An instruction whose issue sends off one result and nothing else. -/
theorem flies_of_exec {s : State} {i : Instr} {v cl : BitVec 1} {dest lat : Nat} {mask : BitVec 64} {rs : List LaneR}
    {lane : Nat → Nat × Fl} (he : exec i s = .next (s.fly (vecRec v cl dest mask rs lat (vWord i))))
    (hi : encode i = some (.word (vSlot v) (vWord i) none))
    (hrs : ∀ l, l < 64 → mask.getLsbD l = true → rs.getD l (0, 0) = lane l) :
    ∃ t, exec i s = .next t ∧ Flies s t i v cl dest mask lat lane ∧ OnlyFlight s t ∧ t.core.srcnt = s.core.srcnt :=
  ⟨_, he, flies_vecRec hi hrs, fly_onlyFlight s _, fly_srcnt s _⟩

/-! ### Moves of whole lanes (R107, R111, R112) -/

section Moves

variable {s : State} {w : VForm} {held : List (BitVec 6)} (h : NoBad s w.v (fun _ => true) held)
include h

/-- The shape that all but VXMOV share: with sources among the registers that hold, the read passes. -/
theorem exec_of_vMove {i : Instr} {m : BitVec 64} {lat : Nat} {src : Nat → BitVec 6 × Nat}
    (hi : exec i s = finish (vMove i w s s m lat fun l => some (src l))) (hsrc : ∀ l, (src l).1 ∈ held) :
    ∃ rs, exec i s = .next (s.fly (vecRec w.v w.v (s.core.vPhys w.v w.d) m rs lat (vWord i)))
      ∧ ∀ l, l < 64 → m.getLsbD l = true → rs.getD l (0, 0) = (((s.core.vReg w.v (src l).1).getD (src l).2 0).toNat, 0) := by
  rw [hi]
  unfold vMove
  dsimp only
  rw [vReadBy_ok fun n _ l hl hread => ?_]
  · refine ⟨_, rfl, fun l hl hm => ?_⟩
    rw [getD_map_lanes _ _ hl, if_pos hm]
  · rw [List.contains_iff_mem, List.mem_filterMap] at hread
    obtain ⟨k, -, hk⟩ := hread
    split at hk
    · exact h n (by simpa [Option.some.inj hk] using hsrc k) l hl rfl
    · cases hk

theorem runVshuf_eq (hb : w.b ∈ held) :
    runVshuf w s s = vMove (.vshuf w) w s s (s.core.rdQ w.m.toNat) 3 fun l => some (w.a, ((s.core.vReg w.v w.b).getD l 0).toNat % 64) := by
  unfold runVshuf
  dsimp only
  rw [vRead_ok h (by simpa using hb) fun _ _ => rfl]
  rfl

theorem runVxmov_eq (ha : w.a ∈ held) :
    runVxmov w s s = .ok (s.fly (vecRec w.v (1 - w.v) (s.core.vPhys (1 - w.v) w.d) (s.core.rdQ w.m.toNat)
      ((s.core.vReg w.v w.a).map fun x => (x.toNat, (0 : Fl))) 3 (vWord (.vxmov w)))) := by
  unfold runVxmov
  dsimp only
  rw [vRead_ok h (by simpa using ha) fun _ _ => rfl]
  rfl

end Moves

theorem encode_move {e : MoveRow} (he : e ∈ moveRows) (w : VForm) :
    encode (e.build w) = some (.word (vSlot w.v) (vWord (e.build w)) none) := by
  simp only [moveRows, List.mem_cons, List.not_mem_nil, or_false] at he
  rcases he with rfl | rfl | rfl | rfl | rfl <;> rfl

/-- Each move sends off the result of its row: VXMOV its source register whole, the others by their source lanes. -/
theorem exec_move {e : MoveRow} (he : e ∈ moveRows) {w : VForm} {s : State} (h : NoBad s w.v (fun _ => true) (e.reads w)) :
    ∃ rs, exec (e.build w) s
        = .next (s.fly (vecRec w.v (if e.other then 1 - w.v else w.v) (s.core.vPhys (if e.other then 1 - w.v else w.v) w.d)
            (if e.all then BitVec.allOnes 64 else s.core.rdQ w.m.toNat) rs e.lat (vWord (e.build w))))
      ∧ ∀ l, l < 64 → (if e.all then BitVec.allOnes 64 else s.core.rdQ w.m.toNat).getLsbD l = true →
        rs.getD l (0, 0) = (((s.core.vReg w.v (e.source s w l).1).getD (e.source s w l).2 0).toNat, 0) := by
  simp only [moveRows, List.mem_cons, List.not_mem_nil, or_false] at he
  rcases he with rfl | rfl | rfl | rfl | rfl
  · -- VSEL: either register may be the source
    exact exec_of_vMove h rfl fun l => by dsimp only; split <;> simp
  · -- VBCAST
    exact exec_of_vMove h rfl fun _ => List.mem_singleton_self _
  · -- VLROT
    exact exec_of_vMove h rfl fun _ => List.mem_singleton_self _
  · -- VSHUF
    exact exec_of_vMove h (congrArg finish (runVshuf_eq h (by simp))) fun _ => List.mem_cons_self
  · -- VXMOV
    exact ⟨_, congrArg finish (runVxmov_eq h (List.mem_singleton_self _)), fun l _ _ => getD_map_toNat _ l⟩

/-! ### Registers made from a scalar and from the lane numbers (R111) -/

theorem exec_vdup_ready {w : VForm} {s : State} (h : Ready s 0 [w.a.toNat] []) :
    exec (.vdup w) s = .next (s.fly (vecRec w.v w.v (s.core.vPhys w.v w.d) (s.core.rdQ w.m.toNat)
      (lanes.map fun _ => ((S s w.a).toNat % 2 ^ vWidth w.t, (0 : Fl))) 3 (vWord (.vdup w)))) := by
  obtain ⟨-, hpend, hdef⟩ := h
  show finish (runVdup w s s) = _
  unfold runVdup
  rw [scoreboard_ok s [w.a.toNat] hpend, deferredOf_ok s _ hdef]
  rfl

theorem exec_viota (w : VForm) (s : State) :
    exec (.viota w) s = .next (s.fly (vecRec w.v w.v (s.core.vPhys w.v w.d) (s.core.rdQ w.m.toNat)
      (lanes.map fun l => (if w.u = 1 then ((List.range l).filter fun k => (s.core.rdQ w.m.toNat).getLsbD k).length else l, (0 : Fl)))
      3 (vWord (.viota w)))) := rfl

/-! ### Accumulator rows (R114, R357) -/

/-- The accumulator that VACC's field names: its four low bits stand apart. -/
theorem accumulator_toNat (a : BitVec 6) : (a.extractLsb' 4 2).toNat = a.toNat / 16 := by
  rw [BitVec.extractLsb'_toNat, Nat.shiftRight_eq_div_pow]
  omega

theorem runVacc_sound {w : VForm} {s : State} (h : sget false s.eng.accBad (w.a.toNat / 16 * 64 + w.b.toNat) = false) :
    runVacc w s s = .ok (s.fly { vecRec w.v w.v (s.core.vPhys w.v w.d) (s.core.rdQ w.m.toNat)
        (lanes.map fun l => ((sget 0 s.eng.acc ((w.a.toNat / 16 * 64 + w.b.toNat) * 64 + l)).toNat, (0 : Fl))) 4 (vWord (.vacc w))
      with acc := some (w.a.toNat / 16 * 64 + w.b.toNat) }) := by
  simp only [runVacc, accumulator_toNat, h]
  rfl

theorem runVacc_poisoned {w : VForm} {s : State} (h : sget false s.eng.accBad (w.a.toNat / 16 * 64 + w.b.toNat) = true) :
    runVacc w s s = .error (.trap 7 0x30 (BitVec.ofNat 64 (w.a.toNat / 16 + 256 * w.b.toNat)) noStage s) := by
  simp only [runVacc, accumulator_toNat, h, if_true, Nat.mul_comm w.b.toNat]

end Sys2Proof.Machine
end

section

open Sys2Proof Sys2Proof.Machine Sys2Proof.Claim

/-- Settles O37: each instruction sends off one result, and its lanes are those of the source. -/
theorem vectorMoves : Obligations.VectorMoves := by
  unfold Obligations.VectorMoves
  refine ⟨fun e he w s _ h => ?_, fun c => rfl, fun w s _ h => ?_, fun w s _ => ?_, fun w s row _ hrow => ⟨fun h => ?_, fun h => ?_⟩⟩
  · obtain ⟨rs, hexec, hrs⟩ := exec_move he h
    exact flies_of_exec hexec (encode_move he w) hrs
  · exact flies_of_exec (exec_vdup_ready h) rfl fun l hl _ => getD_map_lanes _ _ hl
  · exact flies_of_exec (exec_viota w s) rfl fun l hl _ => getD_map_lanes _ _ hl
  · subst hrow
    refine ⟨_, _, congrArg finish (runVacc_sound h), fly_vfly s _, rfl, rfl, rfl, rfl, rfl, rfl, rfl, fun l hl => ⟨?_, ?_⟩,
      fly_onlyFlight s _, fly_srcnt s _⟩
    · refine (getD_map_data _ l).trans ?_
      rw [getD_map_lanes _ _ hl]
      exact (BitVec.ofNat_toNat 32 _).trans (BitVec.setWidth_eq _)
    · exact (getD_map_flags _ l).trans (congrArg Prod.snd (getD_map_lanes _ _ hl))
  · subst hrow
    exact congrArg finish (runVacc_poisoned h)

end

section
/-! PROOFS. Control registers and counters (R151 to R154, R163 to R165): what each number reads and takes, and what the ready
instructions do with it. -/

namespace Sys2Proof.Machine

open Sys2Proof.Safety Sys2Proof.Claim

/-! ### STATUS (R152) -/

theorem ite_eq_toNat_mul (b : Bool) (n : Nat) : (if b then n else 0) = b.toNat * n := by cases b <;> simp

theorem getLsbD_of_div_mod {n k : Nat} {v : BitVec n} {b : Bool} (h : v.toNat / 2 ^ k % 2 = b.toNat) : v.getLsbD k = b := by
  rw [← BitVec.testBit_toNat, Nat.testBit_eq_decide_div_mod_eq, h]
  cases b <;> rfl

/-- The word of STATUS as the sum of its fields: they have 17 bits together, so nothing is cut off. -/
theorem statusWord_toNat (owed : Nat) (loops xfer unparked clk lvl : Bool) :
    (BitVec.ofNat 64 (owed % 128 * 2 ^ 10 + (if loops then 2 ^ 9 else 0) + (if xfer then 2 ^ 8 else 0) + (if unparked then 0 else 2 ^ 7)
      + (if clk then 2 else 0) + (if lvl then 1 else 0))).toNat
    = owed % 128 * 1024 + loops.toNat * 512 + xfer.toNat * 256 + (!unparked).toNat * 128 + clk.toNat * 2 + lvl.toNat := by
  have hparked : (if unparked then 0 else 2 ^ 7) = (!unparked).toNat * 128 := by cases unparked <;> rfl
  have hloops := loops.toNat_le
  have hxfer := xfer.toNat_le
  have hp := (!unparked).toNat_le
  have hclk := clk.toNat_le
  have hlvl := lvl.toNat_le
  rw [hparked, ite_eq_toNat_mul, ite_eq_toNat_mul, ite_eq_toNat_mul, ite_eq_toNat_mul, BitVec.toNat_ofNat, Nat.mod_eq_of_lt (by omega)]
  omega

theorem Core.status_toNat (c : Core) : c.status.toNat
    = c.tstate.elim 0 (·.owed) % 128 * 1024 + (c.tstate.elim false (·.loop.isSome)).toNat * 512
      + (c.tstate.elim false (·.xfer.isSome)).toNat * 256 + (!c.parkedReal.isEmpty).toNat * 128 + c.clk.toNat * 2 + c.lvl.toNat := by
  unfold Core.status
  cases c.tstate with
  | none => exact statusWord_toNat _ _ _ _ _ _
  | some t => exact statusWord_toNat _ _ _ _ _ _

theorem Core.status_fields (c : Core) :
    c.status.getLsbD 0 = c.lvl ∧ c.status.getLsbD 1 = c.clk ∧ c.status.getLsbD 7 = !c.parkedReal.isEmpty
      ∧ c.status.getLsbD 8 = c.tstate.elim false (·.xfer.isSome)
      ∧ c.status.getLsbD 9 = c.tstate.elim false (·.loop.isSome)
      ∧ c.status.toNat / 2 ^ 10 = c.tstate.elim 0 (·.owed) % 128 ∧ c.status.toNat / 4 % 32 = 0 := by
  have hsum := c.status_toNat
  have hlvl := c.lvl.toNat_le
  have hclk := c.clk.toNat_le
  have hparked := (!c.parkedReal.isEmpty).toNat_le
  have hxfer := (c.tstate.elim false (·.xfer.isSome)).toNat_le
  have hloop := (c.tstate.elim false (·.loop.isSome)).toNat_le
  exact ⟨getLsbD_of_div_mod (by omega), getLsbD_of_div_mod (by omega), getLsbD_of_div_mod (by omega), getLsbD_of_div_mod (by omega),
    getLsbD_of_div_mod (by omega), by omega, by omega⟩

/-! ### Numbers: who may access them, what they read (R151) -/

theorem Core.ctlPriv_of_le (c : Core) {n : Nat} (h : n ≤ 0x14) : c.ctlPriv n = false := by
  simp [Core.ctlPriv]; omega
theorem Core.ctlPriv_of_handler {c : Core} {n : Nat} (hl : c.lvl = true) (h : 0x30 ≤ n) : c.ctlPriv n = false := by
  simp [Core.ctlPriv, hl]; omega

theorem control_some {n : Nat} {c : Core} {v : BitVec 64} (h : Claim.control n c = some v) : n ≤ 0x14 ∧ c.ctl n = v := by
  unfold Claim.control at h
  split at h <;> cases h <;> exact ⟨by decide, rfl⟩

/-- GB48 to GB63 are the group bank's registers of the same number, read without their deferred-access records (log 31). -/
theorem Core.ctl_of_ge (c : Core) {n : Nat} (h : 0x30 ≤ n) : c.ctl n = sget 0 c.s n := by
  unfold Core.ctl
  split
  case h_22 => rw [if_pos h, Nat.add_sub_cancel' h]
  all_goals omega

/-! ### RDCTL, RDCAUSE and RDCNT (R163 to R165) -/

/-- A privileged form that the level allows is run like any other. -/
theorem finish_allowed {priv : Bool} (hp : priv = false) (guard : Bool) (stop run : Res) :
    finish (if guard && priv then stop else run) = finish run := by
  rw [hp, Bool.and_false]
  rfl

section Reads

variable {w : RForm} {s : State}

theorem exec_rdctl_ready (h : RdyS s w.p [] [w.d]) (hp : s.core.ctlPriv w.a.toNat = false) :
    exec (.rdctl w) s = .next (put s w.d (s.core.ctl w.a.toNat)) :=
  (finish_allowed hp _ _ _).trans (finish_sSlot_onCore h rfl)

theorem exec_rdcause_ready (h : RdyS s w.p [] [w.d]) (hl : s.core.lvl = true) :
    exec (.rdcause w) s = .next (s.onCore fun c => { c.wrS w.d.toNat c.cause with clk := false }) :=
  (finish_allowed (congrArg not hl) _ _ _).trans (finish_sSlot_ready h _)

theorem exec_rdcause_group (hg : s.core.rdP w.p.toNat = true) (hl : s.core.lvl = false) :
    exec (.rdcause w) s = .next (s.takeTrap 0x04 ((sWord (.rdcause w)).zeroExtend 64) noStage false) := by
  show finish (runRdcause w s) = _
  rw [runRdcause, hg, hl]
  rfl

theorem exec_rdcnt_ready (h : RdyS s w.p [] [w.d]) :
    exec (.rdcnt w) s = .next (put s w.d
      (s.core.rdCnt w.a.toNat + (if w.a.toNat = 1 ∨ w.a.toNat = 2 then 1 else 0))) := finish_sSlot_ready h _

end Reads

/-! ### What WRCTL takes and writes (R151, R153, R154) -/

section Writes

variable (c : Core) {n : Nat} (v : BitVec 64)

/-- Each row of the statement is the number's rule in the model: R153's values and what is written. -/
theorem controlWrites_row {e : Nat × (BitVec 64 → Prop) × (BitVec 64 → Core → Core)} (he : e ∈ controlWrites) :
    e.1 ≤ 0x14 ∧ (c.ctlBad e.1 v = false ↔ e.2.1 v) ∧ c.setCtl e.1 v = e.2.2 v c := by
  simp only [controlWrites, List.mem_cons, List.not_mem_nil, or_false] at he
  rcases he with rfl | rfl | rfl | rfl | rfl | rfl | rfl | rfl
  · -- THB
    exact ⟨by decide, Iff.rfl, congrArg (fun b => { c with thb := b }) (BitVec.setWidth_eq_extractLsb' (by decide)).symm⟩
  · -- VWA
    exact ⟨by decide, iff_of_true rfl trivial, rfl⟩
  · -- VWB
    exact ⟨by decide, iff_of_true rfl trivial, rfl⟩
  · -- VRM
    refine ⟨by decide, ?_, rfl⟩
    simp [Core.ctlBad, vrmOk, BitVec.extractLsb'_toNat]
  · -- SEED
    exact ⟨by decide, iff_of_true rfl trivial, rfl⟩
  · -- QMODE
    exact ⟨by decide, iff_of_true rfl trivial, congrArg (fun b => { c with qmode := b }) (BitVec.setWidth_eq_extractLsb' (by decide)).symm⟩
  · -- RBOUND
    refine ⟨by decide, ?_, rfl⟩
    show (v == 0 || decide (65536 < v.toNat)) = false ↔ 1 ≤ v.toNat ∧ v.toNat ≤ 65536
    rw [Bool.or_eq_false_iff, beq_eq_false_iff_ne, decide_eq_false_iff_not, Ne, ← BitVec.toNat_inj]
    show ¬v.toNat = 0 ∧ _ ↔ _
    omega
  · -- CHASELIM, of which bits [31:0] alone are taken (log 33)
    refine ⟨by decide, ?_, congrArg (fun b => { c with chaselim := b }) (BitVec.setWidth_eq_extractLsb' (by decide)).symm⟩
    simp [Core.ctlBad]

theorem Core.readOnly_ignored (h : n ≤ 0x03 ∨ (0x0D ≤ n ∧ n ≤ 0x14)) : c.ctlBad n v = false ∧ c.setCtl n v = c := by
  have hn : n = 0 ∨ n = 1 ∨ n = 2 ∨ n = 3 ∨ n = 0x0D ∨ n = 0x0E ∨ n = 0x0F ∨ n = 0x10 ∨ n = 0x11 ∨ n = 0x12 ∨ n = 0x13 ∨ n = 0x14 := by
    omega
  rcases hn with rfl | rfl | rfl | rfl | rfl | rfl | rfl | rfl | rfl | rfl | rfl | rfl <;> exact ⟨rfl, rfl⟩

theorem Core.tpc_ignored_group (hl : c.lvl = false) : c.ctlBad 0x04 v = false ∧ c.setCtl 0x04 v = c := by
  simp [Core.ctlBad, Core.setCtl, hl]

theorem Core.tpc_taken_handler (hl : c.lvl = true) (hv : v.toNat % 4 = 0) :
    c.ctlBad 0x04 v = false ∧ c.setCtl 0x04 v = { c with
      tpc := v.setWidth 32, tstate := c.tstate.map fun x => { x with owed := 0 } } := by
  have hlow : v.extractLsb' 0 2 = 0 := BitVec.eq_of_toNat_eq (by simpa [BitVec.extractLsb'_toNat] using hv)
  simp [Core.ctlBad, Core.setCtl, hl, hlow, BitVec.setWidth_eq_extractLsb']

theorem Core.groupBank_taken (h : 0x30 ≤ n) :
    c.ctlBad n v = false ∧ c.setCtl n v = { c with s := sset 0 c.s n v, defrec := sset none c.defrec n none } := by
  constructor
  · unfold Core.ctlBad
    split
    case h_6 => rfl
    all_goals omega
  · unfold Core.setCtl
    split
    case h_10 => rw [if_pos h, Nat.add_sub_cancel' h, Core.wrIdx, if_neg (by omega)]
    all_goals omega

end Writes

section Wrctl

variable {w : RForm} {s : State} (h : RdyS s w.p [w.a] []) (hp : s.core.ctlPriv w.d.toNat = false)
include h hp

theorem exec_wrctl_taken {g : Core → Core} (ht : s.core.ctlBad w.d.toNat (S s w.a) = false ∧ s.core.setCtl w.d.toNat (S s w.a) = g s.core) :
    exec (.wrctl w) s = .next (s.onCore g) := by
  obtain ⟨hb, hg⟩ := ht
  refine ((finish_allowed hp _ _ _).trans (finish_sSlot_ready h _)).trans ?_
  dsimp only
  rw [hb, State.onCore, hg]
  rfl

theorem exec_wrctl_forbidden (hb : s.core.ctlBad w.d.toNat (S s w.a) = true) :
    exec (.wrctl w) s = .next (s.takeTrap 0x02 ((sWord (.wrctl w)).zeroExtend 64) noStage false) := by
  refine ((finish_allowed hp _ _ _).trans (finish_sSlot_ready h _)).trans ?_
  dsimp only
  rw [hb]
  rfl

end Wrctl

end Sys2Proof.Machine

namespace Sys2Proof.Claim

open Sys2Proof Sys2Proof.Machine

/-! ### The words of RDCAUSE (R163) -/

theorem decodeS_rdcause {w e : BitVec 32} (ho : opcode w = 0x72) : decodeS w e = noX w (.rdcause (parseR w)) := by
  rw [decodeS, opOf_toNat, ho]; rfl

theorem rejected_rdcause {w e : BitVec 32} (ho : opcode w = 0x72) (h : bits w 0 14 ≠ 0) : Rejected (decodeS w e) := by
  have hfields : bits w 8 6 ≠ 0 ∨ bits w 2 6 ≠ 0 ∨ bits w 0 2 ≠ 0 := by unfold bits at h ⊢; omega
  rw [decodeS_rdcause ho]
  refine rejected_noX (.inr ?_)
  rcases hfields with ha | hb | hf
  · simp only [Instr.wf, RForm.za, parseR, field_ne_zero ha, Bool.false_and]
  · simp only [Instr.wf, RForm.zb, parseR, field_ne_zero hb, Bool.false_and, Bool.and_false]
  · simp only [Instr.wf, RForm.zf, parseR, field_ne_zero hf, Bool.and_false]

end Sys2Proof.Claim
end

section

open Sys2Proof Sys2Proof.Machine Sys2Proof.Safety Sys2Proof.Claim

/-- Settles O20, by what each number reads and takes, and by the fields of STATUS. -/
theorem controlRegisters : Obligations.ControlRegisters := by
  unfold Obligations.ControlRegisters
  refine ⟨⟨fun w s v h hv => ?_, fun w s h ha => ?_, fun w s h hl ha => ?_, fun w s h hl => exec_rdcause_ready h hl,
    fun w s hg hl => exec_rdcause_group hg hl, rfl, fun w e ho h => refused_of_rejected (rejected_rdcause ho h),
    fun w s h _ => exec_rdcnt_ready h⟩, fun e he w s h hd => ?_, fun w s h hd => ?_, fun w s h hd hl => ?_, fun w s h hd hl hv => ?_,
    fun w s h hl hd => ?_⟩
  · obtain ⟨hn, rfl⟩ := control_some hv
    exact exec_rdctl_ready h (s.core.ctlPriv_of_le hn)
  · refine ⟨s.core.status, ?_, ?_⟩
    · rw [exec_rdctl_ready h (s.core.ctlPriv_of_le (by omega)), ha]
      rfl
    · have hfields := s.core.status_fields
      cases ht : s.core.tstate with
      | none => simpa only [ht, Option.elim_none] using hfields
      | some t => simpa only [ht, Option.elim_some] using hfields
  · rw [← s.core.ctl_of_ge ha]
    exact exec_rdctl_ready h (Core.ctlPriv_of_handler hl ha)
  · obtain ⟨hn, hok, hset⟩ := controlWrites_row s.core (S s w.a) he
    rw [← hd] at hn hok hset
    have hp := s.core.ctlPriv_of_le hn
    exact ⟨fun hv => exec_wrctl_taken h hp ⟨hok.mpr hv, hset⟩,
      fun hv => exec_wrctl_forbidden h hp (eq_true_of_ne_false (mt hok.mp hv))⟩
  · exact exec_wrctl_taken h (s.core.ctlPriv_of_le (by omega)) (g := id) (s.core.readOnly_ignored _ hd)
  · exact exec_wrctl_taken h (s.core.ctlPriv_of_le (by omega)) (g := id) (hd ▸ s.core.tpc_ignored_group _ hl)
  · exact exec_wrctl_taken h (s.core.ctlPriv_of_le (by omega)) (hd ▸ s.core.tpc_taken_handler _ hl hv)
  · exact exec_wrctl_taken h (Core.ctlPriv_of_handler hl hd) (s.core.groupBank_taken _ hd)

end
